-- ==== Sys2Proof/Word.lean ====
section
/-! DEFINITION. The two widths the spec's values have: bytes (`u8`) and 32-bit words (`u32`), 00_scope R9. -/

namespace Sys2Proof

/-- A `u8`. -/
abbrev Byte := BitVec 8

/-- A `u32`; all arithmetic on it is modulo 2^32 (00_scope R9). -/
abbrev Word := BitVec 32

end Sys2Proof
end

