-- ==== Sys2Proof/Machine/Bytes.lean ====
section
/-! DEFINITION. Byte strings and words: `LE32`, `BE32` and their inverses (00_scope R10), fixed-size byte strings, and the
record ids as the `u32` their four bytes read as (30_encoding R90, R91). -/

namespace Sys2Proof

/-- `LE32(b)` of the four bytes in address order (00_scope R10). -/
def le32Of (b0 b1 b2 b3 : Byte) : Word := b3 ++ b2 ++ b1 ++ b0

/-- `BE32(b)` of the four bytes in address order (00_scope R10). -/
def be32Of (b0 b1 b2 b3 : Byte) : Word := b0 ++ b1 ++ b2 ++ b3

/-- Byte `i` of a byte string. Every use reads inside the string. -/
def byteAt (b : List Byte) (i : Nat) : Byte := b.getD i 0

/-- `LE32` of the first four bytes of a string. -/
def le32At (b : List Byte) (i : Nat) : Word :=
  le32Of (byteAt b i) (byteAt b (i + 1)) (byteAt b (i + 2)) (byteAt b (i + 3))

/-- `BE32` of the four bytes of a string at `i`. -/
def be32At (b : List Byte) (i : Nat) : Word :=
  be32Of (byteAt b i) (byteAt b (i + 1)) (byteAt b (i + 2)) (byteAt b (i + 3))

/-- `le32(v)`: four bytes, least significant first (00_scope R10). -/
def le32 (v : Word) : List Byte :=
  [v.extractLsb' 0 8, v.extractLsb' 8 8, v.extractLsb' 16 8, v.extractLsb' 24 8]

/-- `be32(v)`: four bytes, most significant first (00_scope R10). -/
def be32 (v : Word) : List Byte :=
  [v.extractLsb' 24 8, v.extractLsb' 16 8, v.extractLsb' 8 8, v.extractLsb' 0 8]

/-- The first `n` bytes of a string as a string of fixed size. -/
def fixedBytes (n : Nat) (b : List Byte) : Vector Byte n :=
  ⟨⟨(b ++ List.replicate n 0).take n⟩, by simp⟩

namespace RecordId

/-- `CHNK` = 43 48 4E 4B (30_encoding R90). -/
def chnk : Word := 0x4B4E4843
/-- `vers` = 76 65 72 73. -/
def vers : Word := 0x73726576
/-- `size` = 73 69 7A 65. -/
def size : Word := 0x657A6973
/-- `data` = 64 61 74 61. -/
def data : Word := 0x61746164
/-- `dest` = 64 65 73 74. -/
def dest : Word := 0x74736564
/-- `md5_` = 6D 64 35 5F. -/
def md5 : Word := 0x5F35646D
/-- `sha2` = 73 68 61 32. -/
def sha2 : Word := 0x32616873
/-- `cr32` = 63 72 33 32. -/
def cr32 : Word := 0x32337263
/-- `encm` = 65 6E 63 6D. -/
def encm : Word := 0x6D636E65

/-- The eight recognised chunk option ids (30_encoding R91). -/
def chunkIds : List Word := [vers, size, data, dest, md5, sha2, cr32, encm]

end RecordId

end Sys2Proof
end

