-- ==== Sys2Proof/Config.lean ====
section
/-! DEFINITION. The parameters of 00_scope R8: the ones 92_eei_decisions marks OPEN and a value of plain data can hold as the
record `Params` that `State` carries, the others as named constants, and the free values (`any` of 00_scope R11) as constants
with no body. -/

namespace Sys2Proof

/-- The backing store of the image (20_memory R52). -/
inductive Store where
  | ram
  | file
  deriving DecidableEq, Repr

/-- The byte order of a cipher block word in memory (43_blowfish R190, `BF_BLOCK_ORDER`). -/
inductive ByteOrder where
  | be
  | le
  deriving DecidableEq, Repr

/-- A run of `size` addresses from `base`. -/
structure Region where
  base : Nat
  size : Nat
  deriving DecidableEq, Repr

/-- The open parameters of 00_scope R8 (10_state R40: not state). They stand in `State` because `exec` and `step`
take no other argument; no operation and no reset writes them. -/
structure Params where
  /-- `AW`, the address width in bits (20_memory R51). -/
  addressWidth : Nat
  /-- `READABLE`. -/
  readable : List Region
  /-- `WRITABLE`; only its part inside `READABLE` counts. DEDUCED, log entry 32: safe. -/
  writable : List Region
  /-- `KEY`, the symmetric key of DECRYPT (43_blowfish R191). -/
  key : List Byte
  /-- `STORE`. -/
  store : Store
  /-- `BF_BLOCK_ORDER`. -/
  blockOrder : ByteOrder
  /-- `BOOTLIMIT`, which the host compares the boot count with (45_bootstate R226). -/
  bootLimit : Nat
  /-- `IDX_UPDATE`, the index of the `update` flag (45_bootstate R211). -/
  idxUpdate : Fin 8
  /-- `IDX_FAIL`, the index of the `fail` flag. -/
  idxFail : Fin 8
  /-- `IDX_SWRESET`, the index of the `swreset-request` flag; no operation is defined through it. -/
  idxSwreset : Fin 8
  deriving DecidableEq, Repr

namespace Config

/-- `MAGIC`: the bytes of "S800_UPD" (30_encoding R84). -/
def magic : List Byte := [0x53, 0x38, 0x30, 0x30, 0x5F, 0x55, 0x50, 0x44]

/-- `MAX_FMT_VERSION` (41_validator R144). -/
def maxFmtVersion : Nat := 1

/-- `MAX_OPT_PAYLOAD` (40_parser R118). -/
def maxOptPayload : Nat := 512

/-- `HDR_SIZE`, the size of the global header (30_encoding R84). -/
def hdrSize : Nat := 40

/-- `CRC_CALC_OFFSET` (41_validator R145). -/
def crcCalcOffset : Nat := 20

/-- `PBSR_ADDR`, the bus address of the persistent register: open, and no rule uses it (10_state R30). Log entry 31. -/
opaque pbsrAddr : Nat

/-! Free values. The first argument is the number of the draw, which `State.draws` counts; the second tells apart
the words or bytes of one draw. Nothing in Lean constrains them. DESIGN CHOICE, log entry 11: safe. -/

/-- An `any(u32)`. -/
opaque freeWord (draw slot : Nat) : Word

/-- An `any(u8)`. -/
opaque freeByte (draw slot : Nat) : Byte

/-- An unconstrained bit: whether a read of the file store fails (20_memory R52), whether a register write had landed
when a reset struck (70_reset R284), whether a name outside its domain compares equal (log entry 18). -/
opaque freeBool (draw : Nat) : Bool

/-- A free value below 2^32 - 1; one more than it is any non-zero `u32` (41_validator R148). -/
opaque freeBelowMax (draw : Nat) : Fin 4294967295

/-- A byte string of any length and content: an operand latch after a reset. -/
opaque freeString (draw slot : Nat) : List Byte

/-- An address of any size: an operand latch after a reset. -/
opaque freeAddress (draw slot : Nat) : Nat

/-- The bytes of memory after a reset, as a list of cells; finite, which any content of 2^AW bytes is. -/
opaque freeCells (draw : Nat) : List (Nat × BitVec 8)

end Config

end Sys2Proof
end

