-- ==== Sys2Proof/Syntax.lean ====
section
/-! DEFINITION. The instructions: one constructor per row of spec/opcode_table.json. Level 1 is the host's operations
(30_encoding R83), level 2 the records of the image that the walker interprets (30_encoding R90, R91). Also the shapes
an instruction has before it is decoded: the operand latches, the command word, the two dispatch tables. -/

namespace Sys2Proof

/-- What one operand latch holds (10_state R23): an address, which is a natural number (20_memory R51); a `u32`, which also spells
a `u8`, a flag index or a bit; or a byte string, which is a destination name or a key. DESIGN CHOICE, log entry 4. -/
inductive Operand where
  | addr (a : Nat)
  | num (n : Word)
  | str (b : List Byte)
  deriving DecidableEq, Repr

/-- `ARG[0..2]` (10_state R23). -/
structure Args where
  a0 : Operand
  a1 : Operand
  a2 : Operand
  deriving DecidableEq, Repr

/-- A command word `CMD[7:0]` with its operands (30_encoding R81). -/
structure Command where
  code : Byte
  args : Args
  deriving DecidableEq, Repr

/-- The two dispatch tables of the walker (30_encoding R80): `GOPT` rows and `COPT` rows of the opcode table. -/
inductive Dispatch where
  | globalOption
  | chunkOption
  deriving DecidableEq, Repr

/-- One constructor per row of spec/opcode_table.json. A record's `length` is its second word; its payload stays in memory,
at `cur + 8`, and the record's meaning reads it there. -/
inductive Instr where
  | magic (base : Nat)
  | valid (base : Nat) (maxSize : Word)
  | globver (base : Nat)
  | chnknum (base : Nat)
  | chnkhdrD (base : Nat) (name : List Byte)
  | decrypt (addr : Nat) (len : Word)
  | errstate
  | chnkhdrN (base : Nat) (k : Word)
  | fwupClearUpdate
  | fwupClearFail
  | fwupSetUpdate
  | fwupSetFail
  | fwupFlags
  | fwupUpdate
  | fwupFail
  | fwupUsbUpdateReq
  | fwupIncbootcnt
  | fwupBootcnt
  | fwupMtdparts
  | flagWr (index bit : Word)
  | flagRd (index : Word)
  | flagsClr
  | bcntWr (n : Word)
  | bcntRd
  | bfInit (key : List Byte)
  | bfEnc (xl xr : Word)
  | bfDec (xl xr : Word)
  | crc32 (addr : Nat) (len : Word)
  | md5 (addr : Nat) (len : Word)
  | sha256 (addr : Nat) (len : Word)
  | chnk (length : Word)
  | goptOther (id length : Word)
  | versOpt (length : Word)
  | sizeOpt (length : Word)
  | dataOpt (length : Word)
  | destOpt (length : Word)
  | md5Opt (length : Word)
  | sha2Opt (length : Word)
  | cr32Opt (length : Word)
  | encmOpt (length : Word)
  | coptOther (id length : Word)
  deriving DecidableEq, Repr

end Sys2Proof
end

