-- ==== Sys2Proof/Machine/State.lean ====
section
/-! DEFINITION. The state of the machine (10_state R21), the reasons a step can stop, and the state after reset. -/

namespace Sys2Proof.Machine

/-- Four `u32`: major, minor, commit-count, git-hash (30_encoding R85). -/
structure Version where
  major : Word
  minor : Word
  commitCount : Word
  gitHash : Word
  deriving DecidableEq, Repr

/-- A decoded chunk group (10_state R26). A field means something only when its bit of `hdrFlag` is set (R29). -/
structure ChunkHeader where
  hdrFlag : Word
  version : Version
  size : Word
  data : Word
  dest : Vector Byte 32
  md5 : Vector Byte 16
  sha256 : Vector Byte 32
  crc32 : Word
  encryptionMethod : Word
  deriving DecidableEq, Repr

/-- `RES.*` (10_state R25). -/
structure Results where
  version : Version
  count : Word
  hdr : ChunkHeader
  index : Word
  len : Word
  bit : BitVec 1
  flags : Byte
  bootcnt : Byte
  xl : Word
  xr : Word
  crc : Word
  md5 : Vector Byte 16
  sha : Vector Byte 32
  deriving DecidableEq, Repr

/-- The Blowfish subkey file: `P[0..17]` and `S[0..3][0..255]` (10_state R34). -/
structure Subkeys where
  p : Vector Word 18
  s : Vector (Vector Word 256) 4
  deriving DecidableEq, Repr

/-- MD5's working registers (42_digest_engines R165). -/
structure Md5Regs where
  a0 : Word
  b0 : Word
  c0 : Word
  d0 : Word
  deriving DecidableEq, Repr

/-- SHA-256's working registers `H[0..7]` (42_digest_engines R170). -/
structure ShaRegs where
  h0 : Word
  h1 : Word
  h2 : Word
  h3 : Word
  h4 : Word
  h5 : Word
  h6 : Word
  h7 : Word
  deriving DecidableEq, Repr

/-- The digest engines' working registers (10_state R36): the accumulator, the bytes still to be taken in, and for the
two hashes the length counter. They mean something only inside one invocation; `idle` is the value between two. -/
inductive Engine where
  | idle
  | crc32 (crc : Word) (buffer : List Byte)
  | md5 (regs : Md5Regs) (buffer : List Byte) (count : Nat)
  | sha256 (regs : ShaRegs) (buffer : List Byte) (count : Nat)
  deriving DecidableEq, Repr

/-- The operation a walk belongs to: CHNKNUM's scan or CHNKHDR.N's walk. CHNKHDR.D and VALID run these. -/
inductive Job where
  | count
  | header
  deriving DecidableEq, Repr

/-- The loop the walker is in (40_parser R132): CHNKNUM's search of the global options (R113), CHNKHDR.N's skip over
them, the records of a chunk group (R116). -/
inductive Phase where
  | find
  | skip
  | group
  deriving DecidableEq, Repr

/-- The walker's working state (10_state R21, R22): alive only inside a walker or validator operation. -/
structure Walk where
  job : Job
  phase : Phase
  base : Nat
  /-- The cursor, the block's program counter: a natural number that never wraps (10_state R22). -/
  cur : Nat
  /-- Index of the record at the cursor in the loop at hand (`i` or `j` of 40_parser R113, R116). -/
  j : Nat
  /-- Bound of the loop at hand (`n` or `cnt`). -/
  cnt : Nat
  /-- Number of the chunk group at hand, from 1; 0 before the first. -/
  c : Nat
  /-- The chunk number asked for. -/
  k : Nat
  /-- The chunk count `N`, once a `CHNK` record has been met. -/
  found : Option Word
  /-- The chunk header being built. -/
  hdr : ChunkHeader
  deriving DecidableEq, Repr

/-- `MEM`: cells with rising addresses, none holding what an unlisted address reads as (Machine/Ops.lean). -/
abbrev Memory := List Host.Cell

/-- The kinds of reset (70_reset R280). -/
inductive ResetKind where
  | powerOn
  | software
  | watchdog
  deriving DecidableEq, Repr

/-- What the agents outside the block do next. DESIGN CHOICE, log entry 1: the schedule of HOST and RESET is a list the step
reads, so that the machine is one function of plain data. -/
inductive Input where
  /-- HOST issues one operation with its operands (10_state R20). -/
  | issue (c : Command)
  /-- An image is staged in `MEM` by means outside the block (70_reset R287). -/
  | stage (addr : Nat) (bytes : List Byte)
  /-- HOST compares the boot count it has read with `BOOTLIMIT` and issues ERRSTATE when it is greater (45_bootstate R226). -/
  | checkBootLimit
  /-- A reset, between operations or, in a state that holds a walk, at that point of the walk (70_reset R281 to R284). -/
  | reset (kind : ResetKind)
  /-- HOST issues an operation and a reset strikes before it ends (70_reset R284). -/
  | resetDuring (kind : ResetKind) (c : Command)
  deriving DecidableEq, Repr

/-- The state of the machine. -/
structure State where
  /-- `PBSR` (10_state R30). -/
  pbsr : Word
  /-- `P` and `S`. -/
  keys : Subkeys
  /-- `BF_READY` (10_state R35). -/
  bfReady : Bool
  /-- `HALT` (10_state R37). -/
  halt : Bool
  /-- `ARG[0..2]` (10_state R23). -/
  arg : Args
  /-- `STATUS`, a signed result code (10_state R24). -/
  status : Word
  /-- `EXIT` (10_state R24). -/
  exit : BitVec 1
  /-- `RES.*` (10_state R25). -/
  res : Results
  /-- The walker's working state; none outside a walk (10_state R22). -/
  walk : Option Walk
  /-- The digest engines' working registers (10_state R36). -/
  engine : Engine
  /-- `MEM` (10_state R38). -/
  mem : Memory
  /-- The open parameters; nothing writes them. -/
  cfg : Params
  /-- The model's own: what the outside agents still do. -/
  inputs : List Input
  /-- The model's own: how many free values have been drawn. -/
  draws : Nat
  deriving DecidableEq, Repr

/-- Why the machine stops at a memory access. -/
inductive Fault where
  /-- A read outside `READABLE` or a write outside `WRITABLE` (60_exceptions R250). Raised by every operation that reads or
  writes `MEM`. Safe: the document defines no result. -/
  | outOfExtent
  /-- The outside staged bytes at an address at or above 2^AW, which does not exist (20_memory R51). Raised by the `stage`
  input. Safe. -/
  | noSuchAddress
  deriving DecidableEq, Repr

/-- Why the machine gives an operation no meaning. -/
inductive Refusal where
  /-- An instruction whose meaning is not written yet: raised in Dispatch.lean only. Safe. -/
  | notModelled (mnemonic : String)
  /-- The host's command word is no operation: raised by the `issue` input. Safe (60_exceptions R251, 30_encoding R97). -/
  | reservedCommand
  /-- An operand latch holds the wrong kind of operand: raised by the `issue` input. Safe. -/
  | operandKind
  /-- Command codes 0x17 and 0x1A, which belong to units outside the block: raised by FWUP.USB_UPDATE_REQ and FWUP.MTDPARTS.
  Safe (30_encoding R97, R102). -/
  | excludedCommand
  /-- `total_length < 20` reaching VALID step 4: raised by VALID. Safe (41_validator R149). -/
  | totalLengthBelowCrcOffset
  /-- DECRYPT's `len` is below 8 or no multiple of 8: raised by DECRYPT. Safe (43_blowfish R194). -/
  | decryptLength
  /-- BF_READY = 0: raised by BF.ENC and BF.DEC. Safe (43_blowfish R186). -/
  | noKeySchedule
  /-- A key of length 0 or above 56: raised by BF.INIT and DECRYPT. Safe (43_blowfish R188). -/
  | keyLength
  /-- A flag index above 7 or a bit above 1: raised by FLAG.WR and FLAG.RD. Safe (45_bootstate R218). -/
  | flagOperand
  /-- A boot count above 255: raised by BCNT.WR. Safe (45_bootstate R218). -/
  | bootcountOperand
  /-- Any operation or host action while HALT = 1: raised by every meaning and by the inputs of the host. Safe
  (60_exceptions R262). -/
  | halted
  /-- CRC32, MD5, SHA256 or DECRYPT on a bare address with STORE = file: raised by those four. Safe (20_memory R52). -/
  | ramStoreOnly
  /-- A record instruction with no walk under way, or in a loop whose dispatch table it is not of: raised by the records.
  Safe: the walker never does this (30_encoding R80). -/
  | noWalk
  deriving DecidableEq, Repr

/-- The four words of a version quad after reset. DESIGN CHOICE 0, log entry 8: unsafe. -/
def Version.zero : Version := ⟨0, 0, 0, 0⟩

/-- A chunk header with every field 0: `RES.HDR` after reset (log entry 8), and what the walker's header register holds
before CHNKHDR.N begins to build one or in a walk that `withFetchWord` places (log entry 36). -/
def ChunkHeader.zero : ChunkHeader :=
  ⟨0, Version.zero, 0, 0, Vector.replicate 32 0, Vector.replicate 16 0, Vector.replicate 32 0, 0, 0⟩

/-- `RES.*` after reset. DESIGN CHOICE 0, log entry 8: unsafe. -/
def Results.zero : Results :=
  ⟨Version.zero, 0, ChunkHeader.zero, 0, 0, 0, 0, 0, 0, 0, 0, Vector.replicate 16 0, Vector.replicate 32 0⟩

/-- `P` and `S` after reset. DESIGN CHOICE 0, log entry 6: unsafe. -/
def Subkeys.zero : Subkeys := ⟨Vector.replicate 18 0, Vector.replicate 4 (Vector.replicate 256 0)⟩

/-- The open parameters of the machine that `State.reset` is: every address of the space readable and writable
(60_exceptions R250 calls that conformant), the shortest key, and the spec's defaults. DESIGN CHOICE, log entry 10: unsafe. -/
def Params.default : Params :=
  { addressWidth := 32
    readable := [⟨0, 2 ^ 32⟩]
    writable := [⟨0, 2 ^ 32⟩]
    key := [0]
    store := .ram
    blockOrder := .be
    bootLimit := 0
    idxUpdate := 0
    idxFail := 1
    idxSwreset := 2 }

/-- The machine right after a power-on reset (10_state R41): HALT and BF_READY are 0, nothing is under way, and what the
spec calls unspecified has the value its log entry names (5 to 10). -/
def State.reset : State :=
  { pbsr := 0
    keys := Subkeys.zero
    bfReady := false
    halt := false
    arg := ⟨.num 0, .num 0, .num 0⟩
    status := 0
    exit := 0
    res := Results.zero
    walk := none
    engine := .idle
    mem := []
    cfg := Params.default
    inputs := []
    draws := 0 }

end Sys2Proof.Machine
end

