-- ==== Sys2Proof/Machine/Ops.lean ====
section
/-! DEFINITION. The named operations the meanings share: memory, free values, the ways an operation ends (60_exceptions R240)
and the three resets (70_reset R281 to R284). -/

namespace Sys2Proof.Machine

/-! ## Memory -/

/-- What an unlisted address reads as. DESIGN CHOICE, log entry 9: unsafe (10_state R41 leaves MEM unspecified). -/
def Memory.background : Byte := 0

/-- Read one byte. -/
def Memory.read : Memory → Nat → Byte
  | [], _ => Memory.background
  | (k, v) :: t, a => if k = a then v else Memory.read t a

/-- Put a cell in its place among cells of rising addresses. -/
def Memory.insert : Memory → Nat → Byte → Memory
  | [], a, b => [(a, b)]
  | (k, v) :: t, a, b => if a < k then (a, b) :: (k, v) :: t else (k, v) :: Memory.insert t a b

/-- Write one byte, keeping the canonical form. -/
def Memory.write (m : Memory) (a : Nat) (b : Byte) : Memory :=
  let rest := m.filter (fun c => c.1 != a)
  if b = Memory.background then rest else Memory.insert rest a b

/-- Write bytes at rising addresses. -/
def Memory.writes : Memory → Nat → List Byte → Memory
  | m, _, [] => m
  | m, a, b :: bs => Memory.writes (Memory.write m a b) (a + 1) bs

/-- The canonical form, for addresses of `aw` bits: addresses strictly rising and below 2^AW, no cell equal to what an unlisted
address reads as. -/
abbrev Memory.wf (aw : Nat) (m : Memory) : Prop :=
  m.Pairwise (fun x y => x.1 < y.1) ∧ ∀ c ∈ m, c.2 ≠ Memory.background ∧ c.1 < 2 ^ aw

/-- The memory a list of cells describes; cells outside the address space describe nothing. -/
def Memory.ofCells (aw : Nat) (cells : List Host.Cell) : Memory :=
  cells.foldl (fun m c => if c.1 < 2 ^ aw then Memory.write m c.1 c.2 else m) []

/-- The `n` bytes of memory from `a`, without any check. -/
def Memory.bytes (m : Memory) : Nat → Nat → List Byte
  | _, 0 => []
  | a, n + 1 => Memory.read m a :: Memory.bytes m (a + 1) n

/-! ## The extent of memory (20_memory R51, R53) -/

/-- The address lies in the region. -/
def Region.has (r : Region) (a : Nat) : Bool := r.base ≤ a && a < r.base + r.size

/-- The address is in `READABLE`; none at or above 2^AW is. -/
def canRead (s : State) (a : Nat) : Bool :=
  a < 2 ^ s.cfg.addressWidth && s.cfg.readable.any (fun r => Region.has r a)

/-- The address is in `WRITABLE`, a subset of `READABLE`. -/
def canWrite (s : State) (a : Nat) : Bool :=
  canRead s a && s.cfg.writable.any (fun r => Region.has r a)

/-- Every address of the run passes the test. -/
def allFrom (ok : Nat → Bool) : Nat → Nat → Bool
  | _, 0 => true
  | a, n + 1 => ok a && allFrom ok (a + 1) n

/-! ## How a part of an operation ends -/

/-- What a part of an operation gives: a value and the state so far, a status raised (00_scope R11, `raise Status`), a fault,
or a refusal. -/
inductive Ran (α : Type) where
  | ok (a : α) (s : State)
  | raised (code : Word) (s : State)
  | fault (r : Fault)
  | refused (r : Refusal)

/-- One part of an operation after another: nothing after a raise, a fault or a refusal runs (00_scope R11). -/
def Ran.bind {α β : Type} : Ran α → (α → State → Ran β) → Ran β
  | .ok a s, f => f a s
  | .raised code s, _ => .raised code s
  | .fault r, _ => .fault r
  | .refused r, _ => .refused r

/-! ## Status codes (60_exceptions R241) -/

/-- The status codes by name. -/
inductive Status where
  | valid
  | magicError
  | totalLengthError
  | formatVersionError
  | crc32Error
  | md5Error
  | sha256Error
  | notFound
  | unknownOption
  | parseError
  | fileIOError
  | decryptError
  deriving DecidableEq, Repr

/-- The number of a status code, as the signed 32-bit value STATUS holds (60_exceptions R241). -/
def Status.code : Status → Word
  | .valid => 0
  | .magicError => -1
  | .totalLengthError => -2
  | .formatVersionError => -3
  | .crc32Error => -4
  | .md5Error => -5
  | .sha256Error => -6
  | .notFound => -7
  | .unknownOption => -8
  | .parseError => -9
  | .fileIOError => -10
  | .decryptError => -11

/-- The classes of the document's error taxonomy (00_scope R14); no rule depends on them. -/
inductive ErrorClass where
  | fileIOError
  | formatError
  | integrityError
  | decryptError
  deriving DecidableEq, Repr

/-- The class of a status code (60_exceptions R242); `Valid` and `NotFound` have none. -/
def Status.class? : Status → Option ErrorClass
  | .valid => none
  | .notFound => none
  | .fileIOError => some .fileIOError
  | .magicError => some .formatError
  | .formatVersionError => some .formatError
  | .unknownOption => some .formatError
  | .parseError => some .formatError
  | .crc32Error => some .integrityError
  | .md5Error => some .integrityError
  | .sha256Error => some .integrityError
  | .totalLengthError => some .integrityError
  | .decryptError => some .decryptError

/-- `raise Status(code)` (00_scope R11). -/
def raise {α : Type} (st : Status) (s : State) : Ran α := .raised st.code s

/-! ## Field updates of the state -/

def State.withPbsr (s : State) (v : Word) : State := { s with pbsr := v }
def State.withKeys (s : State) (v : Subkeys) : State := { s with keys := v }
def State.withReady (s : State) (v : Bool) : State := { s with bfReady := v }
def State.withHalt (s : State) (v : Bool) : State := { s with halt := v }
def State.withArg (s : State) (v : Args) : State := { s with arg := v }
def State.withStatus (s : State) (v : Word) : State := { s with status := v }
def State.withExit (s : State) (v : BitVec 1) : State := { s with exit := v }
def State.withRes (s : State) (v : Results) : State := { s with res := v }
def State.withWalk (s : State) (v : Option Walk) : State := { s with walk := v }
def State.withEngine (s : State) (v : Engine) : State := { s with engine := v }
def State.withMem (s : State) (v : Memory) : State := { s with mem := v }
def State.withInputs (s : State) (v : List Input) : State := { s with inputs := v }
def State.withDraws (s : State) (v : Nat) : State := { s with draws := v }

/-- One more free value has been drawn. -/
def State.drawn (s : State) : State := s.withDraws (s.draws + 1)

/-! ## Free values (00_scope R11, `any(T)`) -/

/-- `n` free bytes of one draw. -/
def freeBytes (n draw slot : Nat) : Vector Byte n :=
  ⟨⟨(List.range n).map (fun i => Config.freeByte draw (slot + i))⟩, by simp⟩

/-- `n` free words of one draw. -/
def freeWords (n draw slot : Nat) : Vector Word n :=
  ⟨⟨(List.range n).map (fun i => Config.freeWord draw (slot + i))⟩, by simp⟩

/-- A free version quad. -/
def freeVersion (draw slot : Nat) : Version :=
  ⟨Config.freeWord draw slot, Config.freeWord draw (slot + 1), Config.freeWord draw (slot + 2), Config.freeWord draw (slot + 3)⟩

/-- A free chunk header. Bits 31 to 8 of the mask are always 0 (10_state R27). DEDUCED, log entry 21: safe. -/
def freeHeader (draw : Nat) : ChunkHeader :=
  { hdrFlag := (Config.freeByte draw 0).setWidth 32
    version := freeVersion draw 0
    size := Config.freeWord draw 4
    data := Config.freeWord draw 5
    dest := freeBytes 32 draw 1
    md5 := freeBytes 16 draw 33
    sha256 := freeBytes 32 draw 49
    crc32 := Config.freeWord draw 6
    encryptionMethod := Config.freeWord draw 7 }

/-- Free result fields (60_exceptions R257). -/
def freeResults (draw : Nat) : Results :=
  { version := freeVersion draw 8
    count := Config.freeWord draw 12
    hdr := freeHeader draw
    index := Config.freeWord draw 13
    len := Config.freeWord draw 14
    bit := (Config.freeByte draw 81).setWidth 1
    flags := Config.freeByte draw 82
    bootcnt := Config.freeByte draw 83
    xl := Config.freeWord draw 15
    xr := Config.freeWord draw 16
    crc := Config.freeWord draw 17
    md5 := freeBytes 16 draw 84
    sha := freeBytes 32 draw 100 }

/-- Free subkeys. -/
def freeSubkeys (draw : Nat) : Subkeys :=
  { p := freeWords 18 draw 1000
    s := ⟨⟨(List.range 4).map (fun k => freeWords 256 draw (2000 + 256 * k))⟩, by simp⟩ }

/-- A free operand latch: an address, a number or a byte string. -/
def freeOperand (draw slot : Nat) : Operand :=
  if (Config.freeByte draw (140 + slot)).getLsbD 0 then .num (Config.freeWord draw (20 + slot))
  else if (Config.freeByte draw (140 + slot)).getLsbD 1 then .addr (Config.freeAddress draw slot)
  else .str (Config.freeString draw slot)

/-- Free operand latches. -/
def freeArgs (draw : Nat) : Args := ⟨freeOperand draw 0, freeOperand draw 1, freeOperand draw 2⟩

/-- A free status code other than 0 (41_validator R148): every non-zero `u32` is one more than a number below 2^32 - 1. -/
def freeNonzeroStatus (draw : Nat) : Word := BitVec.ofNat 32 ((Config.freeBelowMax draw).val + 1)

/-! ## Reads and writes of MEM (00_scope R11, 20_memory R52, R53) -/

/-- The read itself: the bytes, or a fault at the first address outside `READABLE`. -/
def readExtent (a n : Nat) (s : State) : Ran (List Byte) :=
  if allFrom (canRead s) a n then .ok (Memory.bytes s.mem a n) s else .fault .outOfExtent

/-- `MemRead(a, n)`. With STORE = file any read may end the operation with FileIOError, by a free draw (20_memory R52).
DESIGN CHOICE, log entry 16: safe. -/
def memRead (a n : Nat) (s : State) : Ran (List Byte) :=
  match s.cfg.store with
  | .ram => readExtent a n s
  | .file => if Config.freeBool s.draws then raise .fileIOError s.drawn else readExtent a n s.drawn

/-- `Rd32LE(a)`. -/
def rd32LE (a : Nat) (s : State) : Ran Word :=
  (memRead a 4 s).bind fun b s => .ok (le32At b 0) s

/-- `Rd32BE(a)`. -/
def rd32BE (a : Nat) (s : State) : Ran Word :=
  (memRead a 4 s).bind fun b s => .ok (be32At b 0) s

/-- `MemWrite(a, n, v)`. -/
def memWrite (a : Nat) (b : List Byte) (s : State) : Ran Unit :=
  if allFrom (canWrite s) a b.length then .ok () (s.withMem (Memory.writes s.mem a b)) else .fault .outOfExtent

/-! ## How an operation ends -/

/-- A status is raised, the block's exception (60_exceptions R240 (2), R257): STATUS holds the code, EXIT is 1, every `RES`
field is `any`, the walk is over, and everything else is as the operation left it. DEDUCED, log entries 13, 14. -/
def State.failed (s : State) (code : Word) : State :=
  { s with status := code, exit := 1, res := freeResults s.draws, walk := none, engine := .idle, draws := s.draws + 1 }

/-- Success of an operation with no command form: `STATUS <- 0`. EXIT is for operations with a command form (10_state
R24) and keeps its value. DEDUCED, log entry 13: safe. -/
def State.returned (s : State) : State := { s with status := 0 }

/-- Success of an operation with a command form: `STATUS <- 0`, `EXIT <- 0` (30_encoding R100). -/
def State.returnedCommand (s : State) : State := { s with status := 0, exit := 0 }

/-- The end of an operation that tests a flag: `STATUS <- 0`, EXIT is 0 when the flag is 1 (30_encoding R100). -/
def State.returnedTest (s : State) (bit : BitVec 1) : State := { s with status := 0, exit := 1 - bit }

/-- The outcome of an operation from the end of its last part. -/
def endOp (r : Ran Unit) : Host.Outcome State Fault Refusal :=
  match r with
  | .ok _ s => .next s
  | .raised code s => .next (s.failed code)
  | .fault r => .fault r
  | .refused r => .refused r

/-- An instruction runs only while HALT is 0 (60_exceptions R262). -/
def operation (body : State → Ran Unit) (s : State) : Host.Outcome State Fault Refusal :=
  if s.halt then .refused .halted else endOp (body s)

/-! ## Reset (70_reset R280 to R284) -/

/-- Whether the reset keeps PBSR: a warm or watchdog reset does, a power-on reset does not (70_reset R281 to R283). -/
def ResetKind.keepsPbsr : ResetKind → Bool
  | .powerOn => false
  | .software => true
  | .watchdog => true

/-- The state after a reset. HALT and BF_READY become 0; PBSR is kept or becomes `any`; P, S, ARG, STATUS, RES, EXIT and
MEM become `any`. The parameters and what the outside still does are not the block's. Log entries 12, 13. -/
def State.afterReset (kind : ResetKind) (s : State) : State :=
  { pbsr := if kind.keepsPbsr then s.pbsr else Config.freeWord s.draws 18
    keys := freeSubkeys s.draws
    bfReady := false
    halt := false
    arg := freeArgs s.draws
    status := Config.freeWord s.draws 19
    exit := (Config.freeByte s.draws 150).setWidth 1
    res := freeResults s.draws
    walk := none
    engine := .idle
    mem := Memory.ofCells s.cfg.addressWidth (Config.freeCells s.draws)
    cfg := s.cfg
    inputs := s.inputs
    draws := s.draws + 1 }

end Sys2Proof.Machine
end

