-- ==== Sys2Proof/WellFormed.lean ====
section
/-! DEFINITION. Which instructions the encoding tables can spell: operands inside the domains of 30_encoding R83, and a
default-arm record whose id is none of the recognised ones. -/

namespace Sys2Proof

/-- A destination name: 1 to 32 bytes, none of which is 0 (40_parser R130). -/
def nameOk (name : List Byte) : Bool :=
  1 ≤ name.length && name.length ≤ 32 && name.all (· != 0)

/-- A key: 1 to 56 bytes (43_blowfish R188). -/
def keyOk (key : List Byte) : Bool :=
  1 ≤ key.length && key.length ≤ 56

/-- A DECRYPT length: a multiple of 8 and at least 8 (43_blowfish R194). -/
def decryptLenOk (len : Word) : Bool :=
  8 ≤ len.toNat && len.toNat % 8 == 0

namespace Instr

/-- Every operand is in the domain the spec states for it. -/
def wellFormed : Instr → Bool
  | .magic _ => true
  | .valid _ _ => true
  | .globver _ => true
  | .chnknum _ => true
  | .chnkhdrD _ name => nameOk name
  | .decrypt _ len => decryptLenOk len
  | .errstate => true
  | .chnkhdrN _ _ => true
  | .fwupClearUpdate => true
  | .fwupClearFail => true
  | .fwupSetUpdate => true
  | .fwupSetFail => true
  | .fwupFlags => true
  | .fwupUpdate => true
  | .fwupFail => true
  | .fwupUsbUpdateReq => true
  | .fwupIncbootcnt => true
  | .fwupBootcnt => true
  | .fwupMtdparts => true
  | .flagWr index bit => index.toNat ≤ 7 && bit.toNat ≤ 1
  | .flagRd index => index.toNat ≤ 7
  | .flagsClr => true
  | .bcntWr n => n.toNat ≤ 255
  | .bcntRd => true
  | .bfInit key => keyOk key
  | .bfEnc _ _ => true
  | .bfDec _ _ => true
  | .crc32 _ _ => true
  | .md5 _ _ => true
  | .sha256 _ _ => true
  | .chnk _ => true
  | .goptOther id _ => id != RecordId.chnk
  | .versOpt _ => true
  | .sizeOpt _ => true
  | .dataOpt _ => true
  | .destOpt _ => true
  | .md5Opt _ => true
  | .sha2Opt _ => true
  | .cr32Opt _ => true
  | .encmOpt _ => true
  | .coptOther id _ => !(RecordId.chunkIds.contains id)

end Instr

end Sys2Proof
end

