-- ==== Sys2Proof/Machine/Operands.lean ====
section
/-! DEFINITION. The addressing forms of 20_memory R62, the fields of the global header (30_encoding R84), and how a record's
payload becomes a field (30_encoding R89, 40_parser R119). Addresses are natural numbers that never wrap (20_memory R51). -/

namespace Sys2Proof.Machine

/-! ## Header fields: `base + k` -/

/-- `fmt_version` at offset 8. -/
def fmtVersionAddr (base : Nat) : Nat := base + 8
/-- `total_length` at offset 12. -/
def totalLengthAddr (base : Nat) : Nat := base + 12
/-- `crc32`, the global CRC-32, at offset 16. -/
def globalCrcAddr (base : Nat) : Nat := base + 16
/-- The global version quad at offset 20, the first byte of the CRC range. -/
def globalVersionAddr (base : Nat) : Nat := base + 20
/-- `opt_count` at offset 36. -/
def optCountAddr (base : Nat) : Nat := base + 36
/-- The first global option, or the first chunk group when there is none. -/
def firstOptionAddr (base : Nat) : Nat := base + Config.hdrSize

/-! ## Record-relative addresses -/

/-- The address of a record's length word. -/
def recordLengthAddr (cur : Nat) : Nat := cur + 4
/-- The address of a record's payload. -/
def recordPayloadAddr (cur : Nat) : Nat := cur + 8
/-- The address of the next record: `cur + 8 + length`, whatever the record is (40_parser R112). -/
def nextRecordAddr (cur : Nat) (length : Word) : Nat := cur + 8 + length.toNat

/-! ## Chunk payload -/

/-- The address of a chunk's payload: `base + data` (20_memory R62, R63). -/
def chunkPayloadAddr (base : Nat) (data : Word) : Nat := base + data.toNat

/-! ## Payload fields -/

/-- The bytes of a field when the record declares `length` payload bytes: what lies beyond the payload is `any` (40_parser
R119). -/
def cutPayload (length draw : Nat) (bytes : List Byte) : List Byte :=
  bytes.zipIdx.map fun (b, i) => if i < length then b else Config.freeByte draw i

/-- A field of `size` bytes at the payload of a record of the given declared length. The whole field is read, as the record
rules write it, and may fault; a short record then takes one draw for the bytes beyond it. DEDUCED, log entry 15: safe. -/
def readField (p size : Nat) (length : Word) (s : State) : Ran (List Byte) :=
  (memRead p size s).bind fun bytes s =>
    if length.toNat < size then .ok (cutPayload length.toNat s.draws bytes) s.drawn else .ok bytes s

/-- A numeric field: the first four payload bytes, little-endian (30_encoding R89). -/
def readWordField (p : Nat) (length : Word) (s : State) : Ran Word :=
  (readField p 4 length s).bind fun b s => .ok (le32At b 0) s

/-- The version quad at a byte offset of a string (30_encoding R85). -/
def versionAt (b : List Byte) : Version := ⟨le32At b 0, le32At b 4, le32At b 8, le32At b 12⟩

/-- A version-quad field: sixteen payload bytes. -/
def readVersionField (p : Nat) (length : Word) (s : State) : Ran Version :=
  (readField p 16 length s).bind fun b s => .ok (versionAt b) s

/-- A byte-string field of fixed size, copied in address order (20_memory R55). -/
def readBytesField (n p : Nat) (length : Word) (s : State) : Ran (Vector Byte n) :=
  (readField p n length s).bind fun b s => .ok (fixedBytes n b) s

/-! ## Destination names -/

/-- `NameEq(dest, name)` (40_parser R131): the 32-byte field read as a zero-terminated string equals the name. -/
def nameEq (dest : Vector Byte 32) (name : List Byte) : Bool :=
  dest.toList.take name.length == name && (name.length == 32 || byteAt dest.toList name.length == 0)

/-- The comparison CHNKHDR.D makes. For a name outside the domain that 40_parser R130 states the spec gives no result: a
free one, drawn afresh. DESIGN CHOICE, log entry 18: safe. -/
def compareName (dest : Vector Byte 32) (name : List Byte) (s : State) : Bool × State :=
  if nameOk name then (nameEq dest name, s) else (Config.freeBool s.draws, s.drawn)

/-! ## Cipher blocks -/

/-- A word of a cipher block in memory, in the byte order of `BF_BLOCK_ORDER` (43_blowfish R190). -/
def readBlockWord (a : Nat) (s : State) : Ran Word :=
  match s.cfg.blockOrder with
  | .be => rd32BE a s
  | .le => rd32LE a s

/-- The bytes of a cipher block word. -/
def blockWordBytes (order : ByteOrder) (v : Word) : List Byte :=
  match order with
  | .be => be32 v
  | .le => le32 v

/-- Store a word of a cipher block. -/
def writeBlockWord (a : Nat) (v : Word) (s : State) : Ran Unit :=
  memWrite a (blockWordBytes s.cfg.blockOrder v) s

end Sys2Proof.Machine
end

