-- ==== Sys2Proof/Machine/Digest.lean ====
section
/-! DEFINITION. The digest engines CRC32, MD5, SHA256 (42_digest_engines) and the operations that run them. The three
algorithms are PRESUMED by the spec itself (its entries D5, D8, G1 to G3): log entry 24. -/

namespace Sys2Proof.Machine

/-! ## CRC-32 (42_digest_engines R160) -/

/-- One of the eight shifts of a byte step. -/
def crcBit (crc : Word) : Word :=
  if crc.getLsbD 0 then (crc >>> 1) ^^^ 0xEDB88320 else crc >>> 1

/-- `n` shifts. -/
def crcShift : Nat → Word → Word
  | 0, crc => crc
  | n + 1, crc => crcShift n (crcBit crc)

/-- One byte step. -/
def crcByte (crc : Word) (b : Byte) : Word := crcShift 8 (crc ^^^ b.setWidth 32)

/-- Entry `n` of the byte table (42_digest_engines R161). -/
def crcTable (n : Byte) : Word := crcShift 8 (n.setWidth 32)

/-- The byte step in table form (42_digest_engines R161). -/
def crcByteTable (crc : Word) (b : Byte) : Word :=
  crcTable ((crc ^^^ b.setWidth 32).setWidth 8) ^^^ (crc >>> 8)

/-! ## Padding and blocks of the two hashes -/

/-- The eight bytes of a 64-bit value, least significant first. -/
def le64 (v : Nat) : List Byte := (List.range 8).map fun i => BitVec.ofNat 8 (v >>> (8 * i))

/-- The eight bytes of a 64-bit value, most significant first. -/
def be64 (v : Nat) : List Byte := (le64 v).reverse

/-- The least number of zero bytes that fills the last block (42_digest_engines R165). -/
def padZeros (len : Nat) : Nat := (64 - (len + 9) % 64) % 64

/-- The padded message: the message, the byte 0x80, zeros, the message's length in bits. -/
def padMessage (lengthBytes : Nat → List Byte) (m : List Byte) : List Byte :=
  m ++ 0x80 :: List.replicate (padZeros m.length) 0 ++ lengthBytes (8 * m.length)

/-- The first `n` blocks of 64 bytes. -/
def takeBlocks : Nat → List Byte → List (List Byte)
  | 0, _ => []
  | n + 1, b => b.take 64 :: takeBlocks n (b.drop 64)

/-- The blocks of a padded message. -/
def blocks (b : List Byte) : List (List Byte) := takeBlocks (b.length / 64) b

/-- Entry of a constant table; every use is inside it. -/
def tableAt (t : List Word) (i : Nat) : Word := t.getD i 0

/-! ## MD5 (42_digest_engines R165, R166) -/

/-- `K[i]` of MD5 (42_digest_engines R166), entries 0 to 15. -/
def md5K0 : List Word :=
  [0xD76AA478, 0xE8C7B756, 0x242070DB, 0xC1BDCEEE, 0xF57C0FAF, 0x4787C62A, 0xA8304613, 0xFD469501,
   0x698098D8, 0x8B44F7AF, 0xFFFF5BB1, 0x895CD7BE, 0x6B901122, 0xFD987193, 0xA679438E, 0x49B40821]

/-- `K[i]` of MD5 (42_digest_engines R166), entries 16 to 31. -/
def md5K1 : List Word :=
  [0xF61E2562, 0xC040B340, 0x265E5A51, 0xE9B6C7AA, 0xD62F105D, 0x02441453, 0xD8A1E681, 0xE7D3FBC8,
   0x21E1CDE6, 0xC33707D6, 0xF4D50D87, 0x455A14ED, 0xA9E3E905, 0xFCEFA3F8, 0x676F02D9, 0x8D2A4C8A]

/-- `K[i]` of MD5 (42_digest_engines R166), entries 32 to 47. -/
def md5K2 : List Word :=
  [0xFFFA3942, 0x8771F681, 0x6D9D6122, 0xFDE5380C, 0xA4BEEA44, 0x4BDECFA9, 0xF6BB4B60, 0xBEBFBC70,
   0x289B7EC6, 0xEAA127FA, 0xD4EF3085, 0x04881D05, 0xD9D4D039, 0xE6DB99E5, 0x1FA27CF8, 0xC4AC5665]

/-- `K[i]` of MD5 (42_digest_engines R166), entries 48 to 63. -/
def md5K3 : List Word :=
  [0xF4292244, 0x432AFF97, 0xAB9423A7, 0xFC93A039, 0x655B59C3, 0x8F0CCC92, 0xFFEFF47D, 0x85845DD1,
   0x6FA87E4F, 0xFE2CE6E0, 0xA3014314, 0x4E0811A1, 0xF7537E82, 0xBD3AF235, 0x2AD7D2BB, 0xEB86D391]

/-- `K[i]` of MD5 (42_digest_engines R166). -/
def md5K : List Word := md5K0 ++ md5K1 ++ md5K2 ++ md5K3

/-- The shift amounts `s[i]` (42_digest_engines R166). -/
def md5Shift (i : Nat) : Nat :=
  ([[7, 12, 17, 22], [5, 9, 14, 20], [4, 11, 16, 23], [6, 10, 15, 21]].getD (i / 16) []).getD (i % 4) 0

/-- The round function `f` of step `i`. -/
def md5F (i : Nat) (b c d : Word) : Word :=
  if i < 16 then (b &&& c) ||| (~~~b &&& d)
  else if i < 32 then (d &&& b) ||| (~~~d &&& c)
  else if i < 48 then b ^^^ c ^^^ d
  else c ^^^ (b ||| ~~~d)

/-- The word index `g` of step `i`. -/
def md5G (i : Nat) : Nat :=
  if i < 16 then i
  else if i < 32 then (5 * i + 1) % 16
  else if i < 48 then (3 * i + 5) % 16
  else (7 * i) % 16

/-- One step on (A, B', C, D). -/
def md5Step (x : List Word) (r : Md5Regs) (i : Nat) : Md5Regs :=
  let f := md5F i r.b0 r.c0 r.d0 + r.a0 + tableAt md5K i + tableAt x (md5G i)
  ⟨r.d0, r.b0 + f.rotateLeft (md5Shift i), r.b0, r.c0⟩

/-- One block. -/
def md5Block (r : Md5Regs) (b : List Byte) : Md5Regs :=
  let x := (List.range 16).map fun g => le32At b (4 * g)
  let t := (List.range 64).foldl (md5Step x) r
  ⟨r.a0 + t.a0, r.b0 + t.b0, r.c0 + t.c0, r.d0 + t.d0⟩

/-- The initial registers. -/
def md5Init : Md5Regs := ⟨0x67452301, 0xEFCDAB89, 0x98BADCFE, 0x10325476⟩

/-- The digest, 16 bytes in address order. -/
def md5Out (r : Md5Regs) : Vector Byte 16 :=
  fixedBytes 16 (le32 r.a0 ++ le32 r.b0 ++ le32 r.c0 ++ le32 r.d0)

/-! ## SHA-256 (42_digest_engines R170, R171) -/

/-- `K[t]` of SHA-256 (42_digest_engines R171), entries 0 to 15. -/
def shaK0 : List Word :=
  [0x428A2F98, 0x71374491, 0xB5C0FBCF, 0xE9B5DBA5, 0x3956C25B, 0x59F111F1, 0x923F82A4, 0xAB1C5ED5,
   0xD807AA98, 0x12835B01, 0x243185BE, 0x550C7DC3, 0x72BE5D74, 0x80DEB1FE, 0x9BDC06A7, 0xC19BF174]

/-- `K[t]` of SHA-256 (42_digest_engines R171), entries 16 to 31. -/
def shaK1 : List Word :=
  [0xE49B69C1, 0xEFBE4786, 0x0FC19DC6, 0x240CA1CC, 0x2DE92C6F, 0x4A7484AA, 0x5CB0A9DC, 0x76F988DA,
   0x983E5152, 0xA831C66D, 0xB00327C8, 0xBF597FC7, 0xC6E00BF3, 0xD5A79147, 0x06CA6351, 0x14292967]

/-- `K[t]` of SHA-256 (42_digest_engines R171), entries 32 to 47. -/
def shaK2 : List Word :=
  [0x27B70A85, 0x2E1B2138, 0x4D2C6DFC, 0x53380D13, 0x650A7354, 0x766A0ABB, 0x81C2C92E, 0x92722C85,
   0xA2BFE8A1, 0xA81A664B, 0xC24B8B70, 0xC76C51A3, 0xD192E819, 0xD6990624, 0xF40E3585, 0x106AA070]

/-- `K[t]` of SHA-256 (42_digest_engines R171), entries 48 to 63. -/
def shaK3 : List Word :=
  [0x19A4C116, 0x1E376C08, 0x2748774C, 0x34B0BCB5, 0x391C0CB3, 0x4ED8AA4A, 0x5B9CCA4F, 0x682E6FF3,
   0x748F82EE, 0x78A5636F, 0x84C87814, 0x8CC70208, 0x90BEFFFA, 0xA4506CEB, 0xBEF9A3F7, 0xC67178F2]

/-- `K[t]` of SHA-256 (42_digest_engines R171). -/
def shaK : List Word := shaK0 ++ shaK1 ++ shaK2 ++ shaK3

/-- `s0`. -/
def shaSmall0 (x : Word) : Word := x.rotateRight 7 ^^^ x.rotateRight 18 ^^^ (x >>> 3)
/-- `s1`. -/
def shaSmall1 (x : Word) : Word := x.rotateRight 17 ^^^ x.rotateRight 19 ^^^ (x >>> 10)
/-- `S0`. -/
def shaBig0 (x : Word) : Word := x.rotateRight 2 ^^^ x.rotateRight 13 ^^^ x.rotateRight 22
/-- `S1`. -/
def shaBig1 (x : Word) : Word := x.rotateRight 6 ^^^ x.rotateRight 11 ^^^ x.rotateRight 25

/-- Append `W[t]` for the next `t`, which is the length of the list so far. -/
def shaExtend (w : List Word) : List Word :=
  let t := w.length
  w ++ [tableAt w (t - 16) + shaSmall0 (tableAt w (t - 15)) + tableAt w (t - 7) + shaSmall1 (tableAt w (t - 2))]

/-- `W[0..63]` of a block. -/
def shaSchedule (b : List Byte) : List Word :=
  (List.range 48).foldl (fun w _ => shaExtend w) ((List.range 16).map fun t => be32At b (4 * t))

/-- One step on (a, b, c, d, e, f, g, h). -/
def shaStep (w : List Word) (r : ShaRegs) (t : Nat) : ShaRegs :=
  let ch := (r.h4 &&& r.h5) ^^^ (~~~r.h4 &&& r.h6)
  let t1 := r.h7 + shaBig1 r.h4 + ch + tableAt shaK t + tableAt w t
  let maj := (r.h0 &&& r.h1) ^^^ (r.h0 &&& r.h2) ^^^ (r.h1 &&& r.h2)
  let t2 := shaBig0 r.h0 + maj
  ⟨t1 + t2, r.h0, r.h1, r.h2, r.h3 + t1, r.h4, r.h5, r.h6⟩

/-- One block. -/
def shaBlock (r : ShaRegs) (b : List Byte) : ShaRegs :=
  let t := (List.range 64).foldl (shaStep (shaSchedule b)) r
  ⟨r.h0 + t.h0, r.h1 + t.h1, r.h2 + t.h2, r.h3 + t.h3, r.h4 + t.h4, r.h5 + t.h5, r.h6 + t.h6, r.h7 + t.h7⟩

/-- The initial registers. -/
def shaInit : ShaRegs :=
  ⟨0x6A09E667, 0xBB67AE85, 0x3C6EF372, 0xA54FF53A, 0x510E527F, 0x9B05688C, 0x1F83D9AB, 0x5BE0CD19⟩

/-- The digest, 32 bytes in address order. -/
def shaOut (r : ShaRegs) : Vector Byte 32 :=
  fixedBytes 32 (be32 r.h0 ++ be32 r.h1 ++ be32 r.h2 ++ be32 r.h3 ++ be32 r.h4 ++ be32 r.h5 ++ be32 r.h6 ++ be32 r.h7)

/-! ## The engines -/

/-- The CRC engine loaded with a message. -/
def loadCrc (m : List Byte) : Engine := .crc32 0xFFFFFFFF m
/-- The MD5 engine loaded with a message and its length in bits. -/
def loadMd5 (m : List Byte) : Engine := .md5 md5Init (padMessage le64 m) (8 * m.length)
/-- The SHA-256 engine loaded with a message and its length in bits. -/
def loadSha (m : List Byte) : Engine := .sha256 shaInit (padMessage be64 m) (8 * m.length)

/-- The engine takes in its whole buffer. -/
def runEngine : Engine → Engine
  | .idle => .idle
  | .crc32 crc buffer => .crc32 (buffer.foldl crcByte crc) []
  | .md5 regs buffer count => .md5 ((blocks buffer).foldl md5Block regs) [] count
  | .sha256 regs buffer count => .sha256 ((blocks buffer).foldl shaBlock regs) [] count

/-- `crc ^ 0xFFFFFFFF`. The engine in another mode has no such result; the operations below never ask. -/
def crcResult : Engine → Word
  | .crc32 crc _ => crc ^^^ 0xFFFFFFFF
  | _ => 0

/-- The MD5 digest in the engine. -/
def md5Result : Engine → Vector Byte 16
  | .md5 regs _ _ => md5Out regs
  | _ => Vector.replicate 16 0

/-- The SHA-256 digest in the engine. -/
def shaResult : Engine → Vector Byte 32
  | .sha256 regs _ _ => shaOut regs
  | _ => Vector.replicate 32 0

/-- `CRC32_FN` (00_scope R8). -/
def crc32Fn (m : List Byte) : Word := crcResult (runEngine (loadCrc m))
/-- `MD5_FN` (00_scope R8). -/
def md5Fn (m : List Byte) : Vector Byte 16 := md5Result (runEngine (loadMd5 m))
/-- `SHA256_FN` (00_scope R8). -/
def sha256Fn (m : List Byte) : Vector Byte 32 := shaResult (runEngine (loadSha m))

/-- One invocation of an engine: loaded, run, read, and left idle (10_state R36). -/
def invoke {α : Type} (load : List Byte → Engine) (result : Engine → α) (m : List Byte) (s : State) : α × State :=
  let s := s.withEngine (load m)
  let s := s.withEngine (runEngine s.engine)
  (result s.engine, s.withEngine .idle)

/-- The engine function over `MemRead(addr, len)` (41_validator R141). -/
def digestOf {α : Type} (load : List Byte → Engine) (result : Engine → α) (addr len : Nat) (s : State) : Ran α :=
  (memRead addr len s).bind fun m s => .ok (invoke load result m s).1 (invoke load result m s).2

/-- CRC-32 of a run of memory. -/
def crcOf (addr len : Nat) (s : State) : Ran Word := digestOf loadCrc crcResult addr len s
/-- MD5 of a run of memory. -/
def md5Of (addr len : Nat) (s : State) : Ran (Vector Byte 16) := digestOf loadMd5 md5Result addr len s
/-- SHA-256 of a run of memory. -/
def shaOf (addr len : Nat) (s : State) : Ran (Vector Byte 32) := digestOf loadSha shaResult addr len s

/-- A host operation on a bare address exists for STORE = ram only (20_memory R52). Log entry 17: safe. -/
def onRam (body : State → Ran Unit) (s : State) : Ran Unit :=
  match s.cfg.store with
  | .ram => body s
  | .file => .refused .ramStoreOnly

/-! ## The operations -/

/-- CRC32 (42_digest_engines R160). -/
def execCrc32 (addr : Nat) (len : Word) (s : State) : Host.Outcome State Fault Refusal :=
  operation (onRam fun s => (crcOf addr len.toNat s).bind fun v s =>
    .ok () (s.withRes { s.res with crc := v }).returned) s

/-- MD5 (42_digest_engines R165). -/
def execMd5 (addr : Nat) (len : Word) (s : State) : Host.Outcome State Fault Refusal :=
  operation (onRam fun s => (md5Of addr len.toNat s).bind fun v s =>
    .ok () (s.withRes { s.res with md5 := v }).returned) s

/-- SHA256 (42_digest_engines R170). -/
def execSha256 (addr : Nat) (len : Word) (s : State) : Host.Outcome State Fault Refusal :=
  operation (onRam fun s => (shaOf addr len.toNat s).bind fun v s =>
    .ok () (s.withRes { s.res with sha := v }).returned) s

end Sys2Proof.Machine
end

