-- ==== Sys2Proof/Machine/Blowfish.lean ====
section
/-! DEFINITION. The Blowfish unit (43_blowfish): the round function, the block functions, the key schedule, and BF.INIT,
BF.ENC, BF.DEC, DECRYPT. The algorithm is PRESUMED by the spec itself (its entries D9, G4, G5): log entry 24. -/

namespace Sys2Proof.Machine

/-- The round function `F` (43_blowfish R181). -/
def bfF (s : Vector (Vector Word 256) 4) (x : Word) : Word :=
  ((s[0][(x.extractLsb' 24 8).toNat] + s[1][(x.extractLsb' 16 8).toNat])
    ^^^ s[2][(x.extractLsb' 8 8).toNat]) + s[3][(x.extractLsb' 0 8).toNat]

/-- One round with its swap (43_blowfish R184). -/
def bfRound (s : Vector (Vector Word 256) 4) (x : Word × Word) (k : Word) : Word × Word :=
  let xl := x.1 ^^^ k
  (x.2 ^^^ bfF s xl, xl)

/-- The network on a sequence of round subkeys, the last swap undone and the two whitening subkeys mixed in. -/
def bfNetwork (s : Vector (Vector Word 256) 4) (ks : List Word) (kr kl : Word) (x : Word × Word) : Word × Word :=
  let y := ks.foldl (bfRound s) x
  (y.2 ^^^ kl, y.1 ^^^ kr)

/-- `Encipher` (43_blowfish R184). -/
def encipher (k : Subkeys) (x : Word × Word) : Word × Word :=
  bfNetwork k.s (k.p.toList.take 16) k.p[16] k.p[17] x

/-- `Decipher` (43_blowfish R185): the subkeys in reverse. -/
def decipher (k : Subkeys) (x : Word × Word) : Word × Word :=
  bfNetwork k.s (k.p.toList.drop 2).reverse k.p[1] k.p[0] x

/-- Key word `i`: four key bytes, cycled, the first in bits 31:24, each zero-extended (43_blowfish R182, R183). -/
def keyWord (key : List Byte) (i : Nat) : Word :=
  be32Of (byteAt key (4 * i % key.length)) (byteAt key ((4 * i + 1) % key.length))
    (byteAt key ((4 * i + 2) % key.length)) (byteAt key ((4 * i + 3) % key.length))

/-- `P` with the key words mixed in. -/
def mixKey (key : List Byte) (p : Vector Word 18) : Vector Word 18 :=
  (List.range 18).foldl (fun p i => p.setIfInBounds i (p.toList.getD i 0 ^^^ keyWord key i)) p

/-- One encipherment of the running block fills `P[2n]` and `P[2n+1]`. -/
def fillP (kx : Subkeys × Word × Word) (n : Nat) : Subkeys × Word × Word :=
  let x := encipher kx.1 kx.2
  ({ kx.1 with p := (kx.1.p.setIfInBounds (2 * n) x.1).setIfInBounds (2 * n + 1) x.2 }, x)

/-- One encipherment of the running block fills `S[b][2n]` and `S[b][2n+1]`. -/
def fillS (b : Fin 4) (kx : Subkeys × Word × Word) (n : Nat) : Subkeys × Word × Word :=
  let x := encipher kx.1 kx.2
  let box := (kx.1.s[b].setIfInBounds (2 * n) x.1).setIfInBounds (2 * n + 1) x.2
  ({ kx.1 with s := kx.1.s.set b box }, x)

/-- The key schedule (43_blowfish R183): 9 encipherments fill P, 4 x 128 fill S, each with the subkeys so far. -/
@[irreducible] def keySchedule (key : List Byte) : Subkeys :=
  let start : Subkeys × Word × Word := (⟨mixKey key initP, initS⟩, 0, 0)
  let afterP := (List.range 9).foldl fillP start
  let afterS := [(0 : Fin 4), 1, 2, 3].foldl (fun kx b => (List.range 128).foldl (fillS b) kx) afterP
  afterS.1

/-- BF.INIT as DECRYPT invokes it (43_blowfish R183, R188). -/
def bfInit (key : List Byte) (s : State) : Ran Unit :=
  if keyOk key then .ok () ((s.withKeys (keySchedule key)).withReady true) else .refused .keyLength

/-- BF.INIT (43_blowfish R183). -/
def execBfInit (key : List Byte) (s : State) : Host.Outcome State Fault Refusal :=
  operation (fun s => (bfInit key s).bind fun _ s => .ok () s.returned) s

/-- A block function on the operands, refused with no key schedule (43_blowfish R186). -/
def blockOp (f : Subkeys → Word × Word → Word × Word) (xl xr : Word) (s : State) : Ran Unit :=
  if s.bfReady then
    let y := f s.keys (xl, xr)
    .ok () (s.withRes { s.res with xl := y.1, xr := y.2 }).returned
  else .refused .noKeySchedule

/-- BF.ENC (43_blowfish R184). -/
def execBfEnc (xl xr : Word) (s : State) : Host.Outcome State Fault Refusal :=
  operation (blockOp encipher xl xr) s

/-- BF.DEC (43_blowfish R185). -/
def execBfDec (xl xr : Word) (s : State) : Host.Outcome State Fault Refusal :=
  operation (blockOp decipher xl xr) s

/-- The address of the word at an offset of the buffer (20_memory R62). -/
def bufferAddr (addr off : Nat) : Nat := addr + off

/-- One block deciphered in place (43_blowfish R190, R192). -/
def decryptBlock (a : Nat) (s : State) : Ran Unit :=
  (readBlockWord a s).bind fun xl s =>
  (readBlockWord (bufferAddr a 4) s).bind fun xr s =>
  let y := decipher s.keys (xl, xr)
  (writeBlockWord a y.1 s).bind fun _ s =>
  writeBlockWord (bufferAddr a 4) y.2 s

/-- Consecutive blocks, in increasing address order. -/
def decryptBlocks : Nat → Nat → State → Ran Unit
  | 0, _, s => .ok () s
  | n + 1, a, s => (decryptBlock a s).bind fun _ s => decryptBlocks n (bufferAddr a 8) s

/-- DECRYPT's body (43_blowfish R193): the trailer is read after every block has been written back (R195). -/
def decryptBuffer (addr len : Nat) (s : State) : Ran Unit :=
  (bfInit s.cfg.key s).bind fun _ s =>
  (decryptBlocks (len / 8) addr s).bind fun _ s =>
  (rd32BE (bufferAddr addr (len - 4)) s).bind fun orig s =>
  if orig.toNat ≤ len - 8 then .ok () (s.withRes { s.res with len := orig }).returnedCommand
  else raise .decryptError s

/-- DECRYPT (43_blowfish R193, R194). -/
def execDecrypt (addr : Nat) (len : Word) (s : State) : Host.Outcome State Fault Refusal :=
  operation (onRam fun s =>
    if decryptLenOk len then decryptBuffer addr len.toNat s else .refused .decryptLength) s

end Sys2Proof.Machine
end

