-- ==== Sys2Proof/Machine/Flags.lean ====
section
/-! DEFINITION. The flags: the presence mask `hdr_flag` of a chunk header (10_state R27, R28) and the fields of PBSR (10_state
R30 to R33, 45_bootstate R211 to R217). -/

namespace Sys2Proof.Machine

/-! ## hdr_flag -/

/-- `F_VERS`. -/
def flagVers : Word := 0x01
/-- `F_SIZE`. -/
def flagSize : Word := 0x02
/-- `F_DATA`. -/
def flagData : Word := 0x04
/-- `F_DEST`. -/
def flagDest : Word := 0x08
/-- `F_MD5`. -/
def flagMd5 : Word := 0x10
/-- `F_SHA2`. -/
def flagSha2 : Word := 0x20
/-- `F_CR32`. -/
def flagCr32 : Word := 0x40
/-- `F_ENCM`. -/
def flagEncm : Word := 0x80

/-- `HDR_MIN` (10_state R28). -/
def hdrMin : Word := flagVers ||| flagSize ||| flagData ||| flagDest ||| flagEncm

/-- The header carries the option that the mask marks. -/
def ChunkHeader.has (h : ChunkHeader) (mask : Word) : Bool := h.hdrFlag &&& mask != 0

/-- The header is minimally valid (10_state R28). -/
def ChunkHeader.minimal (h : ChunkHeader) : Bool := h.hdrFlag &&& hdrMin == hdrMin

/-! ## PBSR -/

/-- Flag `i` of PBSR (45_bootstate R214). -/
def pbsrFlag (v : Word) (i : Nat) : BitVec 1 := (v >>> i).setWidth 1

/-- All eight flags (45_bootstate R221). -/
def pbsrFlags (v : Word) : Byte := v.setWidth 8

/-- The boot counter (45_bootstate R217). -/
def pbsrBootcnt (v : Word) : Byte := (v >>> 8).setWidth 8

/-- The value FLAG.WR writes back: flag `i` becomes `b`, every other bit is as read (45_bootstate R212, R213). -/
def pbsrSetFlag (v : Word) (i : Nat) (b : BitVec 1) : Word :=
  (v &&& ~~~((1 : Word) <<< i)) ||| (b.setWidth 32 <<< i)

/-- The value FLAGS.CLR writes back (45_bootstate R215). -/
def pbsrClearFlags (v : Word) : Word := v &&& (0xFFFFFF00 : Word)

/-- The value BCNT.WR writes back (45_bootstate R216). -/
def pbsrSetBootcnt (v : Word) (n : Byte) : Word := (v &&& (0xFFFF00FF : Word)) ||| (n.setWidth 32 <<< 8)

/-- Flag `i` is written by one read of the whole register and one write of it (20_memory R60). -/
def flagWrite (i : Nat) (b : BitVec 1) (s : State) : State := s.withPbsr (pbsrSetFlag s.pbsr i b)

/-- The flags are cleared in one write (45_bootstate R215). -/
def flagsClear (s : State) : State := s.withPbsr (pbsrClearFlags s.pbsr)

/-- The boot counter is written (45_bootstate R216). -/
def bootcountWrite (n : Byte) (s : State) : State := s.withPbsr (pbsrSetBootcnt s.pbsr n)

end Sys2Proof.Machine
end

