-- ==== Sys2Proof/Machine/BootState.lean ====
section
/-! DEFINITION. The boot-state unit (45_bootstate): the five operations of the flag store's contract and the FWUP operations
over them (30_encoding R101). -/

namespace Sys2Proof.Machine

/-- FLAG.WR (45_bootstate R213, R218). -/
def execFlagWr (index bit : Word) (s : State) : Host.Outcome State Fault Refusal :=
  operation (fun s =>
    if 7 < index.toNat ∨ 1 < bit.toNat then .refused .flagOperand
    else .ok () (flagWrite index.toNat (bit.setWidth 1) s).returned) s

/-- FLAG.RD (45_bootstate R214, R218). -/
def execFlagRd (index : Word) (s : State) : Host.Outcome State Fault Refusal :=
  operation (fun s =>
    if 7 < index.toNat then .refused .flagOperand
    else .ok () (s.withRes { s.res with bit := pbsrFlag s.pbsr index.toNat }).returned) s

/-- FLAGS.CLR (45_bootstate R215). -/
def execFlagsClr (s : State) : Host.Outcome State Fault Refusal :=
  operation (fun s => .ok () (flagsClear s).returned) s

/-- BCNT.WR (45_bootstate R216, R218). -/
def execBcntWr (n : Word) (s : State) : Host.Outcome State Fault Refusal :=
  operation (fun s =>
    if 255 < n.toNat then .refused .bootcountOperand
    else .ok () (bootcountWrite (n.setWidth 8) s).returned) s

/-- BCNT.RD (45_bootstate R217). -/
def execBcntRd (s : State) : Host.Outcome State Fault Refusal :=
  operation (fun s => .ok () (s.withRes { s.res with bootcnt := pbsrBootcnt s.pbsr }).returned) s

/-- FWUP.CLEAR.UPDATE (45_bootstate R220). -/
def execFwupClearUpdate (s : State) : Host.Outcome State Fault Refusal :=
  operation (fun s => .ok () (flagWrite s.cfg.idxUpdate 0 s).returnedCommand) s

/-- FWUP.CLEAR.FAIL (45_bootstate R227). -/
def execFwupClearFail (s : State) : Host.Outcome State Fault Refusal :=
  operation (fun s => .ok () (flagWrite s.cfg.idxFail 0 s).returnedCommand) s

/-- FWUP.SET.UPDATE (45_bootstate R228). -/
def execFwupSetUpdate (s : State) : Host.Outcome State Fault Refusal :=
  operation (fun s => .ok () (flagWrite s.cfg.idxUpdate 1 s).returnedCommand) s

/-- FWUP.SET.FAIL (45_bootstate R229). -/
def execFwupSetFail (s : State) : Host.Outcome State Fault Refusal :=
  operation (fun s => .ok () (flagWrite s.cfg.idxFail 1 s).returnedCommand) s

/-- FWUP.FLAGS (45_bootstate R221). -/
def execFwupFlags (s : State) : Host.Outcome State Fault Refusal :=
  operation (fun s => .ok () (s.withRes { s.res with flags := pbsrFlags s.pbsr }).returnedCommand) s

/-- A flag is read into `RES.BIT` and tested (45_bootstate R222, R223). -/
def testFlag (i : Nat) (s : State) : State :=
  (s.withRes { s.res with bit := pbsrFlag s.pbsr i }).returnedTest (pbsrFlag s.pbsr i)

/-- FWUP.UPDATE (45_bootstate R222). -/
def execFwupUpdate (s : State) : Host.Outcome State Fault Refusal :=
  operation (fun s => .ok () (testFlag s.cfg.idxUpdate s)) s

/-- FWUP.FAIL (45_bootstate R223). -/
def execFwupFail (s : State) : Host.Outcome State Fault Refusal :=
  operation (fun s => .ok () (testFlag s.cfg.idxFail s)) s

/-- FWUP.INCBOOTCNT (45_bootstate R224): the count is read, then written one greater modulo 256. -/
def execFwupIncbootcnt (s : State) : Host.Outcome State Fault Refusal :=
  operation (fun s => .ok () (bootcountWrite (pbsrBootcnt s.pbsr + 1) s).returnedCommand) s

/-- FWUP.BOOTCNT (45_bootstate R225). -/
def execFwupBootcnt (s : State) : Host.Outcome State Fault Refusal :=
  operation (fun s => .ok () (s.withRes { s.res with bootcnt := pbsrBootcnt s.pbsr }).returnedCommand) s

end Sys2Proof.Machine
end

