-- ==== Sys2Proof/Machine/System.lean ====
section
/-! DEFINITION. ERRSTATE (60_exceptions R261) and the two command codes of units outside the block (30_encoding R97, R102). -/

namespace Sys2Proof.Machine

/-- ERRSTATE (60_exceptions R261): HALT becomes 1 and the operation does not return, so STATUS, EXIT and RES keep their
values. -/
def execErrstate (s : State) : Host.Outcome State Fault Refusal :=
  operation (fun s => .ok () (s.withHalt true)) s

/-- FWUP.USB_UPDATE_REQ (30_encoding R97, R102): a GPIO poll outside the block; the code is reserved and refused. -/
def execFwupUsbUpdateReq (s : State) : Host.Outcome State Fault Refusal :=
  operation (fun _ => .refused .excludedCommand) s

/-- FWUP.MTDPARTS (30_encoding R97, R102): the partition table, outside the block; the code is reserved and refused. -/
def execFwupMtdparts (s : State) : Host.Outcome State Fault Refusal :=
  operation (fun _ => .refused .excludedCommand) s

end Sys2Proof.Machine
end

