-- ==== Sys2Proof/Decode.lean ====
section
/-! DEFINITION. The decoder, total on every command word and every byte string and rejecting by name, and the encoder,
both from 30_encoding R83 (level 1) and R86, R90, R91 (level 2). -/

namespace Sys2Proof

/-- Why the decoder reads no instruction. Each is safe: the model stops. -/
inductive DecodeError where
  /-- A command code that 30_encoding R83 does not list (R97). -/
  | reservedCommand
  /-- A latch holds another kind of operand than R83 gives: not an operand of the operation. DESIGN CHOICE, log entry 4. -/
  | operandKind
  /-- Fewer than the eight bytes of a record's id and length (30_encoding R86). The walker always fetches eight. -/
  | shortRecord
  deriving DecidableEq, Repr

/-- What the decoder is given: the command word of the host, or the bytes at the cursor with the dispatch table in force
(30_encoding R80). -/
inductive Encoded where
  | command (c : Command)
  | record (d : Dispatch) (bytes : List Byte)
  deriving DecidableEq, Repr

/-- One address operand, `ARG[0]`. -/
def withAddr (a : Args) (f : Nat → Instr) : Except DecodeError Instr :=
  match a.a0 with
  | .addr x => .ok (f x)
  | .num _ | .str _ => .error .operandKind

/-- An address operand in `ARG[0]` and a number in `ARG[1]`. -/
def withAddrNum (a : Args) (f : Nat → Word → Instr) : Except DecodeError Instr :=
  match a.a0, a.a1 with
  | .addr x, .num y => .ok (f x y)
  | _, _ => .error .operandKind

/-- An address operand in `ARG[0]` and a byte string in `ARG[1]`. -/
def withAddrStr (a : Args) (f : Nat → List Byte → Instr) : Except DecodeError Instr :=
  match a.a0, a.a1 with
  | .addr x, .str y => .ok (f x y)
  | _, _ => .error .operandKind

/-- One number operand, `ARG[0]`. -/
def withNum (a : Args) (f : Word → Instr) : Except DecodeError Instr :=
  match a.a0 with
  | .num x => .ok (f x)
  | .addr _ | .str _ => .error .operandKind

/-- Two number operands, `ARG[0]` and `ARG[1]`. -/
def withNumNum (a : Args) (f : Word → Word → Instr) : Except DecodeError Instr :=
  match a.a0, a.a1 with
  | .num x, .num y => .ok (f x y)
  | _, _ => .error .operandKind

/-- One byte-string operand, `ARG[0]`. -/
def withStr (a : Args) (f : List Byte → Instr) : Except DecodeError Instr :=
  match a.a0 with
  | .str x => .ok (f x)
  | .addr _ | .num _ => .error .operandKind

/-- Level 1: the operation table of 30_encoding R83. -/
def decodeCommand (code : Byte) (a : Args) : Except DecodeError Instr :=
  match code.toNat with
  | 0x01 => withAddr a .magic
  | 0x02 => withAddrNum a .valid
  | 0x03 => withAddr a .globver
  | 0x04 => withAddr a .chnknum
  | 0x05 => withAddrStr a .chnkhdrD
  | 0x06 => withAddrNum a .decrypt
  | 0x07 => .ok .errstate
  | 0x08 => withAddrNum a .chnkhdrN
  | 0x10 => .ok .fwupClearUpdate
  | 0x11 => .ok .fwupClearFail
  | 0x12 => .ok .fwupSetUpdate
  | 0x13 => .ok .fwupSetFail
  | 0x14 => .ok .fwupFlags
  | 0x15 => .ok .fwupUpdate
  | 0x16 => .ok .fwupFail
  | 0x17 => .ok .fwupUsbUpdateReq
  | 0x18 => .ok .fwupIncbootcnt
  | 0x19 => .ok .fwupBootcnt
  | 0x1A => .ok .fwupMtdparts
  | 0x20 => withNumNum a .flagWr
  | 0x21 => withNum a .flagRd
  | 0x22 => .ok .flagsClr
  | 0x23 => withNum a .bcntWr
  | 0x24 => .ok .bcntRd
  | 0x30 => withStr a .bfInit
  | 0x31 => withNumNum a .bfEnc
  | 0x32 => withNumNum a .bfDec
  | 0x40 => withAddrNum a .crc32
  | 0x41 => withAddrNum a .md5
  | 0x42 => withAddrNum a .sha256
  | _ => .error .reservedCommand

/-- Level 2, the global options: one recognised id, every other is the default arm (30_encoding R90). -/
def decodeGlobalOption (id length : Word) : Instr :=
  if id = RecordId.chnk then .chnk length else .goptOther id length

/-- Level 2, the chunk options: eight recognised ids, every other is the default arm (30_encoding R91, R93). -/
def decodeChunkOption (id length : Word) : Instr :=
  if id = RecordId.vers then .versOpt length
  else if id = RecordId.size then .sizeOpt length
  else if id = RecordId.data then .dataOpt length
  else if id = RecordId.dest then .destOpt length
  else if id = RecordId.md5 then .md5Opt length
  else if id = RecordId.sha2 then .sha2Opt length
  else if id = RecordId.cr32 then .cr32Opt length
  else if id = RecordId.encm then .encmOpt length
  else .coptOther id length

/-- A record: `id[4]`, then `length[4]` little-endian, then the payload, which the decoder does not read (30_encoding R86). -/
def decodeRecord (d : Dispatch) (bytes : List Byte) : Except DecodeError Instr :=
  if bytes.length < 8 then .error .shortRecord
  else match d with
    | .globalOption => .ok (decodeGlobalOption (le32At bytes 0) (le32At bytes 4))
    | .chunkOption => .ok (decodeChunkOption (le32At bytes 0) (le32At bytes 4))

/-- The decoder. -/
def decode : Encoded → Except DecodeError Instr
  | .command c => decodeCommand c.code c.args
  | .record d bytes => decodeRecord d bytes

/-- No operand. -/
def noArgs : Args := ⟨.num 0, .num 0, .num 0⟩

/-- The command word with the given code and operands. -/
def commandWord (code : Byte) (a0 a1 : Operand) : Encoded := .command ⟨code, ⟨a0, a1, .num 0⟩⟩

/-- The command word of an operation with no operand. -/
def bareCommand (code : Byte) : Encoded := .command ⟨code, noArgs⟩

/-- The first eight bytes of a record. -/
def recordWords (d : Dispatch) (id length : Word) : Encoded := .record d (le32 id ++ le32 length)

/-- The encoder: the words of an instruction, from the same tables. -/
def encode : Instr → Encoded
  | .magic base => commandWord 0x01 (.addr base) (.num 0)
  | .valid base maxSize => commandWord 0x02 (.addr base) (.num maxSize)
  | .globver base => commandWord 0x03 (.addr base) (.num 0)
  | .chnknum base => commandWord 0x04 (.addr base) (.num 0)
  | .chnkhdrD base name => commandWord 0x05 (.addr base) (.str name)
  | .decrypt addr len => commandWord 0x06 (.addr addr) (.num len)
  | .errstate => bareCommand 0x07
  | .chnkhdrN base k => commandWord 0x08 (.addr base) (.num k)
  | .fwupClearUpdate => bareCommand 0x10
  | .fwupClearFail => bareCommand 0x11
  | .fwupSetUpdate => bareCommand 0x12
  | .fwupSetFail => bareCommand 0x13
  | .fwupFlags => bareCommand 0x14
  | .fwupUpdate => bareCommand 0x15
  | .fwupFail => bareCommand 0x16
  | .fwupUsbUpdateReq => bareCommand 0x17
  | .fwupIncbootcnt => bareCommand 0x18
  | .fwupBootcnt => bareCommand 0x19
  | .fwupMtdparts => bareCommand 0x1A
  | .flagWr index bit => commandWord 0x20 (.num index) (.num bit)
  | .flagRd index => commandWord 0x21 (.num index) (.num 0)
  | .flagsClr => bareCommand 0x22
  | .bcntWr n => commandWord 0x23 (.num n) (.num 0)
  | .bcntRd => bareCommand 0x24
  | .bfInit key => commandWord 0x30 (.str key) (.num 0)
  | .bfEnc xl xr => commandWord 0x31 (.num xl) (.num xr)
  | .bfDec xl xr => commandWord 0x32 (.num xl) (.num xr)
  | .crc32 addr len => commandWord 0x40 (.addr addr) (.num len)
  | .md5 addr len => commandWord 0x41 (.addr addr) (.num len)
  | .sha256 addr len => commandWord 0x42 (.addr addr) (.num len)
  | .chnk length => recordWords .globalOption RecordId.chnk length
  | .goptOther id length => recordWords .globalOption id length
  | .versOpt length => recordWords .chunkOption RecordId.vers length
  | .sizeOpt length => recordWords .chunkOption RecordId.size length
  | .dataOpt length => recordWords .chunkOption RecordId.data length
  | .destOpt length => recordWords .chunkOption RecordId.dest length
  | .md5Opt length => recordWords .chunkOption RecordId.md5 length
  | .sha2Opt length => recordWords .chunkOption RecordId.sha2 length
  | .cr32Opt length => recordWords .chunkOption RecordId.cr32 length
  | .encmOpt length => recordWords .chunkOption RecordId.encm length
  | .coptOther id length => recordWords .chunkOption id length

/-- The operands of a command whose operand words are zeros: the number 0, the address 0 where R83 gives an address, and one
zero byte where it gives a byte string. -/
def zeroArgs (code : Byte) : Args :=
  match code.toNat with
  | 0x01 | 0x02 | 0x03 | 0x04 | 0x06 | 0x08 | 0x40 | 0x41 | 0x42 => ⟨.addr 0, .num 0, .num 0⟩
  | 0x05 => ⟨.addr 0, .str [0], .num 0⟩
  | 0x30 => ⟨.str [0], .num 0, .num 0⟩
  | _ => noArgs

/-- The dispatch table a record word of the opcode table belongs to: `CHNK` is the one row of the global table with a word. -/
def tableDispatch (id : Word) : Dispatch :=
  if id = RecordId.chnk then .globalOption else .chunkOption

/-- The instruction bits of an opcode-table row as the hardware stores them: 8 bits are a command code with zero operands,
32 bits are a record id (bit 0 the least significant bit of `Rd32LE(cur)`, 30_encoding R80) with a zero length word. -/
def tableWord (nbits w : Nat) : Option Encoded :=
  if nbits = 8 then
    if w < 2 ^ 8 then some (.command ⟨BitVec.ofNat 8 w, zeroArgs (BitVec.ofNat 8 w)⟩) else none
  else if nbits = 32 then
    if w < 2 ^ 32 then some (recordWords (tableDispatch (BitVec.ofNat 32 w)) (BitVec.ofNat 32 w) 0) else none
  else none

/-- The instruction the decoder reads from an opcode-table word. -/
def decodeTableWord (nbits w : Nat) : Option Instr :=
  match tableWord nbits w with
  | none => none
  | some e =>
    match decode e with
    | .ok i => some i
    | .error _ => none

end Sys2Proof
end

