-- ==== Sys2Proof/Machine/Walker.lean ====
section
/-! DEFINITION. The record walker (40_parser): one rule per record, the three counted loops (R132), and the operations
GLOBVER, CHNKNUM, CHNKHDR.N and CHNKHDR.D. -/

namespace Sys2Proof.Machine

/-! ## The walk under way -/

/-- What acts on the walk under way; without one there is no cursor (log entry 26). -/
def onWalk {α : Type} (f : Walk → State → Ran α) (s : State) : Ran α :=
  match s.walk with
  | some w => f w s
  | none => .refused .noWalk

/-- The cursor moves past a record and the loop counter with it (40_parser R112). -/
def Walk.advance (w : Walk) (length : Word) : Walk :=
  { w with cur := nextRecordAddr w.cur length, j := w.j + 1 }

/-- The record is passed over by its length: nothing of it is looked at (40_parser R115, R116). -/
def passOver (w : Walk) (length : Word) (s : State) : Ran Unit :=
  .ok () (s.withWalk (some (w.advance length)))

/-- The loop at hand is over: its count is used up, or the search has found what it looks for. -/
def Walk.loopOver (w : Walk) : Bool :=
  w.cnt ≤ w.j || (w.phase == .find && w.found.isSome)

/-- The dispatch table in force (30_encoding R80). -/
def Walk.table (w : Walk) : Dispatch :=
  match w.phase with
  | .find => .globalOption
  | .skip => .globalOption
  | .group => .chunkOption

/-! ## Records of the global options (40_parser R114, R115) -/

/-- A global option: looked at by CHNKNUM's search, passed over by CHNKHDR.N's skip loop, no record of a chunk group. -/
def globalRecord (length : Word) (search : Walk → State → Ran Unit) (s : State) : Ran Unit :=
  onWalk (fun w s =>
    match w.phase with
    | .find => search w s
    | .skip => passOver w length s
    | .group => .refused .noWalk) s

/-- Record `CHNK` (40_parser R114): the count is the first payload word and the search ends. -/
def recordChnk (length : Word) : State → Ran Unit :=
  globalRecord length fun w s =>
    (readWordField (recordPayloadAddr w.cur) length s).bind fun n s =>
      .ok () (s.withWalk (some { w with found := some n }))

/-- Record with any other global id (40_parser R115). -/
def recordGoptOther (length : Word) : State → Ran Unit :=
  globalRecord length fun w s => passOver w length s

/-! ## Records of a chunk group (40_parser R116, R118 to R129) -/

/-- A chunk option. In the target group the length limit comes first (40_parser R118), then the record's rule on the
header, then the advance; in any other group the record is passed over. -/
def chunkRecord (length : Word) (rule : Nat → ChunkHeader → State → Ran ChunkHeader) (s : State) : Ran Unit :=
  onWalk (fun w s =>
    match w.phase with
    | .find => .refused .noWalk
    | .skip => .refused .noWalk
    | .group =>
      if w.c = w.k then
        if Config.maxOptPayload < length.toNat then raise .parseError s
        else (rule (recordPayloadAddr w.cur) w.hdr s).bind fun h s =>
          passOver { w with hdr := h } length s
      else passOver w length s) s

/-- Record `vers` (40_parser R120). -/
def recordVers (length : Word) : State → Ran Unit :=
  chunkRecord length fun p h s => (readVersionField p length s).bind fun v s =>
    .ok { h with version := v, hdrFlag := h.hdrFlag ||| flagVers } s

/-- Record `size` (40_parser R121). -/
def recordSize (length : Word) : State → Ran Unit :=
  chunkRecord length fun p h s => (readWordField p length s).bind fun v s =>
    .ok { h with size := v, hdrFlag := h.hdrFlag ||| flagSize } s

/-- Record `data` (40_parser R122): the relative offset as stored (20_memory R63). -/
def recordData (length : Word) : State → Ran Unit :=
  chunkRecord length fun p h s => (readWordField p length s).bind fun v s =>
    .ok { h with data := v, hdrFlag := h.hdrFlag ||| flagData } s

/-- Record `dest` (40_parser R123). -/
def recordDest (length : Word) : State → Ran Unit :=
  chunkRecord length fun p h s => (readBytesField 32 p length s).bind fun v s =>
    .ok { h with dest := v, hdrFlag := h.hdrFlag ||| flagDest } s

/-- Record `md5_` (40_parser R124). -/
def recordMd5 (length : Word) : State → Ran Unit :=
  chunkRecord length fun p h s => (readBytesField 16 p length s).bind fun v s =>
    .ok { h with md5 := v, hdrFlag := h.hdrFlag ||| flagMd5 } s

/-- Record `sha2` (40_parser R125). -/
def recordSha2 (length : Word) : State → Ran Unit :=
  chunkRecord length fun p h s => (readBytesField 32 p length s).bind fun v s =>
    .ok { h with sha256 := v, hdrFlag := h.hdrFlag ||| flagSha2 } s

/-- Record `cr32` (40_parser R126). -/
def recordCr32 (length : Word) : State → Ran Unit :=
  chunkRecord length fun p h s => (readWordField p length s).bind fun v s =>
    .ok { h with crc32 := v, hdrFlag := h.hdrFlag ||| flagCr32 } s

/-- Record `encm` (40_parser R127): any value is stored (30_encoding R95). -/
def recordEncm (length : Word) : State → Ran Unit :=
  chunkRecord length fun p h s => (readWordField p length s).bind fun v s =>
    .ok { h with encryptionMethod := v, hdrFlag := h.hdrFlag ||| flagEncm } s

/-- Record with any other id in a chunk group (40_parser R128). -/
def recordCoptOther (length : Word) : State → Ran Unit :=
  chunkRecord length fun _ _ s => raise .unknownOption s

/-! ## The walker's dispatch -/

/-- The eight bytes of a record that are read for every record whose id matters or might (40_parser R111). -/
def fetchRecord (w : Walk) (s : State) : Ran (List Byte) :=
  (memRead w.cur 4 s).bind fun id s =>
  (memRead (recordLengthAddr w.cur) 4 s).bind fun length s => .ok (id ++ length) s

/-- The record at the cursor, decoded by the dispatch table in force. -/
def fetchInstr (w : Walk) (s : State) : Ran Instr :=
  (fetchRecord w s).bind fun bytes s =>
    match decodeRecord w.table bytes with
    | .ok i => .ok i s
    | .error _ => .refused .noWalk

/-- The rule of a record; a host operation is no record. -/
def runRecord (i : Instr) (s : State) : Ran Unit :=
  match i with
  | .chnk length => recordChnk length s
  | .goptOther _ length => recordGoptOther length s
  | .versOpt length => recordVers length s
  | .sizeOpt length => recordSize length s
  | .dataOpt length => recordData length s
  | .destOpt length => recordDest length s
  | .md5Opt length => recordMd5 length s
  | .sha2Opt length => recordSha2 length s
  | .cr32Opt length => recordCr32 length s
  | .encmOpt length => recordEncm length s
  | .coptOther _ length => recordCoptOther length s
  | .magic _ | .valid _ _ | .globver _ | .chnknum _ | .chnkhdrD _ _ | .chnkhdrN _ _ | .decrypt _ _ | .errstate
  | .fwupClearUpdate | .fwupClearFail | .fwupSetUpdate | .fwupSetFail | .fwupFlags | .fwupUpdate | .fwupFail
  | .fwupUsbUpdateReq | .fwupIncbootcnt | .fwupBootcnt | .fwupMtdparts | .flagWr _ _ | .flagRd _ | .flagsClr | .bcntWr _
  | .bcntRd | .bfInit _ | .bfEnc _ _ | .bfDec _ _ | .crc32 _ _ | .md5 _ _ | .sha256 _ _ => .refused .noWalk

/-- CHNKHDR.N's skip over one global option: only the length is read, and the id is not looked at (40_parser R111, R116). -/
def skipRecord (w : Walk) (s : State) : Ran Unit :=
  (rd32LE (recordLengthAddr w.cur) s).bind fun length s => passOver w length s

/-- One record of the loop at hand. -/
def recordTurn (s : State) : Ran Unit :=
  onWalk (fun w s =>
    match w.phase with
    | .find => (fetchInstr w s).bind runRecord
    | .skip => skipRecord w s
    | .group => (fetchInstr w s).bind runRecord) s

/-- Up to `m` records of the loop at hand. -/
def runRecords : Nat → State → Ran Unit
  | 0, s => .ok () s
  | m + 1, s => onWalk (fun w s =>
      if w.loopOver then .ok () s else (recordTurn s).bind fun _ s => runRecords m s) s

/-- The rest of the loop at hand. -/
def runLoop (s : State) : Ran Unit := onWalk (fun w s => runRecords (w.cnt - w.j) s) s

/-! ## The loops and what joins them (40_parser R113, R116) -/

/-- A walk begins: `n <- Rd32LE(base + 36)`, `cur <- base + 40`. Its header is 0 until the chunk groups begin, and nothing reads
it before (`beginGroups`): DESIGN CHOICE, log entry 36: safe here. -/
def startWalk (job : Job) (base k : Nat) (s : State) : Ran Unit :=
  (rd32LE (optCountAddr base) s).bind fun n s =>
    .ok () (s.withWalk (some
      { job := job, phase := .find, base := base, cur := firstOptionAddr base, j := 0, cnt := n.toNat, c := 0, k := k,
        found := none, hdr := ChunkHeader.zero }))

/-- What CHNKNUM's search has found; `NotFound` when the global options are used up (40_parser R113). -/
def foundCount (s : State) : Ran Word :=
  onWalk (fun w s =>
    match w.found with
    | some n => .ok n s
    | none => raise .notFound s) s

/-- The range test of the chunk number, then the start of the skip loop (40_parser R116, R117). -/
def beginSkip (s : State) : Ran Unit :=
  (foundCount s).bind fun n s => onWalk (fun w s =>
    if w.k < 1 ∨ n.toNat < w.k then raise .notFound s
    else (rd32LE (optCountAddr w.base) s).bind fun m s =>
      .ok () (s.withWalk (some
        { w with phase := .skip, cur := firstOptionAddr w.base, j := 0, cnt := m.toNat }))) s

/-- The header begins: no option present, every field `any` (10_state R29), no group entered yet. -/
def beginGroups (s : State) : Ran Unit :=
  onWalk (fun w s =>
    .ok () (s.drawn.withWalk (some
      { w with phase := .group, j := 0, cnt := 0, c := 0, hdr := { freeHeader s.draws with hdrFlag := 0 } }))) s

/-- The next chunk group: its count is read at the cursor, which moves past it (40_parser R116). -/
def enterGroup (s : State) : Ran Unit :=
  onWalk (fun w s => (rd32LE w.cur s).bind fun cnt s =>
    .ok () (s.withWalk (some { w with c := w.c + 1, cur := w.cur + 4, j := 0, cnt := cnt.toNat }))) s

/-- The next `m` chunk groups. -/
def runGroups : Nat → State → Ran Unit
  | 0, s => .ok () s
  | m + 1, s => (enterGroup s).bind fun _ s => (runLoop s).bind fun _ s => runGroups m s

/-- The walk is over and gives its header. -/
def takeHeader (s : State) : Ran ChunkHeader :=
  onWalk (fun w s => .ok w.hdr (s.withWalk none)) s

/-- CHNKNUM as other operations invoke it (40_parser R113). -/
def countChunks (base : Nat) (s : State) : Ran Word :=
  (startWalk .count base 0 s).bind fun _ s =>
  (runLoop s).bind fun _ s =>
  (foundCount s).bind fun n s => .ok n (s.withWalk none)

/-- CHNKHDR.N as other operations invoke it (40_parser R116). -/
def chunkHeader (base k : Nat) (s : State) : Ran ChunkHeader :=
  (startWalk .header base k s).bind fun _ s =>
  (runLoop s).bind fun _ s =>
  (beginSkip s).bind fun _ s =>
  (runLoop s).bind fun _ s =>
  (beginGroups s).bind fun _ s =>
  (runGroups k s).bind fun _ s => takeHeader s

/-- CHNKHDR.D's loop over `m` chunks from chunk `c` (40_parser R130). -/
def findByName (base : Nat) (name : List Byte) : Nat → Nat → State → Ran (ChunkHeader × Nat)
  | 0, _, s => raise .notFound s
  | m + 1, c, s => (chunkHeader base c s).bind fun h s =>
      if h.has flagDest then
        let (same, s) := compareName h.dest name s
        if same then .ok (h, c) s else findByName base name m (c + 1) s
      else findByName base name m (c + 1) s

/-- CHNKNUM returns (40_parser R113). -/
def returnCount (n : Word) (s : State) : State :=
  ((s.withWalk none).withRes { s.res with count := n }).returnedCommand

/-- CHNKHDR.N returns (40_parser R116). -/
def returnHeader (h : ChunkHeader) (s : State) : State :=
  ((s.withWalk none).withRes { s.res with hdr := h }).returned

/-- What the walk under way does when the loop at hand is over (40_parser R113, R116). -/
def loopEnd (s : State) : Ran Unit :=
  onWalk (fun w s =>
    match w.phase with
    | .find =>
      match w.job with
      | .count => (foundCount s).bind fun n s => .ok () (returnCount n s)
      | .header => beginSkip s
    | .skip => (beginGroups s).bind fun _ s => enterGroup s
    | .group => if w.c < w.k then enterGroup s else .ok () (returnHeader w.hdr s)) s

/-! ## The operations -/

/-- GLOBVER (40_parser R110). -/
def execGlobver (base : Nat) (s : State) : Host.Outcome State Fault Refusal :=
  operation (fun s =>
    let a := globalVersionAddr base
    (rd32LE a s).bind fun major s =>
    (rd32LE (a + 4) s).bind fun minor s =>
    (rd32LE (a + 8) s).bind fun commitCount s =>
    (rd32LE (a + 12) s).bind fun gitHash s =>
    .ok () (s.withRes { s.res with version := ⟨major, minor, commitCount, gitHash⟩ }).returnedCommand) s

/-- CHNKNUM (40_parser R113). -/
def execChnknum (base : Nat) (s : State) : Host.Outcome State Fault Refusal :=
  operation (fun s => (countChunks base s).bind fun n s => .ok () (returnCount n s)) s

/-- CHNKHDR.N (40_parser R116). -/
def execChnkhdrN (base : Nat) (k : Word) (s : State) : Host.Outcome State Fault Refusal :=
  operation (fun s => (chunkHeader base k.toNat s).bind fun h s => .ok () (returnHeader h s)) s

/-- CHNKHDR.D (40_parser R130). -/
def execChnkhdrD (base : Nat) (name : List Byte) (s : State) : Host.Outcome State Fault Refusal :=
  operation (fun s =>
    (countChunks base s).bind fun n s =>
    (findByName base name n.toNat 1 s).bind fun r s =>
    .ok () (s.withRes { s.res with hdr := r.1, index := BitVec.ofNat 32 r.2 }).returnedCommand) s

/-! ## The records as instructions -/

/-- Record `CHNK`. -/
def execChnk (length : Word) (s : State) : Host.Outcome State Fault Refusal := operation (recordChnk length) s

/-- Any other global option. The id has done its work in the dispatch. -/
def execGoptOther (_id length : Word) (s : State) : Host.Outcome State Fault Refusal :=
  operation (recordGoptOther length) s

/-- Record `vers`. -/
def execVersOpt (length : Word) (s : State) : Host.Outcome State Fault Refusal := operation (recordVers length) s

/-- Record `size`. -/
def execSizeOpt (length : Word) (s : State) : Host.Outcome State Fault Refusal := operation (recordSize length) s

/-- Record `data`. -/
def execDataOpt (length : Word) (s : State) : Host.Outcome State Fault Refusal := operation (recordData length) s

/-- Record `dest`. -/
def execDestOpt (length : Word) (s : State) : Host.Outcome State Fault Refusal := operation (recordDest length) s

/-- Record `md5_`. -/
def execMd5Opt (length : Word) (s : State) : Host.Outcome State Fault Refusal := operation (recordMd5 length) s

/-- Record `sha2`. -/
def execSha2Opt (length : Word) (s : State) : Host.Outcome State Fault Refusal := operation (recordSha2 length) s

/-- Record `cr32`. -/
def execCr32Opt (length : Word) (s : State) : Host.Outcome State Fault Refusal := operation (recordCr32 length) s

/-- Record `encm`. -/
def execEncmOpt (length : Word) (s : State) : Host.Outcome State Fault Refusal := operation (recordEncm length) s

/-- Any other chunk option. The id has done its work in the dispatch. -/
def execCoptOther (_id length : Word) (s : State) : Host.Outcome State Fault Refusal :=
  operation (recordCoptOther length) s

end Sys2Proof.Machine
end

