-- ==== Sys2Proof/Machine/Validator.lean ====
section
/-! DEFINITION. The image integrity validator (41_validator): MAGIC and VALID. -/

namespace Sys2Proof.Machine

/-- The magic test (41_validator R140, R142). -/
def checkMagic (base : Nat) (s : State) : Ran Unit :=
  (memRead base 8 s).bind fun b s => if b = Config.magic then .ok () s else raise .magicError s

/-- MAGIC (41_validator R140). -/
def execMagic (base : Nat) (s : State) : Host.Outcome State Fault Refusal :=
  operation (fun s => (checkMagic base s).bind fun _ s => .ok () s.returnedCommand) s

/-- Step 2: the total length against the limit, 0 meaning no limit (41_validator R143). -/
def checkTotalLength (maxSize : Word) (tl : Word) (s : State) : Ran Unit :=
  if maxSize ≠ 0 ∧ maxSize.toNat < tl.toNat then raise .totalLengthError s else .ok () s

/-- Step 3: the format version (41_validator R144). -/
def checkFormatVersion (fv : Word) (s : State) : Ran Unit :=
  if Config.maxFmtVersion < fv.toNat then raise .formatVersionError s else .ok () s

/-- Step 4: the global CRC-32 (41_validator R145, R149). -/
def checkGlobalCrc (base : Nat) (tl : Word) (s : State) : Ran Unit :=
  if tl.toNat < Config.crcCalcOffset then .refused .totalLengthBelowCrcOffset
  else
    (crcOf (globalVersionAddr base) (tl.toNat - Config.crcCalcOffset) s).bind fun v s =>
    (rd32LE (globalCrcAddr base) s).bind fun stored s =>
    if v = stored then .ok () s else raise .crc32Error s

/-- A digest of a chunk's payload, computed only when the header carries it, against the stored one (41_validator R146,
42_digest_engines R176). -/
def checkDigest {α : Type} [DecidableEq α] (present : Bool) (digest : State → Ran α) (stored : α) (st : Status) (s : State) :
    Ran Unit :=
  if present then (digest s).bind fun v s => if v = stored then .ok () s else raise st s else .ok () s

/-- Step 5 on one chunk (41_validator R146): a chunk that is not minimally valid is passed over. -/
def checkChunk (base : Nat) (h : ChunkHeader) (s : State) : Ran Unit :=
  if h.minimal then
    let a := chunkPayloadAddr base h.data
    let n := h.size.toNat
    (checkDigest (h.has flagCr32) (crcOf a n) h.crc32 .crc32Error s).bind fun _ s =>
    (checkDigest (h.has flagMd5) (md5Of a n) h.md5 .md5Error s).bind fun _ s =>
    checkDigest (h.has flagSha2) (shaOf a n) h.sha256 .sha256Error s
  else .ok () s

/-- A failure of the walker inside step 5 ends VALID with any status other than 0; a failed read of the store is itself
(41_validator R148). DESIGN CHOICE, log entry 19: safe. -/
def walkerFailure {α : Type} (r : Ran α) : Ran α :=
  match r with
  | .ok a s => .ok a s
  | .raised code s =>
    if code = Status.fileIOError.code then .raised code s else .raised (freeNonzeroStatus s.draws) s.drawn
  | .fault r => .fault r
  | .refused r => .refused r

/-- Step 5 on `m` chunks from chunk `c`. -/
def checkChunks (base : Nat) : Nat → Nat → State → Ran Unit
  | 0, _, s => .ok () s
  | m + 1, c, s => (walkerFailure (chunkHeader base c s)).bind fun h s =>
      (checkChunk base h s).bind fun _ s => checkChunks base m (c + 1) s

/-- The five ordered checks (41_validator R141, R147). -/
def validate (base : Nat) (maxSize : Word) (s : State) : Ran Unit :=
  (checkMagic base s).bind fun _ s =>
  (rd32LE (totalLengthAddr base) s).bind fun tl s =>
  (checkTotalLength maxSize tl s).bind fun _ s =>
  (rd32LE (fmtVersionAddr base) s).bind fun fv s =>
  (checkFormatVersion fv s).bind fun _ s =>
  (checkGlobalCrc base tl s).bind fun _ s =>
  (walkerFailure (countChunks base s)).bind fun n s =>
  checkChunks base n.toNat 1 s

/-- VALID (41_validator R141). -/
def execValid (base : Nat) (maxSize : Word) (s : State) : Host.Outcome State Fault Refusal :=
  operation (fun s => (validate base maxSize s).bind fun _ s => .ok () s.returnedCommand) s

end Sys2Proof.Machine
end

