-- ==== Sys2Proof/Machine/Dispatch.lean ====
section
/-! DEFINITION. One arm per instruction. -/

namespace Sys2Proof.Machine

/-- The meaning of an instruction. -/
def exec (i : Instr) (s : State) : Host.Outcome State Fault Refusal :=
  match i with
  | .magic base => Sys2Proof.Machine.execMagic base s
  | .valid base maxSize => Sys2Proof.Machine.execValid base maxSize s
  | .globver base => Sys2Proof.Machine.execGlobver base s
  | .chnknum base => Sys2Proof.Machine.execChnknum base s
  | .chnkhdrD base name => Sys2Proof.Machine.execChnkhdrD base name s
  | .decrypt addr len => Sys2Proof.Machine.execDecrypt addr len s
  | .errstate => Sys2Proof.Machine.execErrstate s
  | .chnkhdrN base k => Sys2Proof.Machine.execChnkhdrN base k s
  | .fwupClearUpdate => Sys2Proof.Machine.execFwupClearUpdate s
  | .fwupClearFail => Sys2Proof.Machine.execFwupClearFail s
  | .fwupSetUpdate => Sys2Proof.Machine.execFwupSetUpdate s
  | .fwupSetFail => Sys2Proof.Machine.execFwupSetFail s
  | .fwupFlags => Sys2Proof.Machine.execFwupFlags s
  | .fwupUpdate => Sys2Proof.Machine.execFwupUpdate s
  | .fwupFail => Sys2Proof.Machine.execFwupFail s
  | .fwupUsbUpdateReq => Sys2Proof.Machine.execFwupUsbUpdateReq s
  | .fwupIncbootcnt => Sys2Proof.Machine.execFwupIncbootcnt s
  | .fwupBootcnt => Sys2Proof.Machine.execFwupBootcnt s
  | .fwupMtdparts => Sys2Proof.Machine.execFwupMtdparts s
  | .flagWr index bit => Sys2Proof.Machine.execFlagWr index bit s
  | .flagRd index => Sys2Proof.Machine.execFlagRd index s
  | .flagsClr => Sys2Proof.Machine.execFlagsClr s
  | .bcntWr n => Sys2Proof.Machine.execBcntWr n s
  | .bcntRd => Sys2Proof.Machine.execBcntRd s
  | .bfInit key => Sys2Proof.Machine.execBfInit key s
  | .bfEnc xl xr => Sys2Proof.Machine.execBfEnc xl xr s
  | .bfDec xl xr => Sys2Proof.Machine.execBfDec xl xr s
  | .crc32 addr len => Sys2Proof.Machine.execCrc32 addr len s
  | .md5 addr len => Sys2Proof.Machine.execMd5 addr len s
  | .sha256 addr len => Sys2Proof.Machine.execSha256 addr len s
  | .chnk length => Sys2Proof.Machine.execChnk length s
  | .goptOther id length => Sys2Proof.Machine.execGoptOther id length s
  | .versOpt length => Sys2Proof.Machine.execVersOpt length s
  | .sizeOpt length => Sys2Proof.Machine.execSizeOpt length s
  | .dataOpt length => Sys2Proof.Machine.execDataOpt length s
  | .destOpt length => Sys2Proof.Machine.execDestOpt length s
  | .md5Opt length => Sys2Proof.Machine.execMd5Opt length s
  | .sha2Opt length => Sys2Proof.Machine.execSha2Opt length s
  | .cr32Opt length => Sys2Proof.Machine.execCr32Opt length s
  | .encmOpt length => Sys2Proof.Machine.execEncmOpt length s
  | .coptOther id length => Sys2Proof.Machine.execCoptOther id length s

end Sys2Proof.Machine
end

