-- ==== Sys2Proof/Machine/Inputs.lean ====
section
/-! DEFINITION. What the agents outside the block do to it (10_state R20): the host's operations, staging and boot-limit test,
and the resets; and the walk under way, one record at a time. Step.lean calls these. -/

namespace Sys2Proof.Machine

/-- The refusal of a command word that is no operation. -/
def undecoded : DecodeError → Refusal
  | .reservedCommand => .reservedCommand
  | .operandKind => .operandKind
  | .shortRecord => .noWalk

/-- The host issues an operation: its operands are latched in ARG and the block runs it (30_encoding R81). -/
def issue (c : Command) (s : State) : Host.Outcome State Fault Refusal :=
  if s.halt then .refused .halted
  else
    match decode (.command c) with
    | .ok i => exec i (s.withArg c.args)
    | .error e => .refused (undecoded e)

/-- Bytes are staged in MEM from outside (70_reset R287). An address at or above 2^AW does not exist (20_memory R51). -/
def stage (addr : Nat) (bytes : List Byte) (s : State) : Host.Outcome State Fault Refusal :=
  if s.halt then .refused .halted
  else if addr + bytes.length ≤ 2 ^ s.cfg.addressWidth then .next (s.withMem (Memory.writes s.mem addr bytes))
  else .fault .noSuchAddress

/-- The host compares the boot count it has read with BOOTLIMIT, unsigned, and issues ERRSTATE when it is greater
(45_bootstate R226). DEDUCED, log entry 27: safe. -/
def checkBootLimit (s : State) : Host.Outcome State Fault Refusal :=
  if s.halt then .refused .halted
  else if s.cfg.bootLimit < s.res.bootcnt.toNat then exec .errstate s
  else .next s

/-- PBSR when a reset cuts an operation (70_reset R284): the value before it, or the value it would have written, by a free
draw; never a mixture. -/
def cutPbsr (before written : Word) (draw : Nat) : Word :=
  if Config.freeBool draw then written else before

/-- The refusals that a line of an operation's pseudocode makes once the operation runs (60_exceptions R251); the others turn
the command away before it begins. DEDUCED, log entry 23. -/
def Refusal.inRun : Refusal → Bool
  | .totalLengthBelowCrcOffset | .decryptLength | .noKeySchedule | .keyLength | .flagOperand | .bootcountOperand => true
  | _ => false

/-- A reset strikes during an operation, at an arbitrary point of its pseudocode (70_reset R284). Up to the line at which it
faults or is refused, an operation has not written PBSR (60_exceptions R250, R251), so the reset leaves it. A command that is
turned away before it begins has no run that a reset could cut. DEDUCED, log entry 23: safe. -/
def resetDuring (kind : ResetKind) (c : Command) (s : State) : Host.Outcome State Fault Refusal :=
  match issue c s with
  | .next t => .next ((s.drawn.withPbsr (cutPbsr s.pbsr t.pbsr s.draws)).afterReset kind)
  | .fault _ => .next (s.afterReset kind)
  | .refused r => if r.inRun then .next (s.afterReset kind) else .refused r

/-- One action of an agent outside the block. -/
def act (i : Input) (s : State) : Host.Outcome State Fault Refusal :=
  match i with
  | .issue c => issue c s
  | .stage addr bytes => stage addr bytes s
  | .checkBootLimit => checkBootLimit s
  | .reset kind => .next (s.afterReset kind)
  | .resetDuring kind c => resetDuring kind c s

/-- A fetched record is executed; a failed fetch ends the operation. -/
def execFetched (r : Ran Instr) : Host.Outcome State Fault Refusal :=
  match r with
  | .ok i s => exec i s
  | .raised code s => .next (s.failed code)
  | .fault r => .fault r
  | .refused r => .refused r

/-- One turn of the walk under way: the record at the cursor, or the end of the loop at hand. The skip loop looks at no id, so
it has no record to decode (40_parser R111). -/
def walkTurn (w : Walk) (s : State) : Host.Outcome State Fault Refusal :=
  if s.halt then .refused .halted
  else if w.loopOver then endOp (loopEnd s)
  else
    match w.phase with
    | .skip => endOp (recordTurn s)
    | .find => execFetched (fetchInstr w s)
    | .group => execFetched (fetchInstr w s)

/-- Whether the next action of the outside is a reset. -/
def Input.isReset : Input → Bool
  | .reset _ => true
  | .issue _ | .stage _ _ | .checkBootLimit | .resetDuring _ _ => false

/-- A step with a walk under way: a reset that comes next strikes at this point of the walk (70_reset R284); every other action
of the outside waits for the walk to end (20_memory R65), and the walk takes its turn. DEDUCED, log entries 1, 2. -/
def walkStep (w : Walk) (s : State) : Host.Outcome State Fault Refusal :=
  match s.inputs with
  | .reset kind :: rest => act (.reset kind) (s.withInputs rest)
  | _ => walkTurn w s

/-- The walk that has the given record as its next: the first of one, at address 0, in the loop of its dispatch table, with
group 1 as the target. Its header has no option present and 0 in every field, where 10_state R29 leaves an absent field any
value: DESIGN CHOICE, log entry 36: unsafe. -/
def oneRecordWalk (d : Dispatch) : Walk :=
  { job := match d with | .globalOption => .count | .chunkOption => .header
    phase := match d with | .globalOption => .find | .chunkOption => .group
    base := 0
    cur := 0
    j := 0
    cnt := 1
    c := 1
    k := 1
    found := none
    hdr := ChunkHeader.zero }

/-- The state with an instruction where the next step takes it: a command as the host's next action, or a record at the cursor
of a walk under way, in memory that holds its eight bytes and can be read, with no reset before it. Log entries 3, 36. -/
def placeInstr (e : Encoded) (s : State) : State :=
  match e with
  | .command c => { s with halt := false, walk := none, inputs := .issue c :: s.inputs }
  | .record d bytes =>
    { s with
      halt := false
      walk := some (oneRecordWalk d)
      inputs := s.inputs.dropWhile Input.isReset
      mem := Memory.writes s.mem 0 bytes
      cfg :=
        { s.cfg with
          addressWidth := max 3 s.cfg.addressWidth
          readable := [⟨0, 2 ^ max 3 s.cfg.addressWidth⟩]
          store := .ram } }

end Sys2Proof.Machine
end

