-- ==== Sys2Proof/Machine/Step.lean ====
section
/-! DEFINITION. One step: the walk under way moves on by one record, or a reset ends it; with none, the next action of an agent
outside the block happens; with none of those either, the block is idle (70_reset R285). A host operation is one step (00_scope R12). -/

namespace Sys2Proof.Machine

/-- The step. -/
def step (s : State) : Host.Outcome State Fault Refusal :=
  match s.walk with
  | some w => walkStep w s
  | none =>
    match s.inputs with
    | [] => .next s
    | i :: rest => act i (s.withInputs rest)

/-- The state with an opcode-table word where the next step takes its instruction (log entry 3). A word of no row changes
nothing. -/
def State.withFetchWord (s : State) (nbits w : Nat) : State :=
  match tableWord nbits w with
  | some e => placeInstr e s
  | none => s

end Sys2Proof.Machine
end

