-- ==== Sys2Proof/Safety.lean ====
section
/-! DEFINITION. What counts as a safe run and a safe use of the block, in the terms claims use. The block enforces none of
the host's duties (70_reset R288 to R296). -/

namespace Sys2Proof.Machine

/-- The outcome is a next state. -/
def completes (o : Host.Outcome State Fault Refusal) : Prop := ∃ t, o = .next t

/-- The result fields may be used: the last operation ended with `STATUS = 0` (70_reset R294). -/
def resultsUsable (s : State) : Prop := s.status = Status.valid.code

/-- A field of `RES.HDR` may be used: the results may, and its bit is set (10_state R29, 70_reset R294). -/
def headerFieldUsable (s : State) (mask : Word) : Prop := resultsUsable s ∧ s.res.hdr.has mask = true

/-- The gate before any destructive use of an image: VALID of it ends with `Valid` (41_validator R141, 70_reset R288). -/
def gateOpen (base : Nat) (maxSize : Word) (s : State) : Prop :=
  ∃ t, exec (.valid base maxSize) s = .next t ∧ t.status = Status.valid.code

/-- The block cannot leave this state but by a reset (60_exceptions R262). -/
def stuck (s : State) : Prop := s.halt = true

/-- What every step keeps: MEM in canonical form, and bits 31 to 8 of every presence mask 0 (10_state R27). -/
def Inv (s : State) : Prop :=
  Memory.wf s.cfg.addressWidth s.mem ∧ s.res.hdr.hdrFlag.toNat < 256 ∧ ∀ w, s.walk = some w → w.hdr.hdrFlag.toNat < 256

/-! ## Images, as the grammar of 30_encoding R84 to R88 spells them

The statements about whole walks are about an image laid out in MEM. -/

/-- The `n` bytes at `a` can be read. -/
def readableRun (s : State) (a n : Nat) : Prop := allFrom (canRead s) a n = true

/-- The `n` bytes at `a` can be written. -/
def writableRun (s : State) (a n : Nat) : Prop := allFrom (canWrite s) a n = true

/-- The bytes stand in MEM at the address, and can be read. -/
def holds (s : State) (a : Nat) (b : List Byte) : Prop :=
  readableRun s a b.length ∧ Memory.bytes s.mem a b.length = b

/-- A record of the image: `id[4] | length[4] | payload[length]` (30_encoding R86). -/
structure Record where
  id : Word
  payload : List Byte
  deriving DecidableEq, Repr

/-- The declared length of a record. -/
def Record.length (r : Record) : Word := BitVec.ofNat 32 r.payload.length

/-- The bytes of a record. -/
def Record.bytes (r : Record) : List Byte := le32 r.id ++ (le32 r.length ++ r.payload)

/-- Records back to back. -/
def recordsBytes : List Record → List Byte
  | [] => []
  | r :: rs => r.bytes ++ recordsBytes rs

/-- A chunk group: its count, then its records (30_encoding R87). -/
def groupBytes (rs : List Record) : List Byte := le32 (BitVec.ofNat 32 rs.length) ++ recordsBytes rs

/-- Chunk groups back to back. -/
def groupsBytes : List (List Record) → List Byte
  | [] => []
  | g :: gs => groupBytes g ++ groupsBytes gs

/-- The bytes a recognised chunk option's field takes (40_parser R119); none for an id that is not recognised. -/
def fieldSize (id : Word) : Option Nat :=
  if id = RecordId.vers then some 16
  else if id = RecordId.size then some 4
  else if id = RecordId.data then some 4
  else if id = RecordId.dest then some 32
  else if id = RecordId.md5 then some 16
  else if id = RecordId.sha2 then some 32
  else if id = RecordId.cr32 then some 4
  else if id = RecordId.encm then some 4
  else none

/-- The record's length word can spell its payload's length. -/
def Record.spelled (r : Record) : Prop := r.payload.length < 2 ^ 32

/-- A recognised chunk option inside the length limit whose payload fills its field (40_parser R118 to R127). -/
def Record.whole (r : Record) : Prop :=
  r.payload.length ≤ Config.maxOptPayload ∧ ∃ n, fieldSize r.id = some n ∧ n ≤ r.payload.length

/-- A chunk group that the walker, once it is the target, does not get through: whole records, then one whose length is over
the limit or, within it, whose id is not recognised; with the status that one ends the operation with (40_parser R118, R128). -/
def stopsWith (g : List Record) (st : Status) : Prop :=
  ∃ good bad rest, g = good ++ bad :: rest ∧ (∀ r ∈ good, r.whole) ∧
    (512 < bad.payload.length ∧ st = .parseError ∨
      bad.payload.length ≤ 512 ∧ bad.id ∉ RecordId.chunkIds ∧ st = .unknownOption)

/-- What a whole record makes of the header (40_parser R120 to R127). -/
def applyRecord (h : ChunkHeader) (r : Record) : ChunkHeader :=
  if r.id = RecordId.vers then { h with version := versionAt r.payload, hdrFlag := h.hdrFlag ||| 0x01 }
  else if r.id = RecordId.size then { h with size := le32At r.payload 0, hdrFlag := h.hdrFlag ||| 0x02 }
  else if r.id = RecordId.data then { h with data := le32At r.payload 0, hdrFlag := h.hdrFlag ||| 0x04 }
  else if r.id = RecordId.dest then { h with dest := fixedBytes 32 r.payload, hdrFlag := h.hdrFlag ||| 0x08 }
  else if r.id = RecordId.md5 then { h with md5 := fixedBytes 16 r.payload, hdrFlag := h.hdrFlag ||| 0x10 }
  else if r.id = RecordId.sha2 then { h with sha256 := fixedBytes 32 r.payload, hdrFlag := h.hdrFlag ||| 0x20 }
  else if r.id = RecordId.cr32 then { h with crc32 := le32At r.payload 0, hdrFlag := h.hdrFlag ||| 0x40 }
  else { h with encryptionMethod := le32At r.payload 0, hdrFlag := h.hdrFlag ||| 0x80 }

/-- The header a chunk group gives, from the one the walk begins with (40_parser R116, R129). -/
def groupHeader (h : ChunkHeader) (rs : List Record) : ChunkHeader := rs.foldl applyRecord h

/-- The header CHNKHDR.N begins with: no option present, every field free (10_state R29). -/
def emptyHeader (draw : Nat) : ChunkHeader := { freeHeader draw with hdrFlag := 0 }

/-- An image as a whole: its global options before the `CHNK` record, that record, the options after it, its chunk groups. -/
structure Image where
  before : List Record
  chnk : Record
  after : List Record
  groups : List (List Record)
  deriving DecidableEq, Repr

/-- The global options of an image, in storage order. -/
def Image.options (m : Image) : List Record := m.before ++ m.chnk :: m.after

/-- The bytes of an image from `opt_count` on: the count, the global options, the chunk groups. -/
def Image.bytes (m : Image) : List Byte :=
  le32 (BitVec.ofNat 32 m.options.length) ++ (recordsBytes m.options ++ groupsBytes m.groups)

/-- The image is what the grammar says (30_encoding R88): every length and count fits its word, the first `CHNK` record
carries the number of chunk groups in a payload of four bytes or more. -/
def Image.spelled (m : Image) : Prop :=
  m.options.length < 2 ^ 32 ∧ m.groups.length < 2 ^ 32 ∧
  (∀ r ∈ m.options, r.spelled) ∧ (∀ r ∈ m.before, r.id ≠ RecordId.chnk) ∧
  m.chnk.id = RecordId.chnk ∧ 4 ≤ m.chnk.payload.length ∧
  le32At m.chnk.payload 0 = BitVec.ofNat 32 m.groups.length ∧
  ∀ g ∈ m.groups, g.length < 2 ^ 32 ∧ ∀ r ∈ g, r.spelled

/-- The image stands in MEM at `base`, from its option count on. -/
def Image.stands (m : Image) (base : Nat) (s : State) : Prop := holds s (optCountAddr base) m.bytes

/-- A header as step 5 of VALID sees a chunk: nothing to check, or every digest present equal to the digest of the payload
bytes (41_validator R146, R152). -/
def digestsMatch (s : State) (base : Nat) (h : ChunkHeader) : Prop :=
  h.minimal = true →
    let bytes := Memory.bytes s.mem (chunkPayloadAddr base h.data) h.size.toNat
    (h.has flagCr32 = true → crc32Fn bytes = h.crc32) ∧
    (h.has flagMd5 = true → md5Fn bytes = h.md5) ∧
    (h.has flagSha2 = true → sha256Fn bytes = h.sha256)

/-- A chunk at which step 5 of VALID ends, with the status it ends with: the chunk is minimally valid, and the first digest present,
in the order `cr32`, `md5_`, `sha2`, that differs from the digest of the payload bytes decides (41_validator R146, R147). -/
def digestFails (s : State) (base : Nat) (h : ChunkHeader) (st : Status) : Prop :=
  let bytes := Memory.bytes s.mem (chunkPayloadAddr base h.data) h.size.toNat
  let badCr32 := h.has flagCr32 = true ∧ crc32Fn bytes ≠ h.crc32
  let badMd5 := h.has flagMd5 = true ∧ md5Fn bytes ≠ h.md5
  let badSha2 := h.has flagSha2 = true ∧ sha256Fn bytes ≠ h.sha256
  h.minimal = true ∧
    (badCr32 ∧ st = .crc32Error ∨ ¬ badCr32 ∧ badMd5 ∧ st = .md5Error ∨
      ¬ badCr32 ∧ ¬ badMd5 ∧ badSha2 ∧ st = .sha256Error)

/-- The payload that VALID digests for the header can be read. -/
def payloadReadable (s : State) (base : Nat) (h : ChunkHeader) : Prop :=
  h.minimal = true → readableRun s (chunkPayloadAddr base h.data) h.size.toNat

/-! ## Which operations are which (30_encoding R83, 10_state R42) -/

/-- A record of the image, level 2. -/
def isRecord : Instr → Bool
  | .chnk _ | .goptOther _ _ | .versOpt _ | .sizeOpt _ | .dataOpt _ | .destOpt _ | .md5Opt _ | .sha2Opt _ | .cr32Opt _
  | .encmOpt _ | .coptOther _ _ => true
  | _ => false

/-- An operation that writes the flags of PBSR (10_state R30). -/
def writesFlags : Instr → Bool
  | .flagWr _ _ | .flagsClr | .fwupClearUpdate | .fwupClearFail | .fwupSetUpdate | .fwupSetFail => true
  | _ => false

/-- An operation that writes the boot counter (10_state R30, R32). -/
def writesBootcount : Instr → Bool
  | .bcntWr _ | .fwupIncbootcnt => true
  | _ => false

/-- An operation that reads PBSR and writes nothing of it (10_state R30). -/
def readsPbsr : Instr → Bool
  | .flagRd _ | .bcntRd | .fwupFlags | .fwupUpdate | .fwupFail | .fwupBootcnt => true
  | _ => false

/-- An operation of the BOOTSTATE unit (00_scope R3). -/
def bootState (i : Instr) : Bool := writesFlags i || writesBootcount i || readsPbsr i

/-- An operation that runs the key schedule (10_state R34). -/
def runsKeySchedule : Instr → Bool
  | .bfInit _ | .decrypt _ _ => true
  | _ => false

/-- An operation with a command form whose EXIT follows STATUS (30_encoding R100). -/
def exitFollowsStatus : Instr → Bool
  | .magic _ | .valid _ _ | .globver _ | .chnknum _ | .chnkhdrD _ _ | .decrypt _ _ | .fwupClearUpdate | .fwupClearFail
  | .fwupSetUpdate | .fwupSetFail | .fwupFlags | .fwupIncbootcnt | .fwupBootcnt => true
  | _ => false

/-- The two words of a cipher block in memory, in the byte order of `BF_BLOCK_ORDER` (43_blowfish R190). -/
def blockAt (order : ByteOrder) (m : Memory) (a : Nat) : Word × Word :=
  match order with
  | .be => (be32At (Memory.bytes m a 4) 0, be32At (Memory.bytes m (a + 4) 4) 0)
  | .le => (le32At (Memory.bytes m a 4) 0, le32At (Memory.bytes m (a + 4) 4) 0)

/-! ## Accepting operations -/

/-- The block accepts operations: HALT = 0 (60_exceptions R262). -/
def ready (s : State) : Prop := s.halt = false

/-- The image is in RAM, where no read fails (20_memory R52). -/
def inRam (s : State) : Prop := s.cfg.store = .ram

end Sys2Proof.Machine
end

