-- ==== Sys2Proof/Certificates/Slice0/Obligations.lean ====
section
/-! DEFINITION. The statements about the machine, for the provers. Each docstring names the rule of spec/ it comes from, or
says that it rests on a choice of the model and names the log entry. -/

section Statements

open Sys2Proof Sys2Proof.Machine

/-! ## Encoding and decoding -/

/-- 30_encoding R83, R86, R90, R91: the decoder reads back every well-formed instruction from its encoding, with every operand
at every value. The command codes are the spec's own decision D3, the kinds of operand are log entry 4. -/
def Obligations.DecodeOfEncode : Prop :=
  ∀ i : Instr, i.wellFormed = true → decode (encode i) = .ok i

/-- 30_encoding R86, R90, R91: the eight bytes of a record are those the encoder gives for what the decoder read. -/
def Obligations.EncodeOfDecodedRecord : Prop :=
  ∀ (d : Dispatch) (bytes : List Byte) (i : Instr), bytes.length = 8 → decode (.record d bytes) = .ok i →
    i.wellFormed = true ∧ encode i = .record d bytes

/-- Instruction words written out from 30_encoding R83, R90 and R91, one or more of each family. The command codes are
the spec's own decision D3. -/
def Obligations.SampleWordsDecode : Prop :=
  decode (.command ⟨0x01, ⟨.addr 0x100, .num 0, .num 0⟩⟩) = .ok (.magic 0x100) ∧
  decode (.command ⟨0x05, ⟨.addr 0x100, .str [0x72, 0x6F, 0x6F, 0x74, 0x66, 0x73], .num 0⟩⟩) =
    .ok (.chnkhdrD 0x100 [0x72, 0x6F, 0x6F, 0x74, 0x66, 0x73]) ∧
  decode (.command ⟨0x06, ⟨.addr 0x9C, .num 32, .num 0⟩⟩) = .ok (.decrypt 0x9C 32) ∧
  decode (.command ⟨0x18, ⟨.num 0, .num 0, .num 0⟩⟩) = .ok .fwupIncbootcnt ∧
  decode (.command ⟨0x20, ⟨.num 1, .num 1, .num 0⟩⟩) = .ok (.flagWr 1 1) ∧
  decode (.command ⟨0x42, ⟨.addr 0x10, .num 3, .num 0⟩⟩) = .ok (.sha256 0x10 3) ∧
  decode (.record .globalOption [0x43, 0x48, 0x4E, 0x4B, 0x04, 0x00, 0x00, 0x00]) = .ok (.chnk 4) ∧
  decode (.record .chunkOption [0x43, 0x48, 0x4E, 0x4B, 0x04, 0x00, 0x00, 0x00]) = .ok (.coptOther 0x4B4E4843 4) ∧
  decode (.record .chunkOption [0x63, 0x72, 0x33, 0x32, 0x01, 0x02, 0x00, 0x00]) = .ok (.cr32Opt 513) ∧
  decode (.record .globalOption [0x4E, 0x4F, 0x54, 0x45, 0x03, 0x00, 0x00, 0x00]) = .ok (.goptOther 0x45544F4E 3)

/-- 30_encoding R97: a command code that R83 does not list is refused when the host issues it, and so are the two excluded
codes 0x17 and 0x1A, whose instructions have no meaning (R102). The spec's own decision D35. -/
def Obligations.ReservedCodesRefused : Prop :=
  (∀ (c : Command) (rest : List Input) (s : State), ready s → s.walk = none → s.inputs = .issue c :: rest →
    (c.code.toNat ∉ [0x01, 0x02, 0x03, 0x04, 0x05, 0x06, 0x07, 0x08, 0x10, 0x11, 0x12, 0x13, 0x14, 0x15, 0x16, 0x17, 0x18,
        0x19, 0x1A, 0x20, 0x21, 0x22, 0x23, 0x24, 0x30, 0x31, 0x32, 0x40, 0x41, 0x42] →
      step s = .refused .reservedCommand) ∧
    (c.code = 0x17 ∨ c.code = 0x1A → step s = .refused .excludedCommand)) ∧
  ∀ s : State, ready s → exec .fwupUsbUpdateReq s = .refused .excludedCommand ∧
    exec .fwupMtdparts s = .refused .excludedCommand

/-! ## A step runs the decoded instruction -/

/-- 30_encoding R81: with no walk under way and an operation issued, the step latches its operands and runs the
instruction its command word decodes to. That a host operation is one step is log entry 2. -/
def Obligations.StepRunsIssuedOperation : Prop :=
  ∀ (s : State) (c : Command) (rest : List Input) (i : Instr), ready s → s.walk = none → s.inputs = .issue c :: rest →
    decode (.command c) = .ok i → step s = exec i ((s.withInputs rest).withArg c.args)

/-- 40_parser R111: with a walk under way in a loop that looks at ids and is not over, the step runs the record whose
eight bytes stand at the cursor, unless a reset strikes first (log entries 1, 2). With the image in RAM. -/
def Obligations.StepRunsRecordAtCursor : Prop :=
  ∀ (s : State) (w : Walk) (bytes : List Byte) (i : Instr), ready s → inRam s → s.walk = some w →
    (∀ kind rest, s.inputs ≠ .reset kind :: rest) → w.loopOver = false → w.phase ≠ .skip → bytes.length = 8 → holds s w.cur bytes → decode (.record w.table bytes) = .ok i → step s = exec i s

/-- Log entry 3: the state with an opcode-table word in place runs, in its next step, the instruction that the decoder reads
from that word, on a state with the same registers. -/
def Obligations.StepRunsFetchWord : Prop :=
  ∀ (s : State) (nbits w : Nat) (i : Instr), decodeTableWord nbits w = some i →
    ∃ u, step (s.withFetchWord nbits w) = exec i u ∧ u.halt = false ∧ u.pbsr = s.pbsr ∧ u.keys = s.keys ∧
      u.bfReady = s.bfReady ∧ u.res = s.res ∧ u.status = s.status ∧ u.exit = s.exit ∧ u.draws = s.draws

/-! ## Memory -/

/-- 20_memory R65: a read gives the last byte written at its address. -/
def Obligations.ReadAfterWrite : Prop :=
  ∀ (m : Memory) (a x : Nat) (b : List Byte),
    Memory.read (Memory.writes m a b) x = if a ≤ x ∧ x < a + b.length then b.getD (x - a) 0 else Memory.read m x

/-- 20_memory R52, R53: a read gives the bytes of MEM when they are readable and faults when one is not; with a file store it
may end the operation with FileIOError instead, by a free draw (the spec's own decisions D24, D25; log entry 16). -/
def Obligations.ReadsOfTheTwoStores : Prop :=
  ∀ (s : State) (a n : Nat),
    (inRam s → (readableRun s a n → memRead a n s = .ok (Memory.bytes s.mem a n) s) ∧
      (¬ readableRun s a n → memRead a n s = .fault .outOfExtent)) ∧
    (s.cfg.store = .file → memRead a n s = .raised Status.fileIOError.code { s with draws := s.draws + 1 } ∨
      (readableRun s a n → memRead a n s = .ok (Memory.bytes s.mem a n) { s with draws := s.draws + 1 }) ∧
      (¬ readableRun s a n → memRead a n s = .fault .outOfExtent))

/-! ## The invariant -/

/-- 10_state R27, R41: the state after reset meets the invariant. R41 leaves RES and MEM unspecified, so this rests on the
model's choices for `State.reset`: the mask of RES.HDR is 0 (log entry 8) and MEM lists nothing (log entry 9). -/
def Obligations.ResetMeetsInvariant : Prop := Inv State.reset

/-- Every step keeps MEM in canonical form and bits 31 to 8 of every presence mask 0 (10_state R27). That a free header has
them 0 too is log entry 21. -/
def Obligations.StepKeepsInvariant : Prop := ∀ s t : State, Inv s → step s = .next t → Inv t

/-! ## The boot-state unit -/

/-- 45_bootstate R213, R214, R216, R217, R218: FLAG.WR, FLAG.RD, BCNT.WR, BCNT.RD, on every operand. That operands out of
range are refused is the spec's own decision D28. -/
def Obligations.FlagStoreContract : Prop :=
  ∀ s : State, ready s →
    (∀ i b : Word, i.toNat ≤ 7 → b.toNat ≤ 1 → ∃ t, exec (.flagWr i b) s = .next t ∧
      t.pbsr = (s.pbsr &&& ~~~((1 : Word) <<< i.toNat)) ||| (b <<< i.toNat) ∧ t.status = 0) ∧
    (∀ i b : Word, 7 < i.toNat ∨ 1 < b.toNat → exec (.flagWr i b) s = .refused .flagOperand) ∧
    (∀ i : Word, i.toNat ≤ 7 → ∃ t, exec (.flagRd i) s = .next t ∧
      t.res.bit = ((s.pbsr >>> i.toNat) &&& (1 : Word)).setWidth 1 ∧ t.pbsr = s.pbsr ∧ t.status = 0) ∧
    (∀ i : Word, 7 < i.toNat → exec (.flagRd i) s = .refused .flagOperand) ∧
    (∀ n : Word, n.toNat ≤ 255 → ∃ t, exec (.bcntWr n) s = .next t ∧
      t.pbsr = (s.pbsr &&& (0xFFFF00FF : Word)) ||| (n <<< 8) ∧ t.status = 0) ∧
    (∀ n : Word, 255 < n.toNat → exec (.bcntWr n) s = .refused .bootcountOperand) ∧
    ∃ t, exec .bcntRd s = .next t ∧
      t.res.bootcnt = ((s.pbsr >>> 8) &&& (0xFF : Word)).setWidth 8 ∧ t.pbsr = s.pbsr ∧ t.status = 0

/-- 45_bootstate R215: FLAGS.CLR clears the eight flags; that it keeps the boot counter is the spec's own decision D27. EXIT
keeping its value is log entry 13. -/
def Obligations.FlagsClrResult : Prop :=
  ∀ s : State, ready s → exec .flagsClr s = .next { s with pbsr := s.pbsr &&& (0xFFFFFF00 : Word), status := 0 }

/-- 45_bootstate R220, R227, R228, R229: the four commands that set or clear a named flag, whatever the indices of R211 are. That
the indices are parameters is the spec's own decision D26, the command forms its decision D30. -/
def Obligations.FlagCommandsWrite : Prop :=
  ∀ s : State, ready s →
    let update : Word := 1 <<< s.cfg.idxUpdate.val
    let fail : Word := 1 <<< s.cfg.idxFail.val
    exec .fwupClearUpdate s = .next { s with pbsr := s.pbsr &&& ~~~update, status := 0, exit := 0 } ∧
    exec .fwupClearFail s = .next { s with pbsr := s.pbsr &&& ~~~fail, status := 0, exit := 0 } ∧
    exec .fwupSetUpdate s = .next { s with pbsr := s.pbsr ||| update, status := 0, exit := 0 } ∧
    exec .fwupSetFail s = .next { s with pbsr := s.pbsr ||| fail, status := 0, exit := 0 }

/-- 45_bootstate R221, R222, R223, R225: the four commands that read PBSR, whatever the indices of R211 are, by the
spec's own decisions D26 and D30. -/
def Obligations.FlagCommandsRead : Prop :=
  ∀ s : State, ready s →
    exec .fwupFlags s = .next { s with res := { s.res with flags := s.pbsr.extractLsb' 0 8 }, status := 0, exit := 0 } ∧
    exec .fwupUpdate s = .next
      { s with res := { s.res with bit := s.pbsr.extractLsb' s.cfg.idxUpdate.val 1 }, status := 0,
               exit := if s.pbsr.getLsbD s.cfg.idxUpdate.val then 0 else 1 } ∧
    exec .fwupFail s = .next
      { s with res := { s.res with bit := s.pbsr.extractLsb' s.cfg.idxFail.val 1 }, status := 0,
               exit := if s.pbsr.getLsbD s.cfg.idxFail.val then 0 else 1 } ∧
    exec .fwupBootcnt s = .next { s with res := { s.res with bootcnt := s.pbsr.extractLsb' 8 8 }, status := 0, exit := 0 }

/-- 45_bootstate R224: the boot count goes up by one modulo 256; the flags and the reserved bits stay. The
wrap is the spec's own decision D29. -/
def Obligations.BootcountIncrements : Prop :=
  ∀ s : State, ready s → ∃ t, exec .fwupIncbootcnt s = .next t ∧
    t = { s with pbsr := t.pbsr, status := 0, exit := 0 } ∧
    ((t.pbsr >>> 8) &&& (0xFF : Word)).toNat = (((s.pbsr >>> 8) &&& (0xFF : Word)).toNat + 1) % 256 ∧
    t.pbsr &&& (0xFFFF00FF : Word) = s.pbsr &&& (0xFFFF00FF : Word)

/-- 45_bootstate R219: the flags, the boot count and the reserved bits are independent of one another, which the spec derives
from R212, R213, R215 and R216. -/
def Obligations.FlagsAreIndependent : Prop :=
  ∀ s t : State,
    (∀ i b : Word, exec (.flagWr i b) s = .next t →
      (∀ j : Word, j.toNat ≤ 7 → ∃ u, exec (.flagRd j) t = .next u ∧ u.pbsr = t.pbsr ∧
        ∃ v, exec (.flagRd j) s = .next v ∧ u.res.bit = if j = i then b.setWidth 1 else v.res.bit) ∧
      (∃ u v, exec .bcntRd t = .next u ∧ exec .bcntRd s = .next v ∧ u.pbsr = t.pbsr ∧ u.res.bootcnt = v.res.bootcnt) ∧
      t.pbsr.extractLsb' 16 16 = s.pbsr.extractLsb' 16 16) ∧
    (∀ n : Word, exec (.bcntWr n) s = .next t →
      (∃ u, exec .bcntRd t = .next u ∧ u.res.bootcnt.toNat = n.toNat) ∧
      ∀ j : Word, j.toNat ≤ 7 → ∃ u v, exec (.flagRd j) t = .next u ∧ exec (.flagRd j) s = .next v ∧
        u.res.bit = v.res.bit) ∧
    (exec .flagsClr s = .next t →
      (∀ j : Word, j.toNat ≤ 7 → ∃ u, exec (.flagRd j) t = .next u ∧ u.res.bit = 0) ∧
      ∃ u v, exec .bcntRd t = .next u ∧ exec .bcntRd s = .next v ∧ u.res.bootcnt = v.res.bootcnt)

/-- 10_state R30 to R33: the flags change only by the operations that write flags, the boot counter only by those that write
it, and the reserved bits by none (the table of R30 is the spec's own decision D32, R32 is derived by the spec). -/
def Obligations.PbsrFieldsHaveTheirWriters : Prop :=
  ∀ (i : Instr) (s t : State), exec i s = .next t →
    (writesFlags i = false → t.pbsr.extractLsb' 0 8 = s.pbsr.extractLsb' 0 8) ∧
    (writesBootcount i = false → t.pbsr.extractLsb' 8 8 = s.pbsr.extractLsb' 8 8) ∧
    t.pbsr.extractLsb' 16 16 = s.pbsr.extractLsb' 16 16

/-- 45_bootstate R226: the host compares the boot count it has read with BOOTLIMIT, unsigned, and halts the block when the
count is greater. That the count compared is the one in RES.BOOTCNT is log entry 27; the
rule rests on the spec's own decision D39. -/
def Obligations.BootLimitHaltsTheBlock : Prop :=
  ∀ (s : State) (rest : List Input), ready s → s.walk = none → s.inputs = .checkBootLimit :: rest →
    (s.cfg.bootLimit < s.res.bootcnt.toNat → step s = .next { s with inputs := rest, halt := true }) ∧
    (s.res.bootcnt.toNat ≤ s.cfg.bootLimit → step s = .next { s with inputs := rest })

/-! ## ERRSTATE and HALT -/

/-- 60_exceptions R261: ERRSTATE sets HALT and changes nothing else. The latch is the spec's own decision D31. -/
def Obligations.ErrstateOnlyHalts : Prop :=
  ∀ s : State, ready s → exec .errstate s = .next { s with halt := true }

/-- 60_exceptions R262: while HALT is 1 no operation is accepted (the spec's own decision D31). -/
def Obligations.HaltRefusesEveryInstruction : Prop :=
  ∀ (i : Instr) (s : State), s.halt = true → exec i s = .refused .halted

/-- 60_exceptions R262: while HALT is 1 no state changes but by a reset, which clears it (the spec's own decision D31; that
the idle step maps the state to itself is log entry 22). -/
def Obligations.HaltEndsOnlyByReset : Prop :=
  ∀ s t : State, s.halt = true → step s = .next t →
    t = s ∨ ∃ kind rest, s.inputs = .reset kind :: rest ∧ t = (s.withInputs rest).afterReset kind ∧ t.halt = false

/-! ## Reset -/

/-- 70_reset R281 to R284: a reset clears HALT and BF_READY and ends what is under way, be it between operations or at any
point of a walk; a warm or watchdog reset keeps all of PBSR (the spec's own decisions D32, D33). -/
def Obligations.ResetEffects : Prop :=
  ∀ (s : State) (kind : ResetKind) (rest : List Input), s.inputs = .reset kind :: rest →
    ∃ t, step s = .next t ∧ t.halt = false ∧ t.bfReady = false ∧ t.walk = none ∧ t.engine = .idle ∧ t.inputs = rest ∧
      t.cfg = s.cfg ∧ (kind ≠ .powerOn → t.pbsr = s.pbsr)

/-- 70_reset R281, R282: what a reset leaves does not depend on what P, S, BF_READY, HALT, ARG, STATUS, EXIT, RES, MEM or a
walk held, nor, after a power-on reset, on PBSR: the free values in their place are numbered by the count of draws (log
entries 11, 12; the spec's own decision D32). -/
def Obligations.ResetForgetsAllButPbsr : Prop :=
  ∀ (s t : State) (kind : ResetKind), s.cfg = t.cfg → s.inputs = t.inputs → s.draws = t.draws →
    (kind ≠ .powerOn → s.pbsr = t.pbsr) → s.afterReset kind = t.afterReset kind

/-- 70_reset R284: a warm or watchdog reset during an operation leaves PBSR as it was or as the operation would have written
it; an operation that would have faulted, or been refused by a line of its pseudocode, had not written it yet. A command that
is turned away before it begins is refused. Which value PBSR has is a free value, and which refusals come in the run is log
entry 23; that it is one of the two is the spec's own decision D33. -/
def Obligations.ResetDuringOperation : Prop :=
  ∀ (s : State) (kind : ResetKind) (c : Command) (rest : List Input), s.walk = none → s.inputs = .resetDuring kind c :: rest →
    let inRun : List Refusal :=
      [.totalLengthBelowCrcOffset, .decryptLength, .noKeySchedule, .keyLength, .flagOperand, .bootcountOperand]
    (∀ u, issue c (s.withInputs rest) = .next u → ∃ t, step s = .next t ∧ t.halt = false ∧ t.bfReady = false ∧ t.walk = none ∧
      (kind ≠ .powerOn → t.pbsr = s.pbsr ∨ t.pbsr = u.pbsr)) ∧
    (∀ f, issue c (s.withInputs rest) = .fault f → ∃ t, step s = .next t ∧ t.halt = false ∧ t.bfReady = false ∧
      t.walk = none ∧ (kind ≠ .powerOn → t.pbsr = s.pbsr)) ∧
    (∀ r, issue c (s.withInputs rest) = .refused r →
      (r ∈ inRun → ∃ t, step s = .next t ∧ t.halt = false ∧ t.bfReady = false ∧ t.walk = none ∧
        (kind ≠ .powerOn → t.pbsr = s.pbsr)) ∧
      (r ∉ inRun → step s = .refused r))

/-- 70_reset R285, 10_state R41: a block that has been reset, and has been asked for nothing, is idle; State.reset is such a
block, with HALT and BF_READY 0 and nothing under way. The spec derives R285. -/
def Obligations.IdleAfterReset : Prop :=
  (∀ (s : State) (kind : ResetKind), s.inputs = [] → step (s.afterReset kind) = .next (s.afterReset kind)) ∧
  step State.reset = .next State.reset ∧ State.reset.halt = false ∧ State.reset.bfReady = false ∧
  State.reset.walk = none ∧ State.reset.engine = .idle

/-! ## What an instruction leaves unchanged -/

/-- 10_state R42: every byte of MEM is unchanged by every instruction but DECRYPT, and by DECRYPT outside its buffer. The
spec derives R42 from its per-operation rules. -/
def Obligations.MemoryFrame : Prop :=
  ∀ (i : Instr) (s t : State), exec i s = .next t →
    (∀ addr len, i = .decrypt addr len →
      ∀ a, a < addr ∨ addr + len.toNat ≤ a → Memory.read t.mem a = Memory.read s.mem a) ∧
    ((∀ addr len, i ≠ .decrypt addr len) → ∀ a, Memory.read t.mem a = Memory.read s.mem a)

/-- 10_state R42: PBSR changes only by the operations that write it, P, S and BF_READY only by those that run the key
schedule, HALT only by ERRSTATE; no instruction changes the operand latches, the parameters or what the outside still
does; and no host operation leaves a walk or a digest engine running (10_state R22, R36). The spec derives R42. -/
def Obligations.RegisterFrame : Prop :=
  ∀ (i : Instr) (s t : State), exec i s = .next t →
    (writesFlags i = false → writesBootcount i = false → t.pbsr = s.pbsr) ∧
    (runsKeySchedule i = false → t.keys = s.keys ∧ t.bfReady = s.bfReady) ∧
    (i ≠ .errstate → t.halt = s.halt) ∧
    t.arg = s.arg ∧ t.cfg = s.cfg ∧ t.inputs = s.inputs ∧
    (isRecord i = false → s.walk = none → t.walk = none) ∧ (s.engine = .idle → t.engine = .idle)

/-- 10_state R25, R42: a successful operation writes only its own result fields, and EXIT only if it has a command form. That the
others keep their values is the model's choice, log entries 13 and 33. -/
def Obligations.ResultFrame : Prop :=
  ∀ (i : Instr) (s t : State), exec i s = .next t → t.status = 0 →
    ((∀ b, i ≠ .globver b) → t.res.version = s.res.version) ∧
    ((∀ b, i ≠ .chnknum b) → t.res.count = s.res.count) ∧
    ((∀ b k, i ≠ .chnkhdrN b k) → (∀ b n, i ≠ .chnkhdrD b n) → t.res.hdr = s.res.hdr) ∧
    ((∀ b n, i ≠ .chnkhdrD b n) → t.res.index = s.res.index) ∧
    ((∀ a n, i ≠ .decrypt a n) → t.res.len = s.res.len) ∧
    ((∀ j, i ≠ .flagRd j) → i ≠ .fwupUpdate → i ≠ .fwupFail → t.res.bit = s.res.bit) ∧
    (i ≠ .fwupFlags → t.res.flags = s.res.flags) ∧
    (i ≠ .bcntRd → i ≠ .fwupBootcnt → t.res.bootcnt = s.res.bootcnt) ∧
    ((∀ l r, i ≠ .bfEnc l r) → (∀ l r, i ≠ .bfDec l r) → t.res.xl = s.res.xl ∧ t.res.xr = s.res.xr) ∧
    ((∀ a n, i ≠ .crc32 a n) → t.res.crc = s.res.crc) ∧
    ((∀ a n, i ≠ .md5 a n) → t.res.md5 = s.res.md5) ∧
    ((∀ a n, i ≠ .sha256 a n) → t.res.sha = s.res.sha) ∧
    (exitFollowsStatus i = false → i ≠ .fwupUpdate → i ≠ .fwupFail → t.exit = s.exit)

/-- 30_encoding R100: EXIT is 0 exactly when STATUS is, for the operations with a command form that test no flag (the
spec's own decision D34). -/
def Obligations.ExitFollowsStatus : Prop :=
  ∀ (i : Instr) (s t : State), exitFollowsStatus i = true → exec i s = .next t →
    (t.status = 0 ∧ t.exit = 0) ∨ (t.status ≠ 0 ∧ t.exit = 1)

/-- 60_exceptions R241, R257 and 10_state R24: `Valid` is 0, every other named code is negative and no two are equal (the numbers
are the spec's own decision D4). An operation that ends with a status has EXIT = 1, has changed no PBSR, no HALT and, unless it is
DECRYPT, no P, S, BF_READY or MEM, and leaves the block idle for the next operation (its decision D14; log entry 20 for DECRYPT);
and that status is one of the named codes, of VALID apart, whose failing walker leaves it open (41_validator R148, log entry
19). -/
def Obligations.FailureChangesNothingElse : Prop :=
  (Status.valid.code = 0 ∧ (∀ st : Status, st ≠ .valid → st.code.toInt < 0) ∧ ∀ a b : Status, a.code = b.code → a = b) ∧
  ∀ (i : Instr) (s t : State), isRecord i = false → i ≠ .errstate → exec i s = .next t → t.status ≠ 0 →
    t.exit = 1 ∧ t.pbsr = s.pbsr ∧ t.halt = s.halt ∧ t.walk = none ∧ t.engine = .idle ∧
    ((∀ a n, i ≠ .decrypt a n) → t.keys = s.keys ∧ t.bfReady = s.bfReady ∧ t.mem = s.mem) ∧
    ((∀ b m, i ≠ .valid b m) → ∃ st : Status, st ≠ .valid ∧ t.status = st.code)

/-- 60_exceptions R243: the operations that cannot end with a non-zero status. What EXIT carries for the two flag tests is
30_encoding R100 and 45_bootstate R222, R223, with the indices of R211 (the spec's own decisions D26, D30, D34). -/
def Obligations.NonFailingOperations : Prop :=
  ∀ (i : Instr) (s t : State), exec i s = .next t →
    (bootState i = true → t.status = 0) ∧
    ((∃ a n, i = .crc32 a n ∨ i = .md5 a n ∨ i = .sha256 a n ∨ i = .bfEnc a n ∨ i = .bfDec a n) → t.status = 0) ∧
    ((∃ key, i = .bfInit key) → t.status = 0) ∧
    ((∃ b, i = .globver b) → t.status = 0 ∨ s.cfg.store = .file ∧ t.status = Status.fileIOError.code) ∧
    (i = .fwupUpdate → t.exit = if s.pbsr.getLsbD s.cfg.idxUpdate.val then 0 else 1) ∧
    (i = .fwupFail → t.exit = if s.pbsr.getLsbD s.cfg.idxFail.val then 0 else 1)

/-- 20_memory R50: no operation reaches both spaces. The operations on PBSR do the same whatever MEM holds, and all others do
the same whatever PBSR holds. The two runs compared have the same count of draws, so they see the same free values (log
entry 11). -/
def Obligations.SpacesAreSeparate : Prop :=
  ∀ (i : Instr) (s t : State), exec i s = .next t →
    (bootState i = true → ∀ m, exec i (s.withMem m) = .next (t.withMem m)) ∧
    (bootState i = false → ∀ v, exec i (s.withPbsr v) = .next (t.withPbsr v))

/-! ## The walker -/

/-- 40_parser R110: GLOBVER gives the version quad at offset 20 of any buffer, and faults when bytes 20 to 35 cannot all be
read (log entry 35); with the image in a file store it may end with FileIOError instead. -/
def Obligations.GlobverResult : Prop :=
  ∀ (s : State) (base : Nat), ready s →
    let v := fun k => le32At (Memory.bytes s.mem (base + 20 + k) 4) 0
    (inRam s → readableRun s (base + 20) 16 → ∃ t, exec (.globver base) s = .next t ∧
      t.res.version = ⟨v 0, v 4, v 8, v 12⟩ ∧ t.status = 0) ∧
    (inRam s → ¬ readableRun s (base + 20) 16 → exec (.globver base) s = .fault .outOfExtent) ∧
    (s.cfg.store = .file → (∀ t, exec (.globver base) s = .next t →
      t.status = Status.fileIOError.code ∨ t.res.version = ⟨v 0, v 4, v 8, v 12⟩ ∧ t.status = 0) ∧
      (¬ readableRun s (base + 20) 16 → ∀ t, exec (.globver base) s = .next t → t.status = Status.fileIOError.code))

/-- 40_parser R113, R114: CHNKNUM gives the payload of the first `CHNK` record among the declared global options, and NotFound
when none of them is `CHNK`, be there none at all. With the image in RAM. -/
def Obligations.ChnknumResult : Prop :=
  ∀ (s : State) (base : Nat) (rest : List Byte), ready s → inRam s →
    (∀ (n : Nat) (before : List Record) (chnk : Record), n < 2 ^ 32 → before.length < n →
      (∀ r ∈ before, r.spelled ∧ r.id ≠ RecordId.chnk) → chnk.spelled → chnk.id = RecordId.chnk → 4 ≤ chnk.payload.length →
      holds s (base + 36) (le32 (BitVec.ofNat 32 n) ++ (recordsBytes before ++ (chnk.bytes ++ rest))) →
      exec (.chnknum base) s = .next
        { s with walk := none, res := { s.res with count := le32At chnk.payload 0 }, status := 0, exit := 0 }) ∧
    (∀ opts : List Record, opts.length < 2 ^ 32 → (∀ r ∈ opts, r.spelled ∧ r.id ≠ RecordId.chnk) →
      holds s (base + 36) (le32 (BitVec.ofNat 32 opts.length) ++ (recordsBytes opts ++ rest)) →
      ∃ t, exec (.chnknum base) s = .next t ∧ t.status = Status.notFound.code ∧ t.exit = 1)

/-- 40_parser R116, R118, R128, R129: on an image that stands in memory CHNKHDR.N gives the header that the records of the chunk
group asked for build, in storage order, from one with no option present, or ends with the status of the first record of that
group that the walker does not accept; what the other groups hold does not matter. The fields of absent options are free values
(log entry 11; the spec's own decision D14). CHNKHDR.N has no command form, so that EXIT keeps its value on success is log entry
13. -/
def Obligations.ChnkhdrGivesTheGroupsHeader : Prop :=
  ∀ (s : State) (m : Image) (base : Nat) (k : Word) (pre : List (List Record)) (g : List Record) (post : List (List Record)),
    ready s → inRam s → m.spelled → m.stands base s → m.groups = pre ++ g :: post → k.toNat = pre.length + 1 →
    ((∀ r ∈ g, r.whole) →
      exec (.chnkhdrN base k) s = .next
        { s with walk := none, res := { s.res with hdr := groupHeader (emptyHeader s.draws) g }, status := 0,
                 draws := s.draws + 1 }) ∧
    (∀ st, stopsWith g st → ∃ t, exec (.chnkhdrN base k) s = .next t ∧ t.status = st.code ∧ t.exit = 1)

/-- 40_parser R117: CHNKHDR.N ends with NotFound for a chunk number of 0 or above the count, and for every chunk number when none of
the declared global options is `CHNK`, be there none at all (the spec's own decision D17). With the image in RAM. -/
def Obligations.ChunkNumberOutOfRange : Prop :=
  ∀ (s : State) (base : Nat) (k : Word), ready s → inRam s →
    (∀ m : Image, m.spelled → m.stands base s → k.toNat = 0 ∨ m.groups.length < k.toNat →
      ∃ t, exec (.chnkhdrN base k) s = .next t ∧ t.status = Status.notFound.code ∧ t.exit = 1) ∧
    (∀ (opts : List Record) (rest : List Byte), opts.length < 2 ^ 32 → (∀ r ∈ opts, r.spelled ∧ r.id ≠ RecordId.chnk) →
      holds s (base + 36) (le32 (BitVec.ofNat 32 opts.length) ++ (recordsBytes opts ++ rest)) →
      ∃ t, exec (.chnkhdrN base k) s = .next t ∧ t.status = Status.notFound.code ∧ t.exit = 1)

/-- 40_parser R118, R128: a record of the target group with a length above 512 ends the operation with ParseError whatever its
id; one with an unrecognised id and no such length ends it with UnknownOption. The order of the two tests is the spec's own
decision D16. -/
def Obligations.TargetGroupErrors : Prop :=
  ∀ (s : State) (w : Walk) (id length : Word), ready s → s.walk = some w → w.phase = .group → w.c = w.k →
    (512 < length.toNat → exec (decodeChunkOption id length) s = .next (s.failed Status.parseError.code)) ∧
    (id ∉ RecordId.chunkIds → decodeChunkOption id length = .coptOther id length) ∧
    (length.toNat ≤ 512 → exec (.coptOther id length) s = .next (s.failed Status.unknownOption.code))

/-- 40_parser R112, R115, R116: a record that is not looked at, be it in a chunk group that is not the target or in the skip
loop over the global options, or a global option that is not `CHNK`, only moves the cursor past itself, whatever its id and
its length. That no length limit holds there is the spec's own decision D16. -/
def Obligations.PassedOverRecords : Prop :=
  ∀ (s : State) (w : Walk) (id length : Word), ready s → s.walk = some w →
    let t := { s with walk := some { w with cur := w.cur + 8 + length.toNat, j := w.j + 1 } }
    (w.phase = .group → w.c ≠ w.k →
      exec (decodeChunkOption id length) s = .next t ∧ exec (.coptOther id length) s = .next t) ∧
    (w.phase = .skip → exec (decodeGlobalOption id length) s = .next t) ∧
    (w.phase = .find → id ≠ RecordId.chnk → exec (.goptOther id length) s = .next t)

/-- 40_parser R114: a `CHNK` record met by the search gives the count, its first payload word; the bytes of the count beyond a
shorter payload are free values (40_parser R119). -/
def Obligations.ChnkRecord : Prop :=
  ∀ (s : State) (w : Walk) (length : Word), ready s → inRam s → s.walk = some w → w.phase = .find →
    readableRun s (w.cur + 8) 4 →
    (4 ≤ length.toNat → exec (.chnk length) s = .next
      { s with walk := some { w with found := some (le32At (Memory.bytes s.mem (w.cur + 8) 4) 0) } }) ∧
    (length.toNat < 4 → ∃ v : Word, exec (.chnk length) s = .next
        { s with walk := some { w with found := some v }, draws := s.draws + 1 } ∧
      ∀ i < length.toNat, (le32 v).getD i 0 = Memory.read s.mem (w.cur + 8 + i))

/-- 40_parser R120 to R127: what each recognised record of the target group does when its payload fills its field. The places of the
flag bits are the spec's own decision D13. -/
def Obligations.FieldRecords : Prop :=
  ∀ (s : State) (w : Walk) (length : Word), ready s → inRam s → s.walk = some w → w.phase = .group → w.c = w.k →
    length.toNat ≤ 512 →
    let p := w.cur + 8
    let word := fun k => le32At (Memory.bytes s.mem (p + k) 4) 0
    let next : ChunkHeader → Host.Outcome State Fault Refusal := fun h =>
      .next { s with walk := some { w with hdr := h, cur := p + length.toNat, j := w.j + 1 } }
    (16 ≤ length.toNat → readableRun s p 16 → exec (.versOpt length) s =
      next { w.hdr with version := ⟨word 0, word 4, word 8, word 12⟩, hdrFlag := w.hdr.hdrFlag ||| 0x01 }) ∧
    (4 ≤ length.toNat → readableRun s p 4 →
      exec (.sizeOpt length) s = next { w.hdr with size := word 0, hdrFlag := w.hdr.hdrFlag ||| 0x02 } ∧
      exec (.dataOpt length) s = next { w.hdr with data := word 0, hdrFlag := w.hdr.hdrFlag ||| 0x04 } ∧
      exec (.cr32Opt length) s = next { w.hdr with crc32 := word 0, hdrFlag := w.hdr.hdrFlag ||| 0x40 } ∧
      exec (.encmOpt length) s = next { w.hdr with encryptionMethod := word 0, hdrFlag := w.hdr.hdrFlag ||| 0x80 }) ∧
    (32 ≤ length.toNat → readableRun s p 32 →
      exec (.destOpt length) s =
        next { w.hdr with dest := fixedBytes 32 (Memory.bytes s.mem p 32), hdrFlag := w.hdr.hdrFlag ||| 0x08 } ∧
      exec (.sha2Opt length) s =
        next { w.hdr with sha256 := fixedBytes 32 (Memory.bytes s.mem p 32), hdrFlag := w.hdr.hdrFlag ||| 0x20 }) ∧
    (16 ≤ length.toNat → readableRun s p 16 → exec (.md5Opt length) s =
      next { w.hdr with md5 := fixedBytes 16 (Memory.bytes s.mem p 16), hdrFlag := w.hdr.hdrFlag ||| 0x10 })

/-- 40_parser R119: a recognised record of the target group whose payload is too short sets its flag and moves the cursor by its
own length; the bytes of the field inside the payload are the payload's, and nothing is said of the others. That the whole
field must be readable is log entry 15; the free bytes are the spec's own decision D20. That records of one kind of field met
in the same state have the same free bytes is the numbering of the draws, log entry 11. -/
def Obligations.ShortPayloads : Prop :=
  ∀ (s : State) (w : Walk) (length : Word), ready s → inRam s → s.walk = some w → w.phase = .group → w.c = w.k →
    let p := w.cur + 8
    let next : ChunkHeader → Host.Outcome State Fault Refusal := fun h =>
      .next { s with walk := some { w with hdr := h, cur := p + length.toNat, j := w.j + 1 }, draws := s.draws + 1 }
    let payload : List Byte → Prop := fun b => ∀ i < length.toNat, b.getD i 0 = Memory.read s.mem (p + i)
    (length.toNat < 16 → readableRun s p 16 → ∃ v : Version,
      payload (le32 v.major ++ le32 v.minor ++ le32 v.commitCount ++ le32 v.gitHash) ∧
      exec (.versOpt length) s = next { w.hdr with version := v, hdrFlag := w.hdr.hdrFlag ||| 0x01 }) ∧
    (length.toNat < 4 → readableRun s p 4 → ∃ v : Word, payload (le32 v) ∧
      exec (.sizeOpt length) s = next { w.hdr with size := v, hdrFlag := w.hdr.hdrFlag ||| 0x02 } ∧
      exec (.dataOpt length) s = next { w.hdr with data := v, hdrFlag := w.hdr.hdrFlag ||| 0x04 } ∧
      exec (.cr32Opt length) s = next { w.hdr with crc32 := v, hdrFlag := w.hdr.hdrFlag ||| 0x40 } ∧
      exec (.encmOpt length) s = next { w.hdr with encryptionMethod := v, hdrFlag := w.hdr.hdrFlag ||| 0x80 }) ∧
    (length.toNat < 32 → readableRun s p 32 → ∃ v : Vector Byte 32, payload v.toList ∧
      exec (.destOpt length) s = next { w.hdr with dest := v, hdrFlag := w.hdr.hdrFlag ||| 0x08 } ∧
      exec (.sha2Opt length) s = next { w.hdr with sha256 := v, hdrFlag := w.hdr.hdrFlag ||| 0x20 }) ∧
    (length.toNat < 16 → readableRun s p 16 → ∃ v : Vector Byte 16, payload v.toList ∧
      exec (.md5Opt length) s = next { w.hdr with md5 := v, hdrFlag := w.hdr.hdrFlag ||| 0x10 })

/-- 40_parser R130, R131: CHNKHDR.D gives the header and the number of the first chunk that carries a destination name equal
to the one asked for, whatever the chunks after it hold, and NotFound when there is none or when none of the declared global
options is `CHNK`; a chunk before that whose group the walker does not accept ends it with that group's status (the spec's
own decision D18). The fields of absent options are free values numbered by the draws (log entry 11). -/
def Obligations.ChnkhdrFindsByName : Prop :=
  ∀ (s : State) (base : Nat) (name : List Byte), ready s → inRam s →
    let named : ChunkHeader → Prop := fun h => h.has flagDest = true ∧
      h.dest.toList.take name.length = name ∧ (name.length = 32 ∨ h.dest.toList.getD name.length 0 = 0)
    let passes : List Record → Prop := fun g => (∀ r ∈ g, r.whole) ∧ ¬ named (groupHeader ChunkHeader.zero g)
    (∀ m : Image, m.spelled → m.stands base s → nameOk name = true →
      (∀ pre g post, m.groups = pre ++ g :: post → (∀ x ∈ pre, passes x) →
        ((∀ r ∈ g, r.whole) → named (groupHeader ChunkHeader.zero g) →
          exec (.chnkhdrD base name) s = .next
            { s with walk := none,
                     res := { s.res with hdr := groupHeader (emptyHeader (s.draws + pre.length)) g,
                                         index := BitVec.ofNat 32 (pre.length + 1) },
                     status := 0, exit := 0, draws := s.draws + pre.length + 1 }) ∧
        (∀ st, stopsWith g st → ∃ t, exec (.chnkhdrD base name) s = .next t ∧ t.status = st.code ∧ t.exit = 1)) ∧
      ((∀ x ∈ m.groups, passes x) →
        ∃ t, exec (.chnkhdrD base name) s = .next t ∧ t.status = Status.notFound.code ∧ t.exit = 1)) ∧
    (∀ (opts : List Record) (rest : List Byte), opts.length < 2 ^ 32 → (∀ r ∈ opts, r.spelled ∧ r.id ≠ RecordId.chnk) →
      holds s (base + 36) (le32 (BitVec.ofNat 32 opts.length) ++ (recordsBytes opts ++ rest)) →
      ∃ t, exec (.chnkhdrD base name) s = .next t ∧ t.status = Status.notFound.code ∧ t.exit = 1)

/-! ## The validator -/

/-- 41_validator R140: MAGIC compares the eight bytes at the base with "S800_UPD" and reads nothing else; with the image in a
file store it may end with FileIOError instead. -/
def Obligations.MagicResult : Prop :=
  ∀ (s : State) (base : Nat), ready s → readableRun s base 8 →
    let magic := Memory.bytes s.mem base 8 = [0x53, 0x38, 0x30, 0x30, 0x5F, 0x55, 0x50, 0x44]
    (inRam s → magic → ∃ t, exec (.magic base) s = .next t ∧ t.status = 0 ∧ t.exit = 0) ∧
    (inRam s → ¬ magic → ∃ t, exec (.magic base) s = .next t ∧ t.status = Status.magicError.code ∧ t.exit = 1) ∧
    (s.cfg.store = .file → ∃ t, exec (.magic base) s = .next t ∧
      (t.status = Status.fileIOError.code ∨ magic ∧ t.status = 0 ∧ t.exit = 0 ∨
        ¬ magic ∧ t.status = Status.magicError.code ∧ t.exit = 1))

/-- 41_validator R142, R143, R144: the first three checks of VALID in their order, each of which needs no more of the image
than its own field and those before it; a limit that holds makes the same of an image as no limit,
with the same free values in both, since the two runs have the same count of draws (log entry 11). With the image in RAM. -/
def Obligations.ValidFirstThreeChecks : Prop :=
  ∀ (s : State) (base : Nat) (maxSize : Word), ready s → inRam s →
    let word := fun k => le32At (Memory.bytes s.mem (base + k) 4) 0
    let magic := Memory.bytes s.mem base 8 = [0x53, 0x38, 0x30, 0x30, 0x5F, 0x55, 0x50, 0x44]
    let fits := maxSize = 0 ∨ (word 12).toNat ≤ maxSize.toNat
    readableRun s base 8 →
    (¬ magic → ∃ t, exec (.valid base maxSize) s = .next t ∧ t.status = Status.magicError.code) ∧
    (readableRun s (base + 12) 4 → magic → ¬ fits →
      ∃ t, exec (.valid base maxSize) s = .next t ∧ t.status = Status.totalLengthError.code) ∧
    (readableRun s (base + 8) 8 → magic → fits → 1 < (word 8).toNat →
      ∃ t, exec (.valid base maxSize) s = .next t ∧ t.status = Status.formatVersionError.code) ∧
    (fits → exec (.valid base maxSize) s = exec (.valid base 0) s)

/-- 41_validator R145, R149: once the first three checks have passed, a total length below 20 is refused (the spec's own
decision D7) and a wrong global CRC-32 ends VALID with Crc32Error; the range is the spec's own decision D6. -/
def Obligations.ValidGlobalCrcCheck : Prop :=
  ∀ (s : State) (base : Nat) (maxSize : Word), ready s → inRam s →
    let word := fun k => le32At (Memory.bytes s.mem (base + k) 4) 0
    let tl := word 12
    Memory.bytes s.mem base 8 = [0x53, 0x38, 0x30, 0x30, 0x5F, 0x55, 0x50, 0x44] →
    maxSize = 0 ∨ tl.toNat ≤ maxSize.toNat → (word 8).toNat ≤ 1 →
    (readableRun s base 16 → tl.toNat < 20 →
      exec (.valid base maxSize) s = .refused .totalLengthBelowCrcOffset) ∧
    (readableRun s base 20 → 20 ≤ tl.toNat → readableRun s (base + 20) (tl.toNat - 20) →
      crc32Fn (Memory.bytes s.mem (base + 20) (tl.toNat - 20)) ≠ word 16 →
      exec (.valid base maxSize) s = .next (s.failed Status.crc32Error.code))

/-- 41_validator R146, R147, R152: on an image that stands in memory, whose records the walker accepts and whose digested payloads
can be read, VALID ends with Valid exactly when the magic matches, the total length is within the limit (0 being none), the format
version is at most 1, the global CRC-32 matches, and every digest present in a minimally valid chunk matches. When the first four
of these hold, the first chunk in number that has a digest that does not match decides, whatever the chunks after it hold: VALID
ends with Crc32Error, Md5Error or Sha256Error as the first such digest in the order `cr32`, `md5_`, `sha2` has it (`digestFails`;
the order and the codes are the spec's own decision D22). The image is in RAM and every record of the chunk groups that are met
fills its field. That the range of the global CRC-32 begins at byte 20 is the spec's own decision D6, and which digest functions
these are its decisions D5 and D8 (log entry 24). -/
def Obligations.ValidExactlyWhenEveryCheckPasses : Prop :=
  ∀ (s : State) (m : Image) (base : Nat) (maxSize : Word), ready s → inRam s → m.spelled → m.stands base s →
    readableRun s base 20 →
    let word := fun k => le32At (Memory.bytes s.mem (base + k) 4) 0
    let tl := word 12
    20 ≤ tl.toNat → readableRun s (base + 20) (tl.toNat - 20) →
    let header := groupHeader ChunkHeader.zero
    let headPasses :=
      Memory.bytes s.mem base 8 = [0x53, 0x38, 0x30, 0x30, 0x5F, 0x55, 0x50, 0x44] ∧
      (maxSize = 0 ∨ tl.toNat ≤ maxSize.toNat) ∧ (word 8).toNat ≤ 1 ∧
      crc32Fn (Memory.bytes s.mem (base + 20) (tl.toNat - 20)) = word 16
    ((∀ g ∈ m.groups, ∀ r ∈ g, r.whole) → (∀ g ∈ m.groups, payloadReadable s base (header g)) →
      ∃ t, exec (.valid base maxSize) s = .next t ∧
        (t.status = 0 ↔ headPasses ∧ ∀ g ∈ m.groups, digestsMatch s base (header g))) ∧
    (headPasses → ∀ (pre : List (List Record)) (g : List Record) (post : List (List Record)), m.groups = pre ++ g :: post →
      (∀ x ∈ pre, (∀ r ∈ x, r.whole) ∧ payloadReadable s base (header x) ∧ digestsMatch s base (header x)) →
      (∀ r ∈ g, r.whole) → payloadReadable s base (header g) → ∀ st, digestFails s base (header g) st →
      ∃ t, exec (.valid base maxSize) s = .next t ∧ t.status = st.code ∧ t.exit = 1)

/-- 41_validator R148: when steps 1 to 4 pass and the walker fails in step 5, VALID ends with a status other than 0: the image
has no `CHNK` record, or a chunk, after chunks that pass, has a record that ends the walk with ParseError or UnknownOption. Which
status is a free value (log entry 19; the spec's own decision D21); the range of step 4 is its decision D6. -/
def Obligations.ValidFailsWithoutChunkCount : Prop :=
  ∀ (s : State) (base : Nat) (maxSize : Word), ready s → inRam s → readableRun s base 20 →
    let word := fun k => le32At (Memory.bytes s.mem (base + k) 4) 0
    let tl := word 12
    Memory.bytes s.mem base 8 = [0x53, 0x38, 0x30, 0x30, 0x5F, 0x55, 0x50, 0x44] →
    maxSize = 0 ∨ tl.toNat ≤ maxSize.toNat → (word 8).toNat ≤ 1 → 20 ≤ tl.toNat →
    readableRun s (base + 20) (tl.toNat - 20) →
    crc32Fn (Memory.bytes s.mem (base + 20) (tl.toNat - 20)) = word 16 →
    (∀ (opts : List Record) (rest : List Byte), opts.length < 2 ^ 32 → (∀ r ∈ opts, r.spelled ∧ r.id ≠ RecordId.chnk) →
      holds s (base + 36) (le32 (BitVec.ofNat 32 opts.length) ++ (recordsBytes opts ++ rest)) →
      ∃ t, exec (.valid base maxSize) s = .next t ∧ t.status ≠ 0 ∧ t.exit = 1) ∧
    (∀ (m : Image) (pre : List (List Record)) (g : List Record) (post : List (List Record)) (st : Status),
      m.spelled → m.stands base s → m.groups = pre ++ g :: post →
      (∀ x ∈ pre, (∀ r ∈ x, r.whole) ∧ payloadReadable s base (groupHeader ChunkHeader.zero x) ∧
        digestsMatch s base (groupHeader ChunkHeader.zero x)) →
      stopsWith g st → ∃ t, exec (.valid base maxSize) s = .next t ∧ t.status ≠ 0 ∧ t.exit = 1)

/-- 41_validator R151: changing any one byte inside the global CRC range of an image that VALID accepts makes VALID end with
Crc32Error. The image is in RAM. That the range begins at byte 20 is the spec's own decision D6, and which CRC-32 it is its
decision D5 (log entry 24). -/
def Obligations.SingleByteCorruptionIsCaught : Prop :=
  ∀ (s t : State) (base : Nat) (maxSize : Word) (x : Nat) (v : Byte), inRam s →
    exec (.valid base maxSize) s = .next t → t.status = 0 →
    base + 20 ≤ x → x < base + (le32At (Memory.bytes s.mem (base + 12) 4) 0).toNat →
    v ≠ Memory.read s.mem x →
    ∃ u, exec (.valid base maxSize) (s.withMem (Memory.write s.mem x v)) = .next u ∧ u.status = Status.crc32Error.code

/-! ## The digests -/

/-- 42_digest_engines R160: CRC32, by the rule's own shifts. The algorithm is not in the source but the spec's own decision
D5 (log entry 24). CRC32 has no command form, so that EXIT keeps its value is log entry 13. -/
def Obligations.CrcResult : Prop :=
  ∀ (s : State) (addr : Nat) (len : Word), ready s → inRam s → readableRun s addr len.toNat →
    let bit := fun (c : Word) (_ : Nat) => if c.getLsbD 0 then (c >>> 1) ^^^ (0xEDB88320 : Word) else c >>> 1
    let byte := fun (c : Word) (b : Byte) => (List.range 8).foldl bit (c ^^^ b.setWidth 32)
    exec (.crc32 addr len) s = .next
      { s with engine := .idle, status := 0,
               res := { s.res with
                 crc := (Memory.bytes s.mem addr len.toNat).foldl byte (0xFFFFFFFF : Word) ^^^ (0xFFFFFFFF : Word) } }

/-- 42_digest_engines R165, R166, R170, R171: MD5 and SHA256 of a run of memory, by the rules' own padding, constants and steps;
`z` is the number of zero bytes that fills the last block. The algorithms are the spec's own decision D8 (log entry 24). MD5 and
SHA256 have no command form, so that EXIT keeps its value is log entry 13. -/
def Obligations.HashResults : Prop :=
  ∀ (s : State) (addr : Nat) (len : Word) (z : Nat), ready s → inRam s → readableRun s addr len.toNat →
    z < 64 → (len.toNat + 9 + z) % 64 = 0 →
    let bytes := Memory.bytes s.mem addr len.toNat
    let lengthByte := fun (n : Nat) => BitVec.ofNat 8 (8 * len.toNat / 2 ^ (8 * n))
    let filled := bytes ++ 0x80 :: List.replicate z 0
    let block := fun (msg : List Byte) (n : Nat) => (msg.drop (64 * n)).take 64
    -- MD5
    let md5Message := filled ++ (List.range 8).map lengthByte
    let k : List Word := [
      0xD76AA478, 0xE8C7B756, 0x242070DB, 0xC1BDCEEE, 0xF57C0FAF, 0x4787C62A, 0xA8304613, 0xFD469501,
      0x698098D8, 0x8B44F7AF, 0xFFFF5BB1, 0x895CD7BE, 0x6B901122, 0xFD987193, 0xA679438E, 0x49B40821,
      0xF61E2562, 0xC040B340, 0x265E5A51, 0xE9B6C7AA, 0xD62F105D, 0x02441453, 0xD8A1E681, 0xE7D3FBC8,
      0x21E1CDE6, 0xC33707D6, 0xF4D50D87, 0x455A14ED, 0xA9E3E905, 0xFCEFA3F8, 0x676F02D9, 0x8D2A4C8A,
      0xFFFA3942, 0x8771F681, 0x6D9D6122, 0xFDE5380C, 0xA4BEEA44, 0x4BDECFA9, 0xF6BB4B60, 0xBEBFBC70,
      0x289B7EC6, 0xEAA127FA, 0xD4EF3085, 0x04881D05, 0xD9D4D039, 0xE6DB99E5, 0x1FA27CF8, 0xC4AC5665,
      0xF4292244, 0x432AFF97, 0xAB9423A7, 0xFC93A039, 0x655B59C3, 0x8F0CCC92, 0xFFEFF47D, 0x85845DD1,
      0x6FA87E4F, 0xFE2CE6E0, 0xA3014314, 0x4E0811A1, 0xF7537E82, 0xBD3AF235, 0x2AD7D2BB, 0xEB86D391]
    let shifts : List (List Nat) := [[7, 12, 17, 22], [5, 9, 14, 20], [4, 11, 16, 23], [6, 10, 15, 21]]
    let md5Step := fun (x : List Word) (r : Md5Regs) (i : Nat) =>
      let f := if i < 16 then (r.b0 &&& r.c0) ||| (~~~r.b0 &&& r.d0)
        else if i < 32 then (r.d0 &&& r.b0) ||| (~~~r.d0 &&& r.c0)
        else if i < 48 then r.b0 ^^^ r.c0 ^^^ r.d0 else r.c0 ^^^ (r.b0 ||| ~~~r.d0)
      let g := if i < 16 then i else if i < 32 then (5 * i + 1) % 16 else if i < 48 then (3 * i + 5) % 16 else (7 * i) % 16
      let v := f + r.a0 + k.getD i 0 + x.getD g 0
      (⟨r.d0, r.b0 + v.rotateLeft ((shifts.getD (i / 16) []).getD (i % 4) 0), r.b0, r.c0⟩ : Md5Regs)
    let md5Block := fun (r : Md5Regs) (n : Nat) =>
      let x := (List.range 16).map fun g => le32At (block md5Message n) (4 * g)
      let t := (List.range 64).foldl (md5Step x) r
      (⟨r.a0 + t.a0, r.b0 + t.b0, r.c0 + t.c0, r.d0 + t.d0⟩ : Md5Regs)
    let m := (List.range (md5Message.length / 64)).foldl md5Block ⟨0x67452301, 0xEFCDAB89, 0x98BADCFE, 0x10325476⟩
    -- SHA-256
    let shaMessage := filled ++ (List.range 8).map fun n => lengthByte (7 - n)
    let kt : List Word := [
      0x428A2F98, 0x71374491, 0xB5C0FBCF, 0xE9B5DBA5, 0x3956C25B, 0x59F111F1, 0x923F82A4, 0xAB1C5ED5,
      0xD807AA98, 0x12835B01, 0x243185BE, 0x550C7DC3, 0x72BE5D74, 0x80DEB1FE, 0x9BDC06A7, 0xC19BF174,
      0xE49B69C1, 0xEFBE4786, 0x0FC19DC6, 0x240CA1CC, 0x2DE92C6F, 0x4A7484AA, 0x5CB0A9DC, 0x76F988DA,
      0x983E5152, 0xA831C66D, 0xB00327C8, 0xBF597FC7, 0xC6E00BF3, 0xD5A79147, 0x06CA6351, 0x14292967,
      0x27B70A85, 0x2E1B2138, 0x4D2C6DFC, 0x53380D13, 0x650A7354, 0x766A0ABB, 0x81C2C92E, 0x92722C85,
      0xA2BFE8A1, 0xA81A664B, 0xC24B8B70, 0xC76C51A3, 0xD192E819, 0xD6990624, 0xF40E3585, 0x106AA070,
      0x19A4C116, 0x1E376C08, 0x2748774C, 0x34B0BCB5, 0x391C0CB3, 0x4ED8AA4A, 0x5B9CCA4F, 0x682E6FF3,
      0x748F82EE, 0x78A5636F, 0x84C87814, 0x8CC70208, 0x90BEFFFA, 0xA4506CEB, 0xBEF9A3F7, 0xC67178F2]
    let s0 := fun (x : Word) => x.rotateRight 7 ^^^ x.rotateRight 18 ^^^ (x >>> 3)
    let s1 := fun (x : Word) => x.rotateRight 17 ^^^ x.rotateRight 19 ^^^ (x >>> 10)
    let schedule := fun (n : Nat) => (List.range 48).foldl
      (fun w i => w ++ [w.getD i 0 + s0 (w.getD (i + 1) 0) + w.getD (i + 9) 0 + s1 (w.getD (i + 14) 0)])
      ((List.range 16).map fun t => be32At (block shaMessage n) (4 * t))
    let shaStep := fun (w : List Word) (r : ShaRegs) (t : Nat) =>
      let t1 := r.h7 + (r.h4.rotateRight 6 ^^^ r.h4.rotateRight 11 ^^^ r.h4.rotateRight 25) +
        ((r.h4 &&& r.h5) ^^^ (~~~r.h4 &&& r.h6)) + kt.getD t 0 + w.getD t 0
      let t2 := (r.h0.rotateRight 2 ^^^ r.h0.rotateRight 13 ^^^ r.h0.rotateRight 22) +
        ((r.h0 &&& r.h1) ^^^ (r.h0 &&& r.h2) ^^^ (r.h1 &&& r.h2))
      (⟨t1 + t2, r.h0, r.h1, r.h2, r.h3 + t1, r.h4, r.h5, r.h6⟩ : ShaRegs)
    let shaBlock := fun (r : ShaRegs) (n : Nat) =>
      let t := (List.range 64).foldl (shaStep (schedule n)) r
      (⟨r.h0 + t.h0, r.h1 + t.h1, r.h2 + t.h2, r.h3 + t.h3, r.h4 + t.h4, r.h5 + t.h5, r.h6 + t.h6, r.h7 + t.h7⟩ : ShaRegs)
    let h := (List.range (shaMessage.length / 64)).foldl shaBlock
      ⟨0x6A09E667, 0xBB67AE85, 0x3C6EF372, 0xA54FF53A, 0x510E527F, 0x9B05688C, 0x1F83D9AB, 0x5BE0CD19⟩
    (exec (.md5 addr len) s = .next { s with engine := .idle, status := 0, res := { s.res with md5 := md5Fn bytes } } ∧
      (md5Fn bytes).toList = le32 m.a0 ++ le32 m.b0 ++ le32 m.c0 ++ le32 m.d0) ∧
    (exec (.sha256 addr len) s = .next { s with engine := .idle, status := 0, res := { s.res with sha := sha256Fn bytes } } ∧
      (sha256Fn bytes).toList = be32 h.h0 ++ be32 h.h1 ++ be32 h.h2 ++ be32 h.h3 ++ be32 h.h4 ++ be32 h.h5 ++ be32 h.h6 ++ be32 h.h7)

/-- 42_digest_engines R161: the table form of the byte step, which the spec derives from R160 (log entry 24). -/
def Obligations.CrcTableForm : Prop :=
  ∀ (c : Word) (b : Byte), crcByte c b = crcTable ((c ^^^ b.setWidth 32).setWidth 8) ^^^ (c >>> 8)

/-- 42_digest_engines R162 (b): a message followed by its own CRC-32 has a fixed CRC-32; by the spec from general
knowledge (log entry 24). -/
def Obligations.CrcResidue : Prop :=
  ∀ m : List Byte, crc32Fn (m ++ le32 (crc32Fn m)) = 0x2144DF1C

/-- 20_memory R53: the digest operations fault on a read outside READABLE, and never on a run of length 0 (the spec's
own decision D24). -/
def Obligations.ReadsOutsideTheExtentFault : Prop :=
  ∀ (s : State) (addr : Nat) (len : Word), ready s → inRam s →
    (¬ readableRun s addr len.toNat →
      exec (.crc32 addr len) s = .fault .outOfExtent ∧ exec (.md5 addr len) s = .fault .outOfExtent ∧
      exec (.sha256 addr len) s = .fault .outOfExtent) ∧
    (len = 0 → readableRun s addr len.toNat) ∧
    (∀ x, addr ≤ x → x < addr + len.toNat → 2 ^ s.cfg.addressWidth ≤ x → ¬ readableRun s addr len.toNat)

/-! ## The cipher -/

/-- 43_blowfish R181 to R184, R188, 44_blowfish_tables R200: BF.INIT writes the key schedule of its key: the tables, eight words
to a number as R200 lays them out, the key bytes cycled into words and XORed into `P`, then 9 encipherments of a running block
that fill `P` and 512 that fill `S`, each with the subkeys so far. A key of length 0 or above 56 is refused. The algorithm is the
spec's own decision D9 (log entry 24), the refusal its decision D11. BF.INIT has no command form, so that EXIT keeps its value is
log entry 13. -/
def Obligations.KeyScheduleResult : Prop :=
  ∀ (s : State) (key : List Byte), ready s →
    let f := fun (k : Subkeys) (x : Word) =>
      let box := fun (n i : Nat) => (k.s.toList.getD n (Vector.replicate 256 0)).toList.getD i 0
      ((box 0 (x.toNat / 2 ^ 24) + box 1 (x.toNat / 2 ^ 16 % 256)) ^^^ box 2 (x.toNat / 2 ^ 8 % 256)) + box 3 (x.toNat % 256)
    let enc := fun (k : Subkeys) (x : Word × Word) =>
      let p := fun i => k.p.toList.getD i 0
      let y := (List.range 16).foldl (fun (x : Word × Word) i => (x.2 ^^^ f k (x.1 ^^^ p i), x.1 ^^^ p i)) x
      (y.2 ^^^ p 17, y.1 ^^^ p 16)
    let keyWord := fun (i : Nat) => (List.range 4).foldl
      (fun (w : Word) n => (w <<< 8) ||| (key.getD ((4 * i + n) % key.length) 0).setWidth 32) 0
    let p0 : List Word := [
      0x243F6A88, 0x85A308D3, 0x13198A2E, 0x03707344, 0xA4093822, 0x299F31D0, 0x082EFA98, 0xEC4E6C89,
      0x452821E6, 0x38D01377, 0xBE5466CF, 0x34E90C6C, 0xC0AC29B7, 0xC97C50DD, 0x3F84D5B5, 0xB5470917,
      0x9216D5D9, 0x8979FB1B]
    let s0 : List (List Nat) := [[
      0xD1310BA698DFB5AC2FFD72DBD01ADFB7B8E1AFED6A267E96BA7C9045F12C7F99,
      0x24A19947B3916CF70801F2E2858EFC16636920D871574E69A458FEA3F4933D7E,
      0x0D95748F728EB658718BCD5882154AEE7B54A41DC25A59B59C30D5392AF26013,
      0xC5D1B023286085F0CA417918B8DB38EF8E79DCB0603A180E6C9E0E8BB01E8A3E,
      0xD71577C1BD314B2778AF2FDA55605C60E65525F3AA55AB945748986263E81440,
      0x55CA396A2AAB10B6B4CC5C341141E8CEA15486AF7C72E993B3EE1411636FBC2A,
      0x2BA9C55D741831F6CE5C3E169B87931EAFD6BA336C24CF5C7A32538128958677,
      0x3B8F48986B4BB9AFC4BFE81B6628219361D809CCFB21A991487CAC605DEC8032,
      0xEF845D5DE98575B1DC262302EB651B8823893E81D396ACC50F6D6FF383F44239,
      0x2E0B4482A484200469C8F04A9E1F9B5E21C66842F6E96C9A670C9C61ABD388F0,
      0x6A51A0D2D8542F68960FA728AB5133A36EEF0B6C137A3BE4BA3BF0507EFB2A98,
      0xA1F1651D39AF017666CA593E82430E888CEE8619456F9FB47D84A5C33B8B5EBE,
      0xE06F75D885C12073401A449F56C16AA64ED3AA62363F77061BFEDF72429B023D,
      0x37D0D724D00A1248DB0FEAD349F1C09B075372C980991B7B25D479D8F6E8DEF7,
      0xE3FE501AB6794C3B976CE0BD04C006BAC1A94FB6409F60C45E5C9EC2196A2463,
      0x68FB6FAF3E6C53B51339B2EB3B52EC6F6DFC511F9B30952CCC814544AF5EBD09,
      0xBEE3D004DE334AFD660F2807192E4BB3C0CBA85745C8740FD20B5F39B9D3FBDB,
      0x5579C0BD1A60320AD6A100C6402C7279679F25FEFB1FA3CC8EA5E9F8DB3222F8,
      0x3C7516DFFD616B152F501EC8AD0552AB323DB5FAFD23876053317B483E00DF82,
      0x9E5C57BBCA6F8CA01A87562EDF1769DBD542A8F6287EFFC3AC6732C68C4F5573,
      0x695B27B0BBCA58C8E1FFA35DB8F011A010FA3D98FD2183B84AFCB56C2DD1D35B,
      0x9A53E479B6F84565D28E49BC4BFB9790E1DDF2DAA4CB7E3362FB1341CEE4C6E8,
      0xEF20CADA36774C01D07E9EFE2BF11FB495DBDA4DAE909198EAAD8E716B93D5A0,
      0xD08ED1D0AFC725E08E3C5B2F8E7594B78FF6E2FBF2122B648888B812900DF01C,
      0x4FAD5EA0688FC31CD1CFF191B3A8C1AD2F2F2218BE0E1777EA752DFE8B021FA1,
      0xE5A0CC0FB56F74E818ACF3D6CE89E299B4A84FE0FD13E0B77CC43B81D2ADA8D9,
      0x165FA2668095770593CC7314211A1477E6AD206577B5FA86C75442F5FB9D35CF,
      0xEBCDAF0C7B3E89A0D6411BD3AE1E7E4900250E2D2071B35E226800BB57B8E0AF,
      0x2464369BF009B91E5563911D59DFA6AA78C14389D95A537F207D5BA202E5B9C5,
      0x832603766295CFA911C819684E734A41B3472DCA7B14A94A1B5100529A532915,
      0xD60F573FBC9BC6E42B60A47681E6740008BA6FB5571BE91FF296EC6B2A0DD915,
      0xB6636521E7B9F9B6FF34052EC585566453B02D5DA99F8FA108BA47996E85076A], [
      0x4B7A70E9B5B32944DB75092EC4192623AD6EA6B049A7DF7D9CEE60B88FEDB266,
      0xECAA8C71699A17FF5664526CC2B19EE1193602A575094C29A0591340E4183A3E,
      0x3F54989A5B429D656B8FE4D699F73FD6A1D29C07EFE830F54D2D38E6F0255DC1,
      0x4CDD20868470EB266382E9C6021ECC5E09686B3F3EBAEFC93C9718146B6A70A1,
      0x687F358452A0E286B79C5305AA5007373E07841C7FDEAE5C8E7D44EC5716F2B8,
      0xB03ADA37F0500C0DF01C1F040200B3FFAE0CF51A3CB574B225837A58DC0921BD,
      0xD19113F97CA92FF69432477322F547013AE5E58137C2DADCC8B576349AF3DDA7,
      0xA94461460FD0030EECC8C73EA4751E41E238CD993BEA0E2F3280BBA1183EB331,
      0x4E548B384F6DB9086F420D03F60A04BF2CB8129024977C795679B072BCAF89AF,
      0xDE9A771FD9930810B38BAE12DCCF3F2E5512721F2E6B7124501ADDE69F84CD87,
      0x7A5847187408DA17BC9F9ABCE94B7D8CEC7AEC3ADB851DFA63094366C464C3D2,
      0xEF1C18473215D908DD433B3724C2BA1612A14D432A65C45150940002133AE4DD,
      0x71DFF89E10314E5581AC77D65F11199B043556F1D7A3C76B3C11183B5924A509,
      0xF28FE6ED97F1FBFA9EBABF2C1E153C6E86E34570EAE96FB1860E5E0A5A3E2AB3,
      0x771FE71C4E3D06FA2965DCB999E71D0F803E89D65266C8252E4CC9789C10B36A,
      0xC6150EBA94E2EA78A5FC3C531E0A2DF4F2F74EA7361D2B3D1939260F19C27960,
      0x5223A708F71312B6EBADFE6EEAC31F66E3BC4595A67BC883B17F37D1018CFF28,
      0xC332DDEFBE6C5AA56558218568AB9802EECEA50FDB2F953B2AEF7DAD5B6E2F84,
      0x1521B62829076170ECDD4775619F151013CCA830EB61BD960334FE1EAA0363CF,
      0xB5735C904C70A239D59E9E0BCBAADE14EECC86BC60622CA79CAB5CABB2F3846E,
      0x648B1EAF19BDF0CAA02369B9655ABB5040685A323C2AB4B3319EE9D5C021B8F7,
      0x9B540B19875FA09995F7997E623D7DA8F837889A97E32D7711ED935F16681281,
      0x0E358829C7E61FD696DEDFA17858BA9957F584A51B2272639B83C3FF1AC24696,
      0xCDB30AEB532E30548FD948E46DBC312858EBF2EF34C6FFEAFE28ED61EE7C3C73,
      0x5D4A14D9E864B7E342105D14203E13E045EEE2B6A3AAABEADB6C4F15FACB4FD0,
      0xC742F442EF6ABBB5654F3B1D41CD2105D81E799E86854DC7E44B476A3D816250,
      0xCF62A1F25B8D2646FC8883A0C1C7B6A37F1524C369CB749247848A0B5692B285,
      0x095BBF00AD19489D1462B17423820E0058428D2A0C55F5EA1DADF43E233F7061,
      0x3372F0928D937E41D65FECF16C223BDB7CDE3759CBEE74604085F2A7CE77326E,
      0xA607808419F8509EE8EFD85561D99735A969A7AAC50C06C25A04ABFC800BCADC,
      0x9E447A2EC3453484FDD567050E1E9EC9DB73DBD3105588CD675FDA79E3674340,
      0xC5C43465713E38D83D28F89EF16DFF20153E21E78FB03D4AE6E39F2BDB83ADF7], [
      0xE93D5A68948140F7F64C261C94692934411520F77602D4F7BCF46B2ED4A20068,
      0xD40824713320F46A43B7D4B7500061AF1E39F62E9724454614214F74BF8B8840,
      0x4D95FC1D96B591AF70F4DDD366A02F45BFBC09EC03BD97857FAC6DD031CB8504,
      0x96EB27B355FD3941DA2547E6ABCA0A9A28507825530429F40A2C86DAE9B66DFB,
      0x68DC1462D7486900680EC0A427A18DEE4F3FFEA2E887AD8CB58CE0067AF4D6B6,
      0xAACE1E7CD3375FECCE78A399406B2A4220FE9E35D9F385B9EE39D7AB3B124E8B,
      0x1DC9FAF74B6D185626A36631EAE397B23A6EFA74DD5B43326841E7F7CA7820FB,
      0xFB0AF54ED8FEB397454056ACBA48952755533A3A20838D87FE6BA9B7D096954B,
      0x55A867BCA1159A58CCA9296399E1DB33A62A4A563F3125F95EF47E1C9029317C,
      0xFDF8E80204272F7080BB155C05282CE395C11548E4C66D2248C1133FC70F86DC,
      0x07F9C9EE41041F0F404779A45D886E17325F51EBD59BC0D1F2BCC18F41113564,
      0x257B7834602A9C60DFF8E8A31F636C1B0E12B4C202E1329EAF664FD1CAD18115,
      0x6B2395E0333E92E13B240B62EEBEB92285B2A20EE6BA0D99DE720C8C2DA2F728,
      0xD012784595B794FD647D0862E7CCF5F05449A36F877D48FAC39DFD27F33E8D1E,
      0x0A476341992EFF743A6F6EABF4F8FD37A812DC60A1EBDDF8991BE14CDB6E6B0D,
      0xC67B55106D672C372765D43BDCD0E804F1290DC7CC00FFA3B5390F92690FED0B,
      0x667B9FFBCEDB7D9CA091CF0BD9155EA3BB132F88515BAD247B9479BF763BD6EB,
      0x37392EB3CC1159798026E297F42E312D6842ADA7C66A2B3B12754CCC782EF11C,
      0x6A124237B79251E706A1BBE64BFB63501A6B101811CAEDFA3D25BDD8E2E1C3C9,
      0x444216590A121386D90CEC6ED5ABEA2A64AF674EDA86A85FBEBFE98864E4C3FE,
      0x9DBC8057F0F7C08660787BF86003604DD1FD8346F6381FB07745AE04D736FCCC,
      0x83426B33F01EAB71B08041873C005E5F77A057BEBDE8AE2455464299BF582E61,
      0x4E58F48FF2DDFDA2F474EF388789BDC25366F9C3C8B38E74B475F25546FCD9B9,
      0x7AEB26618B1DDF84846A0E79915F95E2466E598E20B457708CD55591C902DE4C,
      0xB90BACE1BB8205D011A862487574A99EB77F19B6E0A9DC09662D09A1C4324633,
      0xE85A1F0209F0BE8C4A99A0251D6EFE101AB93D1D0BA5A4DFA186F20F2868F169,
      0xDCB7DA83573906FEA1E2CE9B4FCD7F5250115E01A70683FAA002B5C40DE6D027,
      0x9AF88C27773F8641C3604C0661A806B5F0177A28C0F586E0006058AA30DC7D62,
      0x11E69ED72338EA6353C2DD94C2C21634BBCBEE5690BCB6DEEBFC7DA1CE591D76,
      0x6F05E4094B7C018839720A3D7C927C2486E3725F724D9DB91AC15BB4D39EB8FC,
      0xED54557808FCA5B5D83D7CD34DAD0FC41E50EF5EB161E6F8A28514D96C51133C,
      0x6FD5C7E756E14EC4362ABFCEDDC6C837D79A323492638212670EFA8E406000E0], [
      0x3A39CE37D3FAF5CFABC277375AC52D1B5CB0679E4FA33742D382274099BC9BBE,
      0xD5118E9DBF0F7315D62D1C7EC700C47BB78C1B6B21A19045B26EB1BE6A366EB4,
      0x5748AB2FBC946E79C6A376D26549C2C8530FF8EE468DDE7DD5730A1D4CD04DC6,
      0x2939BBDBA9BA4650AC9526E8BE5EE304A1FAD5F06A2D519A63EF8CE29A86EE22,
      0xC089C2B843242EF6A51E03AA9CF2D0A483C061BA9BE96A4D8FE51550BA645BD6,
      0x2826A2F9A73A3AE14BA99586EF5562E9C72FEFD3F752F7DA3F046F6977FA0A59,
      0x80E4A91587B086019B09E6AD3B3EE593E990FD5A9E34D7972CF0B7D9022B8B51,
      0x96D5AC3A017DA67DD1CF3ED67C7D2D281F9F25CFADF2B89B5AD6B4725A88F54C,
      0xE029AC71E019A5E647B0ACFDED93FA9BE8D3C48D283B57CCF8D5662979132E28,
      0x785F0191ED756055F7960E44E3D35E8C15056DD488F46DBA03A161250564F0BD,
      0xC3EB9E153C9057A297271AECA93A072A1B3F6D9B1E6321F5F59C66FB26DCF319,
      0x7533D928B155FDF5035634828ABA3CBB28517711C20AD9F8ABCC5167CCAD925F,
      0x4DE817513830DC8E379D58629320F991EA7A90C2FB3E7BCE5121CE64774FBE32,
      0xA8B6E37EC3293D4648DE53696413E680A2AE0810DD6DB22469852DFD09072166,
      0xB39A460A6445C0DD586CDECF1C20C8AE5BBEF7DD1B588D40CCD2017F6BB4E3BB,
      0xDDA26A7E3A59FF453E350A44BCB4CDD572EACEA8FA6484BB8D6612AEBF3C6F47,
      0xD29BE463542F5D9EAEC2771BF64E6370740E0D8DE75B1357F8721671AF537D5D,
      0x4040CB084EB4E2CC34D2466A0115AF84E1B0042895983A1D06B89FB4CE6EA048,
      0x6F3F3B823520AB82011A1D4B277227F8611560B1E7933FDCBB3A792B344525BD,
      0xA08839E151CE794B2F32C9B7A01FBAC9E01CC87EBCC7D1F6CF0111C3A1E8AAC7,
      0x1A908749D44FBD9AD0DADECBD50ADA380339C32AC69136678DF9317CE0B12B4F,
      0xF79E59B743F5BB3AF2D519FF27D9459CBF97222C15E6FC2A0F91FC719B941525,
      0xFAE59361CEB69CEBC2A8645912BAA8D1B6C1075EE3056A0C10D25065CB03A442,
      0xE0EC6E0E1698DB3B4C98A0BE3278E9649F1F9532E0D392DFD3A0342B8971F21E,
      0x1B0A74414BA3348CC5BE7120C37632D8DF359F8D9B992F2EE60B6F470FE3F11D,
      0xE54CDA541EDAD891CE6279CFCD3E7E6F1618B166FD2C1D05848FD2C5F6FB2299,
      0xF523F357A632762393A8353156CCCD02ACF081625A75EBB56E16369788D273CC,
      0xDE96629281B949D04C50901B71C65614E6C6C7BD327A140A45E1D006C3F27B9A,
      0xC9AA53FD62A80F00BB25BFE235BDD2F671126905B2040222B6CBCF7CCD769C2B,
      0x53113EC01640E3D338ABBD602547ADF0BA38209CF746CE7677AFA1C520756060,
      0x85CBFE4E8AE88DD87AAAF9B04CF9AA7E1948C25C02FB8A8C01C36AE4D6EBE1F9,
      0x90D4F869A65CDEA03F09252DC208E69FB74E6132CE77E25B578FDFE33AC372E6]]
    let start : Subkeys :=
      { p := ⟨⟨(List.range 18).map fun i => p0.getD i 0 ^^^ keyWord i⟩, by simp⟩
        s := ⟨⟨(List.range 4).map fun n => ⟨⟨(List.range 256).map fun i =>
          BitVec.ofNat 32 ((s0.getD n []).getD (i / 8) 0 / 2 ^ (32 * (7 - i % 8)))⟩, by simp⟩⟩, by simp⟩ }
    let fillP := fun (kx : Subkeys × Word × Word) (n : Nat) =>
      let x := enc kx.1 kx.2
      (({ kx.1 with p := (kx.1.p.setIfInBounds (2 * n) x.1).setIfInBounds (2 * n + 1) x.2 } : Subkeys), x)
    let fillS := fun (b : Nat) (kx : Subkeys × Word × Word) (n : Nat) =>
      let x := enc kx.1 kx.2
      let box := kx.1.s.toList.getD b (Vector.replicate 256 0)
      (({ kx.1 with s := kx.1.s.setIfInBounds b ((box.setIfInBounds (2 * n) x.1).setIfInBounds (2 * n + 1) x.2) } : Subkeys), x)
    let filledP := (List.range 9).foldl fillP (start, 0, 0)
    let filled := (List.range 4).foldl (fun kx b => (List.range 128).foldl (fillS b) kx) filledP
    (1 ≤ key.length → key.length ≤ 56 →
      exec (.bfInit key) s = .next { s with keys := keySchedule key, bfReady := true, status := 0 } ∧
        keySchedule key = filled.1) ∧
    (key.length < 1 ∨ 56 < key.length → exec (.bfInit key) s = .refused .keyLength)

/-- 43_blowfish R183: a key and the same key repeated give the same subkeys (log entry 24). -/
def Obligations.RepeatedKeySameSubkeys : Prop :=
  ∀ (key : List Byte) (n : Nat), 1 ≤ key.length → 1 ≤ n → keySchedule (List.replicate n key).flatten = keySchedule key

/-- 43_blowfish R181, R184, R185, R186: BF.ENC and BF.DEC by the rules' own rounds and round function, and refused with no key
schedule. The network is the spec's own decision D9 (log entry 24), the refusal its decision D11. BF.ENC and BF.DEC have no
command form, so that EXIT keeps its value is log entry 13. -/
def Obligations.BlockOperationResults : Prop :=
  ∀ (s : State) (xl xr : Word), ready s →
    let p := fun i => s.keys.p.toList.getD i 0
    let f := fun (x : Word) =>
      let box := fun (n i : Nat) => (s.keys.s.toList.getD n (Vector.replicate 256 0)).toList.getD i 0
      ((box 0 (x.toNat / 2 ^ 24) + box 1 (x.toNat / 2 ^ 16 % 256)) ^^^ box 2 (x.toNat / 2 ^ 8 % 256)) + box 3 (x.toNat % 256)
    let round := fun (x : Word × Word) (i : Nat) => (x.2 ^^^ f (x.1 ^^^ p i), x.1 ^^^ p i)
    let enc := (List.range 16).foldl round (xl, xr)
    let dec := ((List.range 16).map fun i => 17 - i).foldl round (xl, xr)
    (s.bfReady = true →
      exec (.bfEnc xl xr) s = .next
        { s with res := { s.res with xl := enc.2 ^^^ p 17, xr := enc.1 ^^^ p 16 }, status := 0 } ∧
      exec (.bfDec xl xr) s = .next
        { s with res := { s.res with xl := dec.2 ^^^ p 0, xr := dec.1 ^^^ p 1 }, status := 0 }) ∧
    (s.bfReady = false →
      exec (.bfEnc xl xr) s = .refused .noKeySchedule ∧ exec (.bfDec xl xr) s = .refused .noKeySchedule)

/-- 43_blowfish R187: under any subkeys the two block functions are inverses of each other. -/
def Obligations.CipherIsInvertible : Prop :=
  ∀ (k : Subkeys) (x : Word × Word), decipher k (encipher k x) = x ∧ encipher k (decipher k x) = x

/-- 43_blowfish R190, R192, R193, R195: DECRYPT deciphers every block of its buffer in place under the schedule of KEY, in either
byte order of BF_BLOCK_ORDER, then takes the big-endian word at the end of what it has written as the original length, which
it accepts up to len - 8 and ends with DecryptError above, the buffer staying deciphered. Block order, key and length are the
spec's own decisions D10, D11, D12. What BF_BLOCK_ORDER = le means (little-endian words, the left word first) is the model's own
choice, log entry 25; the schedule staying written is log entry 20. -/
def Obligations.DecryptResult : Prop :=
  ∀ (s : State) (addr : Nat) (len : Word), ready s → inRam s → 1 ≤ s.cfg.key.length → s.cfg.key.length ≤ 56 →
    8 ≤ len.toNat → len.toNat % 8 = 0 → writableRun s addr len.toNat →
    ∃ t, exec (.decrypt addr len) s = .next t ∧
      (∀ j, j < len.toNat / 8 → blockAt s.cfg.blockOrder t.mem (addr + 8 * j) =
        decipher (keySchedule s.cfg.key) (blockAt s.cfg.blockOrder s.mem (addr + 8 * j))) ∧
      t.keys = keySchedule s.cfg.key ∧ t.bfReady = true ∧
      let orig := be32At (Memory.bytes t.mem (addr + (len.toNat - 4)) 4) 0
      (orig.toNat ≤ len.toNat - 8 → t.status = 0 ∧ t.exit = 0 ∧ t.res.len = orig) ∧
      (len.toNat - 8 < orig.toNat → t.status = Status.decryptError.code ∧ t.exit = 1)

/-- 43_blowfish R188, R193, R194 and 20_memory R52, R53: DECRYPT refuses a length that is no positive multiple of 8, and then a
KEY of length 0 or above 56, and faults on a buffer that cannot all be read and written; it and the digest operations, which
work on a bare address, have no meaning for an image in a file store (log entry 17; the spec's own decisions D11, D12, D24,
D25). -/
def Obligations.BufferOperationRefusals : Prop :=
  ∀ (s : State) (addr : Nat) (len : Word), ready s →
    (inRam s → len.toNat < 8 ∨ len.toNat % 8 ≠ 0 → exec (.decrypt addr len) s = .refused .decryptLength) ∧
    (inRam s → 8 ≤ len.toNat → len.toNat % 8 = 0 → s.cfg.key.length < 1 ∨ 56 < s.cfg.key.length →
      exec (.decrypt addr len) s = .refused .keyLength) ∧
    (inRam s → 8 ≤ len.toNat → len.toNat % 8 = 0 → 1 ≤ s.cfg.key.length → s.cfg.key.length ≤ 56 →
      ¬ (readableRun s addr len.toNat ∧ writableRun s addr len.toNat) →
      exec (.decrypt addr len) s = .fault .outOfExtent) ∧
    (s.cfg.store = .file →
      exec (.decrypt addr len) s = .refused .ramStoreOnly ∧ exec (.crc32 addr len) s = .refused .ramStoreOnly ∧
      exec (.md5 addr len) s = .refused .ramStoreOnly ∧ exec (.sha256 addr len) s = .refused .ramStoreOnly)

end Statements
end

