-- ==== Sys2Proof/Laws/State.lean ====
section
/-! SUPPORT. One lemma per field per update of the state, each true by rfl. -/

namespace Sys2Proof.Machine

@[simp] theorem State.withPbsr_pbsr (s : State) (v : Word) : (s.withPbsr v).pbsr = v := rfl
@[simp] theorem State.withPbsr_keys (s : State) (v : Word) : (s.withPbsr v).keys = s.keys := rfl
@[simp] theorem State.withPbsr_bfReady (s : State) (v : Word) : (s.withPbsr v).bfReady = s.bfReady := rfl
@[simp] theorem State.withPbsr_halt (s : State) (v : Word) : (s.withPbsr v).halt = s.halt := rfl
@[simp] theorem State.withPbsr_arg (s : State) (v : Word) : (s.withPbsr v).arg = s.arg := rfl
@[simp] theorem State.withPbsr_status (s : State) (v : Word) : (s.withPbsr v).status = s.status := rfl
@[simp] theorem State.withPbsr_exit (s : State) (v : Word) : (s.withPbsr v).exit = s.exit := rfl
@[simp] theorem State.withPbsr_res (s : State) (v : Word) : (s.withPbsr v).res = s.res := rfl
@[simp] theorem State.withPbsr_walk (s : State) (v : Word) : (s.withPbsr v).walk = s.walk := rfl
@[simp] theorem State.withPbsr_engine (s : State) (v : Word) : (s.withPbsr v).engine = s.engine := rfl
@[simp] theorem State.withPbsr_mem (s : State) (v : Word) : (s.withPbsr v).mem = s.mem := rfl
@[simp] theorem State.withPbsr_cfg (s : State) (v : Word) : (s.withPbsr v).cfg = s.cfg := rfl
@[simp] theorem State.withPbsr_inputs (s : State) (v : Word) : (s.withPbsr v).inputs = s.inputs := rfl
@[simp] theorem State.withPbsr_draws (s : State) (v : Word) : (s.withPbsr v).draws = s.draws := rfl

@[simp] theorem State.withKeys_pbsr (s : State) (v : Subkeys) : (s.withKeys v).pbsr = s.pbsr := rfl
@[simp] theorem State.withKeys_keys (s : State) (v : Subkeys) : (s.withKeys v).keys = v := rfl
@[simp] theorem State.withKeys_bfReady (s : State) (v : Subkeys) : (s.withKeys v).bfReady = s.bfReady := rfl
@[simp] theorem State.withKeys_halt (s : State) (v : Subkeys) : (s.withKeys v).halt = s.halt := rfl
@[simp] theorem State.withKeys_arg (s : State) (v : Subkeys) : (s.withKeys v).arg = s.arg := rfl
@[simp] theorem State.withKeys_status (s : State) (v : Subkeys) : (s.withKeys v).status = s.status := rfl
@[simp] theorem State.withKeys_exit (s : State) (v : Subkeys) : (s.withKeys v).exit = s.exit := rfl
@[simp] theorem State.withKeys_res (s : State) (v : Subkeys) : (s.withKeys v).res = s.res := rfl
@[simp] theorem State.withKeys_walk (s : State) (v : Subkeys) : (s.withKeys v).walk = s.walk := rfl
@[simp] theorem State.withKeys_engine (s : State) (v : Subkeys) : (s.withKeys v).engine = s.engine := rfl
@[simp] theorem State.withKeys_mem (s : State) (v : Subkeys) : (s.withKeys v).mem = s.mem := rfl
@[simp] theorem State.withKeys_cfg (s : State) (v : Subkeys) : (s.withKeys v).cfg = s.cfg := rfl
@[simp] theorem State.withKeys_inputs (s : State) (v : Subkeys) : (s.withKeys v).inputs = s.inputs := rfl
@[simp] theorem State.withKeys_draws (s : State) (v : Subkeys) : (s.withKeys v).draws = s.draws := rfl

@[simp] theorem State.withReady_pbsr (s : State) (v : Bool) : (s.withReady v).pbsr = s.pbsr := rfl
@[simp] theorem State.withReady_keys (s : State) (v : Bool) : (s.withReady v).keys = s.keys := rfl
@[simp] theorem State.withReady_bfReady (s : State) (v : Bool) : (s.withReady v).bfReady = v := rfl
@[simp] theorem State.withReady_halt (s : State) (v : Bool) : (s.withReady v).halt = s.halt := rfl
@[simp] theorem State.withReady_arg (s : State) (v : Bool) : (s.withReady v).arg = s.arg := rfl
@[simp] theorem State.withReady_status (s : State) (v : Bool) : (s.withReady v).status = s.status := rfl
@[simp] theorem State.withReady_exit (s : State) (v : Bool) : (s.withReady v).exit = s.exit := rfl
@[simp] theorem State.withReady_res (s : State) (v : Bool) : (s.withReady v).res = s.res := rfl
@[simp] theorem State.withReady_walk (s : State) (v : Bool) : (s.withReady v).walk = s.walk := rfl
@[simp] theorem State.withReady_engine (s : State) (v : Bool) : (s.withReady v).engine = s.engine := rfl
@[simp] theorem State.withReady_mem (s : State) (v : Bool) : (s.withReady v).mem = s.mem := rfl
@[simp] theorem State.withReady_cfg (s : State) (v : Bool) : (s.withReady v).cfg = s.cfg := rfl
@[simp] theorem State.withReady_inputs (s : State) (v : Bool) : (s.withReady v).inputs = s.inputs := rfl
@[simp] theorem State.withReady_draws (s : State) (v : Bool) : (s.withReady v).draws = s.draws := rfl

@[simp] theorem State.withHalt_pbsr (s : State) (v : Bool) : (s.withHalt v).pbsr = s.pbsr := rfl
@[simp] theorem State.withHalt_keys (s : State) (v : Bool) : (s.withHalt v).keys = s.keys := rfl
@[simp] theorem State.withHalt_bfReady (s : State) (v : Bool) : (s.withHalt v).bfReady = s.bfReady := rfl
@[simp] theorem State.withHalt_halt (s : State) (v : Bool) : (s.withHalt v).halt = v := rfl
@[simp] theorem State.withHalt_arg (s : State) (v : Bool) : (s.withHalt v).arg = s.arg := rfl
@[simp] theorem State.withHalt_status (s : State) (v : Bool) : (s.withHalt v).status = s.status := rfl
@[simp] theorem State.withHalt_exit (s : State) (v : Bool) : (s.withHalt v).exit = s.exit := rfl
@[simp] theorem State.withHalt_res (s : State) (v : Bool) : (s.withHalt v).res = s.res := rfl
@[simp] theorem State.withHalt_walk (s : State) (v : Bool) : (s.withHalt v).walk = s.walk := rfl
@[simp] theorem State.withHalt_engine (s : State) (v : Bool) : (s.withHalt v).engine = s.engine := rfl
@[simp] theorem State.withHalt_mem (s : State) (v : Bool) : (s.withHalt v).mem = s.mem := rfl
@[simp] theorem State.withHalt_cfg (s : State) (v : Bool) : (s.withHalt v).cfg = s.cfg := rfl
@[simp] theorem State.withHalt_inputs (s : State) (v : Bool) : (s.withHalt v).inputs = s.inputs := rfl
@[simp] theorem State.withHalt_draws (s : State) (v : Bool) : (s.withHalt v).draws = s.draws := rfl

@[simp] theorem State.withArg_pbsr (s : State) (v : Args) : (s.withArg v).pbsr = s.pbsr := rfl
@[simp] theorem State.withArg_keys (s : State) (v : Args) : (s.withArg v).keys = s.keys := rfl
@[simp] theorem State.withArg_bfReady (s : State) (v : Args) : (s.withArg v).bfReady = s.bfReady := rfl
@[simp] theorem State.withArg_halt (s : State) (v : Args) : (s.withArg v).halt = s.halt := rfl
@[simp] theorem State.withArg_arg (s : State) (v : Args) : (s.withArg v).arg = v := rfl
@[simp] theorem State.withArg_status (s : State) (v : Args) : (s.withArg v).status = s.status := rfl
@[simp] theorem State.withArg_exit (s : State) (v : Args) : (s.withArg v).exit = s.exit := rfl
@[simp] theorem State.withArg_res (s : State) (v : Args) : (s.withArg v).res = s.res := rfl
@[simp] theorem State.withArg_walk (s : State) (v : Args) : (s.withArg v).walk = s.walk := rfl
@[simp] theorem State.withArg_engine (s : State) (v : Args) : (s.withArg v).engine = s.engine := rfl
@[simp] theorem State.withArg_mem (s : State) (v : Args) : (s.withArg v).mem = s.mem := rfl
@[simp] theorem State.withArg_cfg (s : State) (v : Args) : (s.withArg v).cfg = s.cfg := rfl
@[simp] theorem State.withArg_inputs (s : State) (v : Args) : (s.withArg v).inputs = s.inputs := rfl
@[simp] theorem State.withArg_draws (s : State) (v : Args) : (s.withArg v).draws = s.draws := rfl

@[simp] theorem State.withStatus_pbsr (s : State) (v : Word) : (s.withStatus v).pbsr = s.pbsr := rfl
@[simp] theorem State.withStatus_keys (s : State) (v : Word) : (s.withStatus v).keys = s.keys := rfl
@[simp] theorem State.withStatus_bfReady (s : State) (v : Word) : (s.withStatus v).bfReady = s.bfReady := rfl
@[simp] theorem State.withStatus_halt (s : State) (v : Word) : (s.withStatus v).halt = s.halt := rfl
@[simp] theorem State.withStatus_arg (s : State) (v : Word) : (s.withStatus v).arg = s.arg := rfl
@[simp] theorem State.withStatus_status (s : State) (v : Word) : (s.withStatus v).status = v := rfl
@[simp] theorem State.withStatus_exit (s : State) (v : Word) : (s.withStatus v).exit = s.exit := rfl
@[simp] theorem State.withStatus_res (s : State) (v : Word) : (s.withStatus v).res = s.res := rfl
@[simp] theorem State.withStatus_walk (s : State) (v : Word) : (s.withStatus v).walk = s.walk := rfl
@[simp] theorem State.withStatus_engine (s : State) (v : Word) : (s.withStatus v).engine = s.engine := rfl
@[simp] theorem State.withStatus_mem (s : State) (v : Word) : (s.withStatus v).mem = s.mem := rfl
@[simp] theorem State.withStatus_cfg (s : State) (v : Word) : (s.withStatus v).cfg = s.cfg := rfl
@[simp] theorem State.withStatus_inputs (s : State) (v : Word) : (s.withStatus v).inputs = s.inputs := rfl
@[simp] theorem State.withStatus_draws (s : State) (v : Word) : (s.withStatus v).draws = s.draws := rfl

@[simp] theorem State.withExit_pbsr (s : State) (v : BitVec 1) : (s.withExit v).pbsr = s.pbsr := rfl
@[simp] theorem State.withExit_keys (s : State) (v : BitVec 1) : (s.withExit v).keys = s.keys := rfl
@[simp] theorem State.withExit_bfReady (s : State) (v : BitVec 1) : (s.withExit v).bfReady = s.bfReady := rfl
@[simp] theorem State.withExit_halt (s : State) (v : BitVec 1) : (s.withExit v).halt = s.halt := rfl
@[simp] theorem State.withExit_arg (s : State) (v : BitVec 1) : (s.withExit v).arg = s.arg := rfl
@[simp] theorem State.withExit_status (s : State) (v : BitVec 1) : (s.withExit v).status = s.status := rfl
@[simp] theorem State.withExit_exit (s : State) (v : BitVec 1) : (s.withExit v).exit = v := rfl
@[simp] theorem State.withExit_res (s : State) (v : BitVec 1) : (s.withExit v).res = s.res := rfl
@[simp] theorem State.withExit_walk (s : State) (v : BitVec 1) : (s.withExit v).walk = s.walk := rfl
@[simp] theorem State.withExit_engine (s : State) (v : BitVec 1) : (s.withExit v).engine = s.engine := rfl
@[simp] theorem State.withExit_mem (s : State) (v : BitVec 1) : (s.withExit v).mem = s.mem := rfl
@[simp] theorem State.withExit_cfg (s : State) (v : BitVec 1) : (s.withExit v).cfg = s.cfg := rfl
@[simp] theorem State.withExit_inputs (s : State) (v : BitVec 1) : (s.withExit v).inputs = s.inputs := rfl
@[simp] theorem State.withExit_draws (s : State) (v : BitVec 1) : (s.withExit v).draws = s.draws := rfl

@[simp] theorem State.withRes_pbsr (s : State) (v : Results) : (s.withRes v).pbsr = s.pbsr := rfl
@[simp] theorem State.withRes_keys (s : State) (v : Results) : (s.withRes v).keys = s.keys := rfl
@[simp] theorem State.withRes_bfReady (s : State) (v : Results) : (s.withRes v).bfReady = s.bfReady := rfl
@[simp] theorem State.withRes_halt (s : State) (v : Results) : (s.withRes v).halt = s.halt := rfl
@[simp] theorem State.withRes_arg (s : State) (v : Results) : (s.withRes v).arg = s.arg := rfl
@[simp] theorem State.withRes_status (s : State) (v : Results) : (s.withRes v).status = s.status := rfl
@[simp] theorem State.withRes_exit (s : State) (v : Results) : (s.withRes v).exit = s.exit := rfl
@[simp] theorem State.withRes_res (s : State) (v : Results) : (s.withRes v).res = v := rfl
@[simp] theorem State.withRes_walk (s : State) (v : Results) : (s.withRes v).walk = s.walk := rfl
@[simp] theorem State.withRes_engine (s : State) (v : Results) : (s.withRes v).engine = s.engine := rfl
@[simp] theorem State.withRes_mem (s : State) (v : Results) : (s.withRes v).mem = s.mem := rfl
@[simp] theorem State.withRes_cfg (s : State) (v : Results) : (s.withRes v).cfg = s.cfg := rfl
@[simp] theorem State.withRes_inputs (s : State) (v : Results) : (s.withRes v).inputs = s.inputs := rfl
@[simp] theorem State.withRes_draws (s : State) (v : Results) : (s.withRes v).draws = s.draws := rfl

@[simp] theorem State.withWalk_pbsr (s : State) (v : Option Walk) : (s.withWalk v).pbsr = s.pbsr := rfl
@[simp] theorem State.withWalk_keys (s : State) (v : Option Walk) : (s.withWalk v).keys = s.keys := rfl
@[simp] theorem State.withWalk_bfReady (s : State) (v : Option Walk) : (s.withWalk v).bfReady = s.bfReady := rfl
@[simp] theorem State.withWalk_halt (s : State) (v : Option Walk) : (s.withWalk v).halt = s.halt := rfl
@[simp] theorem State.withWalk_arg (s : State) (v : Option Walk) : (s.withWalk v).arg = s.arg := rfl
@[simp] theorem State.withWalk_status (s : State) (v : Option Walk) : (s.withWalk v).status = s.status := rfl
@[simp] theorem State.withWalk_exit (s : State) (v : Option Walk) : (s.withWalk v).exit = s.exit := rfl
@[simp] theorem State.withWalk_res (s : State) (v : Option Walk) : (s.withWalk v).res = s.res := rfl
@[simp] theorem State.withWalk_walk (s : State) (v : Option Walk) : (s.withWalk v).walk = v := rfl
@[simp] theorem State.withWalk_engine (s : State) (v : Option Walk) : (s.withWalk v).engine = s.engine := rfl
@[simp] theorem State.withWalk_mem (s : State) (v : Option Walk) : (s.withWalk v).mem = s.mem := rfl
@[simp] theorem State.withWalk_cfg (s : State) (v : Option Walk) : (s.withWalk v).cfg = s.cfg := rfl
@[simp] theorem State.withWalk_inputs (s : State) (v : Option Walk) : (s.withWalk v).inputs = s.inputs := rfl
@[simp] theorem State.withWalk_draws (s : State) (v : Option Walk) : (s.withWalk v).draws = s.draws := rfl

@[simp] theorem State.withEngine_pbsr (s : State) (v : Engine) : (s.withEngine v).pbsr = s.pbsr := rfl
@[simp] theorem State.withEngine_keys (s : State) (v : Engine) : (s.withEngine v).keys = s.keys := rfl
@[simp] theorem State.withEngine_bfReady (s : State) (v : Engine) : (s.withEngine v).bfReady = s.bfReady := rfl
@[simp] theorem State.withEngine_halt (s : State) (v : Engine) : (s.withEngine v).halt = s.halt := rfl
@[simp] theorem State.withEngine_arg (s : State) (v : Engine) : (s.withEngine v).arg = s.arg := rfl
@[simp] theorem State.withEngine_status (s : State) (v : Engine) : (s.withEngine v).status = s.status := rfl
@[simp] theorem State.withEngine_exit (s : State) (v : Engine) : (s.withEngine v).exit = s.exit := rfl
@[simp] theorem State.withEngine_res (s : State) (v : Engine) : (s.withEngine v).res = s.res := rfl
@[simp] theorem State.withEngine_walk (s : State) (v : Engine) : (s.withEngine v).walk = s.walk := rfl
@[simp] theorem State.withEngine_engine (s : State) (v : Engine) : (s.withEngine v).engine = v := rfl
@[simp] theorem State.withEngine_mem (s : State) (v : Engine) : (s.withEngine v).mem = s.mem := rfl
@[simp] theorem State.withEngine_cfg (s : State) (v : Engine) : (s.withEngine v).cfg = s.cfg := rfl
@[simp] theorem State.withEngine_inputs (s : State) (v : Engine) : (s.withEngine v).inputs = s.inputs := rfl
@[simp] theorem State.withEngine_draws (s : State) (v : Engine) : (s.withEngine v).draws = s.draws := rfl

@[simp] theorem State.withMem_pbsr (s : State) (v : Memory) : (s.withMem v).pbsr = s.pbsr := rfl
@[simp] theorem State.withMem_keys (s : State) (v : Memory) : (s.withMem v).keys = s.keys := rfl
@[simp] theorem State.withMem_bfReady (s : State) (v : Memory) : (s.withMem v).bfReady = s.bfReady := rfl
@[simp] theorem State.withMem_halt (s : State) (v : Memory) : (s.withMem v).halt = s.halt := rfl
@[simp] theorem State.withMem_arg (s : State) (v : Memory) : (s.withMem v).arg = s.arg := rfl
@[simp] theorem State.withMem_status (s : State) (v : Memory) : (s.withMem v).status = s.status := rfl
@[simp] theorem State.withMem_exit (s : State) (v : Memory) : (s.withMem v).exit = s.exit := rfl
@[simp] theorem State.withMem_res (s : State) (v : Memory) : (s.withMem v).res = s.res := rfl
@[simp] theorem State.withMem_walk (s : State) (v : Memory) : (s.withMem v).walk = s.walk := rfl
@[simp] theorem State.withMem_engine (s : State) (v : Memory) : (s.withMem v).engine = s.engine := rfl
@[simp] theorem State.withMem_mem (s : State) (v : Memory) : (s.withMem v).mem = v := rfl
@[simp] theorem State.withMem_cfg (s : State) (v : Memory) : (s.withMem v).cfg = s.cfg := rfl
@[simp] theorem State.withMem_inputs (s : State) (v : Memory) : (s.withMem v).inputs = s.inputs := rfl
@[simp] theorem State.withMem_draws (s : State) (v : Memory) : (s.withMem v).draws = s.draws := rfl

@[simp] theorem State.withInputs_pbsr (s : State) (v : List Input) : (s.withInputs v).pbsr = s.pbsr := rfl
@[simp] theorem State.withInputs_keys (s : State) (v : List Input) : (s.withInputs v).keys = s.keys := rfl
@[simp] theorem State.withInputs_bfReady (s : State) (v : List Input) : (s.withInputs v).bfReady = s.bfReady := rfl
@[simp] theorem State.withInputs_halt (s : State) (v : List Input) : (s.withInputs v).halt = s.halt := rfl
@[simp] theorem State.withInputs_arg (s : State) (v : List Input) : (s.withInputs v).arg = s.arg := rfl
@[simp] theorem State.withInputs_status (s : State) (v : List Input) : (s.withInputs v).status = s.status := rfl
@[simp] theorem State.withInputs_exit (s : State) (v : List Input) : (s.withInputs v).exit = s.exit := rfl
@[simp] theorem State.withInputs_res (s : State) (v : List Input) : (s.withInputs v).res = s.res := rfl
@[simp] theorem State.withInputs_walk (s : State) (v : List Input) : (s.withInputs v).walk = s.walk := rfl
@[simp] theorem State.withInputs_engine (s : State) (v : List Input) : (s.withInputs v).engine = s.engine := rfl
@[simp] theorem State.withInputs_mem (s : State) (v : List Input) : (s.withInputs v).mem = s.mem := rfl
@[simp] theorem State.withInputs_cfg (s : State) (v : List Input) : (s.withInputs v).cfg = s.cfg := rfl
@[simp] theorem State.withInputs_inputs (s : State) (v : List Input) : (s.withInputs v).inputs = v := rfl
@[simp] theorem State.withInputs_draws (s : State) (v : List Input) : (s.withInputs v).draws = s.draws := rfl

@[simp] theorem State.withDraws_pbsr (s : State) (v : Nat) : (s.withDraws v).pbsr = s.pbsr := rfl
@[simp] theorem State.withDraws_keys (s : State) (v : Nat) : (s.withDraws v).keys = s.keys := rfl
@[simp] theorem State.withDraws_bfReady (s : State) (v : Nat) : (s.withDraws v).bfReady = s.bfReady := rfl
@[simp] theorem State.withDraws_halt (s : State) (v : Nat) : (s.withDraws v).halt = s.halt := rfl
@[simp] theorem State.withDraws_arg (s : State) (v : Nat) : (s.withDraws v).arg = s.arg := rfl
@[simp] theorem State.withDraws_status (s : State) (v : Nat) : (s.withDraws v).status = s.status := rfl
@[simp] theorem State.withDraws_exit (s : State) (v : Nat) : (s.withDraws v).exit = s.exit := rfl
@[simp] theorem State.withDraws_res (s : State) (v : Nat) : (s.withDraws v).res = s.res := rfl
@[simp] theorem State.withDraws_walk (s : State) (v : Nat) : (s.withDraws v).walk = s.walk := rfl
@[simp] theorem State.withDraws_engine (s : State) (v : Nat) : (s.withDraws v).engine = s.engine := rfl
@[simp] theorem State.withDraws_mem (s : State) (v : Nat) : (s.withDraws v).mem = s.mem := rfl
@[simp] theorem State.withDraws_cfg (s : State) (v : Nat) : (s.withDraws v).cfg = s.cfg := rfl
@[simp] theorem State.withDraws_inputs (s : State) (v : Nat) : (s.withDraws v).inputs = s.inputs := rfl
@[simp] theorem State.withDraws_draws (s : State) (v : Nat) : (s.withDraws v).draws = v := rfl

@[simp] theorem State.returned_pbsr (s : State) : (s.returned).pbsr = s.pbsr := rfl
@[simp] theorem State.returned_keys (s : State) : (s.returned).keys = s.keys := rfl
@[simp] theorem State.returned_bfReady (s : State) : (s.returned).bfReady = s.bfReady := rfl
@[simp] theorem State.returned_halt (s : State) : (s.returned).halt = s.halt := rfl
@[simp] theorem State.returned_arg (s : State) : (s.returned).arg = s.arg := rfl
@[simp] theorem State.returned_status (s : State) : (s.returned).status = 0 := rfl
@[simp] theorem State.returned_exit (s : State) : (s.returned).exit = s.exit := rfl
@[simp] theorem State.returned_res (s : State) : (s.returned).res = s.res := rfl
@[simp] theorem State.returned_walk (s : State) : (s.returned).walk = s.walk := rfl
@[simp] theorem State.returned_engine (s : State) : (s.returned).engine = s.engine := rfl
@[simp] theorem State.returned_mem (s : State) : (s.returned).mem = s.mem := rfl
@[simp] theorem State.returned_cfg (s : State) : (s.returned).cfg = s.cfg := rfl
@[simp] theorem State.returned_inputs (s : State) : (s.returned).inputs = s.inputs := rfl
@[simp] theorem State.returned_draws (s : State) : (s.returned).draws = s.draws := rfl

@[simp] theorem State.returnedCommand_pbsr (s : State) : (s.returnedCommand).pbsr = s.pbsr := rfl
@[simp] theorem State.returnedCommand_keys (s : State) : (s.returnedCommand).keys = s.keys := rfl
@[simp] theorem State.returnedCommand_bfReady (s : State) : (s.returnedCommand).bfReady = s.bfReady := rfl
@[simp] theorem State.returnedCommand_halt (s : State) : (s.returnedCommand).halt = s.halt := rfl
@[simp] theorem State.returnedCommand_arg (s : State) : (s.returnedCommand).arg = s.arg := rfl
@[simp] theorem State.returnedCommand_status (s : State) : (s.returnedCommand).status = 0 := rfl
@[simp] theorem State.returnedCommand_exit (s : State) : (s.returnedCommand).exit = 0 := rfl
@[simp] theorem State.returnedCommand_res (s : State) : (s.returnedCommand).res = s.res := rfl
@[simp] theorem State.returnedCommand_walk (s : State) : (s.returnedCommand).walk = s.walk := rfl
@[simp] theorem State.returnedCommand_engine (s : State) : (s.returnedCommand).engine = s.engine := rfl
@[simp] theorem State.returnedCommand_mem (s : State) : (s.returnedCommand).mem = s.mem := rfl
@[simp] theorem State.returnedCommand_cfg (s : State) : (s.returnedCommand).cfg = s.cfg := rfl
@[simp] theorem State.returnedCommand_inputs (s : State) : (s.returnedCommand).inputs = s.inputs := rfl
@[simp] theorem State.returnedCommand_draws (s : State) : (s.returnedCommand).draws = s.draws := rfl

@[simp] theorem State.returnedTest_pbsr (s : State) (b : BitVec 1) : (s.returnedTest b).pbsr = s.pbsr := rfl
@[simp] theorem State.returnedTest_keys (s : State) (b : BitVec 1) : (s.returnedTest b).keys = s.keys := rfl
@[simp] theorem State.returnedTest_bfReady (s : State) (b : BitVec 1) : (s.returnedTest b).bfReady = s.bfReady := rfl
@[simp] theorem State.returnedTest_halt (s : State) (b : BitVec 1) : (s.returnedTest b).halt = s.halt := rfl
@[simp] theorem State.returnedTest_arg (s : State) (b : BitVec 1) : (s.returnedTest b).arg = s.arg := rfl
@[simp] theorem State.returnedTest_status (s : State) (b : BitVec 1) : (s.returnedTest b).status = 0 := rfl
@[simp] theorem State.returnedTest_exit (s : State) (b : BitVec 1) : (s.returnedTest b).exit = 1 - b := rfl
@[simp] theorem State.returnedTest_res (s : State) (b : BitVec 1) : (s.returnedTest b).res = s.res := rfl
@[simp] theorem State.returnedTest_walk (s : State) (b : BitVec 1) : (s.returnedTest b).walk = s.walk := rfl
@[simp] theorem State.returnedTest_engine (s : State) (b : BitVec 1) : (s.returnedTest b).engine = s.engine := rfl
@[simp] theorem State.returnedTest_mem (s : State) (b : BitVec 1) : (s.returnedTest b).mem = s.mem := rfl
@[simp] theorem State.returnedTest_cfg (s : State) (b : BitVec 1) : (s.returnedTest b).cfg = s.cfg := rfl
@[simp] theorem State.returnedTest_inputs (s : State) (b : BitVec 1) : (s.returnedTest b).inputs = s.inputs := rfl
@[simp] theorem State.returnedTest_draws (s : State) (b : BitVec 1) : (s.returnedTest b).draws = s.draws := rfl

@[simp] theorem State.drawn_pbsr (s : State) : (s.drawn).pbsr = s.pbsr := rfl
@[simp] theorem State.drawn_keys (s : State) : (s.drawn).keys = s.keys := rfl
@[simp] theorem State.drawn_bfReady (s : State) : (s.drawn).bfReady = s.bfReady := rfl
@[simp] theorem State.drawn_halt (s : State) : (s.drawn).halt = s.halt := rfl
@[simp] theorem State.drawn_arg (s : State) : (s.drawn).arg = s.arg := rfl
@[simp] theorem State.drawn_status (s : State) : (s.drawn).status = s.status := rfl
@[simp] theorem State.drawn_exit (s : State) : (s.drawn).exit = s.exit := rfl
@[simp] theorem State.drawn_res (s : State) : (s.drawn).res = s.res := rfl
@[simp] theorem State.drawn_walk (s : State) : (s.drawn).walk = s.walk := rfl
@[simp] theorem State.drawn_engine (s : State) : (s.drawn).engine = s.engine := rfl
@[simp] theorem State.drawn_mem (s : State) : (s.drawn).mem = s.mem := rfl
@[simp] theorem State.drawn_cfg (s : State) : (s.drawn).cfg = s.cfg := rfl
@[simp] theorem State.drawn_inputs (s : State) : (s.drawn).inputs = s.inputs := rfl
@[simp] theorem State.drawn_draws (s : State) : (s.drawn).draws = s.draws + 1 := rfl

@[simp] theorem State.failed_pbsr (s : State) (c : Word) : (s.failed c).pbsr = s.pbsr := rfl
@[simp] theorem State.failed_keys (s : State) (c : Word) : (s.failed c).keys = s.keys := rfl
@[simp] theorem State.failed_bfReady (s : State) (c : Word) : (s.failed c).bfReady = s.bfReady := rfl
@[simp] theorem State.failed_halt (s : State) (c : Word) : (s.failed c).halt = s.halt := rfl
@[simp] theorem State.failed_arg (s : State) (c : Word) : (s.failed c).arg = s.arg := rfl
@[simp] theorem State.failed_status (s : State) (c : Word) : (s.failed c).status = c := rfl
@[simp] theorem State.failed_exit (s : State) (c : Word) : (s.failed c).exit = 1 := rfl
@[simp] theorem State.failed_res (s : State) (c : Word) : (s.failed c).res = freeResults s.draws := rfl
@[simp] theorem State.failed_walk (s : State) (c : Word) : (s.failed c).walk = none := rfl
@[simp] theorem State.failed_engine (s : State) (c : Word) : (s.failed c).engine = .idle := rfl
@[simp] theorem State.failed_mem (s : State) (c : Word) : (s.failed c).mem = s.mem := rfl
@[simp] theorem State.failed_cfg (s : State) (c : Word) : (s.failed c).cfg = s.cfg := rfl
@[simp] theorem State.failed_inputs (s : State) (c : Word) : (s.failed c).inputs = s.inputs := rfl
@[simp] theorem State.failed_draws (s : State) (c : Word) : (s.failed c).draws = s.draws + 1 := rfl

@[simp] theorem State.afterReset_pbsr (kind : ResetKind) (s : State) :
    (s.afterReset kind).pbsr = (if kind.keepsPbsr then s.pbsr else Config.freeWord s.draws 18) := rfl
@[simp] theorem State.afterReset_keys (kind : ResetKind) (s : State) :
    (s.afterReset kind).keys = freeSubkeys s.draws := rfl
@[simp] theorem State.afterReset_bfReady (kind : ResetKind) (s : State) :
    (s.afterReset kind).bfReady = false := rfl
@[simp] theorem State.afterReset_halt (kind : ResetKind) (s : State) :
    (s.afterReset kind).halt = false := rfl
@[simp] theorem State.afterReset_arg (kind : ResetKind) (s : State) :
    (s.afterReset kind).arg = freeArgs s.draws := rfl
@[simp] theorem State.afterReset_status (kind : ResetKind) (s : State) :
    (s.afterReset kind).status = Config.freeWord s.draws 19 := rfl
@[simp] theorem State.afterReset_exit (kind : ResetKind) (s : State) :
    (s.afterReset kind).exit = (Config.freeByte s.draws 150).setWidth 1 := rfl
@[simp] theorem State.afterReset_res (kind : ResetKind) (s : State) :
    (s.afterReset kind).res = freeResults s.draws := rfl
@[simp] theorem State.afterReset_walk (kind : ResetKind) (s : State) :
    (s.afterReset kind).walk = none := rfl
@[simp] theorem State.afterReset_engine (kind : ResetKind) (s : State) :
    (s.afterReset kind).engine = .idle := rfl
@[simp] theorem State.afterReset_mem (kind : ResetKind) (s : State) :
    (s.afterReset kind).mem = Memory.ofCells s.cfg.addressWidth (Config.freeCells s.draws) := rfl
@[simp] theorem State.afterReset_cfg (kind : ResetKind) (s : State) :
    (s.afterReset kind).cfg = s.cfg := rfl
@[simp] theorem State.afterReset_inputs (kind : ResetKind) (s : State) :
    (s.afterReset kind).inputs = s.inputs := rfl
@[simp] theorem State.afterReset_draws (kind : ResetKind) (s : State) :
    (s.afterReset kind).draws = s.draws + 1 := rfl

/-- Two states with the same fields are the same. -/
theorem State.eq_of_fields {s t : State} (h1 : s.pbsr = t.pbsr) (h2 : s.keys = t.keys) (h3 : s.bfReady = t.bfReady)
    (h4 : s.halt = t.halt) (h5 : s.arg = t.arg) (h6 : s.status = t.status) (h7 : s.exit = t.exit) (h8 : s.res = t.res)
    (h9 : s.walk = t.walk) (h10 : s.engine = t.engine) (h11 : s.mem = t.mem) (h12 : s.cfg = t.cfg)
    (h13 : s.inputs = t.inputs) (h14 : s.draws = t.draws) : s = t := by
  cases s; cases t; simp_all

end Sys2Proof.Machine
end

