-- ==== Sys2Proof/Laws/Memory.lean ====
section
/-! SUPPORT. The laws of memory: read after write, and the canonical form is kept. -/

namespace Sys2Proof.Machine

/-- Reading a listed cell gives its byte, reading past it goes on. -/
@[simp] theorem Memory.read_cons (k a : Nat) (v : Byte) (t : Memory) :
    Memory.read ((k, v) :: t) a = if k = a then v else Memory.read t a := rfl

@[simp] theorem Memory.read_nil (a : Nat) : Memory.read [] a = Memory.background := rfl

theorem Memory.read_insert_same (m : Memory) (a : Nat) (b : Byte) (h : ∀ c ∈ m, c.1 ≠ a) :
    Memory.read (Memory.insert m a b) a = b := by
  induction m with
  | nil => simp [Memory.insert]
  | cons c t ih =>
    obtain ⟨k, v⟩ := c
    have hk : k ≠ a := h (k, v) (by simp)
    have ht : ∀ c ∈ t, c.1 ≠ a := fun c hc => h c (by simp [hc])
    by_cases hlt : a < k <;> simp [Memory.insert, hlt, hk, ih ht]

theorem Memory.read_insert_other (m : Memory) (a x : Nat) (b : Byte) (h : x ≠ a) :
    Memory.read (Memory.insert m a b) x = Memory.read m x := by
  induction m with
  | nil => simp [Memory.insert, Ne.symm h]
  | cons c t ih =>
    obtain ⟨k, v⟩ := c
    by_cases hlt : a < k
    · simp [Memory.insert, hlt, Ne.symm h]
    · simp [Memory.insert, hlt, ih]

theorem Memory.read_filter_same (m : Memory) (a : Nat) :
    Memory.read (m.filter (fun c => c.1 != a)) a = Memory.background := by
  induction m with
  | nil => simp
  | cons c t ih =>
    obtain ⟨k, v⟩ := c
    by_cases hk : k = a <;> simp [hk, ih]

theorem Memory.read_filter_other (m : Memory) (a x : Nat) (h : x ≠ a) :
    Memory.read (m.filter (fun c => c.1 != a)) x = Memory.read m x := by
  induction m with
  | nil => simp
  | cons c t ih =>
    obtain ⟨k, v⟩ := c
    by_cases hk : k = a
    · simp [hk, ih, Ne.symm h]
    · simp [hk, ih]

/-- Reading the byte just written gives it. -/
theorem Memory.read_write_same (m : Memory) (a : Nat) (b : Byte) : Memory.read (Memory.write m a b) a = b := by
  unfold Memory.write
  by_cases hb : b = Memory.background
  · simp [hb, Memory.read_filter_same]
  · simp only [hb, if_false]
    exact Memory.read_insert_same _ _ _ (by simp)

/-- Every other byte reads as before. -/
theorem Memory.read_write_other (m : Memory) (a x : Nat) (b : Byte) (h : x ≠ a) :
    Memory.read (Memory.write m a b) x = Memory.read m x := by
  unfold Memory.write
  by_cases hb : b = Memory.background
  · simp [hb, Memory.read_filter_other _ _ _ h]
  · simp [hb, Memory.read_insert_other _ _ _ _ h, Memory.read_filter_other _ _ _ h]

/-- Outside the bytes written, memory reads as before. -/
theorem Memory.read_writes_outside (bs : List Byte) (m : Memory) (a x : Nat) (h : x < a ∨ a + bs.length ≤ x) :
    Memory.read (Memory.writes m a bs) x = Memory.read m x := by
  induction bs generalizing m a with
  | nil => rfl
  | cons b bs ih =>
    simp only [List.length_cons] at h
    rw [Memory.writes, ih _ _ (by omega), Memory.read_write_other _ _ _ _ (by omega)]

/-- Inside the bytes written, memory reads the byte written. -/
theorem Memory.read_writes_inside (bs : List Byte) (m : Memory) (a i : Nat) (h : i < bs.length) :
    Memory.read (Memory.writes m a bs) (a + i) = bs[i] := by
  induction bs generalizing m a i with
  | nil => simp at h
  | cons b bs ih =>
    rw [Memory.writes]
    cases i with
    | zero => simp [Memory.read_writes_outside bs _ (a + 1) a (by omega), Memory.read_write_same]
    | succ i =>
      have := ih (Memory.write m a b) (a + 1) i (by simpa using h)
      simpa [Nat.add_assoc, Nat.add_comm 1 i] using this

@[simp] theorem Memory.bytes_length (m : Memory) (a n : Nat) : (Memory.bytes m a n).length = n := by
  induction n generalizing a with
  | zero => rfl
  | succ n ih => simp [Memory.bytes, ih]

/-- Byte `i` of a run of memory. -/
theorem Memory.bytes_getElem (m : Memory) (a n i : Nat) (h : i < (Memory.bytes m a n).length) :
    (Memory.bytes m a n)[i] = Memory.read m (a + i) := by
  induction n generalizing a i with
  | zero => simp [Memory.bytes] at h
  | succ n ih =>
    cases i with
    | zero => simp [Memory.bytes]
    | succ i => simp [Memory.bytes, ih, Nat.add_comm, Nat.add_left_comm]

/-- Byte `i` of a run of memory, as the word functions read it. -/
theorem byteAt_bytes (m : Memory) (a n i : Nat) (h : i < n) : byteAt (Memory.bytes m a n) i = Memory.read m (a + i) := by
  rw [byteAt, List.getD_eq_getElem _ _ (by simpa using h), Memory.bytes_getElem]

/-- Runs of memory that read alike are the same. -/
theorem Memory.bytes_congr (m m' : Memory) (a n : Nat) (h : ∀ x, a ≤ x → x < a + n → Memory.read m x = Memory.read m' x) :
    Memory.bytes m a n = Memory.bytes m' a n := by
  induction n generalizing a with
  | zero => rfl
  | succ n ih =>
    simp only [Memory.bytes]
    rw [h a (Nat.le_refl a) (by omega), ih (a + 1) (fun x h1 h2 => h x (by omega) (by omega))]

/-- A run of memory is two runs one after the other. -/
theorem Memory.bytes_add (m : Memory) (a n k : Nat) :
    Memory.bytes m a (n + k) = Memory.bytes m a n ++ Memory.bytes m (a + n) k := by
  induction n generalizing a with
  | zero => simp [Memory.bytes]
  | succ n ih =>
    rw [Nat.add_right_comm, Memory.bytes, ih, Memory.bytes, Nat.add_right_comm a 1 n]
    rfl

/-! ## The canonical form -/

theorem Memory.wf_nil (aw : Nat) : Memory.wf aw [] := by simp [Memory.wf]

theorem Memory.mem_insert (m : Memory) (a : Nat) (b : Byte) (c : Host.Cell) :
    c ∈ Memory.insert m a b ↔ c = (a, b) ∨ c ∈ m := by
  induction m with
  | nil => simp [Memory.insert]
  | cons d t ih =>
    obtain ⟨k, v⟩ := d
    by_cases hlt : a < k
    · simp [Memory.insert, hlt]
    · simp only [Memory.insert, hlt, if_false, List.mem_cons, ih]
      tauto

theorem Memory.insert_rising (m : Memory) (a : Nat) (b : Byte) (h : m.Pairwise (fun x y => x.1 < y.1))
    (ha : ∀ c ∈ m, c.1 ≠ a) : (Memory.insert m a b).Pairwise (fun x y => x.1 < y.1) := by
  induction m with
  | nil => simp [Memory.insert]
  | cons d t ih =>
    obtain ⟨k, v⟩ := d
    rw [List.pairwise_cons] at h
    by_cases hlt : a < k
    · simp only [Memory.insert, hlt, if_true]
      refine List.pairwise_cons.mpr ⟨fun c hc => ?_, List.pairwise_cons.mpr h⟩
      rcases List.mem_cons.mp hc with rfl | hc
      · exact hlt
      · exact Nat.lt_trans hlt (h.1 c hc)
    · simp only [Memory.insert, hlt, if_false, List.pairwise_cons]
      refine ⟨fun c hc => ?_, ih h.2 fun c hc => ha c (by simp [hc])⟩
      rcases (Memory.mem_insert t a b c).mp hc with rfl | hc
      · have := ha (k, v) (by simp)
        simp only at this ⊢
        omega
      · exact h.1 c hc

/-- Writing a byte of the address space keeps the canonical form. -/
theorem Memory.write_wf {aw : Nat} (m : Memory) (a : Nat) (b : Byte) (h : Memory.wf aw m) (ha : a < 2 ^ aw) :
    Memory.wf aw (Memory.write m a b) := by
  have hf : Memory.wf aw (m.filter (fun c => c.1 != a)) :=
    ⟨h.1.filter _, fun c hc => h.2 c (List.mem_filter.mp hc).1⟩
  unfold Memory.write
  by_cases hb : b = Memory.background
  · simpa [hb] using hf
  · simp only [hb, if_false]
    refine ⟨Memory.insert_rising _ _ _ hf.1 (by simp), fun c hc => ?_⟩
    rcases (Memory.mem_insert _ _ _ _).mp hc with rfl | hc
    · exact ⟨hb, ha⟩
    · exact hf.2 c hc

/-- Writing bytes of the address space keeps the canonical form. -/
theorem Memory.writes_wf {aw : Nat} (bs : List Byte) (m : Memory) (a : Nat) (h : Memory.wf aw m)
    (ha : a + bs.length ≤ 2 ^ aw) : Memory.wf aw (Memory.writes m a bs) := by
  induction bs generalizing m a with
  | nil => exact h
  | cons b bs ih =>
    rw [List.length_cons] at ha
    exact ih _ _ (Memory.write_wf m a b h (by omega)) (by omega)

theorem Memory.foldl_cells_wf {aw : Nat} (cells : List Host.Cell) (m : Memory) (h : Memory.wf aw m) :
    Memory.wf aw (cells.foldl (fun m c => if c.1 < 2 ^ aw then Memory.write m c.1 c.2 else m) m) := by
  induction cells generalizing m with
  | nil => exact h
  | cons c t ih =>
    refine ih _ ?_
    by_cases hc : c.1 < 2 ^ aw
    · simpa [hc] using Memory.write_wf m c.1 c.2 h hc
    · simpa [hc] using h

/-- The memory of any list of cells is in canonical form. -/
theorem Memory.ofCells_wf (aw : Nat) (cells : List Host.Cell) : Memory.wf aw (Memory.ofCells aw cells) :=
  Memory.foldl_cells_wf cells [] (Memory.wf_nil aw)

/-- An address below every listed one reads as the background. -/
theorem Memory.read_background_of_lt (m : Memory) (h : m.Pairwise (fun x y => x.1 < y.1)) (a : Nat)
    (ha : ∀ c ∈ m, a < c.1) : Memory.read m a = Memory.background := by
  induction m with
  | nil => rfl
  | cons c t ih =>
    obtain ⟨k, v⟩ := c
    have hk : a < k := ha (k, v) (by simp)
    rw [Memory.read_cons, if_neg (by omega)]
    exact ih h.of_cons fun c hc => ha c (by simp [hc])

end Sys2Proof.Machine
end

