-- ==== Sys2Proof/Laws/Ops.lean ====
section
/-! SUPPORT. What the shared operations can do: how parts of an operation follow one another, how an operation ends, what a read or
a write of MEM can give, and which fields of the state a part can change. -/

namespace Sys2Proof.Machine

/-! ## One part after another -/

section Bind

variable {α β γ : Type}

@[simp] theorem Ran.bind_ok (a : α) (s : State) (f : α → State → Ran β) : (Ran.ok a s).bind f = f a s := rfl
@[simp] theorem Ran.bind_raised (c : Word) (s : State) (f : α → State → Ran β) :
    (Ran.raised c s).bind f = .raised c s := rfl
@[simp] theorem Ran.bind_fault (r : Fault) (f : α → State → Ran β) : (Ran.fault r).bind f = .fault r := rfl
@[simp] theorem Ran.bind_refused (r : Refusal) (f : α → State → Ran β) : (Ran.refused r).bind f = .refused r := rfl

theorem Ran.bind_assoc (x : Ran α) (f : α → State → Ran β) (g : β → State → Ran γ) :
    (x.bind f).bind g = x.bind fun a s => (f a s).bind g := by cases x <;> rfl

/-- A part and what follows it succeed exactly when both do. -/
theorem Ran.bind_eq_ok {x : Ran α} {f : α → State → Ran β} {b : β} {t : State} :
    x.bind f = .ok b t ↔ ∃ a s, x = .ok a s ∧ f a s = .ok b t := by
  cases x <;> simp

/-- A part and what follows it raise a status exactly when one of them does. -/
theorem Ran.bind_eq_raised {x : Ran α} {f : α → State → Ran β} {c : Word} {t : State} :
    x.bind f = .raised c t ↔ x = .raised c t ∨ ∃ a s, x = .ok a s ∧ f a s = .raised c t := by
  cases x <;> simp

/-- What an outcome satisfies when it is a success or a raised status, whose code is then not 0 (60_exceptions R241); a fault
or a refusal satisfies anything. -/
def Ran.Ends (r : Ran α) (ok : α → State → Prop) (up : State → Prop) : Prop :=
  match r with
  | .ok a s => ok a s
  | .raised c s => c ≠ 0 ∧ up s
  | .fault _ => True
  | .refused _ => True

theorem Ran.Ends.bind {x : Ran α} {f : α → State → Ran β} {p : α → State → Prop} {q : β → State → Prop} {up : State → Prop}
    (hx : x.Ends p up) (hf : ∀ a s, p a s → (f a s).Ends q up) : (x.bind f).Ends q up := by
  cases x with
  | ok a s => exact hf a s hx
  | raised c s => exact hx
  | fault r => trivial
  | refused r => trivial

theorem Ran.Ends.mono {x : Ran α} {p q : α → State → Prop} {up up' : State → Prop} (hx : x.Ends p up)
    (h : ∀ a s, p a s → q a s) (h' : ∀ s, up s → up' s) : x.Ends q up' := by
  cases x with
  | ok a s => exact h a s hx
  | raised c s => exact ⟨hx.1, h' s hx.2⟩
  | fault r => trivial
  | refused r => trivial

end Bind

/-! ## How an operation ends -/

/-- No status but `Valid` has code 0 (60_exceptions R241). -/
theorem Status.code_ne_zero {st : Status} (h : st ≠ .valid) : st.code ≠ 0 := by
  cases st <;> first | exact absurd rfl h | decide

@[simp] theorem endOp_ok (s : State) : endOp (.ok () s) = .next s := rfl
@[simp] theorem endOp_raised (c : Word) (s : State) : endOp (.raised c s) = .next (s.failed c) := rfl
@[simp] theorem endOp_fault (r : Fault) : endOp (.fault r) = .fault r := rfl
@[simp] theorem endOp_refused (r : Refusal) : endOp (.refused r) = .refused r := rfl

/-- An operation completes exactly when its body succeeds or raises a status. -/
theorem endOp_eq_next {r : Ran Unit} {t : State} :
    endOp r = .next t ↔ r = .ok () t ∨ ∃ c s, r = .raised c s ∧ t = s.failed c := by
  cases r with
  | ok a s => cases a; simp [endOp]
  | raised c s => simp [endOp, eq_comm]
  | fault r => simp [endOp]
  | refused r => simp [endOp]

/-- While HALT is 0 an operation is its body. -/
theorem operation_ready {s : State} (h : s.halt = false) (body : State → Ran Unit) :
    operation body s = endOp (body s) := by simp [operation, h]

/-- While HALT is 1 it is refused. -/
theorem operation_halted {s : State} (h : s.halt = true) (body : State → Ran Unit) :
    operation body s = .refused .halted := by simp [operation, h]

/-- Everything an operation that gives a next state can have done. -/
theorem operation_eq_next {body : State → Ran Unit} {s t : State} :
    operation body s = .next t ↔
      s.halt = false ∧ (body s = .ok () t ∨ ∃ c u, body s = .raised c u ∧ t = u.failed c) := by
  unfold operation
  by_cases h : s.halt <;> simp [h, endOp_eq_next]

/-- An operation that gives a next state leaves it as its body's postcondition says. -/
theorem operation_ends {body : State → Ran Unit} {s t : State} {p : State → Prop} {up : State → Prop}
    (h : operation body s = .next t) (hb : (body s).Ends (fun _ u => p u) up)
    (hf : ∀ c u, c ≠ 0 → up u → p (u.failed c)) : p t := by
  rcases (operation_eq_next.mp h).2 with k | ⟨c, u, k, rfl⟩ <;> rw [k] at hb
  · exact hb
  · exact hf c u hb.1 hb.2

/-! ## Reads and writes of MEM -/

theorem allFrom_iff (ok : Nat → Bool) (a n : Nat) : allFrom ok a n = true ↔ ∀ x, a ≤ x → x < a + n → ok x = true := by
  induction n generalizing a with
  | zero => simp [allFrom]; omega
  | succ n ih =>
    rw [allFrom, Bool.and_eq_true, ih]
    constructor
    · rintro ⟨h0, h⟩ x h1 h2
      rcases Nat.eq_or_lt_of_le h1 with rfl | h1
      · exact h0
      · exact h x h1 (by omega)
    · intro h
      exact ⟨h a (Nat.le_refl a) (by omega), fun x h1 h2 => h x (by omega) (by omega)⟩

theorem allFrom_add (ok : Nat → Bool) (a n m : Nat) :
    allFrom ok a (n + m) = true ↔ allFrom ok a n = true ∧ allFrom ok (a + n) m = true := by
  simp only [allFrom_iff]
  constructor
  · intro h
    exact ⟨fun x h1 h2 => h x h1 (by omega), fun x h1 h2 => h x (by omega) (by omega)⟩
  · rintro ⟨h1, h2⟩ x hx hx'
    by_cases hc : x < a + n
    · exact h1 x hx hc
    · exact h2 x (by omega) (by omega)

/-- With the image in RAM a read inside the extent gives the bytes and changes nothing. -/
theorem memRead_ram {s : State} {a n : Nat} (hs : inRam s) (h : readableRun s a n) :
    memRead a n s = .ok (Memory.bytes s.mem a n) s := by
  unfold inRam at hs
  unfold readableRun at h
  simp [memRead, hs, readExtent, h]

/-- With the image in RAM a read outside the extent faults. -/
theorem memRead_ram_fault {s : State} {a n : Nat} (hs : inRam s) (h : ¬ readableRun s a n) :
    memRead a n s = .fault .outOfExtent := by
  unfold inRam at hs
  unfold readableRun at h
  simp [memRead, hs, readExtent, h]

/-- Everything a read can do: it gives the bytes of MEM, having drawn one free value with a file store, or it raises
FileIOError, or it faults. -/
theorem memRead_cases (a n : Nat) (s : State) :
    (∃ t, memRead a n s = .ok (Memory.bytes s.mem a n) t ∧ readableRun s a n ∧ (t = s ∧ inRam s ∨ t = s.drawn)) ∨
    memRead a n s = .raised Status.fileIOError.code s.drawn ∨ memRead a n s = .fault .outOfExtent := by
  have hc : ∀ x, canRead s.drawn x = canRead s x := fun x => rfl
  have hf : canRead s.drawn = canRead s := funext hc
  unfold memRead readableRun inRam
  cases hs : s.cfg.store with
  | ram =>
    by_cases h : allFrom (canRead s) a n
    · exact .inl ⟨s, by simp [readExtent, h], h, .inl ⟨rfl, rfl⟩⟩
    · exact .inr (.inr (by simp [readExtent, h]))
  | file =>
    by_cases hb : Config.freeBool s.draws
    · exact .inr (.inl (by simp [hb, raise]))
    · by_cases h : allFrom (canRead s) a n
      · exact .inl ⟨s.drawn, by simp only [hb, readExtent, hf, h]; rfl, h, .inr rfl⟩
      · exact .inr (.inr (by simp [hb, readExtent, hf, h]))

theorem rd32LE_ram {s : State} {a : Nat} (hs : inRam s) (h : readableRun s a 4) :
    rd32LE a s = .ok (le32At (Memory.bytes s.mem a 4) 0) s := by simp [rd32LE, memRead_ram hs h]

theorem rd32BE_ram {s : State} {a : Nat} (hs : inRam s) (h : readableRun s a 4) :
    rd32BE a s = .ok (be32At (Memory.bytes s.mem a 4) 0) s := by simp [rd32BE, memRead_ram hs h]

/-- Everything a write can do: the bytes are stored, all of them inside the extent, or nothing is and it faults. -/
theorem memWrite_cases (a : Nat) (b : List Byte) (s : State) :
    (memWrite a b s = .ok () (s.withMem (Memory.writes s.mem a b)) ∧ writableRun s a b.length) ∨
    memWrite a b s = .fault .outOfExtent := by
  unfold memWrite writableRun
  by_cases h : allFrom (canWrite s) a b.length <;> simp [h]

/-- An address that can be read exists. -/
theorem canRead_lt {s : State} {a : Nat} (h : canRead s a = true) : a < 2 ^ s.cfg.addressWidth := by
  simp only [canRead, Bool.and_eq_true, decide_eq_true_eq] at h
  exact h.1

/-- An address that can be written can be read. -/
theorem canWrite_canRead {s : State} {a : Nat} (h : canWrite s a = true) : canRead s a = true := by
  simp only [canWrite, Bool.and_eq_true] at h
  exact h.1

/-- A run that can be written lies in the address space. -/
theorem writableRun_end {s : State} {a n : Nat} (h : writableRun s a n) (hn : 0 < n) : a + n ≤ 2 ^ s.cfg.addressWidth := by
  have := canRead_lt (canWrite_canRead ((allFrom_iff _ _ _).mp h (a + n - 1) (by omega) (by omega)))
  omega

theorem writableRun_readableRun {s : State} {a n : Nat} (h : writableRun s a n) : readableRun s a n :=
  (allFrom_iff _ _ _).mpr fun x h1 h2 => canWrite_canRead ((allFrom_iff _ _ _).mp h x h1 h2)

/-! ## Bytes that stand in MEM -/

theorem readableRun_add {s : State} {a n m : Nat} :
    readableRun s a (n + m) ↔ readableRun s a n ∧ readableRun s (a + n) m := allFrom_add _ _ _ _

theorem holds_append {s : State} {a : Nat} {b c : List Byte} :
    holds s a (b ++ c) ↔ holds s a b ∧ holds s (a + b.length) c := by
  unfold holds
  rw [List.length_append, readableRun_add, Memory.bytes_add]
  constructor
  · rintro ⟨⟨h1, h2⟩, h⟩
    obtain ⟨h3, h4⟩ := List.append_inj h (by simp)
    exact ⟨⟨h1, h3⟩, h2, h4⟩
  · rintro ⟨⟨h1, h3⟩, h2, h4⟩
    exact ⟨⟨h1, h2⟩, by rw [h3, h4]⟩

@[simp] theorem holds_nil (s : State) (a : Nat) : holds s a [] := ⟨rfl, rfl⟩

theorem memRead_holds {s : State} {a : Nat} {b : List Byte} (hs : inRam s) (h : holds s a b) :
    memRead a b.length s = .ok b s := by rw [memRead_ram hs h.1, h.2]

/-- Reading a part of what stands in MEM. -/
theorem memRead_holds_take {s : State} {a n : Nat} {b : List Byte} (hs : inRam s) (h : holds s a b) (hn : n ≤ b.length) :
    memRead a n s = .ok (b.take n) s := by
  have h' : holds s a (b.take n ++ b.drop n) := by simpa using h
  have := memRead_holds hs (holds_append.mp h').1
  simpa [List.length_take, Nat.min_eq_left hn] using this

@[simp] theorem le32_length (v : Word) : (le32 v).length = 4 := rfl
@[simp] theorem be32_length (v : Word) : (be32 v).length = 4 := rfl

/-- A word is its four bytes, least significant first. -/
theorem le32Of_bytes (v : Word) :
    le32Of (v.extractLsb' 0 8) (v.extractLsb' 8 8) (v.extractLsb' 16 8) (v.extractLsb' 24 8) = v := by
  apply BitVec.eq_of_getLsbD_eq
  intro i hi
  simp only [le32Of, BitVec.getLsbD_append, BitVec.getLsbD_extractLsb']
  by_cases h1 : i < 8
  · simp [h1]
  · by_cases h2 : i < 16
    · have : i - 8 < 8 := by omega
      simp [h1, this, show 8 + (i - 8) = i by omega]
    · by_cases h3 : i < 24
      · have h4 : ¬ i - 8 < 8 := by omega
        have : i - 8 - 8 < 8 := by omega
        simp [h1, h4, this, show 16 + (i - 8 - 8) = i by omega]
      · have h4 : ¬ i - 8 < 8 := by omega
        have h5 : ¬ i - 8 - 8 < 8 := by omega
        have : i - 8 - 8 - 8 < 8 := by omega
        simp [h1, h4, h5, this, show 24 + (i - 8 - 8 - 8) = i by omega]

theorem be32Of_eq (a b c d : Byte) : be32Of a b c d = le32Of d c b a := rfl

theorem le32At_le32 (v : Word) (b : List Byte) : le32At (le32 v ++ b) 0 = v := le32Of_bytes v

theorem be32At_be32 (v : Word) (b : List Byte) : be32At (be32 v ++ b) 0 = v := le32Of_bytes v

theorem rd32LE_holds {s : State} {a : Nat} {v : Word} (hs : inRam s) (h : holds s a (le32 v)) :
    rd32LE a s = .ok v s := by
  have := memRead_holds hs h
  rw [le32_length] at this
  simp only [rd32LE, this, Ran.bind_ok]
  rw [show le32 v = le32 v ++ [] by simp, le32At_le32]

/-! ## What a part can change

Every part of an operation before its return, other than the writes of PBSR, HALT, P, S, BF_READY and MEM, keeps all of the
fields of `Keeps`; a return or a raised status writes the last three. -/

/-- The fields that an operation which writes neither space, HALT nor the key schedule leaves alone. -/
structure Frame (s t : State) : Prop where
  pbsr : t.pbsr = s.pbsr
  keys : t.keys = s.keys
  bfReady : t.bfReady = s.bfReady
  halt : t.halt = s.halt
  arg : t.arg = s.arg
  mem : t.mem = s.mem
  cfg : t.cfg = s.cfg
  inputs : t.inputs = s.inputs

/-- Those fields and the result registers. -/
structure Keeps (s t : State) : Prop extends Frame s t where
  res : t.res = s.res
  status : t.status = s.status
  exit : t.exit = s.exit

theorem Frame.refl (s : State) : Frame s s := ⟨rfl, rfl, rfl, rfl, rfl, rfl, rfl, rfl⟩

theorem Frame.trans {s t u : State} (h : Frame s t) (k : Frame t u) : Frame s u :=
  ⟨k.pbsr.trans h.pbsr, k.keys.trans h.keys, k.bfReady.trans h.bfReady, k.halt.trans h.halt, k.arg.trans h.arg,
    k.mem.trans h.mem, k.cfg.trans h.cfg, k.inputs.trans h.inputs⟩

theorem Frame.withRes (s : State) (r : Results) : Frame s (s.withRes r) := ⟨rfl, rfl, rfl, rfl, rfl, rfl, rfl, rfl⟩
theorem Frame.returned (s : State) : Frame s s.returned := ⟨rfl, rfl, rfl, rfl, rfl, rfl, rfl, rfl⟩
theorem Frame.returnedCommand (s : State) : Frame s s.returnedCommand := ⟨rfl, rfl, rfl, rfl, rfl, rfl, rfl, rfl⟩
theorem Frame.returnedTest (s : State) (b : BitVec 1) : Frame s (s.returnedTest b) := ⟨rfl, rfl, rfl, rfl, rfl, rfl, rfl, rfl⟩
theorem Frame.failed (s : State) (c : Word) : Frame s (s.failed c) := ⟨rfl, rfl, rfl, rfl, rfl, rfl, rfl, rfl⟩

theorem Keeps.refl (s : State) : Keeps s s := ⟨Frame.refl s, rfl, rfl, rfl⟩

theorem Keeps.trans {s t u : State} (h : Keeps s t) (k : Keeps t u) : Keeps s u :=
  ⟨h.toFrame.trans k.toFrame, k.res.trans h.res, k.status.trans h.status, k.exit.trans h.exit⟩

theorem Keeps.drawn (s : State) : Keeps s s.drawn := ⟨⟨rfl, rfl, rfl, rfl, rfl, rfl, rfl, rfl⟩, rfl, rfl, rfl⟩
theorem Keeps.withWalk (s : State) (w : Option Walk) : Keeps s (s.withWalk w) :=
  ⟨⟨rfl, rfl, rfl, rfl, rfl, rfl, rfl, rfl⟩, rfl, rfl, rfl⟩
theorem Keeps.withEngine (s : State) (e : Engine) : Keeps s (s.withEngine e) :=
  ⟨⟨rfl, rfl, rfl, rfl, rfl, rfl, rfl, rfl⟩, rfl, rfl, rfl⟩

/-- A part keeps those fields, however it ends. -/
abbrev Ran.Keeps {α : Type} (s : State) (r : Ran α) : Prop :=
  r.Ends (fun _ t => Machine.Keeps s t) (fun t => Machine.Keeps s t)

theorem Ran.Keeps.bind {α β : Type} {s : State} {x : Ran α} {f : α → State → Ran β} (hx : x.Keeps s)
    (hf : ∀ a t, (f a t).Keeps t) : (x.bind f).Keeps s :=
  Ran.Ends.bind hx fun a t ht => (hf a t).mono (fun _ _ h => ht.trans h) (fun _ h => ht.trans h)

theorem memRead_keeps (a n : Nat) (s : State) : (memRead a n s).Keeps s := by
  rcases memRead_cases a n s with ⟨t, h, -, ⟨rfl, -⟩ | rfl⟩ | h | h <;> rw [h]
  · exact Keeps.refl _
  · exact Keeps.drawn _
  · exact ⟨Status.code_ne_zero (by decide), Keeps.drawn _⟩
  · trivial

theorem rd32LE_keeps (a : Nat) (s : State) : (rd32LE a s).Keeps s := (memRead_keeps a 4 s).bind fun _ t => Keeps.refl t

theorem rd32BE_keeps (a : Nat) (s : State) : (rd32BE a s).Keeps s := (memRead_keeps a 4 s).bind fun _ t => Keeps.refl t

theorem raise_ends {α : Type} {st : Status} {s : State} {p : α → State → Prop} {up : State → Prop} (h : up s)
    (hst : st ≠ .valid := by decide) : (raise st s : Ran α).Ends p up := ⟨Status.code_ne_zero hst, h⟩

theorem raise_keeps {α : Type} (st : Status) (s : State) (hst : st ≠ .valid := by decide) : (raise st s : Ran α).Keeps s :=
  raise_ends (Keeps.refl s) hst

/-- An operation whose body keeps the framed fields keeps them. -/
theorem operation_frame {body : State → Ran Unit} {s t : State} (h : operation body s = .next t)
    (hb : (body s).Ends (fun _ u => Frame s u) (Frame s)) : Frame s t :=
  operation_ends h hb fun c u _ hu => hu.trans (Frame.failed u c)

/-- An operation that is a part which keeps its fields and then a return keeps the framed fields. -/
theorem operation_frame_bind {α : Type} {part : State → Ran α} {ret : α → State → State} {s t : State}
    (h : operation (fun s => (part s).bind fun a u => .ok () (ret a u)) s = .next t) (hp : (part s).Keeps s)
    (hr : ∀ a u, Frame u (ret a u)) : Frame s t :=
  operation_frame h ((hp.mono (fun _ _ k => k.toFrame) (fun _ k => k.toFrame)).bind fun a u hu => hu.trans (hr a u))

/-- A run inside a readable run is readable. -/
theorem readableRun_sub {s : State} {a n b m : Nat} (h : readableRun s a n) (h1 : a ≤ b) (h2 : b + m ≤ a + n) :
    readableRun s b m := by
  unfold readableRun at *
  rw [allFrom_iff] at *
  intro x h3 h4
  exact h x (by omega) (by omega)

/-- Keeping those fields keeps what can be read. -/
theorem Keeps.readableRun {s t : State} (h : Keeps s t) {a n : Nat} (k : Machine.readableRun s a n) :
    Machine.readableRun t a n := by
  have hc : canRead t = canRead s := funext fun x => by simp only [canRead, h.cfg]
  unfold Machine.readableRun at *
  rw [hc]; exact k

/-- Keeping those fields keeps what stands in MEM. -/
theorem Keeps.holds {s t : State} (k : Keeps s t) {a : Nat} {b : List Byte} (h : holds s a b) : Machine.holds t a b := by
  exact ⟨k.readableRun h.1, by rw [k.mem]; exact h.2⟩

theorem Keeps.inRam {s t : State} (k : Keeps s t) (h : inRam s) : Machine.inRam t := by
  unfold Machine.inRam at *
  rw [k.cfg]; exact h

end Sys2Proof.Machine
end

