-- ==== Sys2Proof/Laws/Walker.lean ====
section
/-! SUPPORT. What the parts of the walker can change: they keep every field but the walk, the engine, the results and the count of
draws; and the presence mask of the header under construction keeps its upper 24 bits 0. -/

namespace Sys2Proof.Machine

/-! ## Fields kept -/

theorem onWalk_some {α : Type} {s : State} {w : Walk} (h : s.walk = some w) (f : Walk → State → Ran α) :
    onWalk f s = f w s := by simp [onWalk, h]

theorem onWalk_none {α : Type} {s : State} (h : s.walk = none) (f : Walk → State → Ran α) :
    onWalk f s = .refused .noWalk := by simp [onWalk, h]

theorem onWalk_ends {α : Type} {s : State} {f : Walk → State → Ran α} {p : α → State → Prop} {up : State → Prop}
    (h : ∀ w, s.walk = some w → (f w s).Ends p up) : (onWalk f s).Ends p up := by
  cases hw : s.walk with
  | none => rw [onWalk_none hw]; trivial
  | some w => rw [onWalk_some hw]; exact h w hw

theorem readField_keeps (p size : Nat) (length : Word) (s : State) : (readField p size length s).Keeps s :=
  (memRead_keeps p size s).bind fun b t => by
    split
    · exact Keeps.drawn t
    · exact Keeps.refl t

theorem readWordField_keeps (p : Nat) (length : Word) (s : State) : (readWordField p length s).Keeps s :=
  (readField_keeps p 4 length s).bind fun _ t => Keeps.refl t

theorem readVersionField_keeps (p : Nat) (length : Word) (s : State) : (readVersionField p length s).Keeps s :=
  (readField_keeps p 16 length s).bind fun _ t => Keeps.refl t

theorem readBytesField_keeps (n p : Nat) (length : Word) (s : State) : (readBytesField n p length s).Keeps s :=
  (readField_keeps p n length s).bind fun _ t => Keeps.refl t

theorem passOver_keeps (w : Walk) (length : Word) (s : State) : (passOver w length s).Keeps s := Keeps.withWalk s _

theorem globalRecord_keeps {length : Word} {search : Walk → State → Ran Unit} (h : ∀ w s, (search w s).Keeps s) (s : State) :
    (globalRecord length search s).Keeps s :=
  onWalk_ends fun w _ => by
    cases w.phase
    · exact h w s
    · exact passOver_keeps w length s
    · trivial

theorem recordChnk_keeps (length : Word) (s : State) : (recordChnk length s).Keeps s :=
  globalRecord_keeps (fun w s => by
    refine (readWordField_keeps _ _ s).bind fun n t => ?_
    exact Keeps.withWalk t (some { w with found := some n })) s

theorem recordGoptOther_keeps (length : Word) (s : State) : (recordGoptOther length s).Keeps s :=
  globalRecord_keeps (fun w s => passOver_keeps w length s) s

theorem chunkRecord_keeps {length : Word} {rule : Nat → ChunkHeader → State → Ran ChunkHeader}
    (h : ∀ p d s, (rule p d s).Keeps s) (s : State) : (chunkRecord length rule s).Keeps s :=
  onWalk_ends fun w _ => by
    cases w.phase
    · trivial
    · trivial
    · simp only
      split
      · split
        · exact raise_keeps _ s
        · exact (h _ _ s).bind fun d t => passOver_keeps _ length t
      · exact passOver_keeps w length s

/-- The rule of a field record keeps those fields. -/
theorem fieldRule_keeps {α : Type} {read : State → Ran α} {s : State} (hr : (read s).Keeps s) (f : α → ChunkHeader) :
    ((read s).bind fun v t => Ran.ok (f v) t).Keeps s := hr.bind fun _ t => Keeps.refl t

theorem recordVers_keeps (length : Word) (s : State) : (recordVers length s).Keeps s :=
  chunkRecord_keeps (fun _ _ t => fieldRule_keeps (read := readVersionField _ length) (readVersionField_keeps _ _ t) _) s

theorem recordSize_keeps (length : Word) (s : State) : (recordSize length s).Keeps s :=
  chunkRecord_keeps (fun _ _ t => fieldRule_keeps (read := readWordField _ length) (readWordField_keeps _ _ t) _) s

theorem recordData_keeps (length : Word) (s : State) : (recordData length s).Keeps s :=
  chunkRecord_keeps (fun _ _ t => fieldRule_keeps (read := readWordField _ length) (readWordField_keeps _ _ t) _) s

theorem recordDest_keeps (length : Word) (s : State) : (recordDest length s).Keeps s :=
  chunkRecord_keeps (fun _ _ t => fieldRule_keeps (read := readBytesField 32 _ length) (readBytesField_keeps _ _ _ t) _) s

theorem recordMd5_keeps (length : Word) (s : State) : (recordMd5 length s).Keeps s :=
  chunkRecord_keeps (fun _ _ t => fieldRule_keeps (read := readBytesField 16 _ length) (readBytesField_keeps _ _ _ t) _) s

theorem recordSha2_keeps (length : Word) (s : State) : (recordSha2 length s).Keeps s :=
  chunkRecord_keeps (fun _ _ t => fieldRule_keeps (read := readBytesField 32 _ length) (readBytesField_keeps _ _ _ t) _) s

theorem recordCr32_keeps (length : Word) (s : State) : (recordCr32 length s).Keeps s :=
  chunkRecord_keeps (fun _ _ t => fieldRule_keeps (read := readWordField _ length) (readWordField_keeps _ _ t) _) s

theorem recordEncm_keeps (length : Word) (s : State) : (recordEncm length s).Keeps s :=
  chunkRecord_keeps (fun _ _ t => fieldRule_keeps (read := readWordField _ length) (readWordField_keeps _ _ t) _) s

theorem recordCoptOther_keeps (length : Word) (s : State) : (recordCoptOther length s).Keeps s :=
  chunkRecord_keeps (fun _ _ t => raise_keeps _ t) s

theorem runRecord_keeps (i : Instr) (s : State) : (runRecord i s).Keeps s := by
  cases i with
  | chnk l => exact recordChnk_keeps l s
  | goptOther _ l => exact recordGoptOther_keeps l s
  | versOpt l => exact recordVers_keeps l s
  | sizeOpt l => exact recordSize_keeps l s
  | dataOpt l => exact recordData_keeps l s
  | destOpt l => exact recordDest_keeps l s
  | md5Opt l => exact recordMd5_keeps l s
  | sha2Opt l => exact recordSha2_keeps l s
  | cr32Opt l => exact recordCr32_keeps l s
  | encmOpt l => exact recordEncm_keeps l s
  | coptOther _ l => exact recordCoptOther_keeps l s
  | _ => trivial

theorem fetchRecord_keeps (w : Walk) (s : State) : (fetchRecord w s).Keeps s :=
  (memRead_keeps _ _ s).bind fun _ t => (memRead_keeps _ _ t).bind fun _ u => Keeps.refl u

theorem fetchInstr_keeps (w : Walk) (s : State) : (fetchInstr w s).Keeps s :=
  (fetchRecord_keeps w s).bind fun b t => by
    cases decodeRecord w.table b
    · trivial
    · exact Keeps.refl t

theorem skipRecord_keeps (w : Walk) (s : State) : (skipRecord w s).Keeps s :=
  (rd32LE_keeps _ s).bind fun l t => passOver_keeps w l t

theorem recordTurn_keeps (s : State) : (recordTurn s).Keeps s :=
  onWalk_ends fun w _ => by
    cases w.phase
    · exact (fetchInstr_keeps w s).bind fun i t => runRecord_keeps i t
    · exact skipRecord_keeps w s
    · exact (fetchInstr_keeps w s).bind fun i t => runRecord_keeps i t

theorem runRecords_keeps (m : Nat) (s : State) : (runRecords m s).Keeps s := by
  induction m generalizing s with
  | zero => exact Keeps.refl s
  | succ m ih =>
    refine onWalk_ends fun w _ => ?_
    split
    · exact Keeps.refl s
    · exact (recordTurn_keeps s).bind fun _ t => ih t

theorem runLoop_keeps (s : State) : (runLoop s).Keeps s := onWalk_ends fun _ _ => runRecords_keeps _ s

theorem startWalk_keeps (job : Job) (base k : Nat) (s : State) : (startWalk job base k s).Keeps s :=
  (rd32LE_keeps _ s).bind fun _ t => Keeps.withWalk t _

theorem foundCount_keeps (s : State) : (foundCount s).Keeps s :=
  onWalk_ends fun w _ => by
    cases w.found
    · exact raise_keeps _ s
    · exact Keeps.refl s

theorem beginSkip_keeps (s : State) : (beginSkip s).Keeps s :=
  (foundCount_keeps s).bind fun n t => onWalk_ends fun w _ => by
    split
    · exact raise_keeps _ t
    · exact (rd32LE_keeps _ t).bind fun _ u => Keeps.withWalk u _

theorem beginGroups_keeps (s : State) : (beginGroups s).Keeps s :=
  onWalk_ends fun _ _ => (Keeps.drawn s).trans (Keeps.withWalk _ _)

theorem enterGroup_keeps (s : State) : (enterGroup s).Keeps s :=
  onWalk_ends fun _ _ => (rd32LE_keeps _ s).bind fun _ t => Keeps.withWalk t _

theorem runGroups_keeps (m : Nat) (s : State) : (runGroups m s).Keeps s := by
  induction m generalizing s with
  | zero => exact Keeps.refl s
  | succ m ih => exact (enterGroup_keeps s).bind fun _ t => (runLoop_keeps t).bind fun _ u => ih u

theorem takeHeader_keeps (s : State) : (takeHeader s).Keeps s := onWalk_ends fun _ _ => Keeps.withWalk s _

theorem countChunks_keeps (base : Nat) (s : State) : (countChunks base s).Keeps s :=
  (startWalk_keeps _ _ _ s).bind fun _ t => (runLoop_keeps t).bind fun _ u => (foundCount_keeps u).bind fun _ v =>
    Keeps.withWalk v _

theorem chunkHeader_keeps (base k : Nat) (s : State) : (chunkHeader base k s).Keeps s :=
  (startWalk_keeps _ _ _ s).bind fun _ s => (runLoop_keeps s).bind fun _ s => (beginSkip_keeps s).bind fun _ s =>
    (runLoop_keeps s).bind fun _ s => (beginGroups_keeps s).bind fun _ s => (runGroups_keeps k s).bind fun _ s =>
    takeHeader_keeps s

theorem compareName_keeps (d : Vector Byte 32) (name : List Byte) (s : State) : Keeps s (compareName d name s).2 := by
  unfold compareName
  split
  · exact Keeps.refl s
  · exact Keeps.drawn s

theorem findByName_keeps (base : Nat) (name : List Byte) (m c : Nat) (s : State) : (findByName base name m c s).Keeps s := by
  induction m generalizing c s with
  | zero => exact raise_keeps _ s
  | succ m ih =>
    refine (chunkHeader_keeps base c s).bind fun h t => ?_
    split
    · simp only
      have hk := compareName_keeps h.dest name t
      split
      · exact hk
      · exact (ih _ _).mono (fun _ _ k => hk.trans k) (fun _ k => hk.trans k)
    · exact ih _ t

theorem returnCount_frame (n : Word) (s : State) : Frame s (returnCount n s) := ⟨rfl, rfl, rfl, rfl, rfl, rfl, rfl, rfl⟩
theorem returnHeader_frame (h : ChunkHeader) (s : State) : Frame s (returnHeader h s) := ⟨rfl, rfl, rfl, rfl, rfl, rfl, rfl, rfl⟩

theorem loopEnd_frame (s : State) : (loopEnd s).Ends (fun _ t => Frame s t) (Frame s) := by
  have weak : ∀ {r : Ran Unit}, r.Keeps s → r.Ends (fun _ t => Frame s t) (Frame s) :=
    fun h => h.mono (fun _ _ k => k.toFrame) (fun _ k => k.toFrame)
  refine onWalk_ends fun w _ => ?_
  cases w.phase
  · simp only
    cases w.job
    · exact ((foundCount_keeps s).mono (fun _ _ k => k.toFrame) (fun _ k => k.toFrame)).bind fun n t ht =>
        ht.trans (returnCount_frame n t)
    · exact weak (beginSkip_keeps s)
  · exact weak ((beginGroups_keeps s).bind fun _ t => enterGroup_keeps t)
  · simp only
    split
    · exact weak (enterGroup_keeps s)
    · exact returnHeader_frame _ s

/-! ## Payload fields -/

/-- A field that the payload fills holds the payload's bytes. -/
theorem readField_full {s : State} {p n : Nat} {length : Word} (hs : inRam s) (h : readableRun s p n) (hl : n ≤ length.toNat) :
    readField p n length s = .ok (Memory.bytes s.mem p n) s := by
  unfold readField
  rw [memRead_ram hs h]
  simp only [Ran.bind_ok]
  rw [if_neg (by omega)]

/-- A field that the payload does not fill takes a draw for the rest. -/
theorem readField_cut {s : State} {p n : Nat} {length : Word} (hs : inRam s) (h : readableRun s p n) (hl : length.toNat < n) :
    readField p n length s = .ok (cutPayload length.toNat s.draws (Memory.bytes s.mem p n)) s.drawn := by
  unfold readField
  rw [memRead_ram hs h]
  simp only [Ran.bind_ok]
  rw [if_pos hl]

@[simp] theorem cutPayload_length (length draw : Nat) (b : List Byte) : (cutPayload length draw b).length = b.length := by
  simp [cutPayload]

/-- The bytes inside the payload are the payload's. -/
theorem cutPayload_byte {length draw i : Nat} {b : List Byte} (hi : i < length) (hb : i < b.length) :
    byteAt (cutPayload length draw b) i = byteAt b i := by
  simp [byteAt, cutPayload, hi, hb]

/-! ## The presence mask -/

/-- Bits 31 to 8 of the presence mask are 0 (10_state R27). -/
def ChunkHeader.maskOk (h : ChunkHeader) : Prop := h.hdrFlag.toNat < 256

/-- The header under construction, if any, has such a mask, and so has the one in `RES.HDR`. -/
def MaskOk (s : State) : Prop := s.res.hdr.maskOk ∧ ∀ w, s.walk = some w → w.hdr.maskOk

theorem maskOk_zero : ChunkHeader.zero.maskOk := by unfold ChunkHeader.maskOk; decide

theorem emptyHeader_maskOk (d : Nat) : (emptyHeader d).maskOk := Nat.zero_lt_succ 255

theorem freeHeader_maskOk (d : Nat) : (freeHeader d).maskOk := by
  show ((Config.freeByte d 0).setWidth 32).toNat < 256
  rw [BitVec.toNat_setWidth]
  omega

/-- Setting one of the eight flags keeps the upper bits 0. -/
theorem maskOk_or {h d : ChunkHeader} {m : Word} (hh : h.maskOk) (hm : m.toNat < 256) (hd : d.hdrFlag = h.hdrFlag ||| m) :
    d.maskOk := by
  unfold ChunkHeader.maskOk at *
  rw [hd, BitVec.toNat_or]
  exact Nat.or_lt_two_pow (n := 8) hh hm

theorem MaskOk.of_same {s t : State} (h : MaskOk s) (hr : t.res = s.res) (hw : t.walk = s.walk) : MaskOk t := by
  unfold MaskOk at *
  rw [hr, hw]; exact h

theorem MaskOk.drawn {s : State} (h : MaskOk s) : MaskOk s.drawn := h.of_same rfl rfl

theorem MaskOk.withWalk {s : State} (h : MaskOk s) {w : Walk} (hw : w.hdr.maskOk) : MaskOk (s.withWalk (some w)) :=
  ⟨h.1, fun v hv => by cases hv; exact hw⟩

theorem MaskOk.withoutWalk {s : State} (h : MaskOk s) : MaskOk (s.withWalk none) := ⟨h.1, fun v hv => by cases hv⟩

theorem MaskOk.failed (s : State) (c : Word) : MaskOk (s.failed c) := ⟨freeHeader_maskOk _, fun v hv => by cases hv⟩

/-- A part keeps the masks of a state that has them, when it succeeds; a raised status is followed by `State.failed`. -/
abbrev Ran.Masks {α : Type} (r : Ran α) : Prop := r.Ends (fun _ t => MaskOk t) (fun _ => True)

theorem Ran.Masks.bind {α β : Type} {x : Ran α} {f : α → State → Ran β} (hx : x.Masks)
    (hf : ∀ a t, MaskOk t → (f a t).Masks) : (x.bind f).Masks := Ran.Ends.bind hx hf

theorem memRead_masks (a n : Nat) {s : State} (h : MaskOk s) : (memRead a n s).Masks := by
  rcases memRead_cases a n s with ⟨t, k, -, ⟨rfl, -⟩ | rfl⟩ | k | k <;> rw [k]
  · exact h
  · exact h.drawn
  · trivial
  · trivial

theorem rd32LE_masks (a : Nat) {s : State} (h : MaskOk s) : (rd32LE a s).Masks := (memRead_masks a 4 h).bind fun _ _ k => k

theorem readField_masks (p size : Nat) (length : Word) {s : State} (h : MaskOk s) : (readField p size length s).Masks :=
  (memRead_masks p size h).bind fun b t k => by
    split
    · exact k.drawn
    · exact k

theorem readWordField_masks (p : Nat) (length : Word) {s : State} (h : MaskOk s) : (readWordField p length s).Masks :=
  (readField_masks p 4 length h).bind fun _ _ k => k

theorem readVersionField_masks (p : Nat) (length : Word) {s : State} (h : MaskOk s) : (readVersionField p length s).Masks :=
  (readField_masks p 16 length h).bind fun _ _ k => k

theorem readBytesField_masks (n p : Nat) (length : Word) {s : State} (h : MaskOk s) :
    (readBytesField n p length s).Masks := (readField_masks p n length h).bind fun _ _ k => k

theorem passOver_masks (w : Walk) (length : Word) {s : State} (h : MaskOk s) (hw : w.hdr.maskOk) :
    (passOver w length s).Masks := h.withWalk hw

theorem globalRecord_masks {length : Word} {search : Walk → State → Ran Unit} {s : State} (hs : MaskOk s)
    (h : ∀ w, w.hdr.maskOk → (search w s).Masks) : (globalRecord length search s).Masks :=
  onWalk_ends fun w hw => by
    cases w.phase
    · exact h w (hs.2 w hw)
    · exact passOver_masks w length hs (hs.2 w hw)
    · trivial

theorem recordChnk_masks (length : Word) {s : State} (h : MaskOk s) : (recordChnk length s).Masks :=
  globalRecord_masks h fun _ hw => (readWordField_masks _ _ h).bind fun _ _ k => k.withWalk hw

theorem recordGoptOther_masks (length : Word) {s : State} (h : MaskOk s) : (recordGoptOther length s).Masks :=
  globalRecord_masks h fun w hw => passOver_masks w length h hw

theorem chunkRecord_masks {length : Word} {rule : Nat → ChunkHeader → State → Ran ChunkHeader} {s : State} (hs : MaskOk s)
    (h : ∀ p d, d.maskOk → (rule p d s).Ends (fun d' t => d'.maskOk ∧ MaskOk t) fun _ => True) :
    (chunkRecord length rule s).Masks :=
  onWalk_ends fun w hw => by
    cases w.phase
    · trivial
    · trivial
    · simp only
      split
      · split
        · trivial
        · exact Ran.Ends.bind (h _ _ (hs.2 w hw)) fun d t k => passOver_masks _ length k.2 k.1
      · exact passOver_masks w length hs (hs.2 w hw)

/-- The rule of a field record sets one flag. -/
theorem fieldRule_masks {α : Type} {r : Ran α} (hr : r.Masks) {h : ChunkHeader} (hh : h.maskOk) {m : Word}
    (hm : m.toNat < 256) {f : α → ChunkHeader} (hf : ∀ v, (f v).hdrFlag = h.hdrFlag ||| m) :
    (r.bind fun v t => Ran.ok (f v) t).Ends (fun d t => d.maskOk ∧ MaskOk t) fun _ => True :=
  Ran.Ends.bind hr fun v _ k => ⟨maskOk_or hh hm (hf v), k⟩

theorem recordVers_masks (length : Word) {s : State} (h : MaskOk s) : (recordVers length s).Masks :=
  chunkRecord_masks h fun _ _ hd =>
    fieldRule_masks (m := flagVers) (readVersionField_masks _ _ h) hd (by decide) fun _ => rfl

theorem recordSize_masks (length : Word) {s : State} (h : MaskOk s) : (recordSize length s).Masks :=
  chunkRecord_masks h fun _ _ hd =>
    fieldRule_masks (m := flagSize) (readWordField_masks _ _ h) hd (by decide) fun _ => rfl

theorem recordData_masks (length : Word) {s : State} (h : MaskOk s) : (recordData length s).Masks :=
  chunkRecord_masks h fun _ _ hd =>
    fieldRule_masks (m := flagData) (readWordField_masks _ _ h) hd (by decide) fun _ => rfl

theorem recordDest_masks (length : Word) {s : State} (h : MaskOk s) : (recordDest length s).Masks :=
  chunkRecord_masks h fun _ _ hd =>
    fieldRule_masks (m := flagDest) (readBytesField_masks _ _ _ h) hd (by decide) fun _ => rfl

theorem recordMd5_masks (length : Word) {s : State} (h : MaskOk s) : (recordMd5 length s).Masks :=
  chunkRecord_masks h fun _ _ hd =>
    fieldRule_masks (m := flagMd5) (readBytesField_masks _ _ _ h) hd (by decide) fun _ => rfl

theorem recordSha2_masks (length : Word) {s : State} (h : MaskOk s) : (recordSha2 length s).Masks :=
  chunkRecord_masks h fun _ _ hd =>
    fieldRule_masks (m := flagSha2) (readBytesField_masks _ _ _ h) hd (by decide) fun _ => rfl

theorem recordCr32_masks (length : Word) {s : State} (h : MaskOk s) : (recordCr32 length s).Masks :=
  chunkRecord_masks h fun _ _ hd =>
    fieldRule_masks (m := flagCr32) (readWordField_masks _ _ h) hd (by decide) fun _ => rfl

theorem recordEncm_masks (length : Word) {s : State} (h : MaskOk s) : (recordEncm length s).Masks :=
  chunkRecord_masks h fun _ _ hd =>
    fieldRule_masks (m := flagEncm) (readWordField_masks _ _ h) hd (by decide) fun _ => rfl

theorem recordCoptOther_masks (length : Word) {s : State} (h : MaskOk s) : (recordCoptOther length s).Masks :=
  chunkRecord_masks h fun _ _ _ => raise_ends trivial

theorem runRecord_masks (i : Instr) {s : State} (h : MaskOk s) : (runRecord i s).Masks := by
  cases i with
  | chnk l => exact recordChnk_masks l h
  | goptOther _ l => exact recordGoptOther_masks l h
  | versOpt l => exact recordVers_masks l h
  | sizeOpt l => exact recordSize_masks l h
  | dataOpt l => exact recordData_masks l h
  | destOpt l => exact recordDest_masks l h
  | md5Opt l => exact recordMd5_masks l h
  | sha2Opt l => exact recordSha2_masks l h
  | cr32Opt l => exact recordCr32_masks l h
  | encmOpt l => exact recordEncm_masks l h
  | coptOther _ l => exact recordCoptOther_masks l h
  | _ => trivial

theorem fetchRecord_masks (w : Walk) {s : State} (h : MaskOk s) : (fetchRecord w s).Masks :=
  (memRead_masks _ _ h).bind fun _ _ k => (memRead_masks _ _ k).bind fun _ _ l => l

theorem fetchInstr_masks (w : Walk) {s : State} (h : MaskOk s) : (fetchInstr w s).Masks :=
  (fetchRecord_masks w h).bind fun b t k => by
    cases decodeRecord w.table b
    · trivial
    · exact k

theorem skipRecord_masks (w : Walk) {s : State} (h : MaskOk s) (hw : w.hdr.maskOk) : (skipRecord w s).Masks :=
  (rd32LE_masks _ h).bind fun l _ k => passOver_masks w l k hw

theorem recordTurn_masks {s : State} (h : MaskOk s) : (recordTurn s).Masks :=
  onWalk_ends fun w hw => by
    cases w.phase
    · exact (fetchInstr_masks w h).bind fun i _ k => runRecord_masks i k
    · exact skipRecord_masks w h (h.2 w hw)
    · exact (fetchInstr_masks w h).bind fun i _ k => runRecord_masks i k

theorem runRecords_masks (m : Nat) {s : State} (h : MaskOk s) : (runRecords m s).Masks := by
  induction m generalizing s with
  | zero => exact h
  | succ m ih =>
    refine onWalk_ends fun w _ => ?_
    split
    · exact h
    · exact (recordTurn_masks h).bind fun _ _ k => ih k

theorem runLoop_masks {s : State} (h : MaskOk s) : (runLoop s).Masks := onWalk_ends fun _ _ => runRecords_masks _ h

theorem startWalk_masks (job : Job) (base k : Nat) {s : State} (h : MaskOk s) : (startWalk job base k s).Masks :=
  (rd32LE_masks _ h).bind fun _ _ l => l.withWalk maskOk_zero

theorem foundCount_masks {s : State} (h : MaskOk s) : (foundCount s).Masks :=
  onWalk_ends fun w _ => by
    cases w.found
    · trivial
    · exact h

theorem beginSkip_masks {s : State} (h : MaskOk s) : (beginSkip s).Masks :=
  (foundCount_masks h).bind fun n t k => onWalk_ends fun w hw => by
    split
    · trivial
    · exact (rd32LE_masks _ k).bind fun _ _ l => l.withWalk (k.2 w hw)

theorem beginGroups_masks {s : State} (h : MaskOk s) : (beginGroups s).Masks :=
  onWalk_ends fun _ _ => h.drawn.withWalk (emptyHeader_maskOk s.draws)

theorem enterGroup_masks {s : State} (h : MaskOk s) : (enterGroup s).Masks :=
  onWalk_ends fun w hw => (rd32LE_masks _ h).bind fun _ _ k => k.withWalk (h.2 w hw)

theorem runGroups_masks (m : Nat) {s : State} (h : MaskOk s) : (runGroups m s).Masks := by
  induction m generalizing s with
  | zero => exact h
  | succ m ih => exact (enterGroup_masks h).bind fun _ _ k => (runLoop_masks k).bind fun _ _ l => ih l

/-- The header a walk gives has a mask whose upper bits are 0. -/
theorem takeHeader_masks {s : State} (h : MaskOk s) :
    (takeHeader s).Ends (fun d t => d.maskOk ∧ MaskOk t) fun _ => True :=
  onWalk_ends fun w hw => ⟨h.2 w hw, h.withoutWalk⟩

theorem countChunks_masks (base : Nat) {s : State} (h : MaskOk s) : (countChunks base s).Masks :=
  (startWalk_masks _ _ _ h).bind fun _ _ h => (runLoop_masks h).bind fun _ _ h => (foundCount_masks h).bind fun _ _ h =>
    h.withoutWalk

theorem chunkHeader_masks (base k : Nat) {s : State} (h : MaskOk s) :
    (chunkHeader base k s).Ends (fun d t => d.maskOk ∧ MaskOk t) fun _ => True :=
  Ran.Ends.bind (startWalk_masks _ _ _ h) fun _ _ h => Ran.Ends.bind (runLoop_masks h) fun _ _ h =>
    Ran.Ends.bind (beginSkip_masks h) fun _ _ h => Ran.Ends.bind (runLoop_masks h) fun _ _ h =>
    Ran.Ends.bind (beginGroups_masks h) fun _ _ h => Ran.Ends.bind (runGroups_masks k h) fun _ _ h => takeHeader_masks h

theorem compareName_masks (d : Vector Byte 32) (name : List Byte) {s : State} (h : MaskOk s) :
    MaskOk (compareName d name s).2 := by
  unfold compareName
  split
  · exact h
  · exact h.drawn

theorem findByName_masks (base : Nat) (name : List Byte) (m c : Nat) {s : State} (h : MaskOk s) :
    (findByName base name m c s).Ends (fun r t => r.1.maskOk ∧ MaskOk t) fun _ => True := by
  induction m generalizing c s with
  | zero => trivial
  | succ m ih =>
    refine Ran.Ends.bind (chunkHeader_masks base c h) fun d t k => ?_
    split
    · simp only
      have hk := compareName_masks d.dest name k.2
      split
      · exact ⟨k.1, hk⟩
      · exact ih _ hk
    · exact ih _ k.2

theorem loopEnd_masks {s : State} (h : MaskOk s) : (loopEnd s).Masks :=
  onWalk_ends fun w hw => by
    cases w.phase
    · simp only
      cases w.job
      · exact (foundCount_masks h).bind fun n t k => ⟨k.1, fun v hv => by cases hv⟩
      · exact beginSkip_masks h
    · exact (beginGroups_masks h).bind fun _ _ k => enterGroup_masks k
    · simp only
      split
      · exact enterGroup_masks h
      · exact ⟨h.2 w hw, fun v hv => by cases hv⟩

end Sys2Proof.Machine
end

