-- ==== Sys2Proof/Laws/Digest.lean ====
section
/-! SUPPORT. The digest engines: what an invocation gives and keeps, the algebra of the CRC's shifts, and the hashes by the
rules' own indices. -/

namespace Sys2Proof.Machine

/-! ## One invocation -/

/-- With the image in RAM a digest is its engine's result on the bytes, and leaves the engine idle. -/
theorem digestOf_ram {α : Type} {load : List Byte → Engine} {result : Engine → α} {s : State} {a n : Nat} (hs : inRam s)
    (h : readableRun s a n) :
    digestOf load result a n s = .ok (result (runEngine (load (Memory.bytes s.mem a n)))) (s.withEngine .idle) := by
  rw [digestOf, memRead_ram hs h]; rfl

theorem digestOf_ram_fault {α : Type} {load : List Byte → Engine} {result : Engine → α} {s : State} {a n : Nat} (hs : inRam s)
    (h : ¬ readableRun s a n) : digestOf load result a n s = .fault .outOfExtent := by
  rw [digestOf, memRead_ram_fault hs h]; rfl

theorem digestOf_keeps {α : Type} (load : List Byte → Engine) (result : Engine → α) (a n : Nat) (s : State) :
    (digestOf load result a n s).Keeps s := (memRead_keeps a n s).bind fun m t => by
  exact (Keeps.withEngine t (load m)).trans ((Keeps.withEngine _ _).trans (Keeps.withEngine _ _))

theorem digestOf_masks {α : Type} (load : List Byte → Engine) (result : Engine → α) (a n : Nat) {s : State} (h : MaskOk s) :
    (digestOf load result a n s).Masks := (memRead_masks a n h).bind fun _ _ k => k.of_same rfl rfl

theorem onRam_ends {body : State → Ran Unit} {s : State} {p : Unit → State → Prop} {up : State → Prop}
    (h : inRam s → (body s).Ends p up) : (onRam body s).Ends p up := by
  unfold onRam
  cases hs : s.cfg.store with
  | ram => exact h hs
  | file => trivial

theorem onRam_ram {body : State → Ran Unit} {s : State} (hs : inRam s) : onRam body s = body s := by
  unfold inRam at hs
  simp [onRam, hs]

theorem onRam_file {body : State → Ran Unit} {s : State} (hs : s.cfg.store = .file) :
    onRam body s = .refused .ramStoreOnly := by simp [onRam, hs]

/-! ## The shifts of the CRC -/

/-- One shift, as an exclusive or with the polynomial when the low bit is set. -/
theorem crcBit_eq (x : Word) : crcBit x = (x >>> 1) ^^^ (if x.getLsbD 0 then (0xEDB88320 : Word) else 0) := by
  unfold crcBit
  split <;> simp

theorem crcBit_zero : crcBit 0 = 0 := by decide

/-- The shift is linear over exclusive or. -/
theorem crcBit_xor (x y : Word) : crcBit (x ^^^ y) = crcBit x ^^^ crcBit y := by
  rw [crcBit_eq, crcBit_eq, crcBit_eq, BitVec.getLsbD_xor, BitVec.ushiftRight_xor_distrib]
  generalize x >>> 1 = a
  generalize y >>> 1 = b
  generalize (0xEDB88320 : Word) = p
  cases x.getLsbD 0 <;> cases y.getLsbD 0 <;> simp only [Bool.false_eq_true, if_true, if_false, Bool.xor_true, Bool.xor_false,
    Bool.not_true, Bool.not_false] <;> ext i <;> simp <;> cases a[i] <;> cases b[i] <;>
    cases p[i] <;> rfl

theorem crcShift_xor (n : Nat) (x y : Word) : crcShift n (x ^^^ y) = crcShift n x ^^^ crcShift n y := by
  induction n generalizing x y with
  | zero => rfl
  | succ n ih => simp only [crcShift, crcBit_xor, ih]

theorem crcShift_add (n m : Nat) (x : Word) : crcShift (n + m) x = crcShift m (crcShift n x) := by
  induction n generalizing x with
  | zero => simp [crcShift]
  | succ n ih => rw [Nat.add_right_comm, crcShift, crcShift, ih]

theorem crcBit_low (x : Word) (h : x.getLsbD 0 = false) : crcBit x = x >>> 1 := by unfold crcBit; rw [h]; rfl

/-- Shifting a word whose low bits are 0 is a plain shift. -/
theorem crcShift_low (n : Nat) (x : Word) (h : ∀ i < n, x.getLsbD i = false) : crcShift n x = x >>> n := by
  induction n generalizing x with
  | zero => simp [crcShift]
  | succ n ih =>
    rw [crcShift, crcBit_low x (h 0 (by omega)), ih _ fun i hi => by
      rw [BitVec.getLsbD_ushiftRight, Nat.add_comm]; exact h _ (by omega)]
    rw [← BitVec.shiftRight_add, Nat.add_comm]

/-- The shift forgets nothing: two words with the same shift are the same. -/
theorem crcBit_injective {x y : Word} (h : crcBit x = crcBit y) : x = y := by
  have hz : ∀ z : Word, crcBit z = 0 → z = 0 := by
    intro z hz
    rw [crcBit_eq] at hz
    have h31 := congrArg (fun v : Word => v.getLsbD 31) hz
    simp only [BitVec.getLsbD_xor, BitVec.getLsbD_ushiftRight] at h31
    have hb : z.getLsbD 0 = false := by
      by_contra hb
      rw [Bool.not_eq_false] at hb
      rw [hb, if_pos rfl] at h31
      have : z.getLsbD (1 + 31) = false := BitVec.getLsbD_of_ge _ _ (by omega)
      rw [this] at h31
      exact absurd h31 (by decide)
    rw [hb] at hz
    rw [if_neg (by simp), show (z >>> 1) ^^^ (0 : Word) = z >>> 1 from BitVec.xor_zero] at hz
    apply BitVec.eq_of_getLsbD_eq
    intro i hi
    cases i with
    | zero => rw [hb]; rfl
    | succ i =>
      have := congrArg (fun v : Word => v.getLsbD i) hz
      rw [BitVec.getLsbD_ushiftRight, Nat.add_comm 1 i] at this
      rw [this]; simp
  have : crcBit (x ^^^ y) = 0 := by rw [crcBit_xor, h]; exact BitVec.xor_self
  exact BitVec.xor_eq_zero_iff.mp (hz _ this)

theorem crcShift_injective (n : Nat) {x y : Word} (h : crcShift n x = crcShift n y) : x = y := by
  induction n generalizing x y with
  | zero => exact h
  | succ n ih => exact crcBit_injective (ih h)

/-- Two accumulators that a byte step makes equal were equal. -/
theorem crcByte_injective {x y : Word} {b : Byte} (h : crcByte x b = crcByte y b) : x = y := by
  have := crcShift_injective 8 h
  rwa [BitVec.xor_left_inj] at this

/-- Two bytes that a byte step makes equal were equal. -/
theorem crcByte_injective_byte {x : Word} {b c : Byte} (h : crcByte x b = crcByte x c) : b = c := by
  have := crcShift_injective 8 h
  rw [BitVec.xor_right_inj] at this
  apply BitVec.eq_of_toNat_eq
  have := congrArg BitVec.toNat this
  simp only [BitVec.toNat_setWidth] at this
  have := b.isLt
  have := c.isLt
  omega

theorem crcFold_injective (m : List Byte) {x y : Word} (h : m.foldl crcByte x = m.foldl crcByte y) : x = y := by
  induction m generalizing x y with
  | nil => exact h
  | cons b m ih => exact crcByte_injective (ih h)

theorem crc32Fn_eq (m : List Byte) : crc32Fn m = m.foldl crcByte 0xFFFFFFFF ^^^ 0xFFFFFFFF := rfl

/-- Two messages that differ in one byte have different CRCs. -/
theorem crc32Fn_byte_changed (pre post : List Byte) {b c : Byte} (h : b ≠ c) :
    crc32Fn (pre ++ b :: post) ≠ crc32Fn (pre ++ c :: post) := by
  intro he
  rw [crc32Fn_eq, crc32Fn_eq, BitVec.xor_left_inj, List.foldl_append, List.foldl_append] at he
  exact h (crcByte_injective_byte (crcFold_injective post he))

/-! ## The hashes by the rules' own indices -/

/-- The padding of a message whose length in bytes with `z` zeros fills whole blocks (42_digest_engines R165). -/
theorem padZeros_eq {n z : Nat} (hz : z < 64) (h : (n + 9 + z) % 64 = 0) : padZeros n = z := by
  unfold padZeros; omega

/-- The bytes of a 64-bit length are its digits to base 256. -/
theorem le64_eq (v : Nat) : le64 v = (List.range 8).map fun n => BitVec.ofNat 8 (v / 2 ^ (8 * n)) := by
  simp only [le64, Nat.shiftRight_eq_div_pow]

theorem be64_eq (v : Nat) : be64 v = (List.range 8).map fun n => BitVec.ofNat 8 (v / 2 ^ (8 * (7 - n))) := by
  rw [be64, le64_eq]; rfl

/-- Block `n` of a message begins at its byte `64 n`. -/
theorem takeBlocks_eq (m : Nat) (b : List Byte) : takeBlocks m b = (List.range m).map fun n => (b.drop (64 * n)).take 64 := by
  induction m generalizing b with
  | zero => rfl
  | succ m ih =>
    rw [takeBlocks, ih, List.range_succ_eq_map, List.map_cons, List.map_map]
    congr 1
    apply List.map_congr_left
    intro n _
    simp only [Function.comp, List.drop_drop]
    congr 2
    omega

/-- MD5 as a fold over the blocks of the padded message (42_digest_engines R165). -/
theorem md5Fn_eq (m : List Byte) (z : Nat) (hz : z < 64) (h : (m.length + 9 + z) % 64 = 0) :
    let msg := m ++ 0x80 :: List.replicate z 0 ++ le64 (8 * m.length)
    md5Fn m = md5Out ((List.range (msg.length / 64)).foldl (fun r n => md5Block r ((msg.drop (64 * n)).take 64)) md5Init) := by
  intro msg
  rw [show md5Fn m = md5Out ((blocks (padMessage le64 m)).foldl md5Block md5Init) from rfl, blocks, takeBlocks_eq,
    List.foldl_map, padMessage, padZeros_eq hz h]

/-- SHA-256 as a fold over the blocks of the padded message (42_digest_engines R170). -/
theorem sha256Fn_eq (m : List Byte) (z : Nat) (hz : z < 64) (h : (m.length + 9 + z) % 64 = 0) :
    let msg := m ++ 0x80 :: List.replicate z 0 ++ be64 (8 * m.length)
    sha256Fn m = shaOut ((List.range (msg.length / 64)).foldl (fun r n => shaBlock r ((msg.drop (64 * n)).take 64)) shaInit) := by
  intro msg
  rw [show sha256Fn m = shaOut ((blocks (padMessage be64 m)).foldl shaBlock shaInit) from rfl, blocks, takeBlocks_eq,
    List.foldl_map, padMessage, padZeros_eq hz h]

/-- The bytes of a digest, in address order. -/
theorem md5Out_toList (r : Md5Regs) : (md5Out r).toList = le32 r.a0 ++ le32 r.b0 ++ le32 r.c0 ++ le32 r.d0 := rfl

theorem shaOut_toList (r : ShaRegs) : (shaOut r).toList =
    be32 r.h0 ++ be32 r.h1 ++ be32 r.h2 ++ be32 r.h3 ++ be32 r.h4 ++ be32 r.h5 ++ be32 r.h6 ++ be32 r.h7 := rfl

/-- The message schedule with `W[t]` by its number (42_digest_engines R170). -/
theorem shaSchedule_eq (b : List Byte) :
    shaSchedule b = (List.range 48).foldl
      (fun w i => w ++ [tableAt w i + shaSmall0 (tableAt w (i + 1)) + tableAt w (i + 9) + shaSmall1 (tableAt w (i + 14))])
      ((List.range 16).map fun t => be32At b (4 * t)) := by
  have h : ∀ (l : List Nat) (w : List Word) (k : Nat), w.length = 16 + k → l = List.range' k l.length →
      l.foldl (fun w _ => shaExtend w) w = l.foldl
        (fun w i => w ++ [tableAt w i + shaSmall0 (tableAt w (i + 1)) + tableAt w (i + 9) + shaSmall1 (tableAt w (i + 14))]) w := by
    intro l
    induction l with
    | nil => intros; rfl
    | cons i l ih =>
      intro w k hw hl
      rw [List.length_cons, List.range'_succ] at hl
      obtain ⟨rfl, hl⟩ := List.cons.inj hl
      rw [List.foldl_cons, List.foldl_cons]
      have e : shaExtend w =
          w ++ [tableAt w i + shaSmall0 (tableAt w (i + 1)) + tableAt w (i + 9) + shaSmall1 (tableAt w (i + 14))] := by
        unfold shaExtend
        simp only [hw, show 16 + i - 16 = i by omega, show 16 + i - 15 = i + 1 by omega, show 16 + i - 7 = i + 9 by omega,
          show 16 + i - 2 = i + 14 by omega]
      rw [e]
      exact ih _ (i + 1) (by simp [hw]; omega) hl
  exact h (List.range 48) _ 0 (by simp) (by rw [List.length_range, List.range_eq_range'])

end Sys2Proof.Machine
end

