-- ==== Sys2Proof/Laws/Blowfish.lean ====
section
/-! SUPPORT. The cipher: what deciphering a buffer does to memory, block by block, and its functions by the rules' own indices. -/

namespace Sys2Proof.Machine

/-! ## What a block of a buffer becomes -/

theorem Memory.bytes_writes_same (m : Memory) (a : Nat) (b : List Byte) :
    Memory.bytes (Memory.writes m a b) a b.length = b := by
  apply List.ext_getElem (by simp)
  intro i h1 h2
  rw [Memory.bytes_getElem, Memory.read_writes_inside _ _ _ _ h2]

theorem Memory.bytes_writes_apart (m : Memory) (a : Nat) (b : List Byte) (x n : Nat) (h : x + n ≤ a ∨ a + b.length ≤ x) :
    Memory.bytes (Memory.writes m a b) x n = Memory.bytes m x n :=
  Memory.bytes_congr _ _ _ _ fun y h1 h2 => Memory.read_writes_outside _ _ _ _ (by omega)

theorem blockWordBytes_length (o : ByteOrder) (v : Word) : (blockWordBytes o v).length = 4 := by cases o <;> rfl

/-- The bytes of the two words of a block. -/
def blockBytes (o : ByteOrder) (x : Word × Word) : List Byte := blockWordBytes o x.1 ++ blockWordBytes o x.2

theorem blockBytes_length (o : ByteOrder) (x : Word × Word) : (blockBytes o x).length = 8 := by cases o <;> rfl

theorem Memory.writes_append (m : Memory) (a : Nat) (b c : List Byte) :
    Memory.writes m a (b ++ c) = Memory.writes (Memory.writes m a b) (a + b.length) c := by
  induction b generalizing m a with
  | nil => rfl
  | cons x b ih =>
    rw [List.cons_append, Memory.writes, ih, Memory.writes, List.length_cons]
    congr 1; omega

theorem blockAt_congr {o : ByteOrder} {m m' : Memory} {a : Nat}
    (h : ∀ x, a ≤ x → x < a + 8 → Memory.read m x = Memory.read m' x) : blockAt o m a = blockAt o m' a := by
  have e1 : Memory.bytes m a 4 = Memory.bytes m' a 4 := Memory.bytes_congr _ _ _ _ fun x h1 h2 => h x h1 (by omega)
  have e2 : Memory.bytes m (a + 4) 4 = Memory.bytes m' (a + 4) 4 :=
    Memory.bytes_congr _ _ _ _ fun x h1 h2 => h x (by omega) (by omega)
  cases o <;> simp only [blockAt, e1, e2]

/-- A block reads as it was written. -/
theorem blockAt_writes (o : ByteOrder) (m : Memory) (a : Nat) (x : Word × Word) :
    blockAt o (Memory.writes m a (blockBytes o x)) a = x := by
  rw [blockBytes, Memory.writes_append, blockWordBytes_length]
  have e1 : Memory.bytes (Memory.writes (Memory.writes m a (blockWordBytes o x.1)) (a + 4) (blockWordBytes o x.2)) a 4 =
      blockWordBytes o x.1 := by
    rw [Memory.bytes_writes_apart _ _ _ _ _ (.inl (by omega))]
    have := Memory.bytes_writes_same m a (blockWordBytes o x.1)
    rwa [blockWordBytes_length] at this
  have e2 : Memory.bytes (Memory.writes (Memory.writes m a (blockWordBytes o x.1)) (a + 4) (blockWordBytes o x.2)) (a + 4) 4 =
      blockWordBytes o x.2 := by
    have := Memory.bytes_writes_same (Memory.writes m a (blockWordBytes o x.1)) (a + 4) (blockWordBytes o x.2)
    rwa [blockWordBytes_length] at this
  have l1 := fun v : Word => le32At_le32 v []
  have l2 := fun v : Word => be32At_be32 v []
  simp only [List.append_nil] at l1 l2
  cases o <;> simp only [blockWordBytes] at e1 e2 <;> simp only [blockAt, blockWordBytes, e1, e2, l1, l2]

theorem writableRun_add {s : State} {a n m : Nat} :
    writableRun s a (n + m) ↔ writableRun s a n ∧ writableRun s (a + n) m := allFrom_add _ _ _ _

theorem readBlockWord_ram {s : State} {a : Nat} (hs : inRam s) (h : readableRun s a 4) :
    readBlockWord a s = .ok (match s.cfg.blockOrder with
      | .be => be32At (Memory.bytes s.mem a 4) 0
      | .le => le32At (Memory.bytes s.mem a 4) 0) s := by
  unfold readBlockWord
  cases s.cfg.blockOrder
  · exact rd32BE_ram hs h
  · exact rd32LE_ram hs h

/-- One block is deciphered in place. -/
theorem decryptBlock_ram {s : State} {a : Nat} (hs : inRam s) (h : writableRun s a 8) :
    decryptBlock a s = .ok () (s.withMem (Memory.writes s.mem a
      (blockBytes s.cfg.blockOrder (decipher s.keys (blockAt s.cfg.blockOrder s.mem a))))) := by
  have h' := writableRun_add (n := 4) (m := 4) |>.mp h
  have hr1 := writableRun_readableRun h'.1
  have hr2 := writableRun_readableRun h'.2
  unfold writableRun at h'
  have hw1 : allFrom (canWrite s) a 4 = true := h'.1
  have hw2 : allFrom (canWrite s) (a + 4) 4 = true := h'.2
  unfold decryptBlock
  rw [readBlockWord_ram hs hr1, Ran.bind_ok]
  simp only [bufferAddr]
  rw [readBlockWord_ram hs hr2, Ran.bind_ok]
  simp only [writeBlockWord, memWrite, blockWordBytes_length]
  rw [if_pos hw1, Ran.bind_ok]
  have hw2' : ∀ m, allFrom (canWrite (s.withMem m)) (a + 4) 4 = true := fun _ => hw2
  rw [if_pos (hw2' _)]
  simp only [blockBytes, Memory.writes_append, blockWordBytes_length, blockAt, State.withMem_cfg, State.withMem_mem]
  generalize s.cfg.blockOrder = o
  cases o <;> rfl

/-- Consecutive blocks are deciphered in place, each from what stood there before. -/
theorem decryptBlocks_ram (n : Nat) {s : State} {a : Nat} (hs : inRam s) (h : writableRun s a (8 * n)) :
    ∃ m, decryptBlocks n a s = .ok () (s.withMem m) ∧
      (∀ j, j < n → blockAt s.cfg.blockOrder m (a + 8 * j) =
        decipher s.keys (blockAt s.cfg.blockOrder s.mem (a + 8 * j))) ∧
      ∀ x, x < a ∨ a + 8 * n ≤ x → Memory.read m x = Memory.read s.mem x := by
  induction n generalizing s a with
  | zero => exact ⟨s.mem, rfl, fun j hj => by omega, fun x _ => rfl⟩
  | succ n ih =>
    rw [show 8 * (n + 1) = 8 + 8 * n by omega, writableRun_add] at h
    rw [decryptBlocks, decryptBlock_ram hs h.1, Ran.bind_ok]
    simp only [bufferAddr]
    generalize hm : Memory.writes s.mem a _ = m1
    obtain ⟨m, e, hb, ho⟩ := ih (s := s.withMem m1) (a := a + 8) hs h.2
    have hout : ∀ x, x < a ∨ a + 8 ≤ x → Memory.read m1 x = Memory.read s.mem x := fun x hx => by
      rw [← hm, Memory.read_writes_outside _ _ _ _ (by rw [blockBytes_length]; exact hx)]
    refine ⟨m, by rw [e]; rfl, fun j hj => ?_, fun x hx => ?_⟩
    · cases j with
      | zero =>
        rw [Nat.mul_zero, Nat.add_zero]
        rw [blockAt_congr (m := m) (m' := m1) fun x h1 h2 => ho x (.inl h2), ← hm]
        exact blockAt_writes _ _ _ _
      | succ j =>
        have := hb j (by omega)
        rw [show a + 8 + 8 * j = a + 8 * (j + 1) by omega] at this
        rw [show s.cfg.blockOrder = (s.withMem m1).cfg.blockOrder from rfl, this]
        simp only [State.withMem_keys, State.withMem_cfg, State.withMem_mem]
        rw [blockAt_congr (m := m1) (m' := s.mem) fun x h1 h2 => hout x (by omega)]
    · rw [ho x (by omega)]
      exact hout x (by omega)

/-- A block of a buffer that cannot all be written, or read, stops the deciphering. -/
theorem decryptBlock_fault {s : State} {a : Nat} (hs : inRam s) (h : ¬ writableRun s a 8) :
    decryptBlock a s = .fault .outOfExtent := by
  have hr : ∀ x, ¬ readableRun s x 4 → readBlockWord x s = .fault .outOfExtent := fun x hx => by
    unfold readBlockWord rd32BE rd32LE
    cases s.cfg.blockOrder <;> simp only [memRead_ram_fault hs hx] <;> rfl
  unfold decryptBlock
  simp only [bufferAddr]
  by_cases h1 : readableRun s a 4
  swap
  · rw [hr a h1]; rfl
  rw [readBlockWord_ram hs h1, Ran.bind_ok]
  by_cases h2 : readableRun s (a + 4) 4
  swap
  · rw [hr (a + 4) h2]; rfl
  rw [readBlockWord_ram hs h2, Ran.bind_ok]
  simp only [writeBlockWord, memWrite, blockWordBytes_length]
  by_cases h3 : allFrom (canWrite s) a 4 = true
  swap
  · rw [if_neg h3]; rfl
  rw [if_pos h3, Ran.bind_ok]
  have h4 : ¬ allFrom (canWrite s) (a + 4) 4 = true := fun h4 => h (writableRun_add (n := 4) (m := 4) |>.mpr ⟨h3, h4⟩)
  exact if_neg h4

/-- A buffer that cannot all be written, or read, stops the deciphering. -/
theorem decryptBlocks_fault (n : Nat) {s : State} {a : Nat} (hs : inRam s) (h : ¬ writableRun s a (8 * n)) :
    decryptBlocks n a s = .fault .outOfExtent := by
  induction n generalizing s a with
  | zero => exact absurd rfl h
  | succ n ih =>
    rw [show 8 * (n + 1) = 8 + 8 * n by omega, writableRun_add] at h
    rw [decryptBlocks]
    by_cases h1 : writableRun s a 8
    · rw [decryptBlock_ram hs h1, Ran.bind_ok]
      exact ih (s := s.withMem _) hs fun h2 => h ⟨h1, h2⟩
    · rw [decryptBlock_fault hs h1]; rfl

/-! ## The functions by the rules' own indices -/

/-- An entry inside a vector, read through its list. -/
theorem vector_getD {α : Type} {n : Nat} (v : Vector α n) (d : α) {i : Nat} (h : i < n) : v.toList.getD i d = v[i] := by
  rw [List.getD_eq_getElem _ _ (by simpa using h)]
  simp

/-- The round function by the bytes of its argument (43_blowfish R181). -/
theorem bfF_eq (s : Vector (Vector Word 256) 4) (x : Word) :
    let box := fun (n i : Nat) => (s.toList.getD n (Vector.replicate 256 0)).toList.getD i 0
    bfF s x = ((box 0 (x.toNat / 2 ^ 24) + box 1 (x.toNat / 2 ^ 16 % 256)) ^^^ box 2 (x.toNat / 2 ^ 8 % 256)) +
      box 3 (x.toNat % 256) := by
  intro box
  have hb : ∀ n (hn : n < 4) (i : Byte), box n i.toNat = s[n][i.toNat] := fun n hn i => by
    simp only [box]
    rw [vector_getD s _ hn, vector_getD _ _ (by have := i.isLt; omega)]
  have h24 : x.toNat / 2 ^ 24 = (x.extractLsb' 24 8).toNat := by
    have := x.isLt; rw [BitVec.extractLsb'_toNat, Nat.shiftRight_eq_div_pow]; omega
  have h16 : x.toNat / 2 ^ 16 % 256 = (x.extractLsb' 16 8).toNat := by
    rw [BitVec.extractLsb'_toNat, Nat.shiftRight_eq_div_pow]
  have h8 : x.toNat / 2 ^ 8 % 256 = (x.extractLsb' 8 8).toNat := by
    rw [BitVec.extractLsb'_toNat, Nat.shiftRight_eq_div_pow]
  have h0 : x.toNat % 256 = (x.extractLsb' 0 8).toNat := by
    rw [BitVec.extractLsb'_toNat, Nat.shiftRight_eq_div_pow]; simp
  rw [h24, h16, h8, h0, hb 0 (by omega), hb 1 (by omega), hb 2 (by omega), hb 3 (by omega)]
  rfl

/-- A key word is four key bytes shifted in, first one first (43_blowfish R183). -/
theorem keyWord_eq (key : List Byte) (i : Nat) :
    keyWord key i = (List.range 4).foldl
      (fun (w : Word) n => (w <<< 8) ||| (key.getD ((4 * i + n) % key.length) 0).setWidth 32) 0 := by
  have h : ∀ b0 b1 b2 b3 : Byte, be32Of b0 b1 b2 b3 =
     ((((((((0 : Word) <<< 8) ||| b0.setWidth 32) <<< 8) ||| b1.setWidth 32) <<< 8) ||| b2.setWidth 32) <<< 8) ||| b3.setWidth 32 := by
    intro b0 b1 b2 b3
    unfold be32Of
    apply BitVec.eq_of_getLsbD_eq
    intro j hj
    simp only [BitVec.getLsbD_append, BitVec.getLsbD_or, BitVec.getLsbD_shiftLeft, BitVec.getLsbD_setWidth]
    interval_cases j <;> simp
  exact h _ _ _ _


theorem take_eq_map {α : Type} (l : List α) (d : α) {n : Nat} (h : n ≤ l.length) : l.take n = (List.range n).map (l.getD · d) := by
  refine List.ext_getElem (by simp [h]) fun i h1 h2 => ?_
  have : i < l.length := by simp at h1; omega
  simp [this]

/-- The first `m` key words mixed in. -/
theorem mixKey_fold (w : Nat → Word) (p : Vector Word 18) (m : Nat) (i : Nat) (hi : i < 18) :
    ((List.range m).foldl (fun p i => p.setIfInBounds i (p.toList.getD i 0 ^^^ w i)) p)[i] =
      if i < m then p[i] ^^^ w i else p[i] := by
  induction m with
  | zero => simp
  | succ m ih =>
    rw [List.range_succ, List.foldl_append, List.foldl_cons, List.foldl_nil, Vector.getElem_setIfInBounds]
    by_cases h : m = i
    · subst h
      rw [if_pos rfl, if_pos (by omega), vector_getD _ _ hi, ih, if_neg (by omega)]
    · rw [if_neg h, ih]
      by_cases h2 : i < m
      · rw [if_pos h2, if_pos (by omega)]
      · rw [if_neg h2, if_neg (by omega)]

/-- The key words are mixed into `P` entry by entry (43_blowfish R183). -/
theorem mixKey_eq (key : List Byte) (p : Vector Word 18) :
    mixKey key p = ⟨⟨(List.range 18).map fun i => p.toList.getD i 0 ^^^ keyWord key i⟩, by simp⟩ := by
  apply Vector.ext
  intro i hi
  rw [mixKey, mixKey_fold, if_pos hi]
  simp [hi]

/-- Encipherment as sixteen rounds by subkey number (43_blowfish R184). -/
theorem encipher_eq (k : Subkeys) (x : Word × Word) :
    let p := fun i => k.p.toList.getD i 0
    let y := (List.range 16).foldl (fun (x : Word × Word) i => (x.2 ^^^ bfF k.s (x.1 ^^^ p i), x.1 ^^^ p i)) x
    encipher k x = (y.2 ^^^ p 17, y.1 ^^^ p 16) := by
  intro p y
  simp only [encipher, bfNetwork, take_eq_map k.p.toList 0 (n := 16) (by simp), List.foldl_map]
  rw [show p 17 = k.p[17] from vector_getD _ _ (by omega), show p 16 = k.p[16] from vector_getD _ _ (by omega)]
  rfl

/-- Decipherment as sixteen rounds by subkey number, from 17 down (43_blowfish R185). -/
theorem decipher_eq (k : Subkeys) (x : Word × Word) :
    let p := fun i => k.p.toList.getD i 0
    let y := ((List.range 16).map fun i => 17 - i).foldl
      (fun (x : Word × Word) i => (x.2 ^^^ bfF k.s (x.1 ^^^ p i), x.1 ^^^ p i)) x
    decipher k x = (y.2 ^^^ p 0, y.1 ^^^ p 1) := by
  intro p y
  have h : (k.p.toList.drop 2).reverse = ((List.range 16).map fun i => 17 - i).map p := by
    refine List.ext_getElem (by simp) fun i h1 h2 => ?_
    simp only [List.length_map, List.length_range] at h2
    rw [List.getElem_reverse, List.getElem_drop]
    simp only [List.getElem_map, List.getElem_range, p]
    rw [vector_getD _ _ (by omega), Vector.getElem_toList]
    congr 1
    simp only [List.length_drop, Vector.length_toList]
    omega
  simp only [decipher, bfNetwork, h, List.foldl_map]
  rw [show p 0 = k.p[0] from vector_getD _ _ (by omega), show p 1 = k.p[1] from vector_getD _ _ (by omega)]
  simp only [y, List.foldl_map]
  rfl

/-- The key schedule with the S-boxes numbered by naturals (43_blowfish R183). -/
theorem keySchedule_eq (key : List Byte) :
    let start : Subkeys := { p := mixKey key initP, s := initS }
    let fillS := fun (b : Nat) (kx : Subkeys × Word × Word) (n : Nat) =>
      let x := encipher kx.1 kx.2
      let box := kx.1.s.toList.getD b (Vector.replicate 256 0)
      (({ kx.1 with s := kx.1.s.setIfInBounds b ((box.setIfInBounds (2 * n) x.1).setIfInBounds (2 * n + 1) x.2) } : Subkeys), x)
    keySchedule key =
      ((List.range 4).foldl (fun kx b => (List.range 128).foldl (fillS b) kx) ((List.range 9).foldl fillP (start, 0, 0))).1 := by
  intro start fillS
  have h : ∀ (b : Nat) (hb : b < 4), fillS b = Machine.fillS ⟨b, hb⟩ := by
    intro b hb
    funext kx n
    simp only [fillS, Machine.fillS]
    rw [vector_getD _ _ hb]
    have e : ∀ v : Vector Word 256, kx.1.s.setIfInBounds b v = kx.1.s.set b v hb := fun v => by
      apply Vector.ext
      intro i hi
      rw [Vector.getElem_setIfInBounds, Vector.getElem_set]
    rw [e]
    rfl
  unfold keySchedule
  rw [show (List.range 4) = [0, 1, 2, 3] from rfl]
  simp only [List.foldl_cons, List.foldl_nil]
  rw [h 0 (by omega), h 1 (by omega), h 2 (by omega), h 3 (by omega)]
  rfl

end Sys2Proof.Machine
end

