-- ==== Sys2Proof/Laws/Pbsr.lean ====
section
/-! SUPPORT. PBSR bit by bit: what each of its three updates and three reads does to every bit. -/

namespace Sys2Proof.Machine

theorem maskFlags_bit : ∀ k, k < 32 → (0xFFFFFF00 : Word).getLsbD k = decide (8 ≤ k) := by decide

theorem maskBootcnt_bit : ∀ k, k < 32 → (0xFFFF00FF : Word).getLsbD k = decide (k < 8 ∨ 16 ≤ k) := by decide

theorem lowByte_bit : ∀ k, k < 32 → (0xFF : Word).getLsbD k = decide (k < 8) := by decide

theorem oneWord_bit (k : Nat) : (1 : Word).getLsbD k = decide (k = 0) := by
  rw [show (1 : Word) = 1#32 from rfl, BitVec.getLsbD_one]; simp

/-- FLAG.WR's update: bit `i` becomes `b`, every other bit stays. -/
theorem pbsrSetFlag_bit (v : Word) {i : Nat} (hi : i < 32) (b : BitVec 1) {k : Nat} (hk : k < 32) :
    (pbsrSetFlag v i b).getLsbD k = if k = i then b.getLsbD 0 else v.getLsbD k := by
  unfold pbsrSetFlag
  simp only [BitVec.getLsbD_or, BitVec.getLsbD_and, BitVec.getLsbD_not, BitVec.getLsbD_shiftLeft, hk, decide_true,
    Bool.true_and, oneWord_bit, BitVec.getLsbD_setWidth]
  by_cases h : k = i
  · subst h; simp
  · by_cases hlt : k < i
    · simp [h, hlt]
    · have h0 : k - i ≠ 0 := by omega
      have hb : b.getLsbD (k - i) = false := BitVec.getLsbD_of_ge _ _ (by omega)
      simp [h, hlt, h0, hb]

/-- FLAGS.CLR's update: bits 7 to 0 become 0, every other bit stays. -/
theorem pbsrClearFlags_bit (v : Word) {k : Nat} (hk : k < 32) :
    (pbsrClearFlags v).getLsbD k = (decide (8 ≤ k) && v.getLsbD k) := by
  rw [pbsrClearFlags, BitVec.getLsbD_and, maskFlags_bit k hk, Bool.and_comm]

/-- BCNT.WR's update: bits 15 to 8 become the count, every other bit stays. -/
theorem pbsrSetBootcnt_bit (v : Word) (n : Byte) {k : Nat} (hk : k < 32) :
    (pbsrSetBootcnt v n).getLsbD k = if 8 ≤ k ∧ k < 16 then n.getLsbD (k - 8) else v.getLsbD k := by
  rw [pbsrSetBootcnt, BitVec.getLsbD_or, BitVec.getLsbD_and, maskBootcnt_bit k hk]
  simp only [BitVec.getLsbD_shiftLeft, BitVec.getLsbD_setWidth, hk, decide_true, Bool.true_and]
  by_cases h1 : k < 8
  · have : ¬ (8 ≤ k ∧ k < 16) := by omega
    simp [h1, this]
  · by_cases h2 : k < 16
    · have h3 : k - 8 < 32 := by omega
      simp [h1, show 8 ≤ k ∧ k < 16 by omega, show ¬ 16 ≤ k by omega, h3]
    · have hb : n.getLsbD (k - 8) = false := BitVec.getLsbD_of_ge _ _ (by omega)
      simp [h1, show ¬ (8 ≤ k ∧ k < 16) by omega, show 16 ≤ k by omega, hb]

theorem pbsrFlag_bit (v : Word) (i : Nat) : (pbsrFlag v i).getLsbD 0 = v.getLsbD i := by
  simp [pbsrFlag]

theorem pbsrBootcnt_bit (v : Word) {k : Nat} (hk : k < 8) : (pbsrBootcnt v).getLsbD k = v.getLsbD (8 + k) := by
  simp [pbsrBootcnt, hk]

/-- Two bits are the same when they read the same. -/
theorem bit_ext {a b : BitVec 1} (h : a.getLsbD 0 = b.getLsbD 0) : a = b := by
  apply BitVec.eq_of_getLsbD_eq
  intro i hi
  obtain rfl : i = 0 := by omega
  exact h

/-- Reading a flag after writing one. -/
theorem pbsrFlag_pbsrSetFlag (v : Word) {i j : Nat} (hi : i < 32) (hj : j < 32) (b : BitVec 1) :
    pbsrFlag (pbsrSetFlag v i b) j = if j = i then b else pbsrFlag v j := by
  apply bit_ext
  rw [pbsrFlag_bit, pbsrSetFlag_bit v hi b hj]
  split
  · rfl
  · rw [pbsrFlag_bit]

theorem pbsrBootcnt_pbsrSetFlag (v : Word) {i : Nat} (hi : i < 8) (b : BitVec 1) :
    pbsrBootcnt (pbsrSetFlag v i b) = pbsrBootcnt v := by
  apply BitVec.eq_of_getLsbD_eq
  intro k hk
  rw [pbsrBootcnt_bit _ hk, pbsrBootcnt_bit _ hk, pbsrSetFlag_bit v (by omega) b (by omega), if_neg (by omega)]

theorem pbsrFlag_pbsrSetBootcnt (v : Word) {j : Nat} (hj : j < 8) (n : Byte) :
    pbsrFlag (pbsrSetBootcnt v n) j = pbsrFlag v j := by
  apply bit_ext
  rw [pbsrFlag_bit, pbsrFlag_bit, pbsrSetBootcnt_bit v n (by omega), if_neg (by omega)]

theorem pbsrBootcnt_pbsrSetBootcnt (v : Word) (n : Byte) : pbsrBootcnt (pbsrSetBootcnt v n) = n := by
  apply BitVec.eq_of_getLsbD_eq
  intro k hk
  rw [pbsrBootcnt_bit _ hk, pbsrSetBootcnt_bit v n (by omega), if_pos (by omega)]
  congr 1; omega

theorem pbsrFlag_pbsrClearFlags (v : Word) {j : Nat} (hj : j < 8) : pbsrFlag (pbsrClearFlags v) j = 0 := by
  apply bit_ext
  rw [pbsrFlag_bit, pbsrClearFlags_bit v (by omega)]
  simp [show ¬ 8 ≤ j by omega]

theorem pbsrBootcnt_pbsrClearFlags (v : Word) : pbsrBootcnt (pbsrClearFlags v) = pbsrBootcnt v := by
  apply BitVec.eq_of_getLsbD_eq
  intro k hk
  rw [pbsrBootcnt_bit _ hk, pbsrBootcnt_bit _ hk, pbsrClearFlags_bit v (by omega)]
  simp

/-- A field of PBSR that an update leaves alone bit by bit. -/
theorem pbsrField_eq {v v' : Word} (lo n : Nat) (h : ∀ k, lo ≤ k → k < lo + n → v'.getLsbD k = v.getLsbD k) :
    v'.extractLsb' lo n = v.extractLsb' lo n := by
  apply BitVec.eq_of_getLsbD_eq
  intro k hk
  simp only [BitVec.getLsbD_extractLsb', hk, decide_true, Bool.true_and]
  exact h _ (by omega) (by omega)

theorem pbsrSetFlag_above (v : Word) {i : Nat} (hi : i < 8) (b : BitVec 1) (lo n : Nat) (hlo : 8 ≤ lo) (hn : lo + n ≤ 32) :
    (pbsrSetFlag v i b).extractLsb' lo n = v.extractLsb' lo n :=
  pbsrField_eq lo n fun k h1 h2 => by rw [pbsrSetFlag_bit v (by omega) b (by omega), if_neg (by omega)]

theorem pbsrClearFlags_above (v : Word) (lo n : Nat) (hlo : 8 ≤ lo) (hn : lo + n ≤ 32) :
    (pbsrClearFlags v).extractLsb' lo n = v.extractLsb' lo n :=
  pbsrField_eq lo n fun k h1 h2 => by rw [pbsrClearFlags_bit v (by omega)]; simp [show 8 ≤ k by omega]

theorem pbsrSetBootcnt_flags (v : Word) (c : Byte) : (pbsrSetBootcnt v c).extractLsb' 0 8 = v.extractLsb' 0 8 :=
  pbsrField_eq 0 8 fun k h1 h2 => by rw [pbsrSetBootcnt_bit v c (by omega), if_neg (by omega)]

theorem pbsrSetBootcnt_reserved (v : Word) (c : Byte) : (pbsrSetBootcnt v c).extractLsb' 16 16 = v.extractLsb' 16 16 :=
  pbsrField_eq 16 16 fun k h1 h2 => by rw [pbsrSetBootcnt_bit v c (by omega), if_neg (by omega)]

end Sys2Proof.Machine
end

