-- ==== Sys2Proof/Laws/Image.lean ====
section
/-! SUPPORT. The walker on an image laid out in MEM as the grammar says: one record, a loop of records, the chunk groups, and what
CHNKNUM's and CHNKHDR.N's walks give. -/

namespace Sys2Proof.Machine

/-! ## Payload fields that a record fills -/

theorem byteAt_take {b : List Byte} {n i : Nat} (h : i < n) : byteAt (b.take n) i = byteAt b i := by
  simp [byteAt, List.getD, h]

theorem le32At_take {b : List Byte} {n i : Nat} (h : i + 4 ≤ n) : le32At (b.take n) i = le32At b i := by
  simp only [le32At]
  rw [byteAt_take (by omega), byteAt_take (by omega), byteAt_take (by omega), byteAt_take (by omega)]

theorem versionAt_take (b : List Byte) : versionAt (b.take 16) = versionAt b := by
  simp only [versionAt]
  rw [le32At_take (by omega), le32At_take (by omega), le32At_take (by omega), le32At_take (by omega)]

theorem fixedBytes_take {b : List Byte} {n : Nat} (h : n ≤ b.length) : fixedBytes n (b.take n) = fixedBytes n b := by
  unfold fixedBytes
  congr 2
  rw [List.take_append_of_le_length h]
  rw [List.take_append_of_le_length (by simp [h]), List.take_take, Nat.min_self]

/-! ## The bytes of a record -/

theorem Record.bytes_length (r : Record) : r.bytes.length = 8 + r.payload.length := by
  simp [Record.bytes]; omega

theorem Record.length_toNat {r : Record} (h : r.spelled) : r.length.toNat = r.payload.length := by
  rw [Record.length, BitVec.toNat_ofNat]; exact Nat.mod_eq_of_lt h

/-- The next record stands right after a record that spells its length. -/
theorem nextRecordAddr_record {r : Record} (h : r.spelled) (a : Nat) :
    nextRecordAddr a r.length = a + r.bytes.length := by
  rw [nextRecordAddr, Record.length_toNat h, Record.bytes_length]; omega

theorem holds_record {s : State} {a : Nat} {r : Record} (h : holds s a r.bytes) :
    holds s a (le32 r.id) ∧ holds s (recordLengthAddr a) (le32 r.length) ∧ holds s (recordPayloadAddr a) r.payload := by
  obtain ⟨h1, h2⟩ := holds_append.mp h
  obtain ⟨h3, h4⟩ := holds_append.mp h2
  exact ⟨h1, h3, h4⟩

theorem le32At_append_four (v w : Word) : le32At (le32 v ++ le32 w) 4 = w := le32Of_bytes w

/-- The record that stands at the cursor is the one fetched. -/
theorem fetchInstr_record {s : State} {w : Walk} {r : Record} (hs : inRam s) (h : holds s w.cur r.bytes) :
    fetchInstr w s = .ok (match w.table with
      | .globalOption => decodeGlobalOption r.id r.length
      | .chunkOption => decodeChunkOption r.id r.length) s := by
  obtain ⟨h1, h2, -⟩ := holds_record h
  have e1 := memRead_holds hs h1
  have e2 := memRead_holds hs h2
  rw [le32_length] at e1 e2
  unfold fetchInstr fetchRecord
  rw [e1]
  simp only [Ran.bind_ok]
  rw [e2]
  simp only [Ran.bind_ok, decodeRecord]
  rw [if_neg (by simp)]
  cases w.table <;> simp [le32At_le32, le32At_append_four]

/-- The recognised ids differ. -/
theorem recordIds_ne :
    RecordId.vers ≠ RecordId.size ∧ RecordId.vers ≠ RecordId.data ∧ RecordId.vers ≠ RecordId.dest ∧
    RecordId.vers ≠ RecordId.md5 ∧ RecordId.vers ≠ RecordId.sha2 ∧ RecordId.vers ≠ RecordId.cr32 ∧
    RecordId.vers ≠ RecordId.encm ∧ RecordId.size ≠ RecordId.vers ∧ RecordId.size ≠ RecordId.data ∧
    RecordId.size ≠ RecordId.dest ∧ RecordId.size ≠ RecordId.md5 ∧ RecordId.size ≠ RecordId.sha2 ∧
    RecordId.size ≠ RecordId.cr32 ∧ RecordId.size ≠ RecordId.encm ∧ RecordId.data ≠ RecordId.vers ∧
    RecordId.data ≠ RecordId.size ∧ RecordId.data ≠ RecordId.dest ∧ RecordId.data ≠ RecordId.md5 ∧
    RecordId.data ≠ RecordId.sha2 ∧ RecordId.data ≠ RecordId.cr32 ∧ RecordId.data ≠ RecordId.encm ∧
    RecordId.dest ≠ RecordId.vers ∧ RecordId.dest ≠ RecordId.size ∧ RecordId.dest ≠ RecordId.data ∧
    RecordId.dest ≠ RecordId.md5 ∧ RecordId.dest ≠ RecordId.sha2 ∧ RecordId.dest ≠ RecordId.cr32 ∧
    RecordId.dest ≠ RecordId.encm ∧ RecordId.md5 ≠ RecordId.vers ∧ RecordId.md5 ≠ RecordId.size ∧
    RecordId.md5 ≠ RecordId.data ∧ RecordId.md5 ≠ RecordId.dest ∧ RecordId.md5 ≠ RecordId.sha2 ∧
    RecordId.md5 ≠ RecordId.cr32 ∧ RecordId.md5 ≠ RecordId.encm ∧ RecordId.sha2 ≠ RecordId.vers ∧
    RecordId.sha2 ≠ RecordId.size ∧ RecordId.sha2 ≠ RecordId.data ∧ RecordId.sha2 ≠ RecordId.dest ∧
    RecordId.sha2 ≠ RecordId.md5 ∧ RecordId.sha2 ≠ RecordId.cr32 ∧ RecordId.sha2 ≠ RecordId.encm ∧
    RecordId.cr32 ≠ RecordId.vers ∧ RecordId.cr32 ≠ RecordId.size ∧ RecordId.cr32 ≠ RecordId.data ∧
    RecordId.cr32 ≠ RecordId.dest ∧ RecordId.cr32 ≠ RecordId.md5 ∧ RecordId.cr32 ≠ RecordId.sha2 ∧
    RecordId.cr32 ≠ RecordId.encm ∧ RecordId.encm ≠ RecordId.vers ∧ RecordId.encm ≠ RecordId.size ∧
    RecordId.encm ≠ RecordId.data ∧ RecordId.encm ≠ RecordId.dest ∧ RecordId.encm ≠ RecordId.md5 ∧
    RecordId.encm ≠ RecordId.sha2 ∧ RecordId.encm ≠ RecordId.cr32 := by and_intros <;> decide

/-! ## One record -/

section OneRecord

variable {s : State} {w : Walk} {r : Record}

@[simp] theorem withWalk_withWalk (s : State) (a b : Option Walk) : (s.withWalk a).withWalk b = s.withWalk b := rfl

theorem holds_withWalk {s : State} {a : Nat} {b : List Byte} (x : Option Walk) (h : holds s a b) :
    holds (s.withWalk x) a b := (Keeps.withWalk s x).holds h

/-- CHNKNUM's search passes over every record but `CHNK`. -/
theorem recordTurn_find_other (hs : inRam s) (hw : s.walk = some w) (hp : w.phase = .find) (h : holds s w.cur r.bytes)
    (hid : r.id ≠ RecordId.chnk) : recordTurn s = .ok () (s.withWalk (some (w.advance r.length))) := by
  rw [recordTurn, onWalk_some hw]
  simp only [hp]
  rw [fetchInstr_record hs h]
  simp [Walk.table, hp, decodeGlobalOption, hid, runRecord, recordGoptOther, globalRecord, onWalk_some hw, passOver]

/-- CHNKNUM's search ends at `CHNK`. -/
theorem recordTurn_find_chnk (hs : inRam s) (hw : s.walk = some w) (hp : w.phase = .find) (h : holds s w.cur r.bytes)
    (hr : r.spelled) (hid : r.id = RecordId.chnk) (h4 : 4 ≤ r.payload.length) :
    recordTurn s = .ok () (s.withWalk (some { w with found := some (le32At r.payload 0) })) := by
  rw [recordTurn, onWalk_some hw]
  simp only [hp]
  rw [fetchInstr_record hs h]
  have e := memRead_holds_take hs (holds_record h).2.2 h4
  have hn : ¬ r.length.toNat < 4 := by rw [Record.length_toNat hr]; omega
  simp [Walk.table, hp, decodeGlobalOption, hid, runRecord, recordChnk, globalRecord, onWalk_some hw, readWordField,
    readField, e, hn, le32At_take]

/-- CHNKHDR.N's skip loop passes over every record. -/
theorem recordTurn_skip (hs : inRam s) (hw : s.walk = some w) (hp : w.phase = .skip) (h : holds s w.cur r.bytes) :
    recordTurn s = .ok () (s.withWalk (some (w.advance r.length))) := by
  rw [recordTurn, onWalk_some hw]
  simp only [hp, skipRecord]
  rw [rd32LE_holds hs (holds_record h).2.1]
  simp [passOver]

theorem runRecord_passed {i : Instr} {length : Word} (hw : s.walk = some w) (hp : w.phase = .group) (hk : w.c ≠ w.k) (id : Word)
    (hi : i = decodeChunkOption id length) : runRecord i s = .ok () (s.withWalk (some (w.advance length))) := by
  subst hi
  unfold decodeChunkOption
  repeat' split
  all_goals simp [runRecord, recordVers, recordSize, recordData, recordDest, recordMd5, recordSha2, recordCr32, recordEncm,
    recordCoptOther, chunkRecord, onWalk_some hw, hp, hk, passOver]

/-- A record of a chunk group that is not the target is passed over. -/
theorem recordTurn_passed (hs : inRam s) (hw : s.walk = some w) (hp : w.phase = .group) (hk : w.c ≠ w.k)
    (h : holds s w.cur r.bytes) : recordTurn s = .ok () (s.withWalk (some (w.advance r.length))) := by
  rw [recordTurn, onWalk_some hw]
  simp only [hp]
  rw [fetchInstr_record hs h]
  simp only [Walk.table, hp, Ran.bind_ok]
  exact runRecord_passed hw hp hk _ rfl

/-- A field that its record fills is read as it stands. -/
theorem readField_whole (hs : inRam s) {p n : Nat} (h : holds s p r.payload) (hr : r.spelled) (hn : n ≤ r.payload.length) :
    readField p n r.length s = .ok (r.payload.take n) s := by
  unfold readField
  rw [memRead_holds_take hs h hn]
  simp only [Ran.bind_ok]
  rw [if_neg (by rw [Record.length_toNat hr]; omega)]

/-- A whole record of the target group does to the header what its rule says. -/
theorem recordTurn_target (hs : inRam s) (hw : s.walk = some w) (hp : w.phase = .group) (hk : w.c = w.k)
    (h : holds s w.cur r.bytes) (hr : r.whole) :
    recordTurn s = .ok () (s.withWalk (some (({ w with hdr := applyRecord w.hdr r } : Walk).advance r.length))) := by
  obtain ⟨hm, n, hf, hn⟩ := hr
  have hsp : r.spelled := by unfold Record.spelled; unfold Config.maxOptPayload at hm; omega
  have hlen : ¬ Config.maxOptPayload < r.length.toNat := by rw [Record.length_toNat hsp]; omega
  have hpay := (holds_record h).2.2
  rw [recordTurn, onWalk_some hw]
  simp only [hp]
  rw [fetchInstr_record hs h]
  simp only [Walk.table, hp, Ran.bind_ok]
  by_cases hid : r.id = RecordId.vers
  · obtain rfl : n = 16 := by simpa [fieldSize, hid, recordIds_ne, eq_comm] using hf
    simp [hid, decodeChunkOption, applyRecord, runRecord, recordVers, chunkRecord, onWalk_some hw, hp, hk, hlen,
      readVersionField, readField_whole hs hpay hsp hn, passOver, Walk.advance, versionAt_take, flagVers]
  by_cases hid : r.id = RecordId.size
  · obtain rfl : n = 4 := by simpa [fieldSize, hid, recordIds_ne, eq_comm] using hf
    simp [hid, recordIds_ne, decodeChunkOption, applyRecord, runRecord, recordSize, chunkRecord, onWalk_some hw, hp, hk, hlen,
      readWordField, readField_whole hs hpay hsp hn, passOver, Walk.advance, le32At_take, flagSize]
  by_cases hid : r.id = RecordId.data
  · obtain rfl : n = 4 := by simpa [fieldSize, hid, recordIds_ne, eq_comm] using hf
    simp [hid, recordIds_ne, decodeChunkOption, applyRecord, runRecord, recordData, chunkRecord, onWalk_some hw, hp, hk, hlen,
      readWordField, readField_whole hs hpay hsp hn, passOver, Walk.advance, le32At_take, flagData]
  by_cases hid : r.id = RecordId.dest
  · obtain rfl : n = 32 := by simpa [fieldSize, hid, recordIds_ne, eq_comm] using hf
    simp [hid, recordIds_ne, decodeChunkOption, applyRecord, runRecord, recordDest, chunkRecord, onWalk_some hw, hp, hk, hlen,
      readBytesField, readField_whole hs hpay hsp hn, passOver, Walk.advance, fixedBytes_take hn, flagDest]
  by_cases hid : r.id = RecordId.md5
  · obtain rfl : n = 16 := by simpa [fieldSize, hid, recordIds_ne, eq_comm] using hf
    simp [hid, recordIds_ne, decodeChunkOption, applyRecord, runRecord, recordMd5, chunkRecord, onWalk_some hw, hp, hk, hlen,
      readBytesField, readField_whole hs hpay hsp hn, passOver, Walk.advance, fixedBytes_take hn, flagMd5]
  by_cases hid : r.id = RecordId.sha2
  · obtain rfl : n = 32 := by simpa [fieldSize, hid, recordIds_ne, eq_comm] using hf
    simp [hid, recordIds_ne, decodeChunkOption, applyRecord, runRecord, recordSha2, chunkRecord, onWalk_some hw, hp, hk, hlen,
      readBytesField, readField_whole hs hpay hsp hn, passOver, Walk.advance, fixedBytes_take hn, flagSha2]
  by_cases hid : r.id = RecordId.cr32
  · obtain rfl : n = 4 := by simpa [fieldSize, hid, recordIds_ne, eq_comm] using hf
    simp [hid, recordIds_ne, decodeChunkOption, applyRecord, runRecord, recordCr32, chunkRecord, onWalk_some hw, hp, hk, hlen,
      readWordField, readField_whole hs hpay hsp hn, passOver, Walk.advance, le32At_take, flagCr32]
  by_cases hid : r.id = RecordId.encm
  · obtain rfl : n = 4 := by simpa [fieldSize, hid, recordIds_ne, eq_comm] using hf
    simp [hid, recordIds_ne, decodeChunkOption, applyRecord, runRecord, recordEncm, chunkRecord, onWalk_some hw, hp, hk, hlen,
      readWordField, readField_whole hs hpay hsp hn, passOver, Walk.advance, le32At_take, flagEncm]
  simp_all [fieldSize]

/-- A record of the target group that is over the length limit, or whose id is not recognised, ends the walk. -/
theorem recordTurn_stops {st : Status} (hs : inRam s) (hw : s.walk = some w) (hp : w.phase = .group) (hk : w.c = w.k)
    (h : holds s w.cur r.bytes) (hr : r.spelled)
    (hst : 512 < r.payload.length ∧ st = .parseError ∨
      r.payload.length ≤ 512 ∧ r.id ∉ RecordId.chunkIds ∧ st = .unknownOption) : recordTurn s = .raised st.code s := by
  rw [recordTurn, onWalk_some hw]
  simp only [hp]
  rw [fetchInstr_record hs h]
  simp only [Walk.table, hp, Ran.bind_ok]
  rcases hst with ⟨hl, rfl⟩ | ⟨hl, hid, rfl⟩
  · have hlen : Config.maxOptPayload < r.length.toNat := by rw [Record.length_toNat hr]; exact hl
    unfold decodeChunkOption
    repeat' split
    all_goals simp [runRecord, recordVers, recordSize, recordData, recordDest, recordMd5, recordSha2, recordCr32, recordEncm,
      recordCoptOther, chunkRecord, onWalk_some hw, hp, hk, hlen, raise]
  · have hlen : ¬ Config.maxOptPayload < r.length.toNat := by
      rw [Record.length_toNat hr]; exact Nat.not_lt.mpr hl
    simp only [RecordId.chunkIds, List.mem_cons, List.not_mem_nil, or_false, not_or] at hid
    obtain ⟨h1, h2, h3, h4, h5, h6, h7, h8⟩ := hid
    simp only [decodeChunkOption, h1, h2, h3, h4, h5, h6, h7, h8, if_false]
    simp [runRecord, recordCoptOther, chunkRecord, onWalk_some hw, hp, hk, hlen, raise, Ran.bind]

end OneRecord

/-- A count word, read with a walk under way. -/
theorem rd32LE_holds_walk {s : State} {a : Nat} {v : Word} {x : Option Walk} (hs : inRam s) (h : holds s a (le32 v)) :
    rd32LE a (s.withWalk x) = .ok v (s.withWalk x) := rd32LE_holds (s := s.withWalk x) hs (holds_withWalk x h)

/-! ## A loop of records -/

theorem runRecords_over {s : State} {w : Walk} (hw : s.walk = some w) (h : w.loopOver = true) (m : Nat) :
    runRecords m s = .ok () s := by
  cases m with
  | zero => rfl
  | succ m => simp [runRecords, onWalk_some hw, h]

/-- Records whose turns are known, one after another. -/
theorem runRecords_list {s : State} (f : Walk → Record → Walk) (inv : Walk → List Record → Prop)
    (hstep : ∀ w r rs, inv w (r :: rs) → w.loopOver = false ∧
      recordTurn (s.withWalk (some w)) = .ok () (s.withWalk (some (f w r))) ∧ inv (f w r) rs)
    (rs : List Record) (w : Walk) (h : inv w rs) (m : Nat) :
    runRecords (rs.length + m) (s.withWalk (some w)) = runRecords m (s.withWalk (some (rs.foldl f w))) := by
  induction rs generalizing w with
  | nil => simp
  | cons r rs ih =>
    obtain ⟨h1, h2, h3⟩ := hstep w r rs h
    rw [List.length_cons, Nat.add_right_comm, runRecords, onWalk_some (w := w) rfl]
    simp only [h1, h2, Bool.false_eq_true, if_false, Ran.bind_ok]
    exact ih _ h3

/-- The cursor and the counter past a list of records. -/
def Walk.past (w : Walk) (rs : List Record) : Walk :=
  { w with cur := w.cur + (recordsBytes rs).length, j := w.j + rs.length }

theorem foldl_advance {rs : List Record} (h : ∀ r ∈ rs, r.spelled) (w : Walk) :
    rs.foldl (fun w r => w.advance r.length) w = w.past rs := by
  induction rs generalizing w with
  | nil => rfl
  | cons r rs ih =>
    rw [List.foldl_cons, ih fun r hr => h r (by simp [hr])]
    simp only [Walk.past, Walk.advance, nextRecordAddr_record (h r (by simp)), recordsBytes, List.length_append,
      List.length_cons]
    congr 1 <;> omega

theorem foldl_target {rs : List Record} (h : ∀ r ∈ rs, r.spelled) (w : Walk) :
    rs.foldl (fun w r => ({ w with hdr := applyRecord w.hdr r } : Walk).advance r.length) w =
      { w.past rs with hdr := groupHeader w.hdr rs } := by
  induction rs generalizing w with
  | nil => rfl
  | cons r rs ih =>
    rw [List.foldl_cons, ih fun r hr => h r (by simp [hr])]
    simp only [Walk.past, Walk.advance, nextRecordAddr_record (h r (by simp)), recordsBytes, List.length_append,
      List.length_cons, groupHeader, List.foldl_cons]
    congr 1 <;> omega

theorem Record.whole.spelled {r : Record} (h : r.whole) : r.spelled := by
  have := h.1
  unfold Config.maxOptPayload at this
  unfold Record.spelled
  omega

theorem recordsBytes_append (a b : List Record) : recordsBytes (a ++ b) = recordsBytes a ++ recordsBytes b := by
  induction a with
  | nil => rfl
  | cons r a ih => simp [recordsBytes, ih]

/-- Records that the search passes over. -/
theorem runRecords_find {s : State} {w : Walk} (hs : inRam s) {rs : List Record} (hsp : ∀ r ∈ rs, r.spelled)
    (hid : ∀ r ∈ rs, r.id ≠ RecordId.chnk) (hp : w.phase = .find) (hf : w.found = none) (hh : holds s w.cur (recordsBytes rs))
    (hc : w.j + rs.length ≤ w.cnt) (m : Nat) :
    runRecords (rs.length + m) (s.withWalk (some w)) = runRecords m (s.withWalk (some (w.past rs))) := by
  rw [← foldl_advance hsp]
  refine runRecords_list (fun w r => w.advance r.length)
    (fun w rs => (∀ r ∈ rs, r.spelled) ∧ (∀ r ∈ rs, r.id ≠ RecordId.chnk) ∧ w.phase = .find ∧ w.found = none ∧
      holds s w.cur (recordsBytes rs) ∧ w.j + rs.length ≤ w.cnt) ?_ rs w ⟨hsp, hid, hp, hf, hh, hc⟩ m
  rintro w r rs ⟨h1, h2, h3, h4, h5, h6⟩
  rw [recordsBytes, holds_append] at h5
  simp only [List.length_cons] at h6
  refine ⟨by simp [Walk.loopOver, h4]; omega, ?_, fun r hr => h1 r (by simp [hr]), fun r hr => h2 r (by simp [hr]), h3, h4,
    ?_, ?_⟩
  · exact recordTurn_find_other (w := w) (s := s.withWalk (some w)) hs rfl h3 (holds_withWalk _ h5.1) (h2 r (by simp))
  · simp only [Walk.advance]; rw [nextRecordAddr_record (h1 r (by simp))]; exact h5.2
  · simp only [Walk.advance]; omega

/-- Records that the skip loop passes over. -/
theorem runRecords_skip {s : State} {w : Walk} (hs : inRam s) {rs : List Record} (hsp : ∀ r ∈ rs, r.spelled)
    (hp : w.phase = .skip) (hh : holds s w.cur (recordsBytes rs)) (hc : w.j + rs.length ≤ w.cnt) (m : Nat) :
    runRecords (rs.length + m) (s.withWalk (some w)) = runRecords m (s.withWalk (some (w.past rs))) := by
  rw [← foldl_advance hsp]
  refine runRecords_list (fun w r => w.advance r.length)
    (fun w rs => (∀ r ∈ rs, r.spelled) ∧ w.phase = .skip ∧
      holds s w.cur (recordsBytes rs) ∧ w.j + rs.length ≤ w.cnt) ?_ rs w ⟨hsp, hp, hh, hc⟩ m
  rintro w r rs ⟨h1, h3, h5, h6⟩
  rw [recordsBytes, holds_append] at h5
  simp only [List.length_cons] at h6
  refine ⟨by simp [Walk.loopOver, h3]; omega, ?_, fun r hr => h1 r (by simp [hr]), h3, ?_, ?_⟩
  · exact recordTurn_skip (w := w) (s := s.withWalk (some w)) hs rfl h3 (holds_withWalk _ h5.1)
  · simp only [Walk.advance]; rw [nextRecordAddr_record (h1 r (by simp))]; exact h5.2
  · simp only [Walk.advance]; omega

/-- Records of a chunk group that is not the target. -/
theorem runRecords_passed {s : State} {w : Walk} (hs : inRam s) {rs : List Record} (hsp : ∀ r ∈ rs, r.spelled)
    (hp : w.phase = .group) (hk : w.c ≠ w.k) (hh : holds s w.cur (recordsBytes rs)) (hc : w.j + rs.length ≤ w.cnt) (m : Nat) :
    runRecords (rs.length + m) (s.withWalk (some w)) = runRecords m (s.withWalk (some (w.past rs))) := by
  rw [← foldl_advance hsp]
  refine runRecords_list (fun w r => w.advance r.length)
    (fun w rs => (∀ r ∈ rs, r.spelled) ∧ w.phase = .group ∧ w.c ≠ w.k ∧
      holds s w.cur (recordsBytes rs) ∧ w.j + rs.length ≤ w.cnt) ?_ rs w ⟨hsp, hp, hk, hh, hc⟩ m
  rintro w r rs ⟨h1, h3, h4, h5, h6⟩
  rw [recordsBytes, holds_append] at h5
  simp only [List.length_cons] at h6
  refine ⟨by simp [Walk.loopOver, h3]; omega, ?_, fun r hr => h1 r (by simp [hr]), h3, h4, ?_, ?_⟩
  · exact recordTurn_passed (w := w) (s := s.withWalk (some w)) hs rfl h3 h4 (holds_withWalk _ h5.1)
  · simp only [Walk.advance]; rw [nextRecordAddr_record (h1 r (by simp))]; exact h5.2
  · simp only [Walk.advance]; omega

/-- Whole records of the target group. -/
theorem runRecords_target {s : State} {w : Walk} (hs : inRam s) {rs : List Record} (hwh : ∀ r ∈ rs, r.whole)
    (hp : w.phase = .group) (hk : w.c = w.k) (hh : holds s w.cur (recordsBytes rs)) (hc : w.j + rs.length ≤ w.cnt) (m : Nat) :
    runRecords (rs.length + m) (s.withWalk (some w)) =
      runRecords m (s.withWalk (some { w.past rs with hdr := groupHeader w.hdr rs })) := by
  rw [← foldl_target fun r hr => (hwh r hr).spelled]
  refine runRecords_list (fun w r => ({ w with hdr := applyRecord w.hdr r } : Walk).advance r.length)
    (fun w rs => (∀ r ∈ rs, r.whole) ∧ w.phase = .group ∧ w.c = w.k ∧
      holds s w.cur (recordsBytes rs) ∧ w.j + rs.length ≤ w.cnt) ?_ rs w ⟨hwh, hp, hk, hh, hc⟩ m
  rintro w r rs ⟨h1, h3, h4, h5, h6⟩
  rw [recordsBytes, holds_append] at h5
  simp only [List.length_cons] at h6
  refine ⟨by simp [Walk.loopOver, h3]; omega, ?_, fun r hr => h1 r (by simp [hr]), h3, h4, ?_, ?_⟩
  · exact recordTurn_target (w := w) (s := s.withWalk (some w)) hs rfl h3 h4 (holds_withWalk _ h5.1) (h1 r (by simp))
  · simp only [Walk.advance]; rw [nextRecordAddr_record (h1 r (by simp)).spelled]; exact h5.2
  · simp only [Walk.advance]; omega

/-- Records of the target group up to one that ends the walk. -/
theorem runRecords_stops {s : State} {w : Walk} {g : List Record} {st : Status} (hs : inRam s) (hg : stopsWith g st)
    (hsp : ∀ r ∈ g, r.spelled) (hp : w.phase = .group) (hk : w.c = w.k) (hh : holds s w.cur (recordsBytes g))
    (hc : w.j + g.length ≤ w.cnt) : ∃ u, runRecords g.length (s.withWalk (some w)) = .raised st.code u := by
  obtain ⟨good, bad, rest, rfl, hwh, hst⟩ := hg
  rw [recordsBytes_append, recordsBytes, holds_append, holds_append] at hh
  obtain ⟨h1, h2, -⟩ := hh
  have ht := recordTurn_stops (w := { w.past good with hdr := groupHeader w.hdr good })
    (s := s.withWalk (some { w.past good with hdr := groupHeader w.hdr good })) hs rfl hp hk (holds_withWalk _ h2)
    (hsp bad (by simp)) hst
  simp only [List.length_append, List.length_cons] at hc ⊢
  rw [runRecords_target hs hwh hp hk h1 (by omega), runRecords, onWalk_some (State.withWalk_walk _ _),
    if_neg (by simp [Walk.loopOver, Walk.past, hp]; omega), ht]
  exact ⟨_, rfl⟩

/-! ## The walk of an image -/

theorem count_toNat {n : Nat} (h : n < 2 ^ 32) : (BitVec.ofNat 32 n : Word).toNat = n := by
  rw [BitVec.toNat_ofNat, Nat.mod_eq_of_lt h]

/-- A walk begins at the global options. -/
theorem startWalk_holds {s : State} {base n : Nat} {opts : List Byte} (hs : inRam s) (hn : n < 2 ^ 32) (job : Job) (k : Nat)
    (h : holds s (optCountAddr base) (le32 (BitVec.ofNat 32 n) ++ opts)) :
    startWalk job base k s = .ok () (s.withWalk (some
      (⟨job, .find, base, firstOptionAddr base, 0, n, 0, k, none, ChunkHeader.zero⟩ : Walk))) := by
  rw [startWalk, rd32LE_holds hs (holds_append.mp h).1]
  simp only [Ran.bind_ok, count_toNat hn]

theorem optCount_end (base : Nat) : optCountAddr base + 4 = firstOptionAddr base := rfl

/-- CHNKNUM's search on an image: it ends at the first `CHNK` record. -/
theorem find_chnk {s : State} {base k : Nat} {before : List Record} {chnk : Record} {rest : List Byte} {n : Nat} (hs : inRam s)
    (job : Job) (hn : n < 2 ^ 32) (hb : before.length < n) (hsp : ∀ r ∈ before, r.spelled) (hid : ∀ r ∈ before, r.id ≠ RecordId.chnk)
    (hc : chnk.spelled) (hci : chnk.id = RecordId.chnk) (h4 : 4 ≤ chnk.payload.length)
    (h : holds s (optCountAddr base) (le32 (BitVec.ofNat 32 n) ++ (recordsBytes before ++ (chnk.bytes ++ rest)))) :
    ((startWalk job base k s).bind fun _ s => runLoop s) = .ok () (s.withWalk (some
      (⟨job, .find, base, firstOptionAddr base + (recordsBytes before).length, before.length, n, 0, k, some (le32At chnk.payload 0), ChunkHeader.zero⟩ : Walk))) := by
  rw [startWalk_holds hs hn job k h, Ran.bind_ok, runLoop, onWalk_some rfl]
  obtain ⟨-, h2⟩ := holds_append.mp h
  obtain ⟨h2, h3⟩ := holds_append.mp h2
  obtain ⟨h3, -⟩ := holds_append.mp h3
  obtain ⟨m, rfl⟩ := Nat.exists_eq_add_of_lt hb
  simp only [Nat.sub_zero]
  rw [show before.length + m + 1 = before.length + (m + 1) by omega]
  rw [runRecords_find hs hsp hid rfl rfl (by simpa [optCount_end] using h2) (by simp)]
  rw [runRecords, onWalk_some rfl]
  have hl : ∀ w : Walk, w.phase = .find → w.found = none → w.j < w.cnt → w.loopOver = false := by
    intro w h1 h2 h3
    simp [Walk.loopOver, h2, h3]
  rw [if_neg (by rw [hl _ rfl rfl (by simp only [Walk.past]; omega)]; simp)]
  rw [recordTurn_find_chnk (s := s.withWalk (some (Walk.past _ before))) (r := chnk) hs rfl rfl
    (holds_withWalk _ (by simpa [Walk.past, optCount_end] using h3)) hc hci h4]
  simp only [Ran.bind_ok, withWalk_withWalk]
  rw [runRecords_over rfl (by simp [Walk.loopOver, Walk.past])]
  simp [Walk.past]

/-- CHNKNUM's search when no global option is `CHNK`. -/
theorem find_none {s : State} {base k : Nat} {opts : List Record} {rest : List Byte} (hs : inRam s) (job : Job)
    (hn : opts.length < 2 ^ 32) (hsp : ∀ r ∈ opts, r.spelled) (hid : ∀ r ∈ opts, r.id ≠ RecordId.chnk)
    (h : holds s (optCountAddr base) (le32 (BitVec.ofNat 32 opts.length) ++ (recordsBytes opts ++ rest))) :
    ((startWalk job base k s).bind fun _ s => runLoop s) = .ok () (s.withWalk (some
      (⟨job, .find, base, firstOptionAddr base + (recordsBytes opts).length, opts.length, opts.length, 0, k, none, ChunkHeader.zero⟩ : Walk))) := by
  rw [startWalk_holds hs hn job k h, Ran.bind_ok, runLoop, onWalk_some rfl]
  obtain ⟨-, h2⟩ := holds_append.mp h
  obtain ⟨h2, -⟩ := holds_append.mp h2
  simp only [Nat.sub_zero]
  have := runRecords_find (s := s) (w := (⟨job, .find, base, firstOptionAddr base, 0, opts.length, 0, k, none, ChunkHeader.zero⟩ : Walk)) hs hsp hid rfl rfl
    (by simpa [optCount_end] using h2) (by simp) 0
  rw [Nat.add_zero] at this
  rw [this]
  simp [runRecords, Walk.past]

/-- CHNKNUM's walk when a `CHNK` record is found. -/
theorem countChunks_found {s : State} {base : Nat} {before : List Record} {chnk : Record} {rest : List Byte} {n : Nat}
    (hs : inRam s) (hn : n < 2 ^ 32) (hb : before.length < n) (hsp : ∀ r ∈ before, r.spelled)
    (hid : ∀ r ∈ before, r.id ≠ RecordId.chnk) (hc : chnk.spelled) (hci : chnk.id = RecordId.chnk)
    (h4 : 4 ≤ chnk.payload.length)
    (h : holds s (optCountAddr base) (le32 (BitVec.ofNat 32 n) ++ (recordsBytes before ++ (chnk.bytes ++ rest)))) :
    countChunks base s = .ok (le32At chnk.payload 0) (s.withWalk none) := by
  have := find_chnk (k := 0) hs .count hn hb hsp hid hc hci h4 h
  unfold countChunks
  rw [← Ran.bind_assoc, this]
  simp [foundCount, onWalk_some]

/-- CHNKNUM's walk when no global option is `CHNK`. -/
theorem countChunks_none {s : State} {base : Nat} {opts : List Record} {rest : List Byte} (hs : inRam s)
    (hn : opts.length < 2 ^ 32) (hsp : ∀ r ∈ opts, r.spelled) (hid : ∀ r ∈ opts, r.id ≠ RecordId.chnk)
    (h : holds s (optCountAddr base) (le32 (BitVec.ofNat 32 opts.length) ++ (recordsBytes opts ++ rest))) :
    ∃ w, countChunks base s = .raised Status.notFound.code (s.withWalk (some w)) := by
  have := find_none (k := 0) hs .count hn hsp hid h
  unfold countChunks
  rw [← Ran.bind_assoc, this]
  simp only [Ran.bind_ok, foundCount]
  rw [onWalk_some rfl]
  exact ⟨_, rfl⟩

/-- CHNKHDR.N's walk when no global option is `CHNK`. -/
theorem chunkHeader_none {s : State} {base k : Nat} {opts : List Record} {rest : List Byte} (hs : inRam s)
    (hn : opts.length < 2 ^ 32) (hsp : ∀ r ∈ opts, r.spelled) (hid : ∀ r ∈ opts, r.id ≠ RecordId.chnk)
    (h : holds s (optCountAddr base) (le32 (BitVec.ofNat 32 opts.length) ++ (recordsBytes opts ++ rest))) :
    ∃ w, chunkHeader base k s = .raised Status.notFound.code (s.withWalk (some w)) := by
  have := find_none (k := k) hs .header hn hsp hid h
  unfold chunkHeader
  rw [← Ran.bind_assoc, this]
  simp only [Ran.bind_ok, beginSkip, foundCount]
  rw [onWalk_some rfl]
  exact ⟨_, rfl⟩

/-! ## Chunk groups -/

theorem groupBytes_length (g : List Record) : (groupBytes g).length = 4 + (recordsBytes g).length := by
  simp [groupBytes]

/-- A chunk group that is not the target. -/
theorem enterGroup_passed {s : State} {w : Walk} {g : List Record} (hs : inRam s) (hp : w.phase = .group) (hk : w.c + 1 ≠ w.k)
    (hg : g.length < 2 ^ 32) (hsp : ∀ r ∈ g, r.spelled) (h : holds s w.cur (groupBytes g)) :
    ((enterGroup (s.withWalk (some w))).bind fun _ s => runLoop s) = .ok () (s.withWalk (some
      { w with c := w.c + 1, cur := w.cur + (groupBytes g).length, j := g.length, cnt := g.length })) := by
  obtain ⟨h1, h2⟩ := holds_append.mp h
  rw [enterGroup, onWalk_some (w := w) rfl, rd32LE_holds (s := s.withWalk (some w)) hs (holds_withWalk _ h1)]
  simp only [Ran.bind_ok, withWalk_withWalk, count_toNat hg]
  rw [runLoop, onWalk_some rfl]
  have := runRecords_passed (s := s) (w := { w with c := w.c + 1, cur := w.cur + 4, j := 0, cnt := g.length }) hs hsp hp hk h2
    (by simp) 0
  simp only [Nat.add_zero] at this
  simp only [Nat.sub_zero]
  rw [this]
  simp [runRecords, Walk.past, groupBytes_length, Nat.add_assoc]

/-- The target chunk group. -/
theorem enterGroup_target {s : State} {w : Walk} {g : List Record} (hs : inRam s) (hp : w.phase = .group) (hk : w.c + 1 = w.k)
    (hg : g.length < 2 ^ 32) (hwh : ∀ r ∈ g, r.whole) (h : holds s w.cur (groupBytes g)) :
    ((enterGroup (s.withWalk (some w))).bind fun _ s => runLoop s) = .ok () (s.withWalk (some
      { w with c := w.c + 1, cur := w.cur + (groupBytes g).length, j := g.length, cnt := g.length,
               hdr := groupHeader w.hdr g })) := by
  obtain ⟨h1, h2⟩ := holds_append.mp h
  rw [enterGroup, onWalk_some (w := w) rfl, rd32LE_holds (s := s.withWalk (some w)) hs (holds_withWalk _ h1)]
  simp only [Ran.bind_ok, withWalk_withWalk, count_toNat hg]
  rw [runLoop, onWalk_some rfl]
  have := runRecords_target (s := s) (w := { w with c := w.c + 1, cur := w.cur + 4, j := 0, cnt := g.length }) hs hwh hp hk h2
    (by simp) 0
  simp only [Nat.add_zero] at this
  simp only [Nat.sub_zero]
  rw [this]
  simp [runRecords, Walk.past, groupBytes_length, Nat.add_assoc]

/-- The target chunk group, when the walker does not get through it. -/
theorem enterGroup_stops {s : State} {w : Walk} {g : List Record} {st : Status} (hs : inRam s) (hp : w.phase = .group)
    (hk : w.c + 1 = w.k) (hg : g.length < 2 ^ 32) (hsp : ∀ r ∈ g, r.spelled) (hst : stopsWith g st)
    (h : holds s w.cur (groupBytes g)) :
    ∃ u, ((enterGroup (s.withWalk (some w))).bind fun _ s => runLoop s) = .raised st.code u := by
  obtain ⟨h1, h2⟩ := holds_append.mp h
  rw [enterGroup, onWalk_some (w := w) rfl, rd32LE_holds (s := s.withWalk (some w)) hs (holds_withWalk _ h1)]
  simp only [Ran.bind_ok, withWalk_withWalk, count_toNat hg]
  rw [runLoop, onWalk_some rfl]
  exact runRecords_stops (s := s) (w := { w with c := w.c + 1, cur := w.cur + 4, j := 0, cnt := g.length }) hs hst hsp hp hk h2
    (by simp)

/-- The groups up to the target one. -/
theorem runGroups_target {s : State} (hs : inRam s) (gs : List (List Record)) (g : List Record) (rest : List Byte) (w : Walk)
    (hp : w.phase = .group) (hk : w.c + gs.length + 1 = w.k)
    (hgs : ∀ x ∈ gs, x.length < 2 ^ 32 ∧ ∀ r ∈ x, r.spelled) (hg : g.length < 2 ^ 32) (hwh : ∀ r ∈ g, r.whole)
    (h : holds s w.cur (groupsBytes gs ++ (groupBytes g ++ rest))) :
    ∃ w', runGroups (gs.length + 1) (s.withWalk (some w)) = .ok () (s.withWalk (some w')) ∧ w'.hdr = groupHeader w.hdr g := by
  induction gs generalizing w with
  | nil =>
    have h1 := (holds_append.mp h).1
    simp only [List.length_nil, Nat.add_zero, Nat.zero_add] at hk ⊢
    rw [runGroups, ← Ran.bind_assoc, enterGroup_target hs hp hk hg hwh (by simpa [groupsBytes] using (holds_append.mp (by simpa [groupsBytes] using h)).1)]
    exact ⟨_, rfl, rfl⟩
  | cons x gs ih =>
    rw [groupsBytes, List.append_assoc, holds_append] at h
    simp only [List.length_cons] at hk ⊢
    rw [runGroups, ← Ran.bind_assoc, enterGroup_passed hs hp (by omega) (hgs x (by simp)).1 (hgs x (by simp)).2 h.1]
    exact ih { w with c := w.c + 1, cur := w.cur + (groupBytes x).length, j := x.length, cnt := x.length } hp
      (by simp only; omega) (fun y hy => hgs y (by simp [hy])) h.2

/-- The groups up to the target one, when the walker does not get through that. -/
theorem runGroups_stops {s : State} {st : Status} (hs : inRam s) (gs : List (List Record)) (g : List Record) (rest : List Byte)
    (w : Walk) (hp : w.phase = .group) (hk : w.c + gs.length + 1 = w.k)
    (hgs : ∀ x ∈ gs, x.length < 2 ^ 32 ∧ ∀ r ∈ x, r.spelled) (hg : g.length < 2 ^ 32) (hsp : ∀ r ∈ g, r.spelled)
    (hst : stopsWith g st) (h : holds s w.cur (groupsBytes gs ++ (groupBytes g ++ rest))) :
    ∃ u, runGroups (gs.length + 1) (s.withWalk (some w)) = .raised st.code u := by
  induction gs generalizing w with
  | nil =>
    simp only [List.length_nil, Nat.add_zero, Nat.zero_add] at hk ⊢
    obtain ⟨u, e⟩ := enterGroup_stops hs hp hk hg hsp hst (holds_append.mp (by simpa [groupsBytes] using h)).1
    rw [runGroups, ← Ran.bind_assoc, e]
    exact ⟨u, rfl⟩
  | cons x gs ih =>
    rw [groupsBytes, List.append_assoc, holds_append] at h
    simp only [List.length_cons] at hk ⊢
    rw [runGroups, ← Ran.bind_assoc, enterGroup_passed hs hp (by omega) (hgs x (by simp)).1 (hgs x (by simp)).2 h.1]
    exact ih { w with c := w.c + 1, cur := w.cur + (groupBytes x).length, j := x.length, cnt := x.length } hp
      (by simp only; omega) (fun y hy => hgs y (by simp [hy])) h.2

theorem groupsBytes_append (a b : List (List Record)) : groupsBytes (a ++ b) = groupsBytes a ++ groupsBytes b := by
  induction a with
  | nil => rfl
  | cons r a ih => simp [groupsBytes, ih]

theorem Image.chnk_mem (m : Image) : m.chnk ∈ m.options := by simp [Image.options]

/-- An image as CHNKNUM's search meets it. -/
theorem Image.stands_search {m : Image} {base : Nat} {s : State} (h : m.stands base s) :
    holds s (optCountAddr base) (le32 (BitVec.ofNat 32 m.options.length) ++
      (recordsBytes m.before ++ (m.chnk.bytes ++ (recordsBytes m.after ++ groupsBytes m.groups)))) := by
  have e : m.bytes = le32 (BitVec.ofNat 32 m.options.length) ++
      (recordsBytes m.before ++ (m.chnk.bytes ++ (recordsBytes m.after ++ groupsBytes m.groups))) := by
    simp [Image.bytes, Image.options, recordsBytes_append, recordsBytes]
  rw [← e]; exact h

theorem Image.before_lt (m : Image) : m.before.length < m.options.length := by simp [Image.options]

theorem Image.before_mem {m : Image} {r : Record} (h : r ∈ m.before) : r ∈ m.options := by simp [Image.options, h]

/-- CHNKNUM's walk on an image gives the number of its chunk groups. -/
theorem countChunks_image {m : Image} {base : Nat} {s : State} (hs : inRam s) (hm : m.spelled) (h : m.stands base s) :
    countChunks base s = .ok (BitVec.ofNat 32 m.groups.length) (s.withWalk none) := by
  obtain ⟨h1, -, h3, h4, h5, h6, h7, -⟩ := hm
  rw [countChunks_found hs h1 m.before_lt (fun r hr => h3 r (Image.before_mem hr)) h4 (h3 _ m.chnk_mem) h5 h6
    (Image.stands_search h), h7]

/-- The walk of CHNKHDR.N on an image when its chunk groups begin. -/
def groupsWalk (m : Image) (base k draw : Nat) : Walk :=
  { job := .header, phase := .group, base := base, cur := firstOptionAddr base + (recordsBytes m.options).length, j := 0, cnt := 0,
    c := 0, k := k, found := some (BitVec.ofNat 32 m.groups.length), hdr := emptyHeader draw }

/-- CHNKHDR.N on an image that stands in memory comes to its chunk groups. -/
theorem chunkHeader_groups {m : Image} {base k : Nat} {s : State} (hs : inRam s) (hm : m.spelled) (h : m.stands base s)
    (hk : 1 ≤ k ∧ k ≤ m.groups.length) :
    chunkHeader base k s =
      (runGroups k (s.drawn.withWalk (some (groupsWalk m base k s.draws)))).bind fun _ s => takeHeader s := by
  have hq := Image.stands_search h
  obtain ⟨h1, h2, h3, h4, h5, h6, h7, -⟩ := hm
  have hf := find_chnk (k := k) hs .header h1 m.before_lt (fun r hr => h3 r (Image.before_mem hr)) h4
    (h3 _ m.chnk_mem) h5 h6 hq
  unfold chunkHeader
  rw [← Ran.bind_assoc, hf]
  simp only [Ran.bind_ok, beginSkip, foundCount]
  rw [onWalk_some rfl]
  simp only [Ran.bind_ok]
  rw [onWalk_some rfl, h7, count_toNat h2, if_neg (by simp only; omega)]
  have ho : holds s (optCountAddr base) m.bytes := h
  rw [Image.bytes] at ho
  obtain ⟨ho1, ho2⟩ := holds_append.mp ho
  dsimp only
  rw [rd32LE_holds_walk hs ho1]
  simp only [Ran.bind_ok, withWalk_withWalk, count_toNat h1]
  rw [runLoop, onWalk_some rfl]
  have hsk := runRecords_skip (s := s) (rs := m.options)
    (w := (⟨.header, .skip, base, firstOptionAddr base, 0, m.options.length, 0, k, some (BitVec.ofNat 32 m.groups.length),
      ChunkHeader.zero⟩ : Walk)) hs h3 rfl (holds_append.mp ho2).1 (by simp) 0
  rw [Nat.add_zero] at hsk
  simp only [Nat.sub_zero]
  rw [hsk]
  simp only [runRecords, Ran.bind_ok, beginGroups]
  rw [onWalk_some rfl]
  rfl

/-- The chunk groups of an image stand where its walk comes to them. -/
theorem holds_groups {m : Image} {base k : Nat} {s : State} (h : m.stands base s) (pre : List (List Record)) (g : List Record)
    (post : List (List Record)) (hg : m.groups = pre ++ g :: post) :
    holds s.drawn (groupsWalk m base k s.draws).cur (groupsBytes pre ++ (groupBytes g ++ groupsBytes post)) := by
  have ho : holds s (optCountAddr base) m.bytes := h
  rw [Image.bytes] at ho
  have e : groupsBytes m.groups = groupsBytes pre ++ (groupBytes g ++ groupsBytes post) := by
    rw [hg, groupsBytes_append]; rfl
  have ho3 := (holds_append.mp (holds_append.mp ho).2).2
  rw [e] at ho3
  exact (Keeps.drawn s).holds ho3

/-- CHNKHDR.N's walk on an image gives the header of the group asked for, when its records are whole. -/
theorem chunkHeader_image {m : Image} {base : Nat} {s : State} (hs : inRam s) (hm : m.spelled) (h : m.stands base s)
    (pre : List (List Record)) (g : List Record) (post : List (List Record)) (hg : m.groups = pre ++ g :: post)
    (hwh : ∀ r ∈ g, r.whole) :
    chunkHeader base (pre.length + 1) s = .ok (groupHeader (emptyHeader s.draws) g) (s.drawn.withWalk none) := by
  rw [chunkHeader_groups hs hm h ⟨by omega, by rw [hg]; simp⟩]
  have h8 := hm.2.2.2.2.2.2.2
  obtain ⟨w', e, hd⟩ := runGroups_target (s := s.drawn) hs pre g (groupsBytes post) (groupsWalk m base (pre.length + 1) s.draws)
    rfl (by simp only [groupsWalk]; omega) (fun x hx => h8 x (by rw [hg]; simp [hx])) (h8 g (by rw [hg]; simp)).1 hwh
    (holds_groups h pre g post hg)
  rw [e]
  simp only [Ran.bind_ok, takeHeader]
  rw [onWalk_some rfl, hd]
  rfl

/-- CHNKHDR.N's walk on an image ends with the status of the group asked for, when the walker does not get through that. -/
theorem chunkHeader_stops {m : Image} {base : Nat} {s : State} {st : Status} (hs : inRam s) (hm : m.spelled) (h : m.stands base s)
    (pre : List (List Record)) (g : List Record) (post : List (List Record)) (hg : m.groups = pre ++ g :: post)
    (hst : stopsWith g st) : ∃ u, chunkHeader base (pre.length + 1) s = .raised st.code u := by
  rw [chunkHeader_groups hs hm h ⟨by omega, by rw [hg]; simp⟩]
  have h8 := hm.2.2.2.2.2.2.2
  obtain ⟨u, e⟩ := runGroups_stops (s := s.drawn) hs pre g (groupsBytes post) (groupsWalk m base (pre.length + 1) s.draws)
    rfl (by simp only [groupsWalk]; omega) (fun x hx => h8 x (by rw [hg]; simp [hx])) (h8 g (by rw [hg]; simp)).1
    (h8 g (by rw [hg]; simp)).2 hst (holds_groups h pre g post hg)
  rw [e]
  exact ⟨u, rfl⟩

end Sys2Proof.Machine
end

