-- ==== Sys2Proof/Laws/Validator.lean ====
section
/-! SUPPORT. The validator: the fields and masks its parts keep, and its five steps with the image in RAM. -/

namespace Sys2Proof.Machine

/-! ## Fields and masks kept -/

theorem checkMagic_keeps (base : Nat) (s : State) : (checkMagic base s).Keeps s :=
  (memRead_keeps base 8 s).bind fun b t => by
    split
    · exact Keeps.refl t
    · exact raise_keeps _ t

theorem checkMagic_masks (base : Nat) {s : State} (h : MaskOk s) : (checkMagic base s).Masks :=
  (memRead_masks base 8 h).bind fun b t k => by
    split
    · exact k
    · trivial

theorem checkTotalLength_keeps (x tl : Word) (s : State) : (checkTotalLength x tl s).Keeps s := by
  unfold checkTotalLength
  split
  · exact raise_keeps _ s
  · exact Keeps.refl s

theorem checkTotalLength_masks (x tl : Word) {s : State} (h : MaskOk s) : (checkTotalLength x tl s).Masks := by
  unfold checkTotalLength
  split
  · trivial
  · exact h

theorem checkFormatVersion_keeps (fv : Word) (s : State) : (checkFormatVersion fv s).Keeps s := by
  unfold checkFormatVersion
  split
  · exact raise_keeps _ s
  · exact Keeps.refl s

theorem checkFormatVersion_masks (fv : Word) {s : State} (h : MaskOk s) : (checkFormatVersion fv s).Masks := by
  unfold checkFormatVersion
  split
  · trivial
  · exact h

theorem checkGlobalCrc_keeps (base : Nat) (tl : Word) (s : State) : (checkGlobalCrc base tl s).Keeps s := by
  unfold checkGlobalCrc
  split
  · trivial
  · exact (digestOf_keeps _ _ _ _ s).bind fun v t => (rd32LE_keeps _ t).bind fun c u => by
      split
      · exact Keeps.refl u
      · exact raise_keeps _ u

theorem checkGlobalCrc_masks (base : Nat) (tl : Word) {s : State} (h : MaskOk s) : (checkGlobalCrc base tl s).Masks := by
  unfold checkGlobalCrc
  split
  · trivial
  · exact (digestOf_masks _ _ _ _ h).bind fun v t k => (rd32LE_masks _ k).bind fun c u l => by
      split
      · exact l
      · trivial

theorem checkDigest_keeps {α : Type} [DecidableEq α] {present : Bool} {digest : State → Ran α} {stored : α} {st : Status}
    {s : State} (hd : (digest s).Keeps s) (hst : st ≠ .valid := by decide) :
    (checkDigest present digest stored st s).Keeps s := by
  unfold checkDigest
  split
  · exact hd.bind fun v t => by
      split
      · exact Keeps.refl t
      · exact raise_keeps _ t hst
  · exact Keeps.refl s

theorem checkDigest_masks {α : Type} [DecidableEq α] {present : Bool} {digest : State → Ran α} {stored : α} {st : Status}
    {s : State} (h : MaskOk s) (hd : (digest s).Masks) (hst : st ≠ .valid := by decide) :
    (checkDigest present digest stored st s).Masks := by
  unfold checkDigest
  split
  · exact hd.bind fun v t k => by
      split
      · exact k
      · exact raise_ends trivial hst
  · exact h

theorem checkChunk_keeps (base : Nat) (h : ChunkHeader) (s : State) : (checkChunk base h s).Keeps s := by
  unfold checkChunk
  split
  · exact (checkDigest_keeps (digestOf_keeps _ _ _ _ s)).bind fun _ t =>
      (checkDigest_keeps (digestOf_keeps _ _ _ _ t)).bind fun _ u => checkDigest_keeps (digestOf_keeps _ _ _ _ u)
  · exact Keeps.refl s

theorem checkChunk_masks (base : Nat) (h : ChunkHeader) {s : State} (hs : MaskOk s) : (checkChunk base h s).Masks := by
  unfold checkChunk
  split
  · exact (checkDigest_masks hs (digestOf_masks _ _ _ _ hs)).bind fun _ t k =>
      (checkDigest_masks k (digestOf_masks _ _ _ _ k)).bind fun _ u l => checkDigest_masks l (digestOf_masks _ _ _ _ l)
  · exact hs

theorem freeNonzeroStatus_ne_zero (draw : Nat) : freeNonzeroStatus draw ≠ 0 := by
  intro h
  have hv := congrArg BitVec.toNat h
  have hb := (Config.freeBelowMax draw).isLt
  simp only [freeNonzeroStatus, BitVec.toNat_ofNat] at hv
  rw [Nat.mod_eq_of_lt (by omega)] at hv
  simp at hv

theorem walkerFailure_keeps {α : Type} {r : Ran α} {s : State} (h : r.Keeps s) : (walkerFailure r).Keeps s := by
  cases r with
  | ok a t => exact h
  | raised c t =>
    simp only [walkerFailure]
    split
    · exact h
    · exact ⟨freeNonzeroStatus_ne_zero _, h.2.trans (Keeps.drawn t)⟩
  | fault r => trivial
  | refused r => trivial

theorem walkerFailure_ends {α : Type} {r : Ran α} {p : α → State → Prop} (h : r.Ends p fun _ => True) :
    (walkerFailure r).Ends p fun _ => True := by
  cases r with
  | ok a t => exact h
  | raised c t =>
    simp only [walkerFailure]
    split
    · exact h
    · exact ⟨freeNonzeroStatus_ne_zero _, trivial⟩
  | fault r => trivial
  | refused r => trivial

theorem checkChunks_keeps (base m c : Nat) (s : State) : (checkChunks base m c s).Keeps s := by
  induction m generalizing c s with
  | zero => exact Keeps.refl s
  | succ m ih =>
    exact (walkerFailure_keeps (chunkHeader_keeps base c s)).bind fun h t => (checkChunk_keeps base h t).bind fun _ u => ih _ u

theorem checkChunks_masks (base m c : Nat) {s : State} (h : MaskOk s) : (checkChunks base m c s).Masks := by
  induction m generalizing c s with
  | zero => exact h
  | succ m ih =>
    exact Ran.Ends.bind (walkerFailure_ends (chunkHeader_masks base c h)) fun d t k =>
      (checkChunk_masks base d k.2).bind fun _ u l => ih _ l

theorem validate_keeps (base : Nat) (x : Word) (s : State) : (validate base x s).Keeps s :=
  (checkMagic_keeps _ s).bind fun _ s => (rd32LE_keeps _ s).bind fun _ s => (checkTotalLength_keeps _ _ s).bind fun _ s =>
    (rd32LE_keeps _ s).bind fun _ s => (checkFormatVersion_keeps _ s).bind fun _ s => (checkGlobalCrc_keeps _ _ s).bind fun _ s =>
    (walkerFailure_keeps (countChunks_keeps _ s)).bind fun _ s => checkChunks_keeps _ _ _ s

theorem validate_masks (base : Nat) (x : Word) {s : State} (h : MaskOk s) : (validate base x s).Masks :=
  (checkMagic_masks _ h).bind fun _ _ h => (rd32LE_masks _ h).bind fun _ _ h => (checkTotalLength_masks _ _ h).bind fun _ _ h =>
    (rd32LE_masks _ h).bind fun _ _ h => (checkFormatVersion_masks _ h).bind fun _ _ h =>
    (checkGlobalCrc_masks _ _ h).bind fun _ _ h =>
    Ran.Ends.bind (walkerFailure_ends (countChunks_masks _ h)) fun _ _ h => checkChunks_masks _ _ _ h

/-! ## The steps, with the image in RAM -/

theorem checkMagic_ram {s : State} {base : Nat} (hs : inRam s) (h : readableRun s base 8) :
    checkMagic base s = if Memory.bytes s.mem base 8 = Config.magic then .ok () s else raise .magicError s := by
  rw [checkMagic, memRead_ram hs h]; rfl

theorem checkGlobalCrc_ram {s : State} {base : Nat} {tl : Word} (hs : inRam s) (h20 : 20 ≤ tl.toNat)
    (hr : readableRun s (base + 20) (tl.toNat - 20)) (hc : readableRun s (base + 16) 4) :
    checkGlobalCrc base tl s =
      if crc32Fn (Memory.bytes s.mem (base + 20) (tl.toNat - 20)) = le32At (Memory.bytes s.mem (base + 16) 4) 0
      then .ok () (s.withEngine .idle) else raise .crc32Error (s.withEngine .idle) := by
  unfold checkGlobalCrc
  rw [if_neg (by unfold Config.crcCalcOffset; omega)]
  rw [show crcOf (globalVersionAddr base) (tl.toNat - Config.crcCalcOffset) s =
    .ok (crc32Fn (Memory.bytes s.mem (base + 20) (tl.toNat - 20))) (s.withEngine .idle) from digestOf_ram hs hr]
  rw [Ran.bind_ok, show rd32LE (globalCrcAddr base) (s.withEngine .idle) = _ from
    rd32LE_ram (s := s.withEngine .idle) hs hc]
  rfl

theorem checkTotalLength_passes {x tl : Word} {s : State} (h : x = 0 ∨ tl.toNat ≤ x.toNat) :
    checkTotalLength x tl s = .ok () s := by
  unfold checkTotalLength
  rw [if_neg]
  rintro ⟨h1, h2⟩
  rcases h with h | h
  · exact h1 h
  · omega

theorem checkTotalLength_raises {x tl : Word} {s : State} (h : ¬ (x = 0 ∨ tl.toNat ≤ x.toNat)) :
    checkTotalLength x tl s = raise .totalLengthError s := by
  unfold checkTotalLength
  rw [if_pos]
  exact ⟨fun k => h (.inl k), Nat.lt_of_not_le fun k => h (.inr k)⟩

theorem checkFormatVersion_passes {fv : Word} {s : State} (h : fv.toNat ≤ 1) : checkFormatVersion fv s = .ok () s := by
  unfold checkFormatVersion
  rw [if_neg]
  unfold Config.maxFmtVersion; omega

theorem checkFormatVersion_raises {fv : Word} {s : State} (h : 1 < fv.toNat) :
    checkFormatVersion fv s = raise .formatVersionError s := by
  unfold checkFormatVersion
  rw [if_pos]
  unfold Config.maxFmtVersion; omega

theorem rdTotalLength_ram {s : State} {base : Nat} (hs : inRam s) (h : readableRun s (base + 12) 4) :
    rd32LE (totalLengthAddr base) s = .ok (le32At (Memory.bytes s.mem (base + 12) 4) 0) s := rd32LE_ram hs h

theorem rdFmtVersion_ram {s : State} {base : Nat} (hs : inRam s) (h : readableRun s (base + 8) 4) :
    rd32LE (fmtVersionAddr base) s = .ok (le32At (Memory.bytes s.mem (base + 8) 4) 0) s := rd32LE_ram hs h

/-- VALID once the magic and the total length have passed. -/
theorem validate_head {s : State} {base : Nat} {x : Word} (hs : inRam s) (h8 : readableRun s base 8)
    (hm : Memory.bytes s.mem base 8 = Config.magic) (h : readableRun s (base + 8) 8)
    (hf : x = 0 ∨ (le32At (Memory.bytes s.mem (base + 12) 4) 0).toNat ≤ x.toNat) :
    validate base x s =
      (checkFormatVersion (le32At (Memory.bytes s.mem (base + 8) 4) 0) s).bind fun _ u =>
      (checkGlobalCrc base (le32At (Memory.bytes s.mem (base + 12) 4) 0) u).bind fun _ s =>
      (walkerFailure (countChunks base s)).bind fun n s =>
      checkChunks base n.toNat 1 s := by
  rw [validate, checkMagic_ram hs h8, if_pos hm, Ran.bind_ok, rdTotalLength_ram hs (readableRun_sub h (by omega) (by omega)),
    Ran.bind_ok, checkTotalLength_passes hf, Ran.bind_ok, rdFmtVersion_ram hs (readableRun_sub h (by omega) (by omega)),
    Ran.bind_ok]

/-- A digest that is present must equal the stored one; one that is not is not computed. -/
theorem checkDigest_cases {α : Type} [DecidableEq α] {present : Bool} {digest : State → Ran α} {stored v : α} {st : Status}
    {s : State} (hd : ∀ e, digest (s.withEngine e) = .ok v (s.withEngine .idle)) (e : Engine) :
    ((present = true → v = stored) →
      ∃ e', checkDigest present digest stored st (s.withEngine e) = .ok () (s.withEngine e')) ∧
    (¬ (present = true → v = stored) →
      ∃ t, checkDigest present digest stored st (s.withEngine e) = .raised st.code t) := by
  unfold checkDigest
  cases present with
  | false => exact ⟨fun _ => ⟨e, rfl⟩, fun h => absurd (fun k => by cases k) h⟩
  | true =>
    simp only [if_true, hd, Ran.bind_ok, forall_const]
    exact ⟨fun h => ⟨.idle, by rw [if_pos h]⟩, fun h => ⟨_, by rw [if_neg h]; rfl⟩⟩

/-! ## What two headers that agree on their flagged fields share -/

/-- Two headers have the same mask, and the same value in every field whose bit is set. -/
structure ChunkHeader.Agree (h d : ChunkHeader) : Prop where
  flag : h.hdrFlag = d.hdrFlag
  version : h.has flagVers = true → h.version = d.version
  size : h.has flagSize = true → h.size = d.size
  data : h.has flagData = true → h.data = d.data
  dest : h.has flagDest = true → h.dest = d.dest
  md5 : h.has flagMd5 = true → h.md5 = d.md5
  sha256 : h.has flagSha2 = true → h.sha256 = d.sha256
  crc32 : h.has flagCr32 = true → h.crc32 = d.crc32
  encm : h.has flagEncm = true → h.encryptionMethod = d.encryptionMethod

/-- A header with one flag more has every other flag as before. -/
theorem has_or {h d : ChunkHeader} {m f : Word} (he : d.hdrFlag = h.hdrFlag ||| f) (hmf : f &&& m = 0) :
    d.has m = h.has m := by
  unfold ChunkHeader.has
  have : d.hdrFlag &&& m = h.hdrFlag &&& m := by
    rw [he]
    apply BitVec.eq_of_getLsbD_eq
    intro i hi
    have := congrArg (fun v : Word => v.getLsbD i) hmf
    simp only [BitVec.getLsbD_and] at this
    have h0 : (0 : Word).getLsbD i = false := by simp
    rw [h0] at this
    simp only [BitVec.getLsbD_and, BitVec.getLsbD_or]
    revert this
    cases h.hdrFlag.getLsbD i <;> cases f.getLsbD i <;> cases m.getLsbD i <;> simp
  rw [this]

theorem applyRecord_agree {h d : ChunkHeader} (r : Record) (a : h.Agree d) : (applyRecord h r).Agree (applyRecord d r) := by
  unfold applyRecord
  have e := a.flag
  split
  · refine ⟨by simp only [e], fun _ => rfl, fun k => a.size ?_, fun k => a.data ?_, fun k => a.dest ?_, fun k => a.md5 ?_,
      fun k => a.sha256 ?_, fun k => a.crc32 ?_, fun k => a.encm ?_⟩ <;> rw [has_or (h := h) rfl (by decide)] at k <;> exact k
  split
  · refine ⟨by simp only [e], fun k => a.version ?_, fun _ => rfl, fun k => a.data ?_, fun k => a.dest ?_, fun k => a.md5 ?_,
      fun k => a.sha256 ?_, fun k => a.crc32 ?_, fun k => a.encm ?_⟩ <;> rw [has_or (h := h) rfl (by decide)] at k <;> exact k
  split
  · refine ⟨by simp only [e], fun k => a.version ?_, fun k => a.size ?_, fun _ => rfl, fun k => a.dest ?_, fun k => a.md5 ?_,
      fun k => a.sha256 ?_, fun k => a.crc32 ?_, fun k => a.encm ?_⟩ <;> rw [has_or (h := h) rfl (by decide)] at k <;> exact k
  split
  · refine ⟨by simp only [e], fun k => a.version ?_, fun k => a.size ?_, fun k => a.data ?_, fun _ => rfl, fun k => a.md5 ?_,
      fun k => a.sha256 ?_, fun k => a.crc32 ?_, fun k => a.encm ?_⟩ <;> rw [has_or (h := h) rfl (by decide)] at k <;> exact k
  split
  · refine ⟨by simp only [e], fun k => a.version ?_, fun k => a.size ?_, fun k => a.data ?_, fun k => a.dest ?_, fun _ => rfl,
      fun k => a.sha256 ?_, fun k => a.crc32 ?_, fun k => a.encm ?_⟩ <;> rw [has_or (h := h) rfl (by decide)] at k <;> exact k
  split
  · refine ⟨by simp only [e], fun k => a.version ?_, fun k => a.size ?_, fun k => a.data ?_, fun k => a.dest ?_,
      fun k => a.md5 ?_, fun _ => rfl, fun k => a.crc32 ?_, fun k => a.encm ?_⟩ <;>
      rw [has_or (h := h) rfl (by decide)] at k <;> exact k
  split
  · refine ⟨by simp only [e], fun k => a.version ?_, fun k => a.size ?_, fun k => a.data ?_, fun k => a.dest ?_,
      fun k => a.md5 ?_, fun k => a.sha256 ?_, fun _ => rfl, fun k => a.encm ?_⟩ <;>
      rw [has_or (h := h) rfl (by decide)] at k <;> exact k
  · refine ⟨by simp only [e], fun k => a.version ?_, fun k => a.size ?_, fun k => a.data ?_, fun k => a.dest ?_,
      fun k => a.md5 ?_, fun k => a.sha256 ?_, fun k => a.crc32 ?_, fun _ => rfl⟩ <;>
      rw [has_or (h := h) rfl (by decide)] at k <;> exact k

theorem groupHeader_agree {h d : ChunkHeader} (rs : List Record) (a : h.Agree d) :
    (groupHeader h rs).Agree (groupHeader d rs) := by
  induction rs generalizing h d with
  | nil => exact a
  | cons r rs ih => exact ih (applyRecord_agree r a)

/-- With no option present any two headers agree. -/
theorem emptyHeader_agree (draw : Nat) : (emptyHeader draw).Agree ChunkHeader.zero := by
  have hn : ∀ m, (emptyHeader draw).has m = false := fun m => by
    show ((0 : Word) &&& m != 0) = false
    rw [show (0 : Word) &&& m = 0 from BitVec.zero_and]; rfl
  refine ⟨rfl, ?_, ?_, ?_, ?_, ?_, ?_, ?_, ?_⟩ <;> intro k <;> rw [hn] at k <;> cases k

theorem Agree_has {h d : ChunkHeader} (a : h.Agree d) (m : Word) : h.has m = d.has m := by
  unfold ChunkHeader.has; rw [a.flag]

theorem Agree_minimal {h d : ChunkHeader} (a : h.Agree d) : h.minimal = d.minimal := by
  unfold ChunkHeader.minimal; rw [a.flag]

/-- A minimally valid header carries each of the five options. -/
theorem minimal_has {h : ChunkHeader} (hm : h.minimal = true) :
    h.has flagVers = true ∧ h.has flagSize = true ∧ h.has flagData = true ∧ h.has flagDest = true ∧
      h.has flagEncm = true := by
  have key : ∀ m i, i < 32 → m.getLsbD i = true → hdrMin.getLsbD i = true → h.has m = true := by
    intro m i _ h1 h2
    simp only [ChunkHeader.minimal, beq_iff_eq] at hm
    have := congrArg (fun v : Word => v.getLsbD i) hm
    simp only [BitVec.getLsbD_and, h2, Bool.and_true] at this
    simp only [ChunkHeader.has, bne_iff_ne, ne_eq]
    intro h0
    have h3 := congrArg (fun v : Word => v.getLsbD i) h0
    simp only [BitVec.getLsbD_and, this, h1, Bool.and_true] at h3
    exact absurd h3 (by simp)
  exact ⟨key _ 0 (by decide) (by decide) (by decide), key _ 1 (by decide) (by decide) (by decide),
    key _ 2 (by decide) (by decide) (by decide), key _ 3 (by decide) (by decide) (by decide),
    key _ 7 (by decide) (by decide) (by decide)⟩

/-- Whether a chunk's digests match is a matter of the fields that its flags cover. -/
theorem digestsMatch_agree {s : State} {base : Nat} {h d : ChunkHeader} (a : h.Agree d) (k : digestsMatch s base h) :
    digestsMatch s base d := by
  intro hd
  have hm := (Agree_minimal a).trans hd
  obtain ⟨-, h2, h3, -, -⟩ := minimal_has hm
  obtain ⟨q1, q2, q3⟩ := k hm
  rw [a.size h2, a.data h3] at q1 q2 q3
  refine ⟨fun q => ?_, fun q => ?_, fun q => ?_⟩
  · rw [← a.crc32 ((Agree_has a _).trans q)]; exact q1 ((Agree_has a _).trans q)
  · rw [← a.md5 ((Agree_has a _).trans q)]; exact q2 ((Agree_has a _).trans q)
  · rw [← a.sha256 ((Agree_has a _).trans q)]; exact q3 ((Agree_has a _).trans q)

/-- At which digest a chunk fails is a matter of the fields that its flags cover. -/
theorem digestFails_agree {s : State} {base : Nat} {h d : ChunkHeader} {st : Status} (a : h.Agree d)
    (k : digestFails s base d st) : digestFails s base h st := by
  have bad : ∀ {α : Type} {m : Word} {v x y : α}, (h.has m = true → x = y) → (h.has m = true ∧ v ≠ x ↔ d.has m = true ∧ v ≠ y) := by
    intro α m v x y e
    rw [← Agree_has a m]
    exact and_congr_right fun q => by rw [e q]
  obtain ⟨hm, k⟩ := k
  have hm' := (Agree_minimal a).trans hm
  obtain ⟨-, h2, h3, -, -⟩ := minimal_has hm'
  refine ⟨hm', ?_⟩
  rw [a.size h2, a.data h3, bad a.crc32, bad a.md5, bad a.sha256]
  exact k

/-- A chunk whose digests do not match fails at one of them. -/
theorem digestFails_of_not_match {s : State} {base : Nat} {h : ChunkHeader} (k : ¬ digestsMatch s base h) :
    ∃ st, st ≠ Status.valid ∧ digestFails s base h st := by
  unfold digestsMatch at k
  unfold digestFails
  have bad : ∀ {p q : Prop}, ¬ (p ∧ ¬ q) → p → q := fun n hp => Classical.byContradiction fun hq => n ⟨hp, hq⟩
  by_cases hm : h.minimal = true
  · by_cases g1 : h.has flagCr32 = true ∧
        crc32Fn (Memory.bytes s.mem (chunkPayloadAddr base h.data) h.size.toNat) ≠ h.crc32
    · exact ⟨.crc32Error, by decide, hm, .inl ⟨g1, rfl⟩⟩
    by_cases g2 : h.has flagMd5 = true ∧ md5Fn (Memory.bytes s.mem (chunkPayloadAddr base h.data) h.size.toNat) ≠ h.md5
    · exact ⟨.md5Error, by decide, hm, .inr (.inl ⟨g1, g2, rfl⟩)⟩
    by_cases g3 : h.has flagSha2 = true ∧
        sha256Fn (Memory.bytes s.mem (chunkPayloadAddr base h.data) h.size.toNat) ≠ h.sha256
    · exact ⟨.sha256Error, by decide, hm, .inr (.inr ⟨g1, g2, g3, rfl⟩)⟩
    · exact absurd (fun _ => ⟨bad g1, bad g2, bad g3⟩) k
  · exact absurd (fun q => absurd q hm) k

/-- Step 5 on a chunk whose payload can be read: it passes when the digests match, and otherwise raises the status of the first
one that does not. -/
theorem checkChunk_cases {s : State} {base : Nat} {h : ChunkHeader} (hs : inRam s) (hp : payloadReadable s base h) :
    (digestsMatch s base h → ∃ e, checkChunk base h s = .ok () (s.withEngine e)) ∧
    (∀ st, digestFails s base h st → ∃ t, checkChunk base h s = .raised st.code t) := by
  unfold digestsMatch payloadReadable digestFails at *
  unfold checkChunk
  cases hm : h.minimal with
  | false => exact ⟨fun _ => ⟨s.engine, rfl⟩, fun _ k => absurd k.1 (by decide)⟩
  | true =>
    have hr := hp hm
    simp only [if_true, forall_const, true_and]
    have e1 : ∀ x, crcOf (chunkPayloadAddr base h.data) h.size.toNat (s.withEngine x) =
        .ok (crc32Fn (Memory.bytes s.mem (chunkPayloadAddr base h.data) h.size.toNat)) (s.withEngine .idle) :=
      fun x => digestOf_ram (s := s.withEngine x) hs hr
    have e2 : ∀ x, md5Of (chunkPayloadAddr base h.data) h.size.toNat (s.withEngine x) =
        .ok (md5Fn (Memory.bytes s.mem (chunkPayloadAddr base h.data) h.size.toNat)) (s.withEngine .idle) :=
      fun x => digestOf_ram (s := s.withEngine x) hs hr
    have e3 : ∀ x, shaOf (chunkPayloadAddr base h.data) h.size.toNat (s.withEngine x) =
        .ok (sha256Fn (Memory.bytes s.mem (chunkPayloadAddr base h.data) h.size.toNat)) (s.withEngine .idle) :=
      fun x => digestOf_ram (s := s.withEngine x) hs hr
    have k1 := checkDigest_cases (present := h.has flagCr32) (stored := h.crc32) (st := .crc32Error) e1 s.engine
    have c2 := checkDigest_cases (present := h.has flagMd5) (stored := h.md5) (st := .md5Error) e2
    have c3 := checkDigest_cases (present := h.has flagSha2) (stored := h.sha256) (st := .sha256Error) e3
    rw [show s.withEngine s.engine = s from rfl] at k1
    constructor
    · rintro ⟨g1, g2, g3⟩
      obtain ⟨x1, q1⟩ := k1.1 g1
      obtain ⟨x2, q2⟩ := (c2 x1).1 g2
      obtain ⟨x3, q3⟩ := (c3 x2).1 g3
      exact ⟨x3, by rw [q1, Ran.bind_ok, q2, Ran.bind_ok, q3]⟩
    · have ok : ∀ {p q : Prop}, ¬ (p ∧ ¬ q) → p → q := fun n hp => Classical.byContradiction fun hq => n ⟨hp, hq⟩
      have no : ∀ {p q : Prop}, p ∧ ¬ q → ¬ (p → q) := fun b k => b.2 (k b.1)
      rintro st (⟨g1, rfl⟩ | ⟨g1, g2, rfl⟩ | ⟨g1, g2, g3, rfl⟩)
      · obtain ⟨t, q1⟩ := k1.2 (no g1)
        exact ⟨t, by rw [q1]; rfl⟩
      · obtain ⟨x1, q1⟩ := k1.1 (ok g1)
        obtain ⟨t, q2⟩ := (c2 x1).2 (no g2)
        exact ⟨t, by rw [q1, Ran.bind_ok, q2]; rfl⟩
      · obtain ⟨x1, q1⟩ := k1.1 (ok g1)
        obtain ⟨x2, q2⟩ := (c2 x1).1 (ok g2)
        obtain ⟨t, q3⟩ := (c3 x2).2 (no g3)
        exact ⟨t, by rw [q1, Ran.bind_ok, q2, Ran.bind_ok, q3]⟩

/-- It passes exactly when the digests match. -/
theorem checkChunk_ram {s : State} {base : Nat} {h : ChunkHeader} (hs : inRam s) (hp : payloadReadable s base h) :
    (digestsMatch s base h → ∃ e, checkChunk base h s = .ok () (s.withEngine e)) ∧
    (¬ digestsMatch s base h → ∃ st t, st ≠ Status.valid ∧ checkChunk base h s = .raised st.code t) := by
  obtain ⟨h1, h2⟩ := checkChunk_cases hs hp
  refine ⟨h1, fun k => ?_⟩
  obtain ⟨st, hv, f⟩ := digestFails_of_not_match k
  obtain ⟨t, e⟩ := h2 st f
  exact ⟨st, t, hv, e⟩

end Sys2Proof.Machine
end

