-- ==== Sys2Proof/Laws/Exec.lean ====
section
/-! SUPPORT. What the operations that write neither PBSR, HALT nor the key schedule leave alone. -/

namespace Sys2Proof.Machine

/-- A part that keeps its fields keeps the framed ones. -/
theorem Ran.Keeps.frame {α : Type} {r : Ran α} {s : State} (h : r.Keeps s) : r.Ends (fun _ t => Frame s t) (Frame s) :=
  h.mono (fun _ _ k => k.toFrame) (fun _ k => k.toFrame)

/-- The framed fields along a part after another. -/
theorem Ran.Ends.frame_bind {α β : Type} {x : Ran α} {f : α → State → Ran β} {s : State}
    (hx : x.Ends (fun _ t => Frame s t) (Frame s)) (hf : ∀ a t, (f a t).Ends (fun _ u => Frame t u) (Frame t)) :
    (x.bind f).Ends (fun _ t => Frame s t) (Frame s) :=
  hx.bind fun a t h => (hf a t).mono (fun _ _ k => h.trans k) (fun _ k => h.trans k)

/-- Every operation keeps PBSR, P, S, BF_READY, HALT, MEM, ARG, the parameters and the inputs, but for those that write PBSR,
those that run the key schedule, and ERRSTATE. -/
theorem exec_frame {i : Instr} {s t : State} (hf : writesFlags i = false) (hb : writesBootcount i = false)
    (hk : runsKeySchedule i = false) (he : i ≠ .errstate) (h : exec i s = .next t) : Frame s t := by
  cases i <;> first
    | exact absurd hf.symm Bool.false_ne_true
    | exact absurd hb.symm Bool.false_ne_true
    | exact absurd hk.symm Bool.false_ne_true
    | exact absurd rfl he
    | (clear hf hb hk he; simp only [exec] at h)
  case magic b => exact operation_frame_bind h (checkMagic_keeps _ _) fun _ u => Frame.returnedCommand u
  case valid b m => exact operation_frame_bind h (validate_keeps _ _ _) fun _ u => Frame.returnedCommand u
  case globver b =>
    refine operation_frame h ?_
    exact (rd32LE_keeps _ _).frame.frame_bind fun _ _ => (rd32LE_keeps _ _).frame.frame_bind fun _ _ =>
      (rd32LE_keeps _ _).frame.frame_bind fun _ _ => (rd32LE_keeps _ _).frame.frame_bind fun _ _ =>
      ⟨rfl, rfl, rfl, rfl, rfl, rfl, rfl, rfl⟩
  case chnknum b => exact operation_frame_bind h (countChunks_keeps _ _) fun n u => returnCount_frame n u
  case chnkhdrN b k => exact operation_frame_bind h (chunkHeader_keeps _ _ _) fun n u => returnHeader_frame n u
  case chnkhdrD b k =>
    refine operation_frame h ?_
    exact (countChunks_keeps _ _).frame.frame_bind fun _ _ => (findByName_keeps _ _ _ _ _).frame.frame_bind fun _ _ =>
      ⟨rfl, rfl, rfl, rfl, rfl, rfl, rfl, rfl⟩
  case fwupUsbUpdateReq => exact absurd h (by simp [execFwupUsbUpdateReq, operation_eq_next])
  case fwupMtdparts => exact absurd h (by simp [execFwupMtdparts, operation_eq_next])
  case flagRd j =>
    refine operation_frame h ?_
    dsimp only
    split
    · trivial
    · exact ⟨rfl, rfl, rfl, rfl, rfl, rfl, rfl, rfl⟩
  case bfEnc | bfDec =>
    refine operation_frame h ?_
    unfold blockOp
    split
    · exact ⟨rfl, rfl, rfl, rfl, rfl, rfl, rfl, rfl⟩
    · trivial
  case crc32 | md5 | sha256 =>
    refine operation_frame h (onRam_ends fun _ => ?_)
    exact (digestOf_keeps _ _ _ _ _).frame.frame_bind fun _ _ => ⟨rfl, rfl, rfl, rfl, rfl, rfl, rfl, rfl⟩
  case chnk => exact operation_frame h (recordChnk_keeps _ _).frame
  case goptOther => exact operation_frame h (recordGoptOther_keeps _ _).frame
  case versOpt => exact operation_frame h (recordVers_keeps _ _).frame
  case sizeOpt => exact operation_frame h (recordSize_keeps _ _).frame
  case dataOpt => exact operation_frame h (recordData_keeps _ _).frame
  case destOpt => exact operation_frame h (recordDest_keeps _ _).frame
  case md5Opt => exact operation_frame h (recordMd5_keeps _ _).frame
  case sha2Opt => exact operation_frame h (recordSha2_keeps _ _).frame
  case cr32Opt => exact operation_frame h (recordCr32_keeps _ _).frame
  case encmOpt => exact operation_frame h (recordEncm_keeps _ _).frame
  case coptOther => exact operation_frame h (recordCoptOther_keeps _ _).frame
  all_goals
    refine operation_frame h ?_
    exact ⟨rfl, rfl, rfl, rfl, rfl, rfl, rfl, rfl⟩

end Sys2Proof.Machine
end

