-- ==== Sys2Proof/Laws/PerInstr.lean ====
section
/-! SUPPORT. Families of lemmas with one lemma per instruction, about the instruction as syntax. -/

namespace Sys2Proof.Laws.Spelled

open Sys2Proof.Machine

/-- An instruction is spelled at its level: a host operation as a command with nothing in the third latch (30_encoding R81), a
record as the eight bytes of an id and a length (30_encoding R86). -/
def Statement (i : Instr) : Prop :=
  match encode i with
  | .command c => isRecord i = false ∧ c.args.a2 = .num 0
  | .record _ bytes => isRecord i = true ∧ bytes.length = 8

theorem magic (base : Nat) : Statement (.magic base) := ⟨rfl, rfl⟩
theorem valid (base : Nat) (maxSize : Word) : Statement (.valid base maxSize) := ⟨rfl, rfl⟩
theorem globver (base : Nat) : Statement (.globver base) := ⟨rfl, rfl⟩
theorem chnknum (base : Nat) : Statement (.chnknum base) := ⟨rfl, rfl⟩
theorem chnkhdrD (base : Nat) (name : List Byte) : Statement (.chnkhdrD base name) := ⟨rfl, rfl⟩
theorem decrypt (addr : Nat) (len : Word) : Statement (.decrypt addr len) := ⟨rfl, rfl⟩
theorem errstate : Statement .errstate := ⟨rfl, rfl⟩
theorem chnkhdrN (base : Nat) (k : Word) : Statement (.chnkhdrN base k) := ⟨rfl, rfl⟩
theorem fwupClearUpdate : Statement .fwupClearUpdate := ⟨rfl, rfl⟩
theorem fwupClearFail : Statement .fwupClearFail := ⟨rfl, rfl⟩
theorem fwupSetUpdate : Statement .fwupSetUpdate := ⟨rfl, rfl⟩
theorem fwupSetFail : Statement .fwupSetFail := ⟨rfl, rfl⟩
theorem fwupFlags : Statement .fwupFlags := ⟨rfl, rfl⟩
theorem fwupUpdate : Statement .fwupUpdate := ⟨rfl, rfl⟩
theorem fwupFail : Statement .fwupFail := ⟨rfl, rfl⟩
theorem fwupUsbUpdateReq : Statement .fwupUsbUpdateReq := ⟨rfl, rfl⟩
theorem fwupIncbootcnt : Statement .fwupIncbootcnt := ⟨rfl, rfl⟩
theorem fwupBootcnt : Statement .fwupBootcnt := ⟨rfl, rfl⟩
theorem fwupMtdparts : Statement .fwupMtdparts := ⟨rfl, rfl⟩
theorem flagWr (index bit : Word) : Statement (.flagWr index bit) := ⟨rfl, rfl⟩
theorem flagRd (index : Word) : Statement (.flagRd index) := ⟨rfl, rfl⟩
theorem flagsClr : Statement .flagsClr := ⟨rfl, rfl⟩
theorem bcntWr (n : Word) : Statement (.bcntWr n) := ⟨rfl, rfl⟩
theorem bcntRd : Statement .bcntRd := ⟨rfl, rfl⟩
theorem bfInit (key : List Byte) : Statement (.bfInit key) := ⟨rfl, rfl⟩
theorem bfEnc (xl xr : Word) : Statement (.bfEnc xl xr) := ⟨rfl, rfl⟩
theorem bfDec (xl xr : Word) : Statement (.bfDec xl xr) := ⟨rfl, rfl⟩
theorem crc32 (addr : Nat) (len : Word) : Statement (.crc32 addr len) := ⟨rfl, rfl⟩
theorem md5 (addr : Nat) (len : Word) : Statement (.md5 addr len) := ⟨rfl, rfl⟩
theorem sha256 (addr : Nat) (len : Word) : Statement (.sha256 addr len) := ⟨rfl, rfl⟩
theorem chnk (length : Word) : Statement (.chnk length) := ⟨rfl, rfl⟩
theorem goptOther (id length : Word) : Statement (.goptOther id length) := ⟨rfl, rfl⟩
theorem versOpt (length : Word) : Statement (.versOpt length) := ⟨rfl, rfl⟩
theorem sizeOpt (length : Word) : Statement (.sizeOpt length) := ⟨rfl, rfl⟩
theorem dataOpt (length : Word) : Statement (.dataOpt length) := ⟨rfl, rfl⟩
theorem destOpt (length : Word) : Statement (.destOpt length) := ⟨rfl, rfl⟩
theorem md5Opt (length : Word) : Statement (.md5Opt length) := ⟨rfl, rfl⟩
theorem sha2Opt (length : Word) : Statement (.sha2Opt length) := ⟨rfl, rfl⟩
theorem cr32Opt (length : Word) : Statement (.cr32Opt length) := ⟨rfl, rfl⟩
theorem encmOpt (length : Word) : Statement (.encmOpt length) := ⟨rfl, rfl⟩
theorem coptOther (id length : Word) : Statement (.coptOther id length) := ⟨rfl, rfl⟩

end Sys2Proof.Laws.Spelled
end

