-- ==== Sys2Proof/Laws/Status.lean ====
section
/-! SUPPORT. The status codes: their numbers, and that a part of an operation raises only the codes that have a name. VALID alone
can end with another, when the walker fails in its fifth step (41_validator R148). -/

namespace Sys2Proof.Machine

set_option Elab.async false

/-! ## The numbers -/

/-- Every code but that of `Valid` is negative (60_exceptions R241). -/
theorem Status.code_neg {st : Status} (h : st ≠ .valid) : st.code.toInt < 0 := by
  cases st <;> first | exact absurd rfl h | decide

/-- Different names have different codes. -/
theorem Status.code_inj {a b : Status} (h : a.code = b.code) : a = b := by
  cases a <;> cases b <;> first | rfl | exact absurd h (by decide)

/-! ## What a part can raise -/

/-- The code is that of a named failure. -/
def named (c : Word) : Prop := ∃ st : Status, st ≠ .valid ∧ c = st.code

/-- If the part raises a status, it is a named failure. -/
def Ran.Named {α : Type} (r : Ran α) : Prop := ∀ c s, r = .raised c s → named c

theorem ok_named {α : Type} (a : α) (s : State) : (Ran.ok a s).Named := fun _ _ h => by cases h
theorem fault_named {α : Type} (f : Fault) : (Ran.fault f : Ran α).Named := fun _ _ h => by cases h
theorem refused_named {α : Type} (r : Refusal) : (Ran.refused r : Ran α).Named := fun _ _ h => by cases h

theorem raise_named {α : Type} (st : Status) (s : State) (hst : st ≠ .valid := by decide) : (raise st s : Ran α).Named :=
  fun _ _ h => by cases h; exact ⟨st, hst, rfl⟩

theorem Ran.Named.bind {α β : Type} {x : Ran α} {f : α → State → Ran β} (hx : x.Named) (hf : ∀ a s, (f a s).Named) :
    (x.bind f).Named := fun c s h => by
  rcases Ran.bind_eq_raised.mp h with k | ⟨a, u, -, k⟩
  · exact hx c s k
  · exact hf a u c s k

/-- A part whose success is only a return. -/
theorem Ran.Named.ret {α β : Type} {x : Ran α} (hx : x.Named) (g : α → State → β) (u : α → State → State) :
    (x.bind fun a s => .ok (g a s) (u a s)).Named := hx.bind fun _ _ => ok_named _ _

theorem memRead_named (a n : Nat) (s : State) : (memRead a n s).Named := by
  rcases memRead_cases a n s with ⟨t, h, -⟩ | h | h <;> rw [h]
  · exact ok_named _ _
  · exact raise_named .fileIOError _
  · exact fault_named _

theorem rd32LE_named (a : Nat) (s : State) : (rd32LE a s).Named := (memRead_named a 4 s).ret _ _
theorem rd32BE_named (a : Nat) (s : State) : (rd32BE a s).Named := (memRead_named a 4 s).ret _ _

theorem memWrite_named (a : Nat) (b : List Byte) (s : State) : (memWrite a b s).Named := by
  rcases memWrite_cases a b s with ⟨h, -⟩ | h <;> rw [h]
  · exact ok_named _ _
  · exact fault_named _

/-! ## The walker -/

theorem onWalk_named {α : Type} {s : State} {f : Walk → State → Ran α} (h : ∀ w, (f w s).Named) : (onWalk f s).Named := by
  unfold onWalk
  cases s.walk
  · exact refused_named _
  · exact h _

theorem readField_named (p size : Nat) (length : Word) (s : State) : (readField p size length s).Named :=
  (memRead_named p size s).bind fun _ _ => by
    split
    · exact ok_named _ _
    · exact ok_named _ _

theorem readWordField_named (p : Nat) (length : Word) (s : State) : (readWordField p length s).Named :=
  (readField_named p 4 length s).ret _ _
theorem readVersionField_named (p : Nat) (length : Word) (s : State) : (readVersionField p length s).Named :=
  (readField_named p 16 length s).ret _ _
theorem readBytesField_named (n p : Nat) (length : Word) (s : State) : (readBytesField n p length s).Named :=
  (readField_named p n length s).ret _ _

theorem globalRecord_named {length : Word} {search : Walk → State → Ran Unit} (h : ∀ w s, (search w s).Named) (s : State) :
    (globalRecord length search s).Named :=
  onWalk_named fun w => by
    cases w.phase
    · exact h w s
    · exact ok_named _ _
    · exact refused_named _

theorem chunkRecord_named {length : Word} {rule : Nat → ChunkHeader → State → Ran ChunkHeader}
    (h : ∀ p d s, (rule p d s).Named) (s : State) : (chunkRecord length rule s).Named :=
  onWalk_named fun w => by
    cases w.phase
    · exact refused_named _
    · exact refused_named _
    · simp only
      split
      · split
        · exact raise_named _ _
        · exact (h _ _ s).bind fun _ _ => ok_named _ _
      · exact ok_named _ _

/-- The rule of a field record raises what its read raises. -/
theorem fieldRule_named {α : Type} {read : State → Ran α} {s : State} (hr : (read s).Named) (f : α → ChunkHeader) :
    ((read s).bind fun v t => Ran.ok (f v) t).Named := hr.bind fun _ _ => ok_named _ _

theorem recordChnk_named (length : Word) (s : State) : (recordChnk length s).Named :=
  globalRecord_named (fun _ _ => (readWordField_named _ _ _).bind fun _ _ => ok_named _ _) s

theorem recordGoptOther_named (length : Word) (s : State) : (recordGoptOther length s).Named :=
  globalRecord_named (fun _ _ => ok_named _ _) s

theorem recordVers_named (length : Word) (s : State) : (recordVers length s).Named :=
  chunkRecord_named (fun _ _ t => fieldRule_named (read := readVersionField _ length) (readVersionField_named _ _ t) _) s

theorem recordSize_named (length : Word) (s : State) : (recordSize length s).Named :=
  chunkRecord_named (fun _ _ t => fieldRule_named (read := readWordField _ length) (readWordField_named _ _ t) _) s

theorem recordData_named (length : Word) (s : State) : (recordData length s).Named :=
  chunkRecord_named (fun _ _ t => fieldRule_named (read := readWordField _ length) (readWordField_named _ _ t) _) s

theorem recordDest_named (length : Word) (s : State) : (recordDest length s).Named :=
  chunkRecord_named (fun _ _ t => fieldRule_named (read := readBytesField 32 _ length) (readBytesField_named _ _ _ t) _) s

theorem recordMd5_named (length : Word) (s : State) : (recordMd5 length s).Named :=
  chunkRecord_named (fun _ _ t => fieldRule_named (read := readBytesField 16 _ length) (readBytesField_named _ _ _ t) _) s

theorem recordSha2_named (length : Word) (s : State) : (recordSha2 length s).Named :=
  chunkRecord_named (fun _ _ t => fieldRule_named (read := readBytesField 32 _ length) (readBytesField_named _ _ _ t) _) s

theorem recordCr32_named (length : Word) (s : State) : (recordCr32 length s).Named :=
  chunkRecord_named (fun _ _ t => fieldRule_named (read := readWordField _ length) (readWordField_named _ _ t) _) s

theorem recordEncm_named (length : Word) (s : State) : (recordEncm length s).Named :=
  chunkRecord_named (fun _ _ t => fieldRule_named (read := readWordField _ length) (readWordField_named _ _ t) _) s

theorem recordCoptOther_named (length : Word) (s : State) : (recordCoptOther length s).Named :=
  chunkRecord_named (fun _ _ t => raise_named _ t) s

theorem runRecord_named (i : Instr) (s : State) : (runRecord i s).Named := by
  cases i with
  | chnk l => exact recordChnk_named l s
  | goptOther _ l => exact recordGoptOther_named l s
  | versOpt l => exact recordVers_named l s
  | sizeOpt l => exact recordSize_named l s
  | dataOpt l => exact recordData_named l s
  | destOpt l => exact recordDest_named l s
  | md5Opt l => exact recordMd5_named l s
  | sha2Opt l => exact recordSha2_named l s
  | cr32Opt l => exact recordCr32_named l s
  | encmOpt l => exact recordEncm_named l s
  | coptOther _ l => exact recordCoptOther_named l s
  | _ => exact refused_named _

theorem fetchInstr_named (w : Walk) (s : State) : (fetchInstr w s).Named :=
  ((memRead_named _ _ s).bind fun _ _ => (memRead_named _ _ _).ret _ _).bind fun b _ => by
    cases decodeRecord w.table b
    · exact refused_named _
    · exact ok_named _ _

theorem recordTurn_named (s : State) : (recordTurn s).Named :=
  onWalk_named fun w => by
    cases w.phase
    · exact (fetchInstr_named w s).bind fun i t => runRecord_named i t
    · exact (rd32LE_named _ s).bind fun _ _ => ok_named _ _
    · exact (fetchInstr_named w s).bind fun i t => runRecord_named i t

theorem runRecords_named (m : Nat) (s : State) : (runRecords m s).Named := by
  induction m generalizing s with
  | zero => exact ok_named _ _
  | succ m ih =>
    refine onWalk_named fun w => ?_
    split
    · exact ok_named _ _
    · exact (recordTurn_named s).bind fun _ t => ih t

theorem runLoop_named (s : State) : (runLoop s).Named := onWalk_named fun _ => runRecords_named _ s

theorem startWalk_named (job : Job) (base k : Nat) (s : State) : (startWalk job base k s).Named := (rd32LE_named _ s).ret _ _

theorem foundCount_named (s : State) : (foundCount s).Named :=
  onWalk_named fun w => by
    cases w.found
    · exact raise_named _ s
    · exact ok_named _ _

theorem beginSkip_named (s : State) : (beginSkip s).Named :=
  (foundCount_named s).bind fun n t => onWalk_named fun w => by
    split
    · exact raise_named _ t
    · exact (rd32LE_named _ t).ret _ _

theorem beginGroups_named (s : State) : (beginGroups s).Named := onWalk_named fun _ => ok_named _ _

theorem takeHeader_named (s : State) : (takeHeader s).Named := onWalk_named fun _ => ok_named _ _

theorem enterGroup_named (s : State) : (enterGroup s).Named := onWalk_named fun _ => (rd32LE_named _ s).ret _ _

theorem runGroups_named (m : Nat) (s : State) : (runGroups m s).Named := by
  induction m generalizing s with
  | zero => exact ok_named _ _
  | succ m ih => exact (enterGroup_named s).bind fun _ t => (runLoop_named t).bind fun _ u => ih u

theorem countChunks_named (base : Nat) (s : State) : (countChunks base s).Named :=
  (startWalk_named _ _ _ s).bind fun _ t => (runLoop_named t).bind fun _ u => (foundCount_named u).ret _ _

theorem chunkHeader_named (base k : Nat) (s : State) : (chunkHeader base k s).Named :=
  (startWalk_named _ _ _ s).bind fun _ s => (runLoop_named s).bind fun _ s => (beginSkip_named s).bind fun _ s =>
    (runLoop_named s).bind fun _ s => (beginGroups_named s).bind fun _ s => (runGroups_named k s).bind fun _ s =>
    takeHeader_named s

theorem findByName_named (base : Nat) (name : List Byte) (m c : Nat) (s : State) : (findByName base name m c s).Named := by
  induction m generalizing c s with
  | zero => exact raise_named _ s
  | succ m ih =>
    refine (chunkHeader_named base c s).bind fun h t => ?_
    split
    · simp only
      split
      · exact ok_named _ _
      · exact ih _ _
    · exact ih _ _

/-! ## The other units -/

theorem checkMagic_named (base : Nat) (s : State) : (checkMagic base s).Named :=
  (memRead_named base 8 s).bind fun _ t => by
    split
    · exact ok_named _ _
    · exact raise_named _ t

theorem digestOf_named {α : Type} (load : List Byte → Engine) (result : Engine → α) (a n : Nat) (s : State) :
    (digestOf load result a n s).Named := (memRead_named a n s).ret _ _

theorem onRam_named {body : State → Ran Unit} {s : State} (h : (body s).Named) : (onRam body s).Named := by
  unfold onRam
  cases s.cfg.store
  · exact h
  · exact refused_named _

theorem bfInit_named (key : List Byte) (s : State) : (bfInit key s).Named := by
  unfold bfInit
  split
  · exact ok_named _ _
  · exact refused_named _

theorem readBlockWord_named (a : Nat) (s : State) : (readBlockWord a s).Named := by
  unfold readBlockWord
  cases s.cfg.blockOrder
  · exact rd32BE_named _ _
  · exact rd32LE_named _ _

theorem decryptBlocks_named (n a : Nat) (s : State) : (decryptBlocks n a s).Named := by
  induction n generalizing a s with
  | zero => exact ok_named _ _
  | succ n ih =>
    exact ((readBlockWord_named _ _).bind fun _ _ => (readBlockWord_named _ _).bind fun _ _ =>
      (memWrite_named _ _ _).bind fun _ _ => memWrite_named _ _ _).bind fun _ t => ih _ t

theorem decryptBuffer_named (addr len : Nat) (s : State) : (decryptBuffer addr len s).Named :=
  (bfInit_named _ s).bind fun _ _ => (decryptBlocks_named _ _ _).bind fun _ _ => (rd32BE_named _ _).bind fun _ t => by
    split
    · exact ok_named _ _
    · exact raise_named _ t

/-! ## An operation -/

/-- An operation whose body raises only named failures, and sets STATUS to 0 when it succeeds, ends with 0 or a named failure. -/
theorem operation_named {body : State → Ran Unit} {s t : State} (h : operation body s = .next t) (hb : (body s).Named)
    (hok : body s = .ok () t → t.status = 0) : t.status = 0 ∨ named t.status := by
  rcases (operation_eq_next.mp h).2 with k | ⟨c, u, k, rfl⟩
  · exact .inl (hok k)
  · exact .inr (hb c u k)

/-- The same of an operation that is a part and then a return. -/
theorem operation_named_bind {α : Type} {part : State → Ran α} {ret : α → State → State} {s t : State}
    (h : operation (fun s => (part s).bind fun a u => .ok () (ret a u)) s = .next t) (hp : (part s).Named)
    (hr : ∀ a u, (ret a u).status = 0) : t.status = 0 ∨ named t.status :=
  operation_named h (hp.ret _ _) fun k => by
    obtain ⟨a, u, -, e⟩ := Ran.bind_eq_ok.mp k
    cases e
    exact hr a u

end Sys2Proof.Machine
end

