-- ==== Sys2Proof/Laws/Step.lean ====
section
/-! SUPPORT. The step: what it does with a walk under way, and all that a reset during an operation can give. -/

namespace Sys2Proof.Machine

/-- With a walk under way and no reset next, the walk takes its turn. -/
theorem step_walk {s : State} {w : Walk} (hw : s.walk = some w) (h : ∀ kind rest, s.inputs ≠ .reset kind :: rest) :
    step s = walkTurn w s := by
  have e : step s = walkStep w s := by unfold step; rw [hw]
  rw [e, walkStep]
  split
  · exact absurd ‹_› (h _ _)
  · rfl

/-- A reset strikes whatever is under way. -/
theorem step_reset {s : State} {kind : ResetKind} {rest : List Input} (h : s.inputs = .reset kind :: rest) :
    step s = .next ((s.withInputs rest).afterReset kind) := by
  unfold step walkStep
  rw [h]
  cases s.walk <;> rfl

/-- With no walk under way the next action of the outside happens. -/
theorem step_input {s : State} {i : Input} {rest : List Input} (hw : s.walk = none) (h : s.inputs = i :: rest) :
    step s = act i (s.withInputs rest) := by
  unfold step; rw [hw, h]

/-- With none the block is idle. -/
theorem step_idle {s : State} (hw : s.walk = none) (h : s.inputs = []) : step s = .next s := by
  unfold step; rw [hw, h]

/-- No reset is next once the resets in front are dropped. -/
theorem dropResets_head (l : List Input) (kind : ResetKind) (rest : List Input) :
    l.dropWhile Input.isReset ≠ .reset kind :: rest := by
  induction l with
  | nil => simp
  | cons i l ih =>
    rw [List.dropWhile_cons]
    split
    · exact ih
    · rintro h
      obtain ⟨rfl, -⟩ := List.cons.inj h
      exact absurd rfl ‹_›

/-- A reset during an operation that answers next has reset the state before it, PBSR being the old value or the one that the
operation would have written. -/
theorem resetDuring_cases {kind : ResetKind} {c : Command} {s t : State} (h : resetDuring kind c s = .next t) :
    ∃ v u, t = (u : State).afterReset kind ∧ u.pbsr = v ∧ u.cfg = s.cfg ∧ u.inputs = s.inputs ∧
      (v = s.pbsr ∨ ∃ r, issue c s = .next r ∧ v = r.pbsr) := by
  unfold resetDuring at h
  split at h
  · next r hr =>
    obtain rfl := Host.Outcome.next.inj h
    refine ⟨_, _, rfl, rfl, rfl, rfl, ?_⟩
    simp only [State.withPbsr_pbsr, cutPbsr]
    split
    · exact .inr ⟨r, hr, rfl⟩
    · exact .inl rfl
  · obtain rfl := Host.Outcome.next.inj h
    exact ⟨_, s, rfl, rfl, rfl, rfl, .inl rfl⟩
  · split at h
    · obtain rfl := Host.Outcome.next.inj h
      exact ⟨_, s, rfl, rfl, rfl, rfl, .inl rfl⟩
    · cases h

end Sys2Proof.Machine
end

