-- ==== Sys2Proof/Tests/Slice0.lean ====
section
/-! SUPPORT. Our own tests: what WellFormed refuses, the words of every instruction, single steps with results from 95_test_vectors
and the rules' examples, and a witness for the hypotheses of every obligation. -/

namespace Sys2Proof.Tests

set_option Elab.async false

open Sys2Proof Sys2Proof.Machine

/-! ## The states the tests start from -/

/-- The 172-byte image P1 of 95_test_vectors. -/
def imageP1 : List Byte :=
  [0x53, 0x38, 0x30, 0x30, 0x5F, 0x55, 0x50, 0x44, 0x01, 0x00, 0x00, 0x00, 0xAC, 0x00, 0x00, 0x00,
   0xF4, 0x3E, 0x8D, 0x22, 0x02, 0x00, 0x00, 0x00, 0x05, 0x00, 0x00, 0x00, 0x11, 0x00, 0x00, 0x00,
   0xEE, 0xFF, 0xC0, 0x00, 0x01, 0x00, 0x00, 0x00, 0x43, 0x48, 0x4E, 0x4B, 0x04, 0x00, 0x00, 0x00,
   0x01, 0x00, 0x00, 0x00, 0x05, 0x00, 0x00, 0x00, 0x76, 0x65, 0x72, 0x73, 0x10, 0x00, 0x00, 0x00,
   0x01, 0x00, 0x00, 0x00, 0x00, 0x00, 0x00, 0x00, 0x00, 0x00, 0x00, 0x00, 0xBC, 0x0A, 0x00, 0x00,
   0x73, 0x69, 0x7A, 0x65, 0x04, 0x00, 0x00, 0x00, 0x10, 0x00, 0x00, 0x00, 0x64, 0x61, 0x74, 0x61,
   0x04, 0x00, 0x00, 0x00, 0x9C, 0x00, 0x00, 0x00, 0x64, 0x65, 0x73, 0x74, 0x20, 0x00, 0x00, 0x00,
   0x72, 0x6F, 0x6F, 0x74, 0x66, 0x73, 0x00, 0x00, 0x00, 0x00, 0x00, 0x00, 0x00, 0x00, 0x00, 0x00,
   0x00, 0x00, 0x00, 0x00, 0x00, 0x00, 0x00, 0x00, 0x00, 0x00, 0x00, 0x00, 0x00, 0x00, 0x00, 0x00,
   0x65, 0x6E, 0x63, 0x6D, 0x04, 0x00, 0x00, 0x00, 0x00, 0x00, 0x00, 0x00, 0x00, 0x01, 0x02, 0x03,
   0x04, 0x05, 0x06, 0x07, 0x08, 0x09, 0x0A, 0x0B, 0x0C, 0x0D, 0x0E, 0x0F]

/-- Bytes from address 0 on, in the canonical form of MEM. -/
def placed (b : List Byte) : Memory := (b.zipIdx.filter fun x => x.1 != 0).map fun x => (x.2, x.1)

/-- P1 at address 0 of the reset machine. -/
def onP1 : State := { State.reset with mem := placed imageP1 }

/-- P1 with bytes overwritten from an address. -/
def onP1With (a : Nat) (b : List Byte) : State := { onP1 with mem := Memory.writes onP1.mem a b }

/-- The 40-byte image VW1 of 95_test_vectors, with no global option, at address 0. -/
def onVW1 : State :=
  { State.reset with
    mem := placed
      [0x53, 0x38, 0x30, 0x30, 0x5F, 0x55, 0x50, 0x44, 0x01, 0x00, 0x00, 0x00, 0x28, 0x00, 0x00, 0x00,
       0x8D, 0x9B, 0xD5, 0x0F, 0x00, 0x00, 0x00, 0x00, 0x00, 0x00, 0x00, 0x00, 0x00, 0x00, 0x00, 0x00,
       0x00, 0x00, 0x00, 0x00, 0x00, 0x00, 0x00, 0x00] }

/-- The 52-byte image VW2 of 95_test_vectors, with a chunk count of 0, at address 0, and another total length and CRC-32. -/
def onVW2 (totalLength crc : Word) : State :=
  { State.reset with
    mem := Memory.writes (placed
      [0x53, 0x38, 0x30, 0x30, 0x5F, 0x55, 0x50, 0x44, 0x01, 0x00, 0x00, 0x00, 0x34, 0x00, 0x00, 0x00,
       0xA5, 0xFD, 0xEA, 0xC4, 0x00, 0x00, 0x00, 0x00, 0x00, 0x00, 0x00, 0x00, 0x00, 0x00, 0x00, 0x00,
       0x00, 0x00, 0x00, 0x00, 0x01, 0x00, 0x00, 0x00, 0x43, 0x48, 0x4E, 0x4B, 0x04, 0x00, 0x00, 0x00,
       0x00, 0x00, 0x00, 0x00]) 12 (le32 totalLength ++ le32 crc) }

/-- The reset machine with a value in PBSR. -/
def withPbsr (v : Word) : State := { State.reset with pbsr := v }

/-- The reset machine with inputs to come. -/
def withInputs (l : List Input) : State := { State.reset with inputs := l }

/-- The machine on P1 in the middle of a walk: at an address, in a loop, with the group at hand and the target. -/
def walking (phase : Phase) (cur c k : Nat) : State :=
  { onP1 with walk := some ⟨.header, phase, 0, cur, 0, 5, c, k, none, ChunkHeader.zero⟩ }

/-- The outcome is a next state that passes a test. -/
def ends (o : Host.Outcome State Fault Refusal) (p : State → Bool) : Bool :=
  match o with
  | .next t => p t
  | .fault _ => false
  | .refused _ => false

/-- The outcome is this refusal. -/
def refuses (o : Host.Outcome State Fault Refusal) (r : Refusal) : Bool :=
  match o with
  | .next _ => false
  | .fault _ => false
  | .refused q => q == r

/-- The outcome is this fault. -/
def faults (o : Host.Outcome State Fault Refusal) (r : Fault) : Bool :=
  match o with
  | .next _ => false
  | .fault q => q == r
  | .refused _ => false

/-- The walk under way after a record passes a test. -/
def walks (o : Host.Outcome State Fault Refusal) (p : Walk → Bool) : Bool :=
  ends o fun t => match t.walk with
    | some w => p w
    | none => false

/-- An outcome that is a next state completes. -/
theorem completes_of_ends {o : Host.Outcome State Fault Refusal} {p : State → Bool} (h : ends o p = true) :
    ∃ t, o = .next t ∧ p t = true := by
  cases o with
  | next t => exact ⟨t, rfl, h⟩
  | fault r => cases h
  | refused r => cases h

theorem test_placed_wf : Memory.wf 32 onP1.mem := by unfold Memory.wf; decide +kernel

/-! ## WellFormed refuses -/

theorem test_illformed_empty_name : (Instr.chnkhdrD 0 []).wellFormed = false := by decide

theorem test_illformed_zero_in_name : (Instr.chnkhdrD 0 [0x61, 0]).wellFormed = false := by decide

theorem test_illformed_name_of_33 : (Instr.chnkhdrD 0 (List.replicate 33 0x61)).wellFormed = false := by decide

theorem test_illformed_decrypt_length_0 : (Instr.decrypt 0 0).wellFormed = false := by decide

theorem test_illformed_decrypt_length_12 : (Instr.decrypt 0 12).wellFormed = false := by decide

theorem test_illformed_flag_write_index_8 : (Instr.flagWr 8 0).wellFormed = false := by decide

theorem test_illformed_flag_write_bit_2 : (Instr.flagWr 0 2).wellFormed = false := by decide

theorem test_illformed_flag_read_index_8 : (Instr.flagRd 8).wellFormed = false := by decide

theorem test_illformed_bootcount_256 : (Instr.bcntWr 256).wellFormed = false := by decide

theorem test_illformed_empty_key : (Instr.bfInit []).wellFormed = false := by decide

theorem test_illformed_key_of_57 : (Instr.bfInit (List.replicate 57 1)).wellFormed = false := by decide

theorem test_illformed_chnk_as_other : (Instr.goptOther 0x4B4E4843 4).wellFormed = false := by decide

theorem test_illformed_vers_as_other : (Instr.coptOther 0x73726576 4).wellFormed = false := by decide

theorem test_illformed_size_as_other : (Instr.coptOther 0x657A6973 4).wellFormed = false := by decide

theorem test_illformed_data_as_other : (Instr.coptOther 0x61746164 4).wellFormed = false := by decide

theorem test_illformed_dest_as_other : (Instr.coptOther 0x74736564 4).wellFormed = false := by decide

theorem test_illformed_md5_as_other : (Instr.coptOther 0x5F35646D 4).wellFormed = false := by decide

theorem test_illformed_sha2_as_other : (Instr.coptOther 0x32616873 4).wellFormed = false := by decide

theorem test_illformed_cr32_as_other : (Instr.coptOther 0x32337263 4).wellFormed = false := by decide

theorem test_illformed_encm_as_other : (Instr.coptOther 0x6D636E65 4).wellFormed = false := by decide

/-! ## Every constructor from a word written out from 30_encoding R83, R90, R91 -/

theorem test_decode_magic : decode (.command ⟨0x01, ⟨.addr 0x100, .num 0, .num 0⟩⟩) = .ok (.magic 0x100) := by rfl

theorem test_decode_valid : decode (.command ⟨0x02, ⟨.addr 0x100, .num 0x20000, .num 0⟩⟩) = .ok (.valid 0x100 0x20000) := by rfl

theorem test_decode_globver : decode (.command ⟨0x03, ⟨.addr 0x100, .num 0, .num 0⟩⟩) = .ok (.globver 0x100) := by rfl

theorem test_decode_chnknum : decode (.command ⟨0x04, ⟨.addr 0x100, .num 0, .num 0⟩⟩) = .ok (.chnknum 0x100) := by rfl

theorem test_decode_chnkhdrD : decode (.command ⟨0x05, ⟨.addr 0x100, .str [0x72, 0x6F, 0x6F, 0x74], .num 0⟩⟩) = .ok (.chnkhdrD 0x100 [0x72, 0x6F, 0x6F, 0x74]) := by rfl

theorem test_decode_decrypt : decode (.command ⟨0x06, ⟨.addr 0x9C, .num 32, .num 0⟩⟩) = .ok (.decrypt 0x9C 32) := by rfl

theorem test_decode_errstate : decode (.command ⟨0x07, ⟨.num 0, .num 0, .num 0⟩⟩) = .ok (.errstate) := by rfl

theorem test_decode_chnkhdrN : decode (.command ⟨0x08, ⟨.addr 0x100, .num 2, .num 0⟩⟩) = .ok (.chnkhdrN 0x100 2) := by rfl

theorem test_decode_fwupClearUpdate : decode (.command ⟨0x10, ⟨.num 0, .num 0, .num 0⟩⟩) = .ok (.fwupClearUpdate) := by rfl

theorem test_decode_fwupClearFail : decode (.command ⟨0x11, ⟨.num 0, .num 0, .num 0⟩⟩) = .ok (.fwupClearFail) := by rfl

theorem test_decode_fwupSetUpdate : decode (.command ⟨0x12, ⟨.num 0, .num 0, .num 0⟩⟩) = .ok (.fwupSetUpdate) := by rfl

theorem test_decode_fwupSetFail : decode (.command ⟨0x13, ⟨.num 0, .num 0, .num 0⟩⟩) = .ok (.fwupSetFail) := by rfl

theorem test_decode_fwupFlags : decode (.command ⟨0x14, ⟨.num 0, .num 0, .num 0⟩⟩) = .ok (.fwupFlags) := by rfl

theorem test_decode_fwupUpdate : decode (.command ⟨0x15, ⟨.num 0, .num 0, .num 0⟩⟩) = .ok (.fwupUpdate) := by rfl

theorem test_decode_fwupFail : decode (.command ⟨0x16, ⟨.num 0, .num 0, .num 0⟩⟩) = .ok (.fwupFail) := by rfl

theorem test_decode_fwupUsbUpdateReq : decode (.command ⟨0x17, ⟨.num 0, .num 0, .num 0⟩⟩) = .ok (.fwupUsbUpdateReq) := by rfl

theorem test_decode_fwupIncbootcnt : decode (.command ⟨0x18, ⟨.num 0, .num 0, .num 0⟩⟩) = .ok (.fwupIncbootcnt) := by rfl

theorem test_decode_fwupBootcnt : decode (.command ⟨0x19, ⟨.num 0, .num 0, .num 0⟩⟩) = .ok (.fwupBootcnt) := by rfl

theorem test_decode_fwupMtdparts : decode (.command ⟨0x1A, ⟨.num 0, .num 0, .num 0⟩⟩) = .ok (.fwupMtdparts) := by rfl

theorem test_decode_flagWr : decode (.command ⟨0x20, ⟨.num 3, .num 1, .num 0⟩⟩) = .ok (.flagWr 3 1) := by rfl

theorem test_decode_flagRd : decode (.command ⟨0x21, ⟨.num 3, .num 0, .num 0⟩⟩) = .ok (.flagRd 3) := by rfl

theorem test_decode_flagsClr : decode (.command ⟨0x22, ⟨.num 0, .num 0, .num 0⟩⟩) = .ok (.flagsClr) := by rfl

theorem test_decode_bcntWr : decode (.command ⟨0x23, ⟨.num 200, .num 0, .num 0⟩⟩) = .ok (.bcntWr 200) := by rfl

theorem test_decode_bcntRd : decode (.command ⟨0x24, ⟨.num 0, .num 0, .num 0⟩⟩) = .ok (.bcntRd) := by rfl

theorem test_decode_bfInit : decode (.command ⟨0x30, ⟨.str [0x6B, 0x65, 0x79], .num 0, .num 0⟩⟩) = .ok (.bfInit [0x6B, 0x65, 0x79]) := by rfl

theorem test_decode_bfEnc : decode (.command ⟨0x31, ⟨.num 0x01234567, .num 0x89ABCDEF, .num 0⟩⟩) = .ok (.bfEnc 0x01234567 0x89ABCDEF) := by rfl

theorem test_decode_bfDec : decode (.command ⟨0x32, ⟨.num 0x01234567, .num 0x89ABCDEF, .num 0⟩⟩) = .ok (.bfDec 0x01234567 0x89ABCDEF) := by rfl

theorem test_decode_crc32 : decode (.command ⟨0x40, ⟨.addr 0x10, .num 3, .num 0⟩⟩) = .ok (.crc32 0x10 3) := by rfl

theorem test_decode_md5 : decode (.command ⟨0x41, ⟨.addr 0x10, .num 3, .num 0⟩⟩) = .ok (.md5 0x10 3) := by rfl

theorem test_decode_sha256 : decode (.command ⟨0x42, ⟨.addr 0x10, .num 3, .num 0⟩⟩) = .ok (.sha256 0x10 3) := by rfl

theorem test_decode_chnk : decode (.record .globalOption [0x43, 0x48, 0x4E, 0x4B, 0x01, 0x02, 0x00, 0x00]) = .ok (.chnk 0x201) := by decide

theorem test_decode_goptOther : decode (.record .globalOption [0x4E, 0x4F, 0x54, 0x45, 0x01, 0x02, 0x00, 0x00]) = .ok (.goptOther 0x45544F4E 0x201) := by decide

theorem test_decode_versOpt : decode (.record .chunkOption [0x76, 0x65, 0x72, 0x73, 0x01, 0x02, 0x00, 0x00]) = .ok (.versOpt 0x201) := by decide

theorem test_decode_sizeOpt : decode (.record .chunkOption [0x73, 0x69, 0x7A, 0x65, 0x01, 0x02, 0x00, 0x00]) = .ok (.sizeOpt 0x201) := by decide

theorem test_decode_dataOpt : decode (.record .chunkOption [0x64, 0x61, 0x74, 0x61, 0x01, 0x02, 0x00, 0x00]) = .ok (.dataOpt 0x201) := by decide

theorem test_decode_destOpt : decode (.record .chunkOption [0x64, 0x65, 0x73, 0x74, 0x01, 0x02, 0x00, 0x00]) = .ok (.destOpt 0x201) := by decide

theorem test_decode_md5Opt : decode (.record .chunkOption [0x6D, 0x64, 0x35, 0x5F, 0x01, 0x02, 0x00, 0x00]) = .ok (.md5Opt 0x201) := by decide

theorem test_decode_sha2Opt : decode (.record .chunkOption [0x73, 0x68, 0x61, 0x32, 0x01, 0x02, 0x00, 0x00]) = .ok (.sha2Opt 0x201) := by decide

theorem test_decode_cr32Opt : decode (.record .chunkOption [0x63, 0x72, 0x33, 0x32, 0x01, 0x02, 0x00, 0x00]) = .ok (.cr32Opt 0x201) := by decide

theorem test_decode_encmOpt : decode (.record .chunkOption [0x65, 0x6E, 0x63, 0x6D, 0x01, 0x02, 0x00, 0x00]) = .ok (.encmOpt 0x201) := by decide

theorem test_decode_coptOther : decode (.record .chunkOption [0x43, 0x48, 0x4E, 0x4B, 0x01, 0x02, 0x00, 0x00]) = .ok (.coptOther 0x4B4E4843 0x201) := by decide

theorem test_decode_reserved : decode (.command ⟨0x09, ⟨.num 0, .num 0, .num 0⟩⟩) = .error .reservedCommand := by rfl

theorem test_decode_operand_kind : decode (.command ⟨0x05, ⟨.addr 0, .num 0, .num 0⟩⟩) = .error .operandKind := by rfl

/-- An address of more than 32 bits, for an address width above 32 (20_memory R51). -/
theorem test_decode_wide_address : decode (.command ⟨0x03, ⟨.addr 0x100000100, .num 0, .num 0⟩⟩) = .ok (.globver 0x100000100) := by rfl

theorem test_decode_short_record : decode (.record .chunkOption [0x76, 0x65, 0x72, 0x73, 0, 0, 0]) = .error .shortRecord := by decide

theorem test_table_command : decodeTableWord 8 0x40 = some (.crc32 0 0) := by decide

theorem test_table_record : decodeTableWord 32 0x73726576 = some (.versOpt 0) := by decide

theorem test_table_fetch_command : ends (step (State.reset.withFetchWord 8 0x12)) (fun t => t.pbsr == 1 && t.inputs == []) = true := by decide +kernel

/-- An unrecognised id in the target group ends the walk. -/
theorem test_table_fetch_record : walks (step (State.reset.withFetchWord 32 0x4F4E4F4E)) (fun _ => true) = false := by decide +kernel

/-- A record is placed where it can be read, however narrow the addresses are. -/
theorem test_table_fetch_narrow :
    ends (step (({ State.reset with cfg := { Params.default with addressWidth := 0 } } : State).withFetchWord 32 0x4F4E4F4E))
      (fun t => t.walk.isNone && t.status == Status.unknownOption.code) = true := by decide +kernel

/-! ## Boot-state unit: vectors VP1 to VP16 of 95_test_vectors -/

theorem test_flagWr_sets : ends (exec (.flagWr 7 1) (withPbsr 0xABCD0306)) (fun t => t.pbsr == 0xABCD0386) = true := by decide +kernel

theorem test_flagWr_clears : ends (exec (.flagWr 0 0) (withPbsr 0xABCD0307)) (fun t => t.pbsr == 0xABCD0306) = true := by decide +kernel

theorem test_flagRd_set : ends (exec (.flagRd 1) (withPbsr 0xABCD0306)) (fun t => t.res.bit == 1 && t.pbsr == 0xABCD0306) = true := by decide +kernel

theorem test_flagRd_out_of_range : refuses (exec (.flagRd 8) State.reset) .flagOperand = true := by decide +kernel

theorem test_flagsClr : ends (exec .flagsClr (withPbsr 0xABCD03FF)) (fun t => t.pbsr == 0xABCD0300) = true := by decide +kernel

theorem test_bcntWr : ends (exec (.bcntWr 255) (withPbsr 0xABCD0306)) (fun t => t.pbsr == 0xABCDFF06) = true := by decide +kernel

theorem test_bcntWr_out_of_range : refuses (exec (.bcntWr 256) State.reset) .bootcountOperand = true := by decide +kernel

theorem test_bcntRd : ends (exec .bcntRd (withPbsr 0xABCD0306)) (fun t => t.res.bootcnt == 3) = true := by decide +kernel

theorem test_fwupIncbootcnt : ends (exec .fwupIncbootcnt (withPbsr 0xABCD0306)) (fun t => t.pbsr == 0xABCD0406) = true := by decide +kernel

theorem test_fwupIncbootcnt_wraps : ends (exec .fwupIncbootcnt (withPbsr 0x0000FF01)) (fun t => t.pbsr == 1) = true := by decide +kernel

theorem test_fwupSetUpdate : ends (exec .fwupSetUpdate (withPbsr 0x200)) (fun t => t.pbsr == 0x201 && t.exit == 0) = true := by decide +kernel

theorem test_fwupSetFail : ends (exec .fwupSetFail (withPbsr 0x201)) (fun t => t.pbsr == 0x203 && t.exit == 0) = true := by decide +kernel

theorem test_fwupClearFail : ends (exec .fwupClearFail (withPbsr 0x203)) (fun t => t.pbsr == 0x201) = true := by decide +kernel

theorem test_fwupClearUpdate : ends (exec .fwupClearUpdate (withPbsr 0x201)) (fun t => t.pbsr == 0x200) = true := by decide +kernel

theorem test_fwupUpdate : ends (exec .fwupUpdate (withPbsr 1)) (fun t => t.res.bit == 1 && t.exit == 0) = true := by decide +kernel

theorem test_fwupFail : ends (exec .fwupFail (withPbsr 1)) (fun t => t.res.bit == 0 && t.exit == 1) = true := by decide +kernel

/-- The indices of the named flags are parameters (45_bootstate R211): `update` is flag 7 here and `fail` flag 3. -/
def renumbered (v : Word) : State := { withPbsr v with cfg := { Params.default with idxUpdate := 7, idxFail := 3 } }

theorem test_fwup_set_renumbered :
    ends (exec .fwupSetUpdate (renumbered 0x201)) (fun t => t.pbsr == 0x281) = true ∧
    ends (exec .fwupClearFail (renumbered 0x28A)) (fun t => t.pbsr == 0x282) = true := by decide +kernel

theorem test_fwup_read_renumbered :
    ends (exec .fwupUpdate (renumbered 0x7F)) (fun t => t.res.bit == 0 && t.exit == 1) = true ∧
    ends (exec .fwupFail (renumbered 8)) (fun t => t.res.bit == 1 && t.exit == 0) = true := by decide +kernel

theorem test_fwupFlags : ends (exec .fwupFlags (withPbsr 0xABCD0306)) (fun t => t.res.flags == 6) = true := by decide +kernel

theorem test_fwupBootcnt : ends (exec .fwupBootcnt (withPbsr 0xABCD0306)) (fun t => t.res.bootcnt == 3) = true := by decide +kernel

/-- VX1. -/
theorem test_errstate : ends (exec .errstate (withPbsr 0x502)) (fun t => t.halt && t.pbsr == 0x502) = true := by decide +kernel

/-- VX2. -/
theorem test_halted : refuses (exec .fwupFlags { State.reset with halt := true }) .halted = true := by decide +kernel

/-- VX3. -/
theorem test_watchdog_reset : ends (step { State.reset with halt := true, bfReady := true, pbsr := 0x502, inputs := [.reset .watchdog] }) (fun t => !t.halt && !t.bfReady && t.pbsr == 0x502) = true := by decide +kernel

/-! ## Walker: P1 and the examples of 40_parser -/

theorem test_globver : ends (exec (.globver 0) onP1) (fun t => t.res.version == ⟨2, 5, 17, 0x00C0FFEE⟩ && t.exit == 0) = true := by decide +kernel

theorem test_chnknum : ends (exec (.chnknum 0) onP1) (fun t => t.res.count == 1) = true := by decide +kernel

theorem test_chnknum_none : ends (exec (.chnknum 0) onVW1) (fun t => t.status == Status.notFound.code && t.exit == 1) = true := by decide +kernel

theorem test_chnkhdrN : ends (exec (.chnkhdrN 0 1) onP1) (fun t => t.res.hdr.hdrFlag == 0x8F && t.res.hdr.version == ⟨1, 0, 0, 0xABC⟩ &&
    t.res.hdr.size == 16 && t.res.hdr.data == 156) = true := by decide +kernel

/-- VX7. -/
theorem test_chnkhdrN_out_of_range : ends (exec (.chnkhdrN 0 2) onP1) (fun t => t.status == Status.notFound.code) = true := by decide +kernel

/-- VW20. -/
theorem test_chnkhdrD : ends (exec (.chnkhdrD 0 [0x72, 0x6F, 0x6F, 0x74, 0x66, 0x73]) onP1) (fun t => t.res.index == 1 && t.res.hdr.size == 16) = true := by decide +kernel

/-- VW20. -/
theorem test_chnkhdrD_prefix : ends (exec (.chnkhdrD 0 [0x72, 0x6F, 0x6F, 0x74]) onP1) (fun t => t.status == Status.notFound.code) = true := by decide +kernel

theorem test_chnk : walks (exec (.chnk 4) (walking .find 40 0 0)) (fun w => w.found == some 1) = true := by decide +kernel

/-- VW14: no length limit on a global option. -/
theorem test_goptOther : walks (exec (.goptOther 0x45544F4E 600) (walking .find 40 0 0)) (fun w => w.cur == 648 && w.found == none) = true := by decide +kernel

theorem test_versOpt : walks (exec (.versOpt 16) (walking .group 56 1 1)) (fun w => w.cur == 80 && w.hdr.hdrFlag == 1 && w.hdr.version.gitHash == 0xABC) = true := by decide +kernel

/-- VW11. -/
theorem test_versOpt_too_long : ends (exec (.versOpt 513) (walking .group 56 1 1)) (fun t => t.status == Status.parseError.code) = true := by decide +kernel

theorem test_sizeOpt : walks (exec (.sizeOpt 4) (walking .group 80 1 1)) (fun w => w.cur == 92 && w.hdr.hdrFlag == 2 && w.hdr.size == 16) = true := by decide +kernel

theorem test_dataOpt : walks (exec (.dataOpt 4) (walking .group 92 1 1)) (fun w => w.hdr.hdrFlag == 4 && w.hdr.data == 156) = true := by decide +kernel

theorem test_destOpt : walks (exec (.destOpt 32) (walking .group 104 1 1)) (fun w => w.cur == 144 && w.hdr.hdrFlag == 8 &&
    w.hdr.dest.toList.take 7 == [0x72, 0x6F, 0x6F, 0x74, 0x66, 0x73, 0]) = true := by decide +kernel

/-- The payload of P1 read as a digest. -/
theorem test_md5Opt : walks (exec (.md5Opt 16) (walking .group 148 1 1)) (fun w => w.hdr.hdrFlag == 0x10 &&
    w.hdr.md5.toList == [0, 1, 2, 3, 4, 5, 6, 7, 8, 9, 10, 11, 12, 13, 14, 15]) = true := by decide +kernel

theorem test_sha2Opt : walks (exec (.sha2Opt 32) (walking .group 104 1 1)) (fun w => w.hdr.hdrFlag == 0x20 &&
    w.hdr.sha256.toList.take 6 == [0x72, 0x6F, 0x6F, 0x74, 0x66, 0x73]) = true := by decide +kernel

/-- As VW9: the first four bytes are taken, and the cursor moves by the whole length. -/
theorem test_cr32Opt_long_payload : walks (exec (.cr32Opt 8) (walking .group 148 1 1)) (fun w => w.cur == 164 && w.hdr.hdrFlag == 0x40 && w.hdr.crc32 == 0x03020100) = true := by decide +kernel

theorem test_encmOpt : walks (exec (.encmOpt 4) (walking .group 144 1 1)) (fun w => w.hdr.hdrFlag == 0x80 && w.hdr.encryptionMethod == 0) = true := by decide +kernel

/-- VW5. -/
theorem test_coptOther : ends (exec (.coptOther 0x78787878 0) (walking .group 144 1 1)) (fun t => t.status == Status.unknownOption.code) = true := by decide +kernel

theorem test_coptOther_passed : walks (exec (.coptOther 0x78787878 600) (walking .group 144 1 2)) (fun w => w.cur == 752 && w.hdr.hdrFlag == 0) = true := by decide +kernel

/-! ## Validator: vectors VV1 to VV13 -/

theorem test_magic : ends (exec (.magic 0) onP1) (fun t => t.status == 0 && t.exit == 0) = true := by decide +kernel

theorem test_magic_wrong : ends (exec (.magic 0) (onP1With 0 [0x52])) (fun t => t.status == Status.magicError.code && t.exit == 1) = true := by decide +kernel

/-- VV11. -/
theorem test_valid : ends (exec (.valid 0 20) (onVW2 20 0)) (fun t => t.status == 0 && t.exit == 0) = true := by decide +kernel

/-- VV11. -/
theorem test_valid_total_length : ends (exec (.valid 0 19) (onVW2 20 0)) (fun t => t.status == Status.totalLengthError.code && t.exit == 1) = true := by decide +kernel

/-! ## Digests: vectors VG1, VG3; 42_digest_engines -/

theorem test_crc32 : ends (exec (.crc32 0 3) { State.reset with mem := Memory.writes [] 0 [0x61, 0x62, 0x63] }) (fun t => t.res.crc == 0x352441C2) = true := by decide +kernel

/-- `k w`, with `w` evaluated first, so that the kernel can run a hash step by step. -/
def strictly {α : Type} (w : Word) (k : Word → α) : α :=
  match w.toNat with
  | 0 => k 0
  | n + 1 => k (BitVec.ofNat 32 (n + 1))

theorem strictly_eq {α : Type} (w : Word) (k : Word → α) : strictly w k = k w := by
  unfold strictly
  split
  · rename_i h
    rw [show w = 0 from BitVec.eq_of_toNat_eq h]
  · rename_i n h
    rw [show n + 1 = w.toNat from h.symm, BitVec.ofNat_toNat, BitVec.setWidth_eq]

/-- `md5Step`, its one new word evaluated. -/
def md5StepStrict (x : List Word) (r : Md5Regs) (i : Nat) : Md5Regs :=
  strictly (md5Step x r i).b0 fun b => ⟨r.d0, b, r.b0, r.c0⟩

theorem md5StepStrict_eq : md5StepStrict = md5Step := by
  funext x r i
  rw [md5StepStrict, strictly_eq]
  rfl

/-- `shaStep`, its two new words evaluated. -/
def shaStepStrict (w : List Word) (r : ShaRegs) (t : Nat) : ShaRegs :=
  strictly (shaStep w r t).h0 fun a => strictly (shaStep w r t).h4 fun e => ⟨a, r.h0, r.h1, r.h2, e, r.h4, r.h5, r.h6⟩

theorem shaStepStrict_eq : shaStepStrict = shaStep := by
  funext w r t
  rw [shaStepStrict, strictly_eq, strictly_eq]
  rfl

/-- `shaExtend`, its new word evaluated. -/
def shaExtendStrict (w : List Word) : List Word :=
  strictly (tableAt (shaExtend w) w.length) fun v => w ++ [v]

theorem shaExtendStrict_eq : shaExtendStrict = shaExtend := by
  funext w
  rw [shaExtendStrict, strictly_eq]
  simp [shaExtend, tableAt]

/-- Vector VG3. -/
theorem test_md5 : (md5Fn [0x61, 0x62, 0x63]).toList =
    [0x90, 0x01, 0x50, 0x98, 0x3C, 0xD2, 0x4F, 0xB0, 0xD6, 0x96, 0x3F, 0x7D, 0x28, 0xE1, 0x7F, 0x72] := by
  have h : ∀ b, md5Block md5Init b =
      let x := (List.range 16).map fun g => le32At b (4 * g)
      let t := (List.range 64).foldl (md5StepStrict x) md5Init
      ⟨md5Init.a0 + t.a0, md5Init.b0 + t.b0, md5Init.c0 + t.c0, md5Init.d0 + t.d0⟩ := by
    rw [md5StepStrict_eq]
    intro b
    rfl
  show (md5Out (md5Block md5Init (padMessage le64 [0x61, 0x62, 0x63]))).toList = _
  rw [h]
  decide +kernel

/-- Vector VG3. -/
theorem test_sha256 : (sha256Fn [0x61, 0x62, 0x63]).toList =
    [0xBA, 0x78, 0x16, 0xBF, 0x8F, 0x01, 0xCF, 0xEA, 0x41, 0x41, 0x40, 0xDE, 0x5D, 0xAE, 0x22, 0x23,
     0xB0, 0x03, 0x61, 0xA3, 0x96, 0x17, 0x7A, 0x9C, 0xB4, 0x10, 0xFF, 0x61, 0xF2, 0x00, 0x15, 0xAD] := by
  have h : ∀ b, shaBlock shaInit b =
      let w := (List.range 48).foldl (fun w _ => shaExtendStrict w) ((List.range 16).map fun t => be32At b (4 * t))
      let t := (List.range 64).foldl (shaStepStrict w) shaInit
      ⟨shaInit.h0 + t.h0, shaInit.h1 + t.h1, shaInit.h2 + t.h2, shaInit.h3 + t.h3, shaInit.h4 + t.h4,
        shaInit.h5 + t.h5, shaInit.h6 + t.h6, shaInit.h7 + t.h7⟩ := by
    rw [shaStepStrict_eq, shaExtendStrict_eq]
    intro b
    rfl
  show (shaOut (shaBlock shaInit (padMessage be64 [0x61, 0x62, 0x63]))).toList = _
  rw [h]
  decide +kernel

theorem test_digest_outside : faults (exec (.md5 0xFFFFFFFF 2) State.reset) .outOfExtent = true := by decide +kernel

/-! ## Cipher: 43_blowfish, vector VB1 -/

/-- `P[0]` and `P[1]` of the schedule of eight zero bytes. -/
theorem test_bfInit_first_words : (fillP (⟨mixKey (List.replicate 8 0) initP, initS⟩, 0, 0) 0).2 = (0x706D9FCC, 0x1792D23A) := by decide +kernel

theorem test_bfInit_key_too_long : refuses (exec (.bfInit (List.replicate 57 1)) State.reset) .keyLength = true := by decide +kernel

theorem test_bfEnc_needs_schedule : refuses (exec (.bfEnc 0 0) State.reset) .noKeySchedule = true := by decide +kernel

theorem test_bfDec_undoes_bfEnc : decipher ⟨initP, initS⟩ (encipher ⟨initP, initS⟩ (0x01234567, 0x89ABCDEF)) = (0x01234567, 0x89ABCDEF) := by decide +kernel

theorem test_decrypt_length : refuses (exec (.decrypt 0 12) State.reset) .decryptLength = true := by decide +kernel

/-! ## The hypotheses of the obligations are met -/

/-- A state in which the block accepts operations. -/
theorem witness_ready : ready State.reset ∧ inRam State.reset := ⟨rfl, rfl⟩

theorem witness_DecodeOfEncode :
    (Instr.chnkhdrD 0 (List.replicate 32 0x41)).wellFormed = true ∧ (Instr.flagWr 7 1).wellFormed = true ∧
    (Instr.bfInit (List.replicate 56 0)).wellFormed = true ∧ (Instr.goptOther 0 0).wellFormed = true := by decide +kernel

theorem witness_EncodeOfDecodedRecord :
    ([0x43, 0x48, 0x4E, 0x4B, 4, 0, 0, 0] : List Byte).length = 8 ∧
    decode (.record .globalOption [0x43, 0x48, 0x4E, 0x4B, 4, 0, 0, 0]) = .ok (.chnk 4) ∧
    decode (.record .chunkOption [0x43, 0x48, 0x4E, 0x4B, 4, 0, 0, 0]) = .ok (.coptOther 0x4B4E4843 4) := by decide +kernel

/-- The reset machine that has been given one command of a code, with its operands 0. -/
def asked (code : Byte) : State := withInputs [.issue ⟨code, ⟨.num 0, .num 0, .num 0⟩⟩]

/-- Codes beside the ends of the table's runs, and the two excluded ones. -/
theorem witness_ReservedCodesRefused :
    (asked 0x00).halt = false ∧ (asked 0x00).walk = none ∧ (asked 0x09).inputs = [.issue ⟨0x09, ⟨.num 0, .num 0, .num 0⟩⟩] ∧
    (∀ c : Byte, c = 0x00 ∨ c = 0x09 ∨ c = 0x1B ∨ c = 0x43 ∨ c = 0xFF → c.toNat ∉ [0x01, 0x02, 0x03, 0x04, 0x05, 0x06, 0x07, 0x08, 0x10, 0x11, 0x12, 0x13, 0x14, 0x15, 0x16, 0x17, 0x18,
      0x19, 0x1A, 0x20, 0x21, 0x22, 0x23, 0x24, 0x30, 0x31, 0x32, 0x40, 0x41, 0x42]) ∧
    step (asked 0x09) = .refused .reservedCommand ∧ step (asked 0x17) = .refused .excludedCommand ∧
    step (asked 0x1A) = .refused .excludedCommand := by
  refine ⟨rfl, rfl, rfl, ?_, rfl, rfl, rfl⟩
  rintro c (rfl | rfl | rfl | rfl | rfl) <;> decide

theorem witness_StepRunsIssuedOperation :
    ready (asked 0x14) ∧ (asked 0x14).walk = none ∧
    (asked 0x14).inputs = [.issue ⟨0x14, ⟨.num 0, .num 0, .num 0⟩⟩] ∧
    decode (.command ⟨0x14, ⟨.num 0, .num 0, .num 0⟩⟩) = .ok .fwupFlags := ⟨rfl, rfl, rfl, rfl⟩

theorem witness_StepRunsRecordAtCursor :
    ready (walking .group 80 1 1) ∧ inRam (walking .group 80 1 1) ∧ Phase.group ≠ .skip ∧
    (∃ w, (walking .group 80 1 1).walk = some w ∧ w.loopOver = false ∧ w.cur = 80 ∧ w.table = .chunkOption) ∧
    (walking .group 80 1 1).inputs = [] ∧
    holds (walking .group 80 1 1) 80 [0x73, 0x69, 0x7A, 0x65, 4, 0, 0, 0] ∧
    decode (.record .chunkOption [0x73, 0x69, 0x7A, 0x65, 4, 0, 0, 0]) = .ok (.sizeOpt 4) := by
  refine ⟨rfl, rfl, by decide, ⟨_, rfl, rfl, rfl, rfl⟩, rfl, ⟨?_, ?_⟩, rfl⟩
  · unfold readableRun; decide +kernel
  · decide +kernel

theorem witness_StepRunsFetchWord :
    decodeTableWord 8 0x01 = some (.magic 0) ∧ decodeTableWord 32 0x4B4E4843 = some (.chnk 0) := by decide +kernel

theorem witness_StepKeepsInvariant :
    (Memory.wf 32 State.reset.mem ∧ State.reset.res.hdr.hdrFlag.toNat < 256 ∧ State.reset.walk = none) ∧
    step State.reset = .next State.reset := ⟨⟨Memory.wf_nil 32, by decide, rfl⟩, rfl⟩

theorem witness_FlagStoreContract :
    ready State.reset ∧ ((7 : Word).toNat ≤ 7 ∧ (1 : Word).toNat ≤ 1) ∧ 7 < (8 : Word).toNat ∧ 1 < (2 : Word).toNat ∧ (255 : Word).toNat ≤ 255 ∧
    255 < (256 : Word).toNat := by unfold ready; decide +kernel

/-- Also for FlagCommandsWrite, FlagCommandsRead, BootcountIncrements and ErrstateOnlyHalts. -/
theorem witness_FlagsClrResult :
    ready onP1 := rfl

theorem witness_FlagsAreIndependent :
    (∃ t, exec (.flagWr 7 1) State.reset = .next t) ∧ (∃ t, exec (.bcntWr 255) State.reset = .next t) ∧
    (∃ t, exec .flagsClr State.reset = .next t) ∧ (7 : Word).toNat ≤ 7 := ⟨⟨_, rfl⟩, ⟨_, rfl⟩, ⟨_, rfl⟩, by decide⟩

theorem witness_PbsrFieldsHaveTheirWriters :
    (∃ t, exec .fwupIncbootcnt State.reset = .next t) ∧ writesFlags .fwupIncbootcnt = false ∧
    (∃ t, exec .flagsClr State.reset = .next t) ∧ writesBootcount .flagsClr = false := ⟨⟨_, rfl⟩, rfl, ⟨_, rfl⟩, rfl⟩

/-- The reset machine with a boot limit of 2, a boot count read, and the comparison to come. -/
def counted (n : Byte) : State :=
  { State.reset with
    res := { Results.zero with bootcnt := n }
    cfg := { Params.default with bootLimit := 2 }
    inputs := [.checkBootLimit] }

theorem witness_BootLimitHaltsTheBlock :
    ready (counted 3) ∧ (counted 3).walk = none ∧ (counted 3).inputs = [.checkBootLimit] ∧
    (counted 3).cfg.bootLimit < (counted 3).res.bootcnt.toNat ∧ (counted 2).res.bootcnt.toNat ≤ (counted 2).cfg.bootLimit := ⟨rfl, rfl, rfl, by decide, by decide⟩

/-- A halted machine. -/
def haltedState (l : List Input) : State := { State.reset with halt := true, inputs := l }

theorem witness_HaltRefusesEveryInstruction :
    (haltedState []).halt = true := rfl

theorem witness_HaltEndsOnlyByReset :
    step (haltedState []) = .next (haltedState []) ∧
    step (haltedState [.reset .watchdog]) = .next ((haltedState []).afterReset .watchdog) := ⟨rfl, rfl⟩

/-- A reset of a halted block, and one in the middle of a walk. -/
theorem witness_ResetEffects :
    (haltedState [.reset .software]).inputs = [.reset .software] ∧ ResetKind.software ≠ .powerOn ∧
    (∃ w, ({ walking .group 80 1 1 with inputs := [.reset .watchdog] } : State).walk = some w) ∧
    ({ walking .group 80 1 1 with inputs := [.reset .watchdog] } : State).inputs = [.reset .watchdog] := ⟨rfl, by decide, ⟨_, rfl⟩, rfl⟩

theorem witness_ResetForgetsAllButPbsr :
    let s := State.reset
    let t := onP1
    s.cfg = t.cfg ∧ s.inputs = t.inputs ∧ s.draws = t.draws ∧ s.pbsr = t.pbsr ∧ s.mem ≠ t.mem := ⟨rfl, rfl, rfl, rfl, by decide +kernel⟩

/-- A command that writes PBSR, and one that reads a byte that cannot be read. -/
def setFail : Command := ⟨0x13, ⟨.num 0, .num 0, .num 0⟩⟩
def magicAtTop : Command := ⟨0x01, ⟨.addr 0xFFFFFFFF, .num 0, .num 0⟩⟩

/-- VALID of the image at address 0, with no limit. -/
def validShort : Command := ⟨0x02, ⟨.addr 0, .num 0, .num 0⟩⟩

theorem witness_ResetDuringOperation :
    (withInputs [.resetDuring .software setFail]).walk = none ∧
    (∃ u, issue setFail (withInputs []) = .next u ∧ u.pbsr = 2) ∧
    (∃ f, issue magicAtTop (withInputs []) = .fault f) ∧ refuses (issue validShort (onVW2 19 0)) .totalLengthBelowCrcOffset = true ∧
    issue ⟨0x09, noArgs⟩ (withInputs []) = .refused .reservedCommand ∧ ResetKind.software ≠ .powerOn := by
  refine ⟨rfl, ⟨_, rfl, by decide⟩, ⟨.outOfExtent, rfl⟩, ?_, rfl, by decide⟩
  decide +kernel

/-- 70_reset R284: a reset strikes in the middle of VALID of an image whose total length would have it refused, and in the middle
of a walk. -/
theorem test_reset_during_refused :
    ends (step { onVW2 19 0 with inputs := [.resetDuring .software validShort] }) (fun t => !t.halt && t.walk.isNone) = true := by
  decide +kernel

theorem test_reset_during_walk :
    ends (step { walking .group 80 1 1 with inputs := [.reset .software] }) (fun t => t.walk.isNone && t.inputs.isEmpty) = true := rfl

theorem test_walk_goes_on :
    walks (step { walking .group 80 1 1 with inputs := [.issue setFail, .reset .software] }) (fun w => w.cur == 92) = true := by
  decide +kernel

theorem witness_IdleAfterReset :
    State.reset.inputs = [] := rfl

theorem witness_MemoryFrame_nonwriter :
    ∃ t, exec (.magic 0) onP1 = .next t := by
  obtain ⟨t, h, -⟩ := completes_of_ends test_magic
  exact ⟨t, h⟩

/-- An address beside the buffer: 8. -/
theorem witness_MemoryFrame_decrypt :
    ∃ t, exec (.decrypt 0 8) State.reset = .next t := by
  simp only [exec, execDecrypt]
  rw [operation_ready rfl, onRam_ram (s := State.reset) rfl, if_pos (by decide), decryptBuffer, bfInit, if_pos (by decide), Ran.bind_ok]
  generalize keySchedule State.reset.cfg.key = k
  obtain ⟨m, e, -⟩ := decryptBlocks_ram 1 (s := (State.reset.withKeys k).withReady true) (a := 0) rfl
    (show allFrom (canWrite State.reset) 0 8 = true by decide +kernel)
  rw [show (8 : Word).toNat / 8 = 1 from rfl, e, Ran.bind_ok,
    show bufferAddr 0 ((8 : Word).toNat - 4) = 4 from rfl,
    rd32BE_ram (s := ((State.reset.withKeys k).withReady true).withMem m) rfl
      (show allFrom (canRead State.reset) 4 4 = true by decide +kernel),
    Ran.bind_ok]
  split
  · exact ⟨_, rfl⟩
  · exact ⟨_, rfl⟩

theorem witness_RegisterFrame :
    (∃ t, exec (.chnknum 0) onP1 = .next t) ∧ writesFlags (.chnknum 0) = false ∧ writesBootcount (.chnknum 0) = false ∧
    runsKeySchedule (.chnknum 0) = false ∧ Instr.chnknum 0 ≠ .errstate ∧ isRecord (.chnknum 0) = false ∧ onP1.walk = none ∧
    onP1.engine = .idle := by
  obtain ⟨t, h, -⟩ := completes_of_ends test_chnknum
  exact ⟨⟨t, h⟩, rfl, rfl, rfl, by decide, rfl, rfl, rfl⟩

theorem witness_ResultFrame :
    ∃ t, exec .fwupFlags onP1 = .next t ∧ t.status = 0 := ⟨_, rfl, rfl⟩

theorem witness_ExitFollowsStatus :
    exitFollowsStatus (.magic 0) = true ∧ (∃ t, exec (.magic 0) onP1 = .next t ∧ t.status = 0) ∧
    ∃ t, exec (.magic 0) State.reset = .next t ∧ t.status ≠ 0 := by
  refine ⟨rfl, ?_, ?_⟩
  · obtain ⟨t, h, k⟩ := completes_of_ends (p := fun t => t.status == 0) (o := exec (.magic 0) onP1) (by decide +kernel)
    exact ⟨t, h, by simpa using k⟩
  · obtain ⟨t, h, k⟩ := completes_of_ends (p := fun t => t.status != 0) (o := exec (.magic 0) State.reset) (by decide +kernel)
    exact ⟨t, h, by simpa using k⟩

theorem witness_FailureChangesNothingElse :
    isRecord (.magic 0) = false ∧ Instr.magic 0 ≠ .errstate ∧ ∃ t, exec (.magic 0) State.reset = .next t ∧ t.status ≠ 0 := ⟨rfl, by decide, witness_ExitFollowsStatus.2.2⟩

theorem witness_NonFailingOperations :
    (∃ t, exec .bcntRd State.reset = .next t) ∧ (∃ t, exec (.crc32 0 0) State.reset = .next t) ∧
    (∃ t, exec (.bfInit [0]) State.reset = .next t) ∧ (∃ t, exec (.bfEnc 0 0) { State.reset with bfReady := true } = .next t) ∧
    (∃ t, exec .fwupUpdate State.reset = .next t) ∧ (∃ t, exec .fwupFail State.reset = .next t) ∧ ∃ t, exec (.globver 0) onP1 = .next t := by
  refine ⟨⟨_, rfl⟩, ⟨_, rfl⟩, ⟨_, rfl⟩, ⟨_, rfl⟩, ⟨_, rfl⟩, ⟨_, rfl⟩, ?_⟩
  obtain ⟨t, h, -⟩ := completes_of_ends test_globver
  exact ⟨t, h⟩

theorem witness_SpacesAreSeparate :
    bootState .fwupFlags = true ∧ (∃ t, exec .fwupFlags onP1 = .next t) ∧ bootState (.magic 0) = false ∧
    ∃ t, exec (.magic 0) onP1 = .next t := ⟨rfl, ⟨_, rfl⟩, rfl, witness_MemoryFrame_nonwriter⟩

/-- The reset machine with the first `n` addresses readable and writable. -/
def small (n : Nat) : State := { State.reset with cfg := { Params.default with readable := [⟨0, n⟩], writable := [⟨0, n⟩] } }

/-- The reset machine with its images in a file store. -/
def onFile : State := { State.reset with cfg := { Params.default with store := .file } }

theorem witness_ReadsOfTheTwoStores :
    inRam (small 4) ∧ readableRun (small 4) 0 4 ∧ ¬ readableRun (small 4) 1 4 ∧ onFile.cfg.store = .file ∧ readableRun onFile 0 4 := by unfold readableRun inRam; decide +kernel

/-- The reset machine with addresses of `aw` bits. -/
def ofWidth (aw : Nat) : State := { State.reset with cfg := { Params.default with addressWidth := aw, readable := [⟨0, 2 ^ 64⟩] } }

/-- 20_memory R51: with `AW` = 40 the block reads above 2^32; with `AW` = 4 it faults at address 16 though READABLE has it. -/
theorem test_address_width :
    ends (exec (.magic 0x100000000) (ofWidth 40)) (fun t => t.status == Status.magicError.code) = true ∧
    ends (exec (.magic 8) (ofWidth 4)) (fun t => t.status == Status.magicError.code) = true ∧
    faults (exec (.magic 9) (ofWidth 4)) .outOfExtent = true := by decide +kernel

theorem witness_GlobverResult :
    ready (small 36) ∧ inRam (small 36) ∧ ready (small 35) ∧ inRam (small 35) ∧
    readableRun (small 36) 20 16 ∧ ¬ readableRun (small 35) 20 16 ∧ ready onFile ∧ onFile.cfg.store = .file := by unfold readableRun ready inRam; decide +kernel

/-- A global option that is not `CHNK`, a `CHNK` record that says 2, a chunk group with a size, one with a name and a size. -/
def note : Record := ⟨0x45544F4E, [0x68]⟩
def chnkOf (n : Word) : Record := ⟨RecordId.chnk, le32 n⟩
def sizeOf4 : Record := ⟨RecordId.size, [4, 0, 0, 0]⟩
def destSame : Record := ⟨RecordId.dest, [0x73, 0x61, 0x6D, 0x65] ++ List.replicate 28 0⟩

/-- An image of two chunk groups, as vector VW17 has them. -/
def twoGroups : Image := ⟨[note], chnkOf 2, [], [[sizeOf4], [destSame, sizeOf4]]⟩

/-- It stands at address 0 of the reset machine. -/
def onTwoGroups : State := { State.reset with mem := Memory.writes [] 36 twoGroups.bytes }

/-- The premises that an image stands in memory. -/
theorem witness_image :
    ready onTwoGroups ∧ inRam onTwoGroups ∧ twoGroups.spelled ∧ twoGroups.stands 0 onTwoGroups ∧ ∀ g ∈ twoGroups.groups, ∀ r ∈ g, r.whole := by
  refine ⟨rfl, rfl, ?_, ⟨?_, ?_⟩, ?_⟩
  · unfold Image.spelled Record.spelled; decide +kernel
  · unfold readableRun; decide +kernel
  · decide +kernel
  · intro g hg r hr
    have h : r = sizeOf4 ∨ r = destSame := by
      rcases List.mem_cons.mp hg with rfl | hg
      · exact .inl (List.mem_singleton.mp hr)
      · obtain rfl := List.mem_singleton.mp hg
        rcases List.mem_cons.mp hr with rfl | hr
        · exact .inr rfl
        · exact .inl (List.mem_singleton.mp hr)
    rcases h with rfl | rfl
    · exact ⟨by decide, 4, rfl, by decide⟩
    · exact ⟨by decide, 32, rfl, by decide⟩

/-- A record that is over the length limit, and one whose id is not recognised. -/
def tooLong : Record := ⟨RecordId.cr32, List.replicate 513 0⟩
def unknown : Record := ⟨0x78787878, []⟩

/-- An image with a group the walker gets through, and a second one as given. -/
def thenGroup (g : List Record) : Image := ⟨[], chnkOf 2, [], [[sizeOf4], g]⟩

/-- The image stands at address 0 of the reset machine, under a head whose total length 20 leaves the CRC range empty. -/
def onImage (m : Image) : State := { State.reset with mem := Memory.writes (onVW2 20 0).mem 36 m.bytes }

/-- Groups that the walker does not get through. -/
theorem witness_stops :
    stopsWith [sizeOf4, tooLong, sizeOf4] .parseError ∧ stopsWith [unknown] .unknownOption ∧ (∀ r ∈ [sizeOf4], r.whole) := by
  have h : sizeOf4.whole := ⟨by decide, 4, rfl, by decide⟩
  refine ⟨⟨[sizeOf4], tooLong, [sizeOf4], rfl, ?_, .inl ⟨by decide +kernel, rfl⟩⟩,
    ⟨[], unknown, [], rfl, fun r hr => (by cases hr), .inr ⟨by decide, by decide, rfl⟩⟩, ?_⟩ <;>
    exact fun r hr => List.mem_singleton.mp hr ▸ h

/-- They stand in images, as the second group, for ChnkhdrGivesTheGroupsHeader, ChnkhdrFindsByName and ValidFailsWithoutChunkCount. -/
theorem witness_stops_image :
    ready (onImage (thenGroup [unknown])) ∧ inRam (onImage (thenGroup [unknown])) ∧ (thenGroup [unknown]).spelled ∧
    (thenGroup [unknown]).stands 0 (onImage (thenGroup [unknown])) ∧
    (thenGroup [unknown]).groups = [[sizeOf4]] ++ [unknown] :: [] ∧ stopsWith [unknown] .unknownOption ∧
    ready (onImage (thenGroup [sizeOf4, tooLong, sizeOf4])) ∧ (thenGroup [sizeOf4, tooLong, sizeOf4]).spelled ∧
    (thenGroup [sizeOf4, tooLong, sizeOf4]).stands 0 (onImage (thenGroup [sizeOf4, tooLong, sizeOf4])) := by
  refine ⟨rfl, rfl, ?_, ⟨?_, ?_⟩, rfl, witness_stops.2.1, rfl, ?_, ⟨?_, ?_⟩⟩
  · unfold Image.spelled Record.spelled; decide +kernel
  · unfold readableRun; decide +kernel
  · decide +kernel
  · unfold Image.spelled Record.spelled; decide +kernel
  · unfold readableRun; decide +kernel
  · decide +kernel

theorem witness_ChnknumResult_found :
    ready onTwoGroups ∧ inRam onTwoGroups ∧ 2 < 2 ^ 32 ∧
    [note].length < 2 ∧ (∀ r ∈ [note], r.spelled ∧ r.id ≠ RecordId.chnk) ∧ (chnkOf 2).spelled ∧
    (chnkOf 2).id = RecordId.chnk ∧ 4 ≤ (chnkOf 2).payload.length ∧
    holds onTwoGroups 36 (le32 (BitVec.ofNat 32 2) ++ (recordsBytes [note] ++ ((chnkOf 2).bytes ++ groupsBytes twoGroups.groups))) := by unfold ready inRam Record.spelled holds readableRun; decide +kernel

theorem witness_ChnknumResult_none :
    ready onVW1 ∧ inRam onVW1 ∧ ready (onP1With 36 (le32 1 ++ note.bytes)) ∧ inRam (onP1With 36 (le32 1 ++ note.bytes)) ∧
    ([] : List Record).length < 2 ^ 32 ∧ holds onVW1 36 (le32 (BitVec.ofNat 32 0) ++ (recordsBytes [] ++ [])) ∧
    note.spelled ∧ note.id ≠ RecordId.chnk ∧ holds (onP1With 36 (le32 1 ++ note.bytes)) 36 (le32 1 ++ (recordsBytes [note] ++ [])) := by unfold ready inRam Record.spelled holds readableRun; decide +kernel

/-- The first and the last chunk group. -/
theorem witness_ChnkhdrGivesTheGroupsHeader :
    ready onTwoGroups ∧ inRam onTwoGroups ∧ twoGroups.spelled ∧ twoGroups.stands 0 onTwoGroups ∧
    (∀ g ∈ twoGroups.groups, ∀ r ∈ g, r.whole) ∧
    twoGroups.groups = [] ++ [sizeOf4] :: [[destSame, sizeOf4]] ∧ (1 : Word).toNat = ([] : List (List Record)).length + 1 ∧
    twoGroups.groups = [[sizeOf4]] ++ [destSame, sizeOf4] :: [] ∧ (2 : Word).toNat = [[sizeOf4]].length + 1 := by
  obtain ⟨h1, h2, h3, h4, h5⟩ := witness_image
  exact ⟨h1, h2, h3, h4, h5, rfl, rfl, rfl, rfl⟩

theorem witness_ChunkNumberOutOfRange :
    ready onTwoGroups ∧ inRam onTwoGroups ∧ twoGroups.spelled ∧ twoGroups.stands 0 onTwoGroups ∧
    (0 : Word).toNat = 0 ∧ twoGroups.groups.length < (3 : Word).toNat := by
  obtain ⟨h1, h2, h3, h4, -⟩ := witness_image
  exact ⟨h1, h2, h3, h4, rfl, by decide⟩

/-- Also for ChnkhdrFindsByName: no global option at all, and one that is not `CHNK`. -/
theorem witness_ChunkNumberOutOfRange_none :
    ready onVW1 ∧ inRam onVW1 ∧ holds onVW1 36 (le32 (BitVec.ofNat 32 0) ++ (recordsBytes [] ++ [])) ∧
    ends (exec (.chnkhdrN 0 1) onVW1) (fun t => t.status == Status.notFound.code && t.exit == 1) = true ∧
    ends (exec (.chnkhdrD 0 [0x73]) onVW1) (fun t => t.status == Status.notFound.code && t.exit == 1) = true ∧
    ready (onP1With 36 (le32 1 ++ note.bytes)) ∧ inRam (onP1With 36 (le32 1 ++ note.bytes)) ∧ note.spelled ∧
    note.id ≠ RecordId.chnk ∧ holds (onP1With 36 (le32 1 ++ note.bytes)) 36 (le32 1 ++ (recordsBytes [note] ++ [])) := by
  unfold ready inRam Record.spelled holds readableRun; decide +kernel

theorem witness_TargetGroupErrors :
    ready (walking .group 56 1 1) ∧ (∃ w, (walking .group 56 1 1).walk = some w ∧ w.phase = .group ∧ w.c = w.k) ∧
    512 < (513 : Word).toNat ∧ (512 : Word).toNat ≤ 512 ∧ (0x78787878 : Word) ∉ RecordId.chunkIds := ⟨rfl, ⟨_, rfl, rfl, rfl⟩, by decide, by decide, by decide⟩

theorem witness_PassedOverRecords :
    ready (walking .group 56 1 2) ∧ ready (walking .skip 40 0 1) ∧ ready (walking .find 40 0 1) ∧
    (∃ w, (walking .group 56 1 2).walk = some w ∧ w.phase = .group ∧ w.c ≠ w.k) ∧
    (∃ w, (walking .skip 40 0 1).walk = some w ∧ w.phase = .skip) ∧
    (∃ w, (walking .find 40 0 1).walk = some w ∧ w.phase = .find) ∧ (0x45544F4E : Word) ≠ RecordId.chnk := ⟨rfl, rfl, rfl, ⟨_, rfl, rfl, by decide⟩, ⟨_, rfl, rfl⟩, ⟨_, rfl, rfl⟩, by decide⟩

theorem witness_ChnkRecord :
    ready (walking .find 40 0 1) ∧ inRam (walking .find 40 0 1) ∧
    (∃ w, (walking .find 40 0 1).walk = some w ∧ w.phase = .find ∧ w.cur = 40) ∧ readableRun (walking .find 40 0 1) (40 + 8) 4 ∧
    4 ≤ (4 : Word).toNat ∧ (3 : Word).toNat < 4 ∧ (0 : Word).toNat < 4 := by
  refine ⟨rfl, rfl, ⟨_, rfl, rfl, rfl⟩, ?_⟩
  unfold readableRun
  decide +kernel

/-- Also for ShortPayloads, with the lengths there. -/
theorem witness_FieldRecords :
    ready (walking .group 56 1 1) ∧ inRam (walking .group 56 1 1) ∧
    (∃ w, (walking .group 56 1 1).walk = some w ∧ w.phase = .group ∧ w.c = w.k ∧ w.cur = 56) ∧ readableRun (walking .group 56 1 1) 64 32 ∧
    readableRun (walking .group 56 1 1) 64 16 ∧ readableRun (walking .group 56 1 1) 64 4 ∧
    (512 : Word).toNat ≤ 512 ∧ 16 ≤ (16 : Word).toNat ∧ 4 ≤ (4 : Word).toNat ∧ 32 ≤ (32 : Word).toNat := by
  refine ⟨rfl, rfl, ⟨_, rfl, rfl, rfl, rfl⟩, ?_⟩
  unfold readableRun
  decide +kernel

theorem witness_ShortPayloads :
    (15 : Word).toNat < 16 ∧ (3 : Word).toNat < 4 ∧ (31 : Word).toNat < 32 ∧ (0 : Word).toNat < 4 ∧
    readableRun (walking .group 56 1 1) 64 32 := by unfold readableRun; decide +kernel

/-- With the images of witness_stops_image. -/
theorem witness_ChnkhdrFindsByName_error :
    (∀ r ∈ [sizeOf4], r.whole) ∧ ¬ (groupHeader ChunkHeader.zero [sizeOf4]).has flagDest = true ∧
    nameOk [0x73] = true ∧ (thenGroup [unknown]).groups = [[sizeOf4]] ++ [unknown] :: [] ∧ stopsWith [unknown] .unknownOption := ⟨witness_stops.2.2, by decide +kernel, rfl, rfl, witness_stops.2.1⟩

/-- The second group has the name "same"; no group has the name "s". -/
theorem witness_ChnkhdrFindsByName :
    ready onTwoGroups ∧ inRam onTwoGroups ∧ twoGroups.spelled ∧ twoGroups.stands 0 onTwoGroups ∧
    (∀ g ∈ twoGroups.groups, ∀ r ∈ g, r.whole) ∧
    nameOk [0x73, 0x61, 0x6D, 0x65] = true ∧ twoGroups.groups = [[sizeOf4]] ++ [destSame, sizeOf4] :: [] ∧
    ¬ (groupHeader ChunkHeader.zero [sizeOf4]).has flagDest = true ∧
    (groupHeader ChunkHeader.zero [destSame, sizeOf4]).has flagDest = true ∧
    (groupHeader ChunkHeader.zero [destSame, sizeOf4]).dest.toList.take 4 = [0x73, 0x61, 0x6D, 0x65] ∧
    (groupHeader ChunkHeader.zero [destSame, sizeOf4]).dest.toList.getD 4 0 = 0 ∧
    nameOk [0x73] = true ∧ (groupHeader ChunkHeader.zero [destSame, sizeOf4]).dest.toList.getD 1 0 ≠ 0 := by
  obtain ⟨h1, h2, h3, h4, h5⟩ := witness_image
  exact ⟨h1, h2, h3, h4, h5, by decide +kernel⟩

theorem witness_MagicResult :
    ready onP1 ∧ inRam onP1 ∧ ready State.reset ∧ inRam State.reset ∧ ready onFile ∧
    readableRun onP1 0 8 ∧ Memory.bytes onP1.mem 0 8 = [0x53, 0x38, 0x30, 0x30, 0x5F, 0x55, 0x50, 0x44] ∧
    readableRun onFile 0 8 ∧ onFile.cfg.store = .file ∧
    readableRun State.reset 0 8 ∧ Memory.bytes State.reset.mem 0 8 ≠ [0x53, 0x38, 0x30, 0x30, 0x5F, 0x55, 0x50, 0x44] := by unfold readableRun ready inRam; decide +kernel

/-- P1 with a limit of 171, with format version 2 and a limit that is just met. -/
theorem witness_ValidFirstThreeChecks :
    let word := fun (s : State) k => le32At (Memory.bytes s.mem k 4) 0
    let magic := fun (s : State) => Memory.bytes s.mem 0 8 = [0x53, 0x38, 0x30, 0x30, 0x5F, 0x55, 0x50, 0x44]
    (ready State.reset ∧ inRam State.reset ∧ readableRun State.reset 0 8 ∧ ¬ magic State.reset) ∧
    (ready onP1 ∧ inRam onP1 ∧ readableRun onP1 0 8 ∧ readableRun onP1 12 4 ∧ magic onP1 ∧ ¬ ((171 : Word) = 0 ∨ (word onP1 12).toNat ≤ (171 : Word).toNat)) ∧
    (ready (onP1With 8 [2]) ∧ inRam (onP1With 8 [2]) ∧ readableRun (onP1With 8 [2]) 0 8 ∧ readableRun (onP1With 8 [2]) 8 8 ∧ magic (onP1With 8 [2]) ∧ (word (onP1With 8 [2]) 12).toNat ≤ (172 : Word).toNat ∧
      1 < (word (onP1With 8 [2]) 8).toNat) := by
  intro word magic
  refine ⟨⟨rfl, rfl, ?_, ?_⟩, ⟨rfl, rfl, ?_, ?_, ?_, ?_⟩, ⟨rfl, rfl, ?_, ?_, ?_, ?_, ?_⟩⟩ <;>
    first | decide +kernel | (unfold readableRun; decide +kernel)

/-- VW2 with total lengths 19 and 20, and no limit. -/
theorem witness_ValidGlobalCrcCheck :
    let word := fun (s : State) k => le32At (Memory.bytes s.mem k 4) 0
    let magic := fun (s : State) => Memory.bytes s.mem 0 8 = [0x53, 0x38, 0x30, 0x30, 0x5F, 0x55, 0x50, 0x44]
    (ready (onVW2 19 0) ∧ inRam (onVW2 19 0) ∧ readableRun (onVW2 19 0) 0 16 ∧ magic (onVW2 19 0) ∧ (word (onVW2 19 0) 8).toNat ≤ 1 ∧ (word (onVW2 19 0) 12).toNat < 20) ∧
    (ready (onVW2 20 1) ∧ inRam (onVW2 20 1) ∧ readableRun (onVW2 20 1) 0 20 ∧ magic (onVW2 20 1) ∧ (word (onVW2 20 1) 8).toNat ≤ 1 ∧ 20 ≤ (word (onVW2 20 1) 12).toNat ∧
      readableRun (onVW2 20 1) 20 0 ∧ crc32Fn (Memory.bytes (onVW2 20 1).mem 20 0) ≠ word (onVW2 20 1) 16) := by
  intro word magic
  refine ⟨⟨rfl, rfl, ?_, ?_, ?_, ?_⟩, rfl, rfl, ?_, ?_, ?_, ?_, ?_, ?_⟩ <;>
    first | decide +kernel | (unfold readableRun; decide +kernel)

/-- An image with one minimally valid chunk of four payload bytes, which carries a CRC-32. -/
def oneChunk : Image :=
  ⟨[], chnkOf 1, [], [[⟨RecordId.vers, List.replicate 16 0⟩, sizeOf4, ⟨RecordId.data, le32 0⟩, destSame,
    ⟨RecordId.encm, le32 0⟩, ⟨RecordId.cr32, le32 0⟩]]⟩

/-- An image with a minimally valid chunk, every record of it whole. -/
theorem witness_ValidExactlyWhenEveryCheckPasses_minimal :
    (groupHeader ChunkHeader.zero (oneChunk.groups.getD 0 [])).minimal = true ∧
    (groupHeader ChunkHeader.zero (oneChunk.groups.getD 0 [])).has flagCr32 = true ∧ ready (onImage oneChunk) ∧
    inRam (onImage oneChunk) ∧ oneChunk.spelled ∧ oneChunk.stands 0 (onImage oneChunk) ∧
    (∀ g ∈ oneChunk.groups, ∀ r ∈ g, r.payload.length ≤ 512 ∧ (fieldSize r.id).any (· ≤ r.payload.length) = true) ∧
    (∀ g ∈ oneChunk.groups, readableRun (onImage oneChunk) (chunkPayloadAddr 0 (groupHeader ChunkHeader.zero g).data)
      (groupHeader ChunkHeader.zero g).size.toNat) ∧
    readableRun (onImage oneChunk) 0 20 ∧ (le32At (Memory.bytes (onImage oneChunk).mem 12 4) 0).toNat = 20 := by
  refine ⟨?_, ?_, rfl, rfl, ?_, ⟨?_, ?_⟩, ?_, ?_, ?_, ?_⟩
  · decide +kernel
  · decide +kernel
  · unfold Image.spelled Record.spelled; decide +kernel
  · unfold readableRun; decide +kernel
  · decide +kernel
  · decide +kernel
  · unfold readableRun; decide +kernel
  · unfold readableRun; decide +kernel
  · decide +kernel

/-- A whole record, as a test. -/
theorem whole_of {r : Record} (h : (r.payload.length ≤ 512 && (fieldSize r.id).any (· ≤ r.payload.length)) = true) : r.whole := by
  rw [Bool.and_eq_true, decide_eq_true_eq] at h
  refine ⟨h.1, ?_⟩
  cases hs : fieldSize r.id with
  | none => rw [hs] at h; exact absurd h.2 Bool.false_ne_true
  | some n => rw [hs] at h; exact ⟨n, rfl, by simpa using h.2⟩

/-- A minimally valid chunk whose payload is the bytes "abc" that its version option holds, with digests after. -/
def abcWith (digests : List Record) : List Record :=
  [⟨RecordId.vers, [0x61, 0x62, 0x63] ++ List.replicate 13 0⟩, ⟨RecordId.size, le32 3⟩, ⟨RecordId.data, le32 80⟩, destSame,
    ⟨RecordId.encm, le32 0⟩] ++ digests

/-- The digests of "abc" by vector VG3, and chunks in which the CRC-32, the MD5 and the SHA-256 is the first wrong one, in whatever
order the records stand. -/
def abcCrc : Record := ⟨RecordId.cr32, le32 0x352441C2⟩
def abcMd5 : Record := ⟨RecordId.md5, [0x90, 0x01, 0x50, 0x98, 0x3C, 0xD2, 0x4F, 0xB0, 0xD6, 0x96, 0x3F, 0x7D, 0x28, 0xE1, 0x7F, 0x72]⟩
def badCrc : List Record := abcWith [⟨RecordId.md5, List.replicate 16 0⟩, ⟨RecordId.cr32, le32 0⟩]
def badMd5 : List Record := abcWith [⟨RecordId.sha2, List.replicate 32 0⟩, abcCrc, ⟨RecordId.md5, List.replicate 16 0⟩]
def badSha2 : List Record := abcWith [abcCrc, abcMd5, ⟨RecordId.sha2, List.replicate 32 0⟩]

/-- What the second group of an image must meet, and what the image around it meets, in ValidExactlyWhenEveryCheckPasses. -/
def fifthStepAt (g : List Record) : Prop :=
  let s := onImage (thenGroup g)
  let word := fun k => le32At (Memory.bytes s.mem k 4) 0
  (ready s ∧ inRam s) ∧ ((thenGroup g).spelled ∧ (thenGroup g).stands 0 s) ∧ readableRun s 0 20 ∧ (word 12).toNat = 20 ∧
    readableRun s 20 0 ∧ Memory.bytes s.mem 0 8 = [0x53, 0x38, 0x30, 0x30, 0x5F, 0x55, 0x50, 0x44] ∧ (word 8).toNat ≤ 1 ∧
    crc32Fn (Memory.bytes s.mem 20 0) = word 16 ∧ (thenGroup g).groups = [[sizeOf4]] ++ g :: [] ∧
    g.all (fun r => r.payload.length ≤ 512 && (fieldSize r.id).any (· ≤ r.payload.length)) = true ∧
    readableRun s (chunkPayloadAddr 0 (groupHeader ChunkHeader.zero g).data) (groupHeader ChunkHeader.zero g).size.toNat ∧
    (groupHeader ChunkHeader.zero g).minimal = true ∧
    Memory.bytes s.mem (chunkPayloadAddr 0 (groupHeader ChunkHeader.zero g).data) (groupHeader ChunkHeader.zero g).size.toNat =
      [0x61, 0x62, 0x63]

theorem witness_ValidExactlyWhenEveryCheckPasses_images : fifthStepAt badCrc ∧ fifthStepAt badMd5 ∧ fifthStepAt badSha2 := by
  unfold fifthStepAt ready inRam Image.spelled Image.stands holds readableRun Record.spelled
  refine ⟨?_, ?_, ?_⟩ <;> decide +kernel

/-- The chunk before passes, and each kind of digest is the first that does not match. -/
theorem witness_ValidExactlyWhenEveryCheckPasses_digests :
    (∀ g, fifthStepAt g → ∀ r ∈ g, r.whole) ∧
    (∀ g, payloadReadable (onImage (thenGroup g)) 0 (groupHeader ChunkHeader.zero [sizeOf4]) ∧
      digestsMatch (onImage (thenGroup g)) 0 (groupHeader ChunkHeader.zero [sizeOf4])) ∧ (∀ r ∈ [sizeOf4], r.whole) ∧
    digestFails (onImage (thenGroup badCrc)) 0 (groupHeader ChunkHeader.zero badCrc) .crc32Error ∧
    digestFails (onImage (thenGroup badMd5)) 0 (groupHeader ChunkHeader.zero badMd5) .md5Error ∧
    digestFails (onImage (thenGroup badSha2)) 0 (groupHeader ChunkHeader.zero badSha2) .sha256Error := by
  have h : (groupHeader ChunkHeader.zero [sizeOf4]).minimal = false := by decide +kernel
  have notMin : ∀ {p : Prop}, (groupHeader ChunkHeader.zero [sizeOf4]).minimal = true → p := fun k => by rw [h] at k; cases k
  have neq : ∀ {n : Nat} {v w : Vector Byte n}, v.toList ≠ w.toList → v ≠ w := fun k e => k (congrArg _ e)
  have all : ∀ g, fifthStepAt g → (groupHeader ChunkHeader.zero g).minimal = true ∧
      Memory.bytes (onImage (thenGroup g)).mem (chunkPayloadAddr 0 (groupHeader ChunkHeader.zero g).data)
        (groupHeader ChunkHeader.zero g).size.toNat = [0x61, 0x62, 0x63] :=
    fun g k => ⟨k.2.2.2.2.2.2.2.2.2.2.2.1, k.2.2.2.2.2.2.2.2.2.2.2.2⟩
  obtain ⟨w1, w2, w3⟩ := witness_ValidExactlyWhenEveryCheckPasses_images
  have crc : crc32Fn [0x61, 0x62, 0x63] = 0x352441C2 := by decide +kernel
  refine ⟨fun g k r hr => whole_of (List.all_eq_true.mp k.2.2.2.2.2.2.2.2.2.1 r hr), fun g => ⟨notMin, notMin⟩, witness_stops.2.2, ⟨(all _ w1).1, ?_⟩, ⟨(all _ w2).1, ?_⟩, ⟨(all _ w3).1, ?_⟩⟩
  · rw [(all _ w1).2, crc]
    exact .inl ⟨by decide +kernel, rfl⟩
  · rw [(all _ w2).2, crc]
    exact .inr (.inl ⟨by decide +kernel, ⟨by decide +kernel, neq (by rw [test_md5]; decide +kernel)⟩, rfl⟩)
  · rw [(all _ w3).2, crc]
    exact .inr (.inr ⟨by decide +kernel, fun k => k.2 (Vector.toList_inj.mp (by rw [test_md5]; decide +kernel)),
      ⟨by decide +kernel, neq (by rw [test_sha256]; decide +kernel)⟩, rfl⟩)

/-- 41_validator R146: a chunk's CRC-32 mismatch ends VALID with Crc32Error, though an MD5 stands before it and differs too. -/
theorem test_valid_chunk_crc : ends (exec (.valid 0 0) (onImage (thenGroup badCrc))) (fun t => t.status == Status.crc32Error.code) = true := by
  decide +kernel

/-- VW2 with a total length of 20, as VV11 has it. -/
theorem witness_ValidExactlyWhenEveryCheckPasses :
    let m : Image := ⟨[], chnkOf 0, [], []⟩
    ready (onVW2 20 0) ∧ inRam (onVW2 20 0) ∧ (∀ g ∈ m.groups, payloadReadable (onVW2 20 0) 0 (groupHeader ChunkHeader.zero g)) ∧
    m.spelled ∧ m.stands 0 (onVW2 20 0) ∧ (∀ g ∈ m.groups, ∀ r ∈ g, r.whole) ∧
    (∀ g ∈ twoGroups.groups, payloadReadable onTwoGroups 0 (groupHeader ChunkHeader.zero g)) ∧
    readableRun (onVW2 20 0) 0 20 ∧ 20 ≤ (le32At (Memory.bytes (onVW2 20 0).mem 12 4) 0).toNat ∧ readableRun (onVW2 20 0) 20 0 := by
  refine ⟨rfl, rfl, ?_, ?_, ⟨?_, ?_⟩, ?_, ?_, ?_, ?_, ?_⟩
  · intro g hg
    cases hg
  · unfold Image.spelled Record.spelled; decide +kernel
  · unfold readableRun; decide +kernel
  · decide +kernel
  · intro g hg
    cases hg
  · intro g hg hm
    have h : ∀ g ∈ twoGroups.groups, (groupHeader ChunkHeader.zero g).minimal = false := by decide +kernel
    rw [h g hg] at hm
    cases hm
  · unfold readableRun; decide +kernel
  · decide +kernel
  · unfold readableRun; decide +kernel

/-- The rest is witness_stops_image: its first group passes, its second ends the walk. -/
theorem witness_ValidFailsWithoutChunkCount_walker :
    let s := onImage (thenGroup [unknown])
    let word := fun k => le32At (Memory.bytes s.mem k 4) 0
    readableRun s 0 20 ∧ Memory.bytes s.mem 0 8 = [0x53, 0x38, 0x30, 0x30, 0x5F, 0x55, 0x50, 0x44] ∧ (word 8).toNat ≤ 1 ∧ (word 12).toNat = 20 ∧ readableRun s 20 0 ∧
    crc32Fn (Memory.bytes s.mem 20 0) = word 16 ∧ payloadReadable s 0 (groupHeader ChunkHeader.zero [sizeOf4]) ∧
    digestsMatch s 0 (groupHeader ChunkHeader.zero [sizeOf4]) := by
  intro s word
  have h : (groupHeader ChunkHeader.zero [sizeOf4]).minimal = false := by decide +kernel
  refine ⟨?_, ?_, ?_, ?_, ?_, ?_, fun k => (by rw [h] at k; cases k), fun k => (by rw [h] at k; cases k)⟩ <;>
    first | decide +kernel | (unfold readableRun; decide +kernel)

theorem witness_ValidFailsWithoutChunkCount :
    let word := fun k => le32At (Memory.bytes onVW1.mem k 4) 0
    ready onVW1 ∧ inRam onVW1 ∧ ([] : List Record).length < 2 ^ 32 ∧
    holds onVW1 36 (le32 (BitVec.ofNat 32 0) ++ (recordsBytes [] ++ [])) ∧ readableRun onVW1 0 20 ∧
    Memory.bytes onVW1.mem 0 8 = [0x53, 0x38, 0x30, 0x30, 0x5F, 0x55, 0x50, 0x44] ∧ (word 8).toNat ≤ 1 ∧ 20 ≤ (word 12).toNat ∧
    readableRun onVW1 20 20 ∧ (word 12).toNat - 20 = 20 ∧ crc32Fn (Memory.bytes onVW1.mem 20 20) = word 16 := by unfold ready inRam holds readableRun; decide +kernel

/-- The first and the last byte of a range of two. -/
theorem witness_SingleByteCorruptionIsCaught :
    inRam (onVW2 22 0x41D912FF) ∧ ends (exec (.valid 0 0) (onVW2 22 0x41D912FF)) (fun t => t.status == 0) = true ∧
    (le32At (Memory.bytes (onVW2 22 0x41D912FF).mem 12 4) 0).toNat = 22 ∧
    (1 : Byte) ≠ Memory.read (onVW2 22 0x41D912FF).mem 20 ∧ (1 : Byte) ≠ Memory.read (onVW2 22 0x41D912FF).mem 21 := by unfold inRam; decide +kernel

/-- Also for HashResults: a run up to the last readable byte, and an empty one beyond it. -/
theorem witness_CrcResult :
    ready (small 4) ∧ inRam (small 4) ∧ readableRun (small 4) 0 4 ∧ readableRun (small 4) 4 0 ∧ (4 + 9 + 51) % 64 = 0 ∧ (0 + 9 + 55) % 64 = 0 := by unfold ready inRam readableRun; decide +kernel

theorem witness_ReadsOutsideTheExtentFault :
    ready (small 4) ∧ inRam (small 4) ∧ ¬ readableRun (small 4) 0 5 ∧ (small 4).cfg.addressWidth = 32 ∧
    0xFFFFFFFF ≤ 2 ^ 32 ∧ 2 ^ 32 < 0xFFFFFFFF + (2 : Word).toNat := by unfold ready inRam readableRun; decide +kernel

theorem witness_KeyScheduleResult :
    ready State.reset ∧ keyOk [0] = true ∧ keyOk (List.replicate 56 0) = true ∧ ([] : List Byte).length < 1 ∧
    56 < (List.replicate 57 (0 : Byte)).length := by unfold ready; decide +kernel

theorem witness_RepeatedKeySameSubkeys :
    1 ≤ ([0x6B] : List Byte).length ∧ 1 ≤ 1 := by decide +kernel

theorem witness_BlockOperationResults :
    ready { State.reset with bfReady := true } ∧ ready State.reset ∧
    ({ State.reset with bfReady := true } : State).bfReady = true ∧ State.reset.bfReady = false := ⟨rfl, rfl, rfl, rfl⟩

theorem witness_DecryptResult :
    1 ≤ (small 8).cfg.key.length ∧ (small 8).cfg.key.length ≤ 56 ∧ 8 ≤ (8 : Word).toNat ∧ (8 : Word).toNat % 8 = 0 ∧
    writableRun (small 8) 0 8 ∧ inRam (small 8) ∧ ready (small 8) := by unfold writableRun inRam ready; decide +kernel

theorem witness_BufferOperationRefusals :
    ¬ writableRun (small 8) 4 8 ∧ (small 8).cfg.key.length = 1 ∧ (({ State.reset with cfg := { Params.default with key := [] } } : State).cfg.key).length < 1 ∧
    56 < (({ State.reset with cfg := { Params.default with key := List.replicate 57 0 } } : State).cfg.key).length ∧
    ready State.reset ∧ inRam State.reset ∧ ready onFile ∧ (7 : Word).toNat < 8 ∧ (12 : Word).toNat % 8 ≠ 0 ∧
    onFile.cfg.store = .file := by unfold ready inRam writableRun; decide +kernel

end Sys2Proof.Tests
end

section
/-! The invariant of the machine at reset. -/

namespace Sys2Proof.Machine

/-- The two halves of the invariant, in the terms of the laws of memory and of the presence masks. -/
theorem inv_iff_wf_and_maskOk (s : State) : Inv s ↔ Memory.wf s.cfg.addressWidth s.mem ∧ MaskOk s := Iff.rfl

/-- `RES.HDR` is the header of zeros (log entry 8), and no walk is under way. -/
theorem reset_maskOk : MaskOk State.reset :=
  ⟨maskOk_zero, fun w hw => absurd hw (Option.some_ne_none w).symm⟩

/-- Settles O10: MEM lists nothing, and the masks are those of `reset_maskOk`. -/
theorem resetMeetsInvariant : Obligations.ResetMeetsInvariant := by
  have hmem : Memory.wf State.reset.cfg.addressWidth State.reset.mem := Memory.wf_nil _
  exact (inv_iff_wf_and_maskOk State.reset).mpr ⟨hmem, reset_maskOk⟩

end Sys2Proof.Machine
end

section
/-! The two spaces of 20_memory R50. A part of an operation does not look at a field when writing that field before the part is
writing it after: the parts of the walker, the validator, the digests and the cipher do not look at PBSR, and the operations of the
boot-state unit do not look at MEM. -/

namespace Sys2Proof.Machine

/-! ## A change of the state that a part does not look at -/

/-- The outcome of a part with its state changed. -/
def Ran.mapState {α : Type} (g : State → State) : Ran α → Ran α
  | .ok a s => .ok a (g s)
  | .raised code s => .raised code (g s)
  | .fault r => .fault r
  | .refused r => .refused r

section MapState

variable {α : Type} (g : State → State)

@[simp] theorem Ran.mapState_ok (a : α) (s : State) : (Ran.ok a s).mapState g = .ok a (g s) := rfl
@[simp] theorem Ran.mapState_raised (c : Word) (s : State) : (Ran.raised c s : Ran α).mapState g = .raised c (g s) := rfl
@[simp] theorem Ran.mapState_fault (r : Fault) : (Ran.fault r : Ran α).mapState g = .fault r := rfl
@[simp] theorem Ran.mapState_refused (r : Refusal) : (Ran.refused r : Ran α).mapState g = .refused r := rfl

end MapState

/-- The change `g` before the part is the change `g` after it. -/
def CommutesWith {α : Type} (g : State → State) (f : State → Ran α) : Prop := ∀ s, f (g s) = (f s).mapState g

namespace CommutesWith

variable {α β : Type} {g : State → State}

/-- A part that succeeds with a value and an update that do not look at what `g` changes. -/
theorem ok {a : State → α} {u : State → State} (ha : ∀ s, a (g s) = a s) (hu : ∀ s, u (g s) = g (u s)) :
    CommutesWith g fun s => .ok (a s) (u s) := fun s => by
  simp only [Ran.mapState_ok, ha, hu]

theorem raise (st : Status) : CommutesWith g (Machine.raise st : State → Ran α) := fun _ => rfl

theorem refused (r : Refusal) : CommutesWith g fun _ => (.refused r : Ran α) := fun _ => rfl

theorem bind {f : State → Ran α} {k : α → State → Ran β} (hf : CommutesWith g f) (hk : ∀ a, CommutesWith g (k a)) :
    CommutesWith g fun s => (f s).bind k := fun s => by
  simp only [hf s]
  cases f s with
  | ok a t => exact hk a t
  | raised c t => rfl
  | fault r => rfl
  | refused r => rfl

/-- A part that tests what `g` does not change. -/
theorem ite {c : State → Prop} [∀ s, Decidable (c s)] {f h : State → Ran α} (hc : ∀ s, c (g s) ↔ c s) (hf : CommutesWith g f)
    (hh : CommutesWith g h) : CommutesWith g fun s => if c s then f s else h s := fun s => by
  by_cases k : c s
  · simp only [hc, k, if_true, hf s]
  · simp only [hc, k, if_false, hh s]

/-- A part that is chosen by a value which `g` does not change. -/
theorem choose {p : State → β} {f : β → State → Ran α} (hp : ∀ s, p (g s) = p s) (hf : ∀ b, CommutesWith g (f b)) :
    CommutesWith g fun s => f (p s) s := fun s => by
  simp only [hp]
  exact hf (p s) s

end CommutesWith

/-- An operation whose body does not look at what `g` changes does the same after the change, if the change touches neither HALT
nor what a raised status leaves. -/
theorem operation_commutes {g : State → State} {body : State → Ran Unit} {s t : State} (hg : ∀ s, (g s).halt = s.halt)
    (hfail : ∀ s c, (g s).failed c = g (s.failed c)) (hb : CommutesWith g body) (h : operation body s = .next t) :
    operation body (g s) = .next (g t) := by
  obtain ⟨hhalt, hend⟩ := operation_eq_next.mp h
  refine operation_eq_next.mpr ⟨(hg s).trans hhalt, ?_⟩
  rw [hb s]
  rcases hend with hok | ⟨c, u, hraised, rfl⟩
  · exact .inl (by rw [hok]; rfl)
  · exact .inr ⟨c, g u, by rw [hraised]; rfl, (hfail u c).symm⟩

/-! ## The boot-state unit does not look at MEM -/

/-- The part does not look at MEM and leaves it. -/
abbrev MemBlind {α : Type} (f : State → Ran α) : Prop := ∀ m, CommutesWith (State.withMem · m) f

theorem operation_withMem {body : State → Ran Unit} {s t : State} (h : operation body s = .next t) (hb : MemBlind body)
    (m : Memory) : operation body (s.withMem m) = .next (t.withMem m) :=
  operation_commutes (g := (State.withMem · m)) (fun _ => rfl) (fun _ _ => rfl) (hb m) h

/-- A part that only updates the state, without a look at MEM. -/
theorem memBlind_update {u : State → State} (hu : ∀ s m, u (s.withMem m) = (u s).withMem m) : MemBlind fun s => .ok () (u s) :=
  fun m => .ok (fun _ => rfl) fun s => hu s m

/-- The same behind a test of the operands. -/
theorem memBlind_checkedUpdate {c : Prop} [Decidable c] {r : Refusal} {u : State → State}
    (hu : ∀ s m, u (s.withMem m) = (u s).withMem m) : MemBlind fun s => if c then .refused r else .ok () (u s) :=
  fun m => .ite (fun _ => Iff.rfl) (.refused r) (memBlind_update hu m)

/-- An operation of the boot-state unit does the same whatever MEM holds. -/
theorem exec_withMem {i : Instr} {s t : State} (hi : bootState i = true) (h : exec i s = .next t) (m : Memory) :
    exec i (s.withMem m) = .next (t.withMem m) := by
  cases i with simp only [exec] at h ⊢
  | flagWr index bit => exact operation_withMem h (memBlind_checkedUpdate fun _ _ => rfl) m
  | flagRd index => exact operation_withMem h (memBlind_checkedUpdate fun _ _ => rfl) m
  | bcntWr n => exact operation_withMem h (memBlind_checkedUpdate fun _ _ => rfl) m
  | flagsClr | bcntRd | fwupClearUpdate | fwupClearFail | fwupSetUpdate | fwupSetFail | fwupFlags | fwupUpdate | fwupFail
  | fwupIncbootcnt | fwupBootcnt => exact operation_withMem h (memBlind_update fun _ _ => rfl) m
  | _ => exact absurd hi Bool.false_ne_true

/-! ## Reads and writes of MEM do not look at PBSR -/

/-- The part does not look at PBSR and leaves it. -/
abbrev PbsrBlind {α : Type} (f : State → Ran α) : Prop := ∀ v, CommutesWith (State.withPbsr · v) f

namespace PbsrBlind

variable {α β : Type}

theorem bind {f : State → Ran α} {k : α → State → Ran β} (hf : PbsrBlind f) (hk : ∀ a, PbsrBlind (k a)) :
    PbsrBlind fun s => (f s).bind k := fun v => (hf v).bind fun a => hk a v

/-- A part and then an update of the state without a look at PBSR. -/
theorem ret {f : State → Ran α} (hf : PbsrBlind f) {a : α → State → β} {u : α → State → State}
    (ha : ∀ x s v, a x (s.withPbsr v) = a x s) (hu : ∀ x s v, u x (s.withPbsr v) = (u x s).withPbsr v) :
    PbsrBlind fun s => (f s).bind fun x s => .ok (a x s) (u x s) :=
  hf.bind fun x v => .ok (fun s => ha x s v) fun s => hu x s v

/-- A part that is chosen by a value other than PBSR. -/
theorem choose {p : State → β} {f : β → State → Ran α} (hp : ∀ s v, p (s.withPbsr v) = p s) (hf : ∀ b, PbsrBlind (f b)) :
    PbsrBlind fun s => f (p s) s := fun v => .choose (fun s => hp s v) fun b => hf b v

end PbsrBlind

theorem operation_withPbsr {body : State → Ran Unit} {s t : State} (h : operation body s = .next t) (hb : PbsrBlind body)
    (v : Word) : operation body (s.withPbsr v) = .next (t.withPbsr v) :=
  operation_commutes (g := (State.withPbsr · v)) (fun _ => rfl) (fun _ _ => rfl) (hb v) h

theorem ok_pbsrBlind {α : Type} (a : α) : PbsrBlind (Ran.ok a) := fun _ _ => rfl

theorem raise_pbsrBlind {α : Type} (st : Status) : PbsrBlind (raise st : State → Ran α) := fun _ => .raise st

theorem refused_pbsrBlind {α : Type} (r : Refusal) : PbsrBlind fun _ => (.refused r : Ran α) := fun _ => .refused r

theorem update_pbsrBlind {u : State → State} (hu : ∀ s v, u (s.withPbsr v) = (u s).withPbsr v) :
    PbsrBlind fun s => .ok () (u s) := fun v => .ok (fun _ => rfl) fun s => hu s v

/-- A test that does not look at the state. -/
theorem ite_pbsrBlind {α : Type} {c : Prop} [Decidable c] {f h : State → Ran α} (hf : PbsrBlind f) (hh : PbsrBlind h) :
    PbsrBlind fun s => if c then f s else h s := fun v => .ite (fun _ => Iff.rfl) (hf v) (hh v)

theorem afterDraw_pbsrBlind {α : Type} {f : State → Ran α} (hf : PbsrBlind f) : PbsrBlind fun s => f s.drawn :=
  fun v s => hf v s.drawn

theorem readExtent_pbsrBlind (a n : Nat) : PbsrBlind (readExtent a n) := fun _ =>
  .ite (fun _ => Iff.rfl) (fun _ => rfl) (fun _ => rfl)

theorem memRead_pbsrBlind (a n : Nat) : PbsrBlind (memRead a n) := fun v s => by
  unfold memRead
  rw [State.withPbsr_cfg]
  cases s.cfg.store with
  | ram => exact readExtent_pbsrBlind a n v s
  | file =>
    exact CommutesWith.ite (g := (State.withPbsr · v)) (c := fun s => Config.freeBool s.draws) (fun _ => Iff.rfl)
      (afterDraw_pbsrBlind (raise_pbsrBlind _) v) (afterDraw_pbsrBlind (readExtent_pbsrBlind a n) v) s

theorem rd32LE_pbsrBlind (a : Nat) : PbsrBlind (rd32LE a) := (memRead_pbsrBlind a 4).bind fun _ => ok_pbsrBlind _

theorem rd32BE_pbsrBlind (a : Nat) : PbsrBlind (rd32BE a) := (memRead_pbsrBlind a 4).bind fun _ => ok_pbsrBlind _

theorem memWrite_pbsrBlind (a : Nat) (b : List Byte) : PbsrBlind (memWrite a b) := fun _ =>
  .ite (fun _ => Iff.rfl) (fun _ => rfl) (fun _ => rfl)

/-! ## The walker does not look at PBSR -/

theorem onWalk_pbsrBlind {α : Type} {f : Walk → State → Ran α} (hf : ∀ w, PbsrBlind (f w)) : PbsrBlind (onWalk f) := fun v s => by
  unfold onWalk
  rw [State.withPbsr_walk]
  cases s.walk with
  | none => rfl
  | some w => exact hf w v s

/-- The walk is replaced. -/
theorem setWalk_pbsrBlind (w : Option Walk) : PbsrBlind fun s => .ok () (s.withWalk w) := update_pbsrBlind fun _ _ => rfl

theorem passOver_pbsrBlind (w : Walk) (length : Word) : PbsrBlind (passOver w length) := setWalk_pbsrBlind _

theorem readField_pbsrBlind (p size : Nat) (length : Word) : PbsrBlind (readField p size length) :=
  (memRead_pbsrBlind p size).bind fun b =>
    ite_pbsrBlind (fun _ => .ok (a := fun s => cutPayload length.toNat s.draws b) (fun _ => rfl) fun _ => rfl) (ok_pbsrBlind b)

theorem readWordField_pbsrBlind (p : Nat) (length : Word) : PbsrBlind (readWordField p length) :=
  (readField_pbsrBlind p 4 length).bind fun _ => ok_pbsrBlind _

theorem readVersionField_pbsrBlind (p : Nat) (length : Word) : PbsrBlind (readVersionField p length) :=
  (readField_pbsrBlind p 16 length).bind fun _ => ok_pbsrBlind _

theorem readBytesField_pbsrBlind (n p : Nat) (length : Word) : PbsrBlind (readBytesField n p length) :=
  (readField_pbsrBlind p n length).bind fun _ => ok_pbsrBlind _

theorem globalRecord_pbsrBlind {length : Word} {search : Walk → State → Ran Unit} (h : ∀ w, PbsrBlind (search w)) :
    PbsrBlind (globalRecord length search) :=
  onWalk_pbsrBlind fun w => by
    cases w.phase
    case find => exact h w
    case skip => exact passOver_pbsrBlind w length
    case group => exact refused_pbsrBlind _

theorem recordChnk_pbsrBlind (length : Word) : PbsrBlind (recordChnk length) :=
  globalRecord_pbsrBlind fun _ => (readWordField_pbsrBlind _ length).bind fun _ => setWalk_pbsrBlind _

theorem recordGoptOther_pbsrBlind (length : Word) : PbsrBlind (recordGoptOther length) :=
  globalRecord_pbsrBlind fun w => passOver_pbsrBlind w length

theorem chunkRecord_pbsrBlind {length : Word} {rule : Nat → ChunkHeader → State → Ran ChunkHeader}
    (h : ∀ p d, PbsrBlind (rule p d)) : PbsrBlind (chunkRecord length rule) :=
  onWalk_pbsrBlind fun w => by
    cases w.phase
    case find => exact refused_pbsrBlind _
    case skip => exact refused_pbsrBlind _
    case group =>
      exact ite_pbsrBlind
        (ite_pbsrBlind (raise_pbsrBlind _) ((h _ _).bind fun _ => passOver_pbsrBlind _ length))
        (passOver_pbsrBlind w length)

/-- The rule of a field record looks at what its read looks at. -/
theorem fieldRule_pbsrBlind {α : Type} {read : State → Ran α} (hr : PbsrBlind read) (f : α → ChunkHeader) :
    PbsrBlind fun s => (read s).bind fun v s => .ok (f v) s := hr.bind fun _ => ok_pbsrBlind _

theorem recordVers_pbsrBlind (length : Word) : PbsrBlind (recordVers length) :=
  chunkRecord_pbsrBlind fun p _ => fieldRule_pbsrBlind (readVersionField_pbsrBlind p length) _

theorem recordSize_pbsrBlind (length : Word) : PbsrBlind (recordSize length) :=
  chunkRecord_pbsrBlind fun p _ => fieldRule_pbsrBlind (readWordField_pbsrBlind p length) _

theorem recordData_pbsrBlind (length : Word) : PbsrBlind (recordData length) :=
  chunkRecord_pbsrBlind fun p _ => fieldRule_pbsrBlind (readWordField_pbsrBlind p length) _

theorem recordDest_pbsrBlind (length : Word) : PbsrBlind (recordDest length) :=
  chunkRecord_pbsrBlind fun p _ => fieldRule_pbsrBlind (readBytesField_pbsrBlind 32 p length) _

theorem recordMd5_pbsrBlind (length : Word) : PbsrBlind (recordMd5 length) :=
  chunkRecord_pbsrBlind fun p _ => fieldRule_pbsrBlind (readBytesField_pbsrBlind 16 p length) _

theorem recordSha2_pbsrBlind (length : Word) : PbsrBlind (recordSha2 length) :=
  chunkRecord_pbsrBlind fun p _ => fieldRule_pbsrBlind (readBytesField_pbsrBlind 32 p length) _

theorem recordCr32_pbsrBlind (length : Word) : PbsrBlind (recordCr32 length) :=
  chunkRecord_pbsrBlind fun p _ => fieldRule_pbsrBlind (readWordField_pbsrBlind p length) _

theorem recordEncm_pbsrBlind (length : Word) : PbsrBlind (recordEncm length) :=
  chunkRecord_pbsrBlind fun p _ => fieldRule_pbsrBlind (readWordField_pbsrBlind p length) _

theorem recordCoptOther_pbsrBlind (length : Word) : PbsrBlind (recordCoptOther length) :=
  chunkRecord_pbsrBlind fun _ _ => raise_pbsrBlind _

theorem runRecord_pbsrBlind (i : Instr) : PbsrBlind (runRecord i) := by
  cases i with
  | chnk l => exact recordChnk_pbsrBlind l
  | goptOther _ l => exact recordGoptOther_pbsrBlind l
  | versOpt l => exact recordVers_pbsrBlind l
  | sizeOpt l => exact recordSize_pbsrBlind l
  | dataOpt l => exact recordData_pbsrBlind l
  | destOpt l => exact recordDest_pbsrBlind l
  | md5Opt l => exact recordMd5_pbsrBlind l
  | sha2Opt l => exact recordSha2_pbsrBlind l
  | cr32Opt l => exact recordCr32_pbsrBlind l
  | encmOpt l => exact recordEncm_pbsrBlind l
  | coptOther _ l => exact recordCoptOther_pbsrBlind l
  | _ => exact refused_pbsrBlind _

theorem fetchRecord_pbsrBlind (w : Walk) : PbsrBlind (fetchRecord w) :=
  (memRead_pbsrBlind _ 4).bind fun _ => (memRead_pbsrBlind _ 4).bind fun _ => ok_pbsrBlind _

theorem fetchInstr_pbsrBlind (w : Walk) : PbsrBlind (fetchInstr w) :=
  (fetchRecord_pbsrBlind w).bind fun b => by
    cases decodeRecord w.table b
    case ok i => exact ok_pbsrBlind i
    case error e => exact refused_pbsrBlind _

theorem skipRecord_pbsrBlind (w : Walk) : PbsrBlind (skipRecord w) :=
  (rd32LE_pbsrBlind _).bind fun l => passOver_pbsrBlind w l

theorem recordTurn_pbsrBlind : PbsrBlind recordTurn :=
  onWalk_pbsrBlind fun w => by
    cases w.phase
    case skip => exact skipRecord_pbsrBlind w
    case find | group => exact (fetchInstr_pbsrBlind w).bind runRecord_pbsrBlind

theorem runRecords_pbsrBlind (m : Nat) : PbsrBlind (runRecords m) := by
  induction m with
  | zero => exact ok_pbsrBlind ()
  | succ m ih =>
    exact onWalk_pbsrBlind fun _ => ite_pbsrBlind (ok_pbsrBlind ()) (recordTurn_pbsrBlind.bind fun _ => ih)

theorem runLoop_pbsrBlind : PbsrBlind runLoop := onWalk_pbsrBlind fun _ => runRecords_pbsrBlind _

theorem startWalk_pbsrBlind (job : Job) (base k : Nat) : PbsrBlind (startWalk job base k) :=
  (rd32LE_pbsrBlind _).bind fun _ => setWalk_pbsrBlind _

theorem foundCount_pbsrBlind : PbsrBlind foundCount :=
  onWalk_pbsrBlind fun w => by
    cases w.found
    case none => exact raise_pbsrBlind _
    case some n => exact ok_pbsrBlind n

theorem beginSkip_pbsrBlind : PbsrBlind beginSkip :=
  foundCount_pbsrBlind.bind fun _ => onWalk_pbsrBlind fun _ =>
    ite_pbsrBlind (raise_pbsrBlind _) ((rd32LE_pbsrBlind _).bind fun _ => setWalk_pbsrBlind _)

theorem beginGroups_pbsrBlind : PbsrBlind beginGroups := onWalk_pbsrBlind fun _ => update_pbsrBlind fun _ _ => rfl

theorem enterGroup_pbsrBlind : PbsrBlind enterGroup :=
  onWalk_pbsrBlind fun _ => (rd32LE_pbsrBlind _).bind fun _ => setWalk_pbsrBlind _

theorem runGroups_pbsrBlind (m : Nat) : PbsrBlind (runGroups m) := by
  induction m with
  | zero => exact ok_pbsrBlind ()
  | succ m ih => exact enterGroup_pbsrBlind.bind fun _ => runLoop_pbsrBlind.bind fun _ => ih

theorem takeHeader_pbsrBlind : PbsrBlind takeHeader := onWalk_pbsrBlind fun _ _ => .ok (fun _ => rfl) fun _ => rfl

theorem countChunks_pbsrBlind (base : Nat) : PbsrBlind (countChunks base) :=
  (startWalk_pbsrBlind _ _ _).bind fun _ => runLoop_pbsrBlind.bind fun _ =>
    foundCount_pbsrBlind.ret (fun _ _ _ => rfl) fun _ _ _ => rfl

theorem chunkHeader_pbsrBlind (base k : Nat) : PbsrBlind (chunkHeader base k) :=
  (startWalk_pbsrBlind _ _ _).bind fun _ => runLoop_pbsrBlind.bind fun _ => beginSkip_pbsrBlind.bind fun _ =>
    runLoop_pbsrBlind.bind fun _ => beginGroups_pbsrBlind.bind fun _ => (runGroups_pbsrBlind k).bind fun _ =>
    takeHeader_pbsrBlind

theorem compareName_withPbsr (d : Vector Byte 32) (name : List Byte) (s : State) (v : Word) :
    compareName d name (s.withPbsr v) = ((compareName d name s).1, (compareName d name s).2.withPbsr v) := by
  unfold compareName
  split
  · rfl
  · rfl

theorem findByName_pbsrBlind (base : Nat) (name : List Byte) (m c : Nat) : PbsrBlind (findByName base name m c) := by
  induction m generalizing c with
  | zero => exact raise_pbsrBlind _
  | succ m ih =>
    refine (chunkHeader_pbsrBlind base c).bind fun h => ite_pbsrBlind (fun v s => ?_) (ih _)
    simp only [compareName_withPbsr]
    split
    · rfl
    · exact ih _ v _

/-! ## The validator does not look at PBSR -/

theorem digestOf_pbsrBlind {α : Type} (load : List Byte → Engine) (result : Engine → α) (a n : Nat) :
    PbsrBlind (digestOf load result a n) := (memRead_pbsrBlind a n).ret (fun _ _ _ => rfl) fun _ _ _ => rfl

theorem checkMagic_pbsrBlind (base : Nat) : PbsrBlind (checkMagic base) :=
  (memRead_pbsrBlind base 8).bind fun _ => ite_pbsrBlind (ok_pbsrBlind ()) (raise_pbsrBlind _)

theorem checkTotalLength_pbsrBlind (x tl : Word) : PbsrBlind (checkTotalLength x tl) :=
  ite_pbsrBlind (raise_pbsrBlind _) (ok_pbsrBlind ())

theorem checkFormatVersion_pbsrBlind (fv : Word) : PbsrBlind (checkFormatVersion fv) :=
  ite_pbsrBlind (raise_pbsrBlind _) (ok_pbsrBlind ())

theorem checkGlobalCrc_pbsrBlind (base : Nat) (tl : Word) : PbsrBlind (checkGlobalCrc base tl) :=
  ite_pbsrBlind (refused_pbsrBlind _) ((digestOf_pbsrBlind _ _ _ _).bind fun _ => (rd32LE_pbsrBlind _).bind fun _ =>
    ite_pbsrBlind (ok_pbsrBlind ()) (raise_pbsrBlind _))

theorem checkDigest_pbsrBlind {α : Type} [DecidableEq α] {present : Bool} {digest : State → Ran α} {stored : α} {st : Status}
    (hd : PbsrBlind digest) : PbsrBlind (checkDigest present digest stored st) :=
  ite_pbsrBlind (hd.bind fun _ => ite_pbsrBlind (ok_pbsrBlind ()) (raise_pbsrBlind _)) (ok_pbsrBlind ())

theorem checkChunk_pbsrBlind (base : Nat) (h : ChunkHeader) : PbsrBlind (checkChunk base h) :=
  ite_pbsrBlind
    ((checkDigest_pbsrBlind (digestOf_pbsrBlind _ _ _ _)).bind fun _ =>
      (checkDigest_pbsrBlind (digestOf_pbsrBlind _ _ _ _)).bind fun _ => checkDigest_pbsrBlind (digestOf_pbsrBlind _ _ _ _))
    (ok_pbsrBlind ())

theorem walkerFailure_pbsrBlind {α : Type} {f : State → Ran α} (hf : PbsrBlind f) : PbsrBlind fun s => walkerFailure (f s) :=
  fun v s => by
    simp only [hf v s]
    cases f s with
    | raised c t => simp only [Ran.mapState_raised, walkerFailure]; split <;> rfl
    | ok a t => rfl
    | fault r => rfl
    | refused r => rfl

theorem checkChunks_pbsrBlind (base m c : Nat) : PbsrBlind (checkChunks base m c) := by
  induction m generalizing c with
  | zero => exact ok_pbsrBlind ()
  | succ m ih =>
    exact (walkerFailure_pbsrBlind (chunkHeader_pbsrBlind base c)).bind fun h => (checkChunk_pbsrBlind base h).bind fun _ => ih _

theorem validate_pbsrBlind (base : Nat) (x : Word) : PbsrBlind (validate base x) :=
  (checkMagic_pbsrBlind base).bind fun _ => (rd32LE_pbsrBlind _).bind fun tl => (checkTotalLength_pbsrBlind x tl).bind fun _ =>
    (rd32LE_pbsrBlind _).bind fun fv => (checkFormatVersion_pbsrBlind fv).bind fun _ =>
    (checkGlobalCrc_pbsrBlind base tl).bind fun _ => (walkerFailure_pbsrBlind (countChunks_pbsrBlind base)).bind fun _ =>
    checkChunks_pbsrBlind base _ _

/-! ## The cipher does not look at PBSR -/

theorem onRam_pbsrBlind {body : State → Ran Unit} (hb : PbsrBlind body) : PbsrBlind (onRam body) := fun v s => by
  unfold onRam
  rw [State.withPbsr_cfg]
  cases s.cfg.store with
  | ram => exact hb v s
  | file => rfl

theorem bfInit_pbsrBlind (key : List Byte) : PbsrBlind (bfInit key) :=
  ite_pbsrBlind (update_pbsrBlind fun _ _ => rfl) (refused_pbsrBlind _)

theorem blockOp_pbsrBlind (f : Subkeys → Word × Word → Word × Word) (xl xr : Word) : PbsrBlind (blockOp f xl xr) := fun v =>
  .ite (fun _ => Iff.rfl) (update_pbsrBlind (fun _ _ => rfl) v) (.refused _)

theorem readBlockWord_pbsrBlind (a : Nat) : PbsrBlind (readBlockWord a) := fun v s => by
  unfold readBlockWord
  rw [State.withPbsr_cfg]
  cases s.cfg.blockOrder with
  | be => exact rd32BE_pbsrBlind a v s
  | le => exact rd32LE_pbsrBlind a v s

theorem writeBlockWord_pbsrBlind (a : Nat) (x : Word) : PbsrBlind (writeBlockWord a x) := 
  .choose (p := fun s => blockWordBytes s.cfg.blockOrder x) (fun _ _ => rfl) (memWrite_pbsrBlind a)

/-- The subkeys a block is deciphered with are read from the state. -/
theorem decryptBlock_pbsrBlind (a : Nat) : PbsrBlind (decryptBlock a) :=
  (readBlockWord_pbsrBlind a).bind fun xl => (readBlockWord_pbsrBlind _).bind fun xr =>
    .choose (p := fun s => decipher s.keys (xl, xr)) (fun _ _ => rfl) fun y =>
      (writeBlockWord_pbsrBlind a y.1).bind fun _ => writeBlockWord_pbsrBlind _ y.2

theorem decryptBlocks_pbsrBlind (n a : Nat) : PbsrBlind (decryptBlocks n a) := by
  induction n generalizing a with
  | zero => exact ok_pbsrBlind ()
  | succ n ih => exact (decryptBlock_pbsrBlind a).bind fun _ => ih _

/-- The key is a parameter, which is read from the state. -/
theorem decryptBuffer_pbsrBlind (addr len : Nat) : PbsrBlind (decryptBuffer addr len) :=
  PbsrBlind.bind (.choose (p := fun s => s.cfg.key) (fun _ _ => rfl) bfInit_pbsrBlind) fun _ =>
    (decryptBlocks_pbsrBlind _ addr).bind fun _ => (rd32BE_pbsrBlind _).bind fun _ =>
    ite_pbsrBlind (update_pbsrBlind fun _ _ => rfl) (raise_pbsrBlind _)

/-! ## The operations -/

/-- The digest operations: an engine's result is stored in RES. -/
theorem digestOperation_pbsrBlind {α : Type} (load : List Byte → Engine) (result : Engine → α) (a n : Nat)
    {u : α → State → State} (hu : ∀ x s v, u x (s.withPbsr v) = (u x s).withPbsr v) :
    PbsrBlind (onRam fun s => (digestOf load result a n s).bind fun x s => .ok () (u x s)) :=
  onRam_pbsrBlind ((digestOf_pbsrBlind load result a n).ret (fun _ _ _ => rfl) hu)

/-- An operation outside the boot-state unit does the same whatever PBSR holds. -/
theorem exec_withPbsr {i : Instr} {s t : State} (hi : bootState i = false) (h : exec i s = .next t) (v : Word) :
    exec i (s.withPbsr v) = .next (t.withPbsr v) := by
  cases i with simp only [exec] at h ⊢
  | magic b => exact operation_withPbsr h ((checkMagic_pbsrBlind b).ret (fun _ _ _ => rfl) fun _ _ _ => rfl) v
  | valid b m => exact operation_withPbsr h ((validate_pbsrBlind b m).ret (fun _ _ _ => rfl) fun _ _ _ => rfl) v
  | globver b =>
    exact operation_withPbsr h ((rd32LE_pbsrBlind _).bind fun _ => (rd32LE_pbsrBlind _).bind fun _ =>
      (rd32LE_pbsrBlind _).bind fun _ => (rd32LE_pbsrBlind _).ret (fun _ _ _ => rfl) fun _ _ _ => rfl) v
  | chnknum b => exact operation_withPbsr h ((countChunks_pbsrBlind b).ret (fun _ _ _ => rfl) fun _ _ _ => rfl) v
  | chnkhdrN b k => exact operation_withPbsr h ((chunkHeader_pbsrBlind b _).ret (fun _ _ _ => rfl) fun _ _ _ => rfl) v
  | chnkhdrD b name =>
    exact operation_withPbsr h ((countChunks_pbsrBlind b).bind fun _ =>
      (findByName_pbsrBlind b name _ _).ret (fun _ _ _ => rfl) fun _ _ _ => rfl) v
  | decrypt a len =>
    exact operation_withPbsr h (onRam_pbsrBlind (ite_pbsrBlind (decryptBuffer_pbsrBlind a len.toNat) (refused_pbsrBlind _))) v
  | errstate => exact operation_withPbsr h (update_pbsrBlind fun _ _ => rfl) v
  | fwupUsbUpdateReq | fwupMtdparts => exact operation_withPbsr h (refused_pbsrBlind _) v
  | bfInit key => exact operation_withPbsr h ((bfInit_pbsrBlind key).ret (fun _ _ _ => rfl) fun _ _ _ => rfl) v
  | bfEnc xl xr => exact operation_withPbsr h (blockOp_pbsrBlind encipher xl xr) v
  | bfDec xl xr => exact operation_withPbsr h (blockOp_pbsrBlind decipher xl xr) v
  | crc32 a n | md5 a n | sha256 a n => exact operation_withPbsr h (digestOperation_pbsrBlind _ _ a _ fun _ _ _ => rfl) v
  | chnk l => exact operation_withPbsr h (recordChnk_pbsrBlind l) v
  | goptOther id l => exact operation_withPbsr h (recordGoptOther_pbsrBlind l) v
  | versOpt l => exact operation_withPbsr h (recordVers_pbsrBlind l) v
  | sizeOpt l => exact operation_withPbsr h (recordSize_pbsrBlind l) v
  | dataOpt l => exact operation_withPbsr h (recordData_pbsrBlind l) v
  | destOpt l => exact operation_withPbsr h (recordDest_pbsrBlind l) v
  | md5Opt l => exact operation_withPbsr h (recordMd5_pbsrBlind l) v
  | sha2Opt l => exact operation_withPbsr h (recordSha2_pbsrBlind l) v
  | cr32Opt l => exact operation_withPbsr h (recordCr32_pbsrBlind l) v
  | encmOpt l => exact operation_withPbsr h (recordEncm_pbsrBlind l) v
  | coptOther id l => exact operation_withPbsr h (recordCoptOther_pbsrBlind l) v
  | _ => exact absurd hi.symm Bool.false_ne_true

/-- Settles O33: the boot-state unit does not look at MEM, and every other part does not look at PBSR. -/
theorem spacesAreSeparate : Obligations.SpacesAreSeparate := by
  intro i s t h
  exact ⟨fun hi m => exec_withMem hi h m, fun hi v => exec_withPbsr hi h v⟩

end Sys2Proof.Machine
end

section
/-! The walker's records and CHNKHDR.N as instructions: a record that is passed over only moves the cursor, and a chunk number out of
range ends the walk before the chunk groups. -/

namespace Sys2Proof.Machine

/-! ## A record as an instruction -/

/-- The record's rule is all that the instruction does. -/
theorem exec_eq_operation_runRecord {i : Instr} (hi : isRecord i = true) (s : State) : exec i s = operation (runRecord i) s := by
  cases i with
  | chnk | goptOther | versOpt | sizeOpt | dataOpt | destOpt | md5Opt | sha2Opt | cr32Opt | encmOpt | coptOther => rfl
  | _ => exact absurd hi Bool.false_ne_true

theorem exec_record_ok {i : Instr} {s t : State} (hi : isRecord i = true) (hr : ready s) (h : runRecord i s = .ok () t) :
    exec i s = .next t := by
  rw [exec_eq_operation_runRecord hi, operation_ready hr, h, endOp_ok]

theorem isRecord_decodeGlobalOption (id length : Word) : isRecord (decodeGlobalOption id length) = true := by
  unfold decodeGlobalOption
  split <;> rfl

theorem isRecord_decodeChunkOption (id length : Word) : isRecord (decodeChunkOption id length) = true := by
  unfold decodeChunkOption
  repeat' split
  all_goals rfl

/-! ## Records that are passed over -/

section PassedOver

variable {s : State} {w : Walk}

/-- In the skip loop no global option is looked at, be it `CHNK` or not (40_parser R116). -/
theorem globalRecord_skip (hw : s.walk = some w) (hp : w.phase = .skip) (length : Word) (search : Walk → State → Ran Unit) :
    globalRecord length search s = .ok () (s.withWalk (some (w.advance length))) := by
  simp only [globalRecord, onWalk_some hw, hp, passOver]

theorem runRecord_skip (hw : s.walk = some w) (hp : w.phase = .skip) (id length : Word) :
    runRecord (decodeGlobalOption id length) s = .ok () (s.withWalk (some (w.advance length))) := by
  unfold decodeGlobalOption
  split
  · simp only [runRecord, recordChnk, globalRecord_skip hw hp]
  · simp only [runRecord, recordGoptOther, globalRecord_skip hw hp]

/-- The search for `CHNK` passes over every other global option (40_parser R115). -/
theorem recordGoptOther_find (hw : s.walk = some w) (hp : w.phase = .find) (length : Word) :
    recordGoptOther length s = .ok () (s.withWalk (some (w.advance length))) := by
  simp only [recordGoptOther, globalRecord, onWalk_some hw, hp, passOver]

/-- Outside the target group neither the length limit nor the record's rule comes into play (40_parser R116). -/
theorem chunkRecord_passed (hw : s.walk = some w) (hp : w.phase = .group) (hk : w.c ≠ w.k) (length : Word)
    (rule : Nat → ChunkHeader → State → Ran ChunkHeader) :
    chunkRecord length rule s = .ok () (s.withWalk (some (w.advance length))) := by
  simp only [chunkRecord, onWalk_some hw, hp, if_neg hk, passOver]

theorem recordCoptOther_passed (hw : s.walk = some w) (hp : w.phase = .group) (hk : w.c ≠ w.k) (length : Word) :
    recordCoptOther length s = .ok () (s.withWalk (some (w.advance length))) := chunkRecord_passed hw hp hk length _

end PassedOver

/-- Settles O39: each of the four ways to meet such a record comes to `passOver`, which reads nothing of it. -/
theorem passedOverRecords : Obligations.PassedOverRecords := by
  intro s w id length hr hw
  refine ⟨fun hp hk => ⟨?_, ?_⟩, fun hp => ?_, fun hp _ => ?_⟩
  · exact exec_record_ok (isRecord_decodeChunkOption id length) hr (runRecord_passed hw hp hk id rfl)
  · exact exec_record_ok (i := .coptOther id length) rfl hr (recordCoptOther_passed hw hp hk length)
  · exact exec_record_ok (isRecord_decodeGlobalOption id length) hr (runRecord_skip hw hp id length)
  · exact exec_record_ok (i := .goptOther id length) rfl hr (recordGoptOther_find hw hp length)

/-! ## A chunk number out of range -/

/-- The range test that follows the search ends the walk when the chunk number is 0 or above the count (40_parser R117). -/
theorem beginSkip_outOfRange {s : State} {w : Walk} {n : Word} (hw : s.walk = some w) (hf : w.found = some n)
    (hk : w.k < 1 ∨ n.toNat < w.k) : beginSkip s = .raised Status.notFound.code s := by
  have hcount : foundCount s = .ok n s := by simp only [foundCount, onWalk_some hw, hf]
  rw [beginSkip, hcount, Ran.bind_ok, onWalk_some hw, if_pos hk, raise]

/-- CHNKHDR.N's walk on an image, for a chunk number that no chunk group has. -/
theorem chunkHeader_outOfRange {m : Image} {base k : Nat} {s : State} (hs : inRam s) (hm : m.spelled) (h : m.stands base s)
    (hk : k = 0 ∨ m.groups.length < k) : ∃ u, chunkHeader base k s = .raised Status.notFound.code u := by
  obtain ⟨hopts, hgroups, hspelled, hbefore, hid, hfour, hcount, -⟩ := hm
  have hfind := find_chnk (k := k) hs .header hopts m.before_lt (fun r hr => hspelled r (Image.before_mem hr)) hbefore
    (hspelled _ m.chnk_mem) hid hfour (Image.stands_search h)
  have hrange : k < 1 ∨ (le32At m.chnk.payload 0).toNat < k := by
    rw [hcount, count_toNat hgroups, Nat.lt_one_iff]
    exact hk
  rw [chunkHeader, ← Ran.bind_assoc, hfind, Ran.bind_ok, beginSkip_outOfRange (State.withWalk_walk _ _) rfl hrange]
  exact ⟨_, rfl⟩

/-- CHNKHDR.N ends with the status that its walk raises. -/
theorem execChnkhdrN_raised {s : State} {base : Nat} {k c : Word} (hr : ready s)
    (h : ∃ u, chunkHeader base k.toNat s = .raised c u) :
    ∃ t, exec (.chnkhdrN base k) s = .next t ∧ t.status = c ∧ t.exit = 1 := by
  obtain ⟨u, hu⟩ := h
  have hexec : exec (.chnkhdrN base k) s = .next (u.failed c) := by
    rw [exec, execChnkhdrN, operation_ready hr, hu, Ran.bind_raised, endOp_raised]
  exact ⟨u.failed c, hexec, State.failed_status u c, State.failed_exit u c⟩

/-- Settles O37: the walk ends at the range test after `CHNK` is found, or in the search when there is none. -/
theorem chunkNumberOutOfRange : Obligations.ChunkNumberOutOfRange := by
  intro s base k hr hs
  refine ⟨fun m hm hstands hk => ?_, fun opts rest hopts hother hbytes => ?_⟩
  · exact execChnkhdrN_raised hr (chunkHeader_outOfRange hs hm hstands hk)
  · obtain ⟨w, hnone⟩ := chunkHeader_none (k := k.toNat) hs hopts (fun r h => (hother r h).1) (fun r h => (hother r h).2) hbytes
    exact execChnkhdrN_raised hr ⟨_, hnone⟩

end Sys2Proof.Machine
end

section
/-! MAGIC, and the checks of VALID that come before the chunks (41_validator R140 to R145, R149, R151): what each needs of the image
and how VALID ends at it. -/

namespace Sys2Proof.Machine

/-! ## MAGIC -/

section Magic

variable {s u : State} {base : Nat} {b : List Byte}

/-- A read of bytes that can be read, with the image in a file store (20_memory R52). -/
theorem memRead_file {n : Nat} (hs : s.cfg.store = .file) (h : readableRun s base n) :
    memRead base n s =
      if Config.freeBool s.draws then raise .fileIOError s.drawn else .ok (Memory.bytes s.mem base n) s.drawn := by
  have hextent : readExtent base n s.drawn = .ok (Memory.bytes s.mem base n) s.drawn := if_pos h
  simp only [memRead, hs, hextent]

theorem exec_magic_eq (hr : ready s) :
    exec (.magic base) s = endOp ((checkMagic base s).bind fun _ s => .ok () s.returnedCommand) := by
  rw [exec, execMagic, operation_ready hr]

theorem exec_magic_matches (hr : ready s) (hread : memRead base 8 s = .ok Config.magic u) :
    exec (.magic base) s = .next u.returnedCommand := by
  rw [exec_magic_eq hr, checkMagic, hread]
  rfl

theorem exec_magic_differs (hr : ready s) (hread : memRead base 8 s = .ok b u) (hb : b ≠ Config.magic) :
    exec (.magic base) s = .next (u.failed Status.magicError.code) := by
  rw [exec_magic_eq hr, checkMagic, hread, Ran.bind_ok, if_neg hb]
  rfl

theorem exec_magic_readFails (hr : ready s) {c : Word} (hread : memRead base 8 s = .raised c u) :
    exec (.magic base) s = .next (u.failed c) := by
  rw [exec_magic_eq hr, checkMagic, hread]
  rfl

end Magic

/-- Settles O44: MAGIC's one read gives the eight bytes, or in a file store it may fail; the bytes then decide. -/
theorem magicResult : Obligations.MagicResult := by
  intro s base hr hread magic
  refine ⟨fun hs hm => ?_, fun hs hm => ?_, fun hs => ?_⟩
  · exact ⟨_, exec_magic_matches hr ((memRead_ram hs hread).trans (congrArg (Ran.ok · s) hm)), rfl, rfl⟩
  · exact ⟨_, exec_magic_differs hr (memRead_ram hs hread) hm, rfl, rfl⟩
  have hfile := memRead_file hs hread
  by_cases hfails : Config.freeBool s.draws
  · rw [if_pos hfails] at hfile
    exact ⟨_, exec_magic_readFails hr hfile, .inl rfl⟩
  rw [if_neg hfails] at hfile
  by_cases hm : magic
  · exact ⟨_, exec_magic_matches hr (hfile.trans (congrArg (Ran.ok · _) hm)), .inr (.inl ⟨hm, rfl, rfl⟩)⟩
  · exact ⟨_, exec_magic_differs hr hfile hm, .inr (.inr ⟨hm, rfl, rfl⟩)⟩

/-! ## How VALID ends -/

section ValidEnds

variable {s t u : State} {base : Nat} {maxSize : Word}

theorem exec_valid_eq (hr : ready s) :
    exec (.valid base maxSize) s = endOp ((validate base maxSize s).bind fun _ s => .ok () s.returnedCommand) := by
  rw [exec, execValid, operation_ready hr]

theorem exec_valid_ok (hr : ready s) (h : validate base maxSize s = .ok () u) :
    exec (.valid base maxSize) s = .next u.returnedCommand := by
  rw [exec_valid_eq hr, h, Ran.bind_ok, endOp_ok]

theorem exec_valid_raised {c : Word} (hr : ready s) (h : validate base maxSize s = .raised c u) :
    exec (.valid base maxSize) s = .next (u.failed c) := by
  rw [exec_valid_eq hr, h, Ran.bind_raised, endOp_raised]

/-- VALID ends with STATUS 0 only when no check raises a status, since no status raised is 0. -/
theorem validate_ok_of_exec_valid (h : exec (.valid base maxSize) s = .next t) (ht : t.status = 0) :
    ready s ∧ ∃ u, validate base maxSize s = .ok () u := by
  rw [exec, execValid] at h
  obtain ⟨hr, hend⟩ := operation_eq_next.mp h
  refine ⟨hr, ?_⟩
  rcases hend with hok | ⟨c, u, hraised, rfl⟩
  · obtain ⟨_, u, hvalidate, -⟩ := Ran.bind_eq_ok.mp hok
    exact ⟨u, hvalidate⟩
  · rcases Ran.bind_eq_raised.mp hraised with hvalidate | ⟨_, _, -, hreturn⟩
    · have hends := validate_keeps base maxSize s
      rw [hvalidate] at hends
      exact absurd ht hends.1
    · cases hreturn

end ValidEnds

/-! ## The header of an image, with the image in RAM -/

/-- A word of the global header (30_encoding R84). -/
abbrev headWord (s : State) (base k : Nat) : Word := le32At (Memory.bytes s.mem (base + k) 4) 0

/-- The bytes of the range of the global CRC-32 (41_validator R145). -/
abbrev crcRange (s : State) (base : Nat) : List Byte :=
  Memory.bytes s.mem (base + 20) ((headWord s base 12).toNat - 20)

/-- What the first four checks read can be read, and the total length reaches the range of the global CRC-32. -/
structure HeadReadable (s : State) (base : Nat) : Prop where
  fields : readableRun s base 20
  reaches : 20 ≤ (headWord s base 12).toNat
  range : readableRun s (base + 20) ((headWord s base 12).toNat - 20)

theorem HeadReadable.magic {s : State} {base : Nat} (h : HeadReadable s base) : readableRun s base 8 :=
  readableRun_sub h.fields (by omega) (by omega)

theorem HeadReadable.field {s : State} {base k n : Nat} (h : HeadReadable s base) (hk : k + n ≤ 20) :
    readableRun s (base + k) n := readableRun_sub h.fields (by omega) (by omega)

/-- The first four checks of VALID pass (41_validator R142 to R145). -/
def HeadPasses (s : State) (base : Nat) (maxSize : Word) : Prop :=
  Memory.bytes s.mem base 8 = Config.magic ∧ (maxSize = 0 ∨ (headWord s base 12).toNat ≤ maxSize.toNat) ∧
    (headWord s base 8).toNat ≤ 1 ∧ crc32Fn (crcRange s base) = headWord s base 16

section Head

variable {s : State} {base : Nat} {maxSize : Word}

theorem validate_magicError (hs : inRam s) (h8 : readableRun s base 8) (hm : Memory.bytes s.mem base 8 ≠ Config.magic) :
    validate base maxSize s = .raised Status.magicError.code s := by
  rw [validate, checkMagic_ram hs h8, if_neg hm, raise, Ran.bind_raised]

theorem validate_totalLengthError (hs : inRam s) (h8 : readableRun s base 8) (hm : Memory.bytes s.mem base 8 = Config.magic)
    (h12 : readableRun s (base + 12) 4) (hfits : ¬ (maxSize = 0 ∨ (headWord s base 12).toNat ≤ maxSize.toNat)) :
    validate base maxSize s = .raised Status.totalLengthError.code s := by
  rw [validate, checkMagic_ram hs h8, if_pos hm, Ran.bind_ok, rdTotalLength_ram hs h12, Ran.bind_ok,
    checkTotalLength_raises hfits, raise, Ran.bind_raised]

theorem validate_formatVersionError (hs : inRam s) (h8 : readableRun s base 8) (hm : Memory.bytes s.mem base 8 = Config.magic)
    (hwords : readableRun s (base + 8) 8) (hfits : maxSize = 0 ∨ (headWord s base 12).toNat ≤ maxSize.toNat)
    (hfv : 1 < (headWord s base 8).toNat) : validate base maxSize s = .raised Status.formatVersionError.code s := by
  rw [validate_head hs h8 hm hwords hfits, checkFormatVersion_raises hfv, raise, Ran.bind_raised]

/-- A limit that holds makes the same of an image as no limit: both go on after the total length is read, or fault there. -/
theorem validate_limit_holds (hs : inRam s) (h8 : readableRun s base 8)
    (hfits : maxSize = 0 ∨ (headWord s base 12).toNat ≤ maxSize.toNat) : validate base maxSize s = validate base 0 s := by
  by_cases hm : Memory.bytes s.mem base 8 = Config.magic
  · rw [validate, validate, checkMagic_ram hs h8, if_pos hm, Ran.bind_ok, Ran.bind_ok]
    by_cases h12 : readableRun s (base + 12) 4
    · rw [rdTotalLength_ram hs h12, Ran.bind_ok, Ran.bind_ok, checkTotalLength_passes hfits, checkTotalLength_passes (.inl rfl)]
    · have hfault : rd32LE (totalLengthAddr base) s = .fault .outOfExtent := by
        rw [rd32LE, totalLengthAddr, memRead_ram_fault hs h12, Ran.bind_fault]
      rw [hfault, Ran.bind_fault, Ran.bind_fault]
  · rw [validate_magicError hs h8 hm, validate_magicError hs h8 hm]

/-- VALID up to the global CRC-32, when the first three checks pass. -/
theorem validate_globalCrc (hs : inRam s) (hread : HeadReadable s base) (hm : Memory.bytes s.mem base 8 = Config.magic)
    (hfits : maxSize = 0 ∨ (headWord s base 12).toNat ≤ maxSize.toNat) (hfv : (headWord s base 8).toNat ≤ 1) :
    validate base maxSize s =
      (if crc32Fn (crcRange s base) = headWord s base 16 then .ok () (s.withEngine .idle)
        else raise .crc32Error (s.withEngine .idle) : Ran Unit).bind fun _ s =>
      (walkerFailure (countChunks base s)).bind fun n s => checkChunks base n.toNat 1 s := by
  rw [validate_head hs hread.magic hm (hread.field (by decide)) hfits, checkFormatVersion_passes hfv, Ran.bind_ok,
    checkGlobalCrc_ram hs hread.reaches hread.range (hread.field (by decide))]

theorem validate_crc32Error (hs : inRam s) (hread : HeadReadable s base) (hm : Memory.bytes s.mem base 8 = Config.magic)
    (hfits : maxSize = 0 ∨ (headWord s base 12).toNat ≤ maxSize.toNat) (hfv : (headWord s base 8).toNat ≤ 1)
    (hcrc : crc32Fn (crcRange s base) ≠ headWord s base 16) :
    validate base maxSize s = .raised Status.crc32Error.code (s.withEngine .idle) := by
  rw [validate_globalCrc hs hread hm hfits hfv, if_neg hcrc, raise, Ran.bind_raised]

theorem validate_headPasses (hs : inRam s) (hread : HeadReadable s base) (h : HeadPasses s base maxSize) :
    validate base maxSize s =
      (walkerFailure (countChunks base (s.withEngine .idle))).bind fun n s => checkChunks base n.toNat 1 s := by
  obtain ⟨hm, hfits, hfv, hcrc⟩ := h
  rw [validate_globalCrc hs hread hm hfits hfv, if_pos hcrc, Ran.bind_ok]

/-- One of the first four checks ends VALID when they do not all pass. -/
theorem validate_not_headPasses (hs : inRam s) (hread : HeadReadable s base) (h : ¬ HeadPasses s base maxSize) :
    ∃ st u, st ≠ Status.valid ∧ validate base maxSize s = .raised st.code u := by
  by_cases hm : Memory.bytes s.mem base 8 = Config.magic
  · by_cases hfits : maxSize = 0 ∨ (headWord s base 12).toNat ≤ maxSize.toNat
    · by_cases hfv : (headWord s base 8).toNat ≤ 1
      · exact ⟨.crc32Error, _, by decide, validate_crc32Error hs hread hm hfits hfv fun hcrc => h ⟨hm, hfits, hfv, hcrc⟩⟩
      · exact ⟨.formatVersionError, _, by decide,
          validate_formatVersionError hs hread.magic hm (hread.field (by decide)) hfits (Nat.lt_of_not_le hfv)⟩
    · exact ⟨.totalLengthError, _, by decide, validate_totalLengthError hs hread.magic hm (hread.field (by decide)) hfits⟩
  · exact ⟨.magicError, _, by decide, validate_magicError hs hread.magic hm⟩

end Head

/-- Settles O45: each check that fails ends VALID before the next field is read. -/
theorem validFirstThreeChecks : Obligations.ValidFirstThreeChecks := by
  intro s base maxSize hr hs word magic fits h8
  refine ⟨fun hm => ?_, fun h12 hm hfits => ?_, fun hwords hm hfits hfv => ?_, fun hfits => ?_⟩
  · exact ⟨_, exec_valid_raised hr (validate_magicError hs h8 hm), rfl⟩
  · exact ⟨_, exec_valid_raised hr (validate_totalLengthError hs h8 hm h12 hfits), rfl⟩
  · exact ⟨_, exec_valid_raised hr (validate_formatVersionError hs h8 hm hwords hfits hfv), rfl⟩
  · rw [exec_valid_eq hr, exec_valid_eq hr, validate_limit_holds hs h8 hfits]

/-! ## A changed byte in the range of the global CRC-32 -/

section ChecksThatPass

variable {s u : State} {a base : Nat} {maxSize : Word}

theorem rd32LE_ram_eq_ok {v : Word} (hs : inRam s) :
    rd32LE a s = .ok v u ↔ readableRun s a 4 ∧ v = le32At (Memory.bytes s.mem a 4) 0 ∧ u = s := by
  by_cases h : readableRun s a 4
  · simp [rd32LE_ram hs h, h, eq_comm]
  · simp [rd32LE, memRead_ram_fault hs h, h]

theorem crcOf_ram_eq_ok {n : Nat} {v : Word} (hs : inRam s) :
    crcOf a n s = .ok v u ↔ readableRun s a n ∧ v = crc32Fn (Memory.bytes s.mem a n) ∧ u = s.withEngine .idle := by
  by_cases h : readableRun s a n
  · simp [crcOf, crc32Fn, digestOf_ram hs h, h, eq_comm]
  · simp [crcOf, digestOf_ram_fault hs h, h]

theorem checkMagic_ram_eq_ok (hs : inRam s) :
    checkMagic base s = .ok () u ↔ readableRun s base 8 ∧ Memory.bytes s.mem base 8 = Config.magic ∧ u = s := by
  by_cases h : readableRun s base 8
  · by_cases hm : Memory.bytes s.mem base 8 = Config.magic <;> simp [checkMagic_ram hs h, h, hm, raise, eq_comm]
  · simp [checkMagic, memRead_ram_fault hs h, h]

theorem checkTotalLength_eq_ok {tl : Word} :
    checkTotalLength maxSize tl s = .ok () u ↔ (maxSize = 0 ∨ tl.toNat ≤ maxSize.toNat) ∧ u = s := by
  by_cases h : maxSize = 0 ∨ tl.toNat ≤ maxSize.toNat
  · rw [checkTotalLength_passes h, and_iff_right h]
    simp [eq_comm]
  · rw [checkTotalLength_raises h]
    simp only [h, false_and, raise, reduceCtorEq]

theorem checkFormatVersion_eq_ok {fv : Word} : checkFormatVersion fv s = .ok () u ↔ fv.toNat ≤ 1 ∧ u = s := by
  by_cases h : fv.toNat ≤ 1
  · simp [checkFormatVersion_passes h, h, eq_comm]
  · simp [checkFormatVersion_raises (Nat.lt_of_not_le h), h, raise]

/-- Step 4 passes only over a range that can be read, and only when the stored CRC-32 is that of the range. -/
theorem checkGlobalCrc_ram_ok {tl : Word} (hs : inRam s) (h : checkGlobalCrc base tl s = .ok () u) :
    20 ≤ tl.toNat ∧ readableRun s (base + 20) (tl.toNat - 20) ∧ readableRun s (base + 16) 4 ∧
      crc32Fn (Memory.bytes s.mem (base + 20) (tl.toNat - 20)) = headWord s base 16 := by
  unfold checkGlobalCrc at h
  split at h
  case isTrue => cases h
  case isFalse h20 =>
    obtain ⟨v, t, hcrc, h⟩ := Ran.bind_eq_ok.mp h
    obtain ⟨hrange, rfl, rfl⟩ := (crcOf_ram_eq_ok hs).mp hcrc
    obtain ⟨stored, t, hword, h⟩ := Ran.bind_eq_ok.mp h
    obtain ⟨hstored, rfl, rfl⟩ := (rd32LE_ram_eq_ok (s := s.withEngine .idle) hs).mp hword
    split at h
    case isTrue heq => exact ⟨Nat.le_of_not_lt h20, hrange, hstored, heq⟩
    case isFalse => cases h

/-- An image that VALID accepts has a header that can be read and that passes the first four checks. -/
theorem headPasses_of_validate_ok (hs : inRam s) (h : validate base maxSize s = .ok () u) :
    HeadReadable s base ∧ HeadPasses s base maxSize := by
  unfold validate at h
  obtain ⟨_, _, hmagic, afterMagic⟩ := Ran.bind_eq_ok.mp h
  obtain ⟨h8, hm, rfl⟩ := (checkMagic_ram_eq_ok hs).mp hmagic
  obtain ⟨_, _, htl, afterTotalLength⟩ := Ran.bind_eq_ok.mp afterMagic
  obtain ⟨h12, rfl, rfl⟩ := (rd32LE_ram_eq_ok hs).mp htl
  obtain ⟨_, _, hlimit, afterLimit⟩ := Ran.bind_eq_ok.mp afterTotalLength
  obtain ⟨hfits, rfl⟩ := checkTotalLength_eq_ok.mp hlimit
  obtain ⟨_, _, hword, afterWord⟩ := Ran.bind_eq_ok.mp afterLimit
  obtain ⟨h8', rfl, rfl⟩ := (rd32LE_ram_eq_ok hs).mp hword
  obtain ⟨_, _, hversion, afterVersion⟩ := Ran.bind_eq_ok.mp afterWord
  obtain ⟨hfv, rfl⟩ := checkFormatVersion_eq_ok.mp hversion
  obtain ⟨_, _, hglobal, -⟩ := Ran.bind_eq_ok.mp afterVersion
  obtain ⟨h20, hrange, h16, hcrc⟩ := checkGlobalCrc_ram_ok hs hglobal
  have hfields : readableRun _ base (8 + 4 + 4 + 4) :=
    readableRun_add.mpr ⟨readableRun_add.mpr ⟨readableRun_add.mpr ⟨h8, h8'⟩, h12⟩, h16⟩
  exact ⟨⟨hfields, h20, hrange⟩, hm, hfits, hfv, hcrc⟩

end ChecksThatPass

section ByteChanged

variable {s : State} {base x : Nat} {v : Byte}

/-- A run of memory that does not hold the byte written. -/
theorem Memory.bytes_write_outside (m : Memory) {a n : Nat} (h : x < a ∨ a + n ≤ x) :
    Memory.bytes (Memory.write m x v) a n = Memory.bytes m a n :=
  Memory.bytes_congr _ _ _ _ fun y h1 h2 => Memory.read_write_other m x y v (by omega)

/-- A run of memory around one of its bytes. -/
theorem Memory.bytes_around (m : Memory) (a i k : Nat) :
    Memory.bytes m a (i + (k + 1)) = Memory.bytes m a i ++ Memory.read m (a + i) :: Memory.bytes m (a + i + 1) k := by
  rw [Memory.bytes_add, Memory.bytes]

/-- Changing one byte of a run of memory changes its CRC-32. -/
theorem crc32Fn_bytes_write (m : Memory) {a n : Nat} (ha : a ≤ x) (hn : x < a + n) (hv : v ≠ Memory.read m x) :
    crc32Fn (Memory.bytes (Memory.write m x v) a n) ≠ crc32Fn (Memory.bytes m a n) := by
  obtain ⟨i, rfl⟩ := Nat.exists_eq_add_of_le ha
  obtain ⟨k, rfl⟩ : ∃ k, n = i + (k + 1) := ⟨n - i - 1, by omega⟩
  rw [Memory.bytes_around, Memory.bytes_around, Memory.read_write_same, Memory.bytes_write_outside m (by omega),
    Memory.bytes_write_outside m (by omega)]
  exact crc32Fn_byte_changed _ _ hv

/-- A byte from the range of the global CRC-32 on is in no field of the header that the first four checks read. -/
theorem headWord_write (hx : base + 20 ≤ x) {k : Nat} (hk : k + 4 ≤ 20) :
    headWord (s.withMem (Memory.write s.mem x v)) base k = headWord s base k := by
  rw [headWord, State.withMem_mem, Memory.bytes_write_outside s.mem (by omega)]

/-- VALID after a byte of the range is changed, of an image whose header passed. -/
theorem validate_byteChanged {maxSize : Word} (hs : inRam s) (hread : HeadReadable s base) (h : HeadPasses s base maxSize)
    (hx : base + 20 ≤ x) (hend : x < base + (headWord s base 12).toNat) (hv : v ≠ Memory.read s.mem x) :
    ∃ u, validate base maxSize (s.withMem (Memory.write s.mem x v)) = .raised Status.crc32Error.code u := by
  obtain ⟨hm, hfits, hfv, hcrc⟩ := h
  have word := fun k => headWord_write (s := s) (v := v) hx (k := k)
  have hread' : HeadReadable (s.withMem (Memory.write s.mem x v)) base :=
    ⟨hread.fields, by rw [word 12 (by decide)]; exact hread.reaches, by rw [word 12 (by decide)]; exact hread.range⟩
  have hreaches := hread.reaches
  refine ⟨_, validate_crc32Error hs hread' ?_ ?_ ?_ ?_⟩
  · rw [State.withMem_mem, Memory.bytes_write_outside s.mem (by omega), hm]
  · rwa [word 12 (by decide)]
  · rwa [word 8 (by decide)]
  · rw [crcRange, word 12 (by decide), word 16 (by decide), ← hcrc]
    exact crc32Fn_bytes_write s.mem hx (by omega) hv

end ByteChanged

/-- Settles O49: the header of the accepted image still passes the first three checks, and the CRC-32 tells two messages apart
that differ in one byte. -/
theorem singleByteCorruptionIsCaught : Obligations.SingleByteCorruptionIsCaught := by
  intro s t base maxSize x v hs hexec hstatus hx hend hv
  obtain ⟨hr, u, hvalidate⟩ := validate_ok_of_exec_valid hexec hstatus
  obtain ⟨hread, hpasses⟩ := headPasses_of_validate_ok hs hvalidate
  obtain ⟨u, hchanged⟩ := validate_byteChanged hs hread hpasses hx hend hv
  exact ⟨_, exec_valid_raised (s := s.withMem _) hr hchanged, rfl⟩

end Sys2Proof.Machine
end

section
/-! The fifth check of VALID, the digests of the chunks (41_validator R146, R147, R152): the first chunk that has a digest which does
not match decides. -/

namespace Sys2Proof.Machine

/-! ## A chunk as the fifth check meets it

The header that CHNKHDR.N gives begins with free fields (10_state R29); what the check asks of a chunk is settled by the fields that
its flags cover, so the header that begins with zeros serves as well. -/

theorem ChunkHeader.Agree.symm {h d : ChunkHeader} (a : h.Agree d) : d.Agree h where
  flag := a.flag.symm
  version := fun k => (a.version ((Agree_has a _).trans k)).symm
  size := fun k => (a.size ((Agree_has a _).trans k)).symm
  data := fun k => (a.data ((Agree_has a _).trans k)).symm
  dest := fun k => (a.dest ((Agree_has a _).trans k)).symm
  md5 := fun k => (a.md5 ((Agree_has a _).trans k)).symm
  sha256 := fun k => (a.sha256 ((Agree_has a _).trans k)).symm
  crc32 := fun k => (a.crc32 ((Agree_has a _).trans k)).symm
  encm := fun k => (a.encm ((Agree_has a _).trans k)).symm

theorem payloadReadable_agree {s : State} {base : Nat} {h d : ChunkHeader} (a : h.Agree d) (k : payloadReadable s base h) :
    payloadReadable s base d := by
  intro hd
  have hm := (Agree_minimal a).trans hd
  obtain ⟨-, hsize, hdata, -, -⟩ := minimal_has hm
  rw [← a.size hsize, ← a.data hdata]
  exact k hm

/-- The header of a chunk group, from one whose fields are 0. -/
abbrev zeroHeader (g : List Record) : ChunkHeader := groupHeader ChunkHeader.zero g

theorem zeroHeader_agree (g : List Record) (draw : Nat) : (zeroHeader g).Agree (groupHeader (emptyHeader draw) g) :=
  groupHeader_agree g (emptyHeader_agree draw).symm

/-- A chunk that the walker gets through and whose digested payload can be read. -/
def ChunkReadable (s : State) (base : Nat) (g : List Record) : Prop :=
  (∀ r ∈ g, r.whole) ∧ payloadReadable s base (zeroHeader g)

section Keeps

variable {s t : State} {base : Nat} {g : List Record}

theorem Keeps.stands {m : Image} (k : Keeps s t) (h : m.stands base s) : m.stands base t := Keeps.holds k h

theorem Keeps.chunkReadable (k : Keeps s t) (h : ChunkReadable s base g) : ChunkReadable t base g :=
  ⟨h.1, fun hm => k.readableRun (h.2 hm)⟩

theorem Keeps.digestsMatch (k : Keeps s t) {h : ChunkHeader} (hd : digestsMatch s base h) : Machine.digestsMatch t base h := by
  unfold Machine.digestsMatch at *
  rwa [k.mem]

theorem Keeps.digestFails (k : Keeps s t) {h : ChunkHeader} {st : Status} (hd : digestFails s base h st) :
    Machine.digestFails t base h st := by
  unfold Machine.digestFails at *
  rwa [k.mem]

end Keeps

/-! ## One chunk after another -/

section Chunks

variable {s : State} {m : Image} {base : Nat} {pre post : List (List Record)} {g : List Record}

/-- The fifth check at a chunk that the walker gets through. -/
theorem checkChunks_chunk (hs : inRam s) (hm : m.spelled) (h : m.stands base s) (hg : m.groups = pre ++ g :: post)
    (hwhole : ∀ r ∈ g, r.whole) (k : Nat) :
    checkChunks base (k + 1) (pre.length + 1) s =
      (checkChunk base (groupHeader (emptyHeader s.draws) g) (s.drawn.withWalk none)).bind fun _ t =>
      checkChunks base k (pre.length + 2) t := by
  rw [checkChunks, chunkHeader_image hs hm h pre g post hg hwhole]
  rfl

/-- What the check makes of a chunk's header does not depend on the free fields that the walk gave it. -/
theorem checkChunk_freeHeader {t : State} (hs : inRam s) (hst : Keeps s t) (hread : ChunkReadable s base g) (draw : Nat) :
    (digestsMatch s base (zeroHeader g) →
      ∃ u, Keeps s u ∧ checkChunk base (groupHeader (emptyHeader draw) g) t = .ok () u) ∧
    ∀ st, digestFails s base (zeroHeader g) st →
      ∃ u, checkChunk base (groupHeader (emptyHeader draw) g) t = .raised st.code u := by
  have hagree := zeroHeader_agree g draw
  have hpayload := payloadReadable_agree hagree (hst.chunkReadable hread).2
  obtain ⟨hpass, hfail⟩ := checkChunk_cases (hst.inRam hs) hpayload
  refine ⟨fun hmatch => ?_, fun st hfails => hfail st (digestFails_agree hagree.symm (hst.digestFails hfails))⟩
  obtain ⟨e, hcheck⟩ := hpass (digestsMatch_agree hagree (hst.digestsMatch hmatch))
  exact ⟨_, hst.trans (Keeps.withEngine t e), hcheck⟩

/-- The walk to a chunk has drawn its free header and is over. -/
theorem Keeps.afterWalk (s : State) : Keeps s (s.drawn.withWalk none) := (Keeps.drawn s).trans (Keeps.withWalk _ none)

/-- A chunk whose digests match is left behind. -/
theorem checkChunks_match (hs : inRam s) (hm : m.spelled) (h : m.stands base s) (hg : m.groups = pre ++ g :: post)
    (hread : ChunkReadable s base g) (hmatch : digestsMatch s base (zeroHeader g)) (k : Nat) :
    ∃ t, Keeps s t ∧ checkChunks base (k + 1) (pre.length + 1) s = checkChunks base k (pre.length + 2) t := by
  obtain ⟨t, hst, hcheck⟩ := (checkChunk_freeHeader hs (Keeps.afterWalk s) hread s.draws).1 hmatch
  exact ⟨t, hst, by rw [checkChunks_chunk hs hm h hg hread.1, hcheck, Ran.bind_ok]⟩

/-- A chunk at which a digest fails ends the check. -/
theorem checkChunks_fails {st : Status} (hs : inRam s) (hm : m.spelled) (h : m.stands base s) (hg : m.groups = pre ++ g :: post)
    (hread : ChunkReadable s base g) (hfails : digestFails s base (zeroHeader g) st) (k : Nat) :
    ∃ t, checkChunks base (k + 1) (pre.length + 1) s = .raised st.code t := by
  obtain ⟨t, hcheck⟩ := (checkChunk_freeHeader hs (Keeps.afterWalk s) hread s.draws).2 st hfails
  exact ⟨t, by rw [checkChunks_chunk hs hm h hg hread.1, hcheck, Ran.bind_raised]⟩

/-- The chunks `gs` of an image, after the chunks `pre`, are left behind when all their digests match. -/
theorem checkChunks_matches (hs : inRam s) (hm : m.spelled) (h : m.stands base s) (gs : List (List Record))
    (hg : m.groups = pre ++ (gs ++ post))
    (hpass : ∀ g ∈ gs, ChunkReadable s base g ∧ digestsMatch s base (zeroHeader g)) (k : Nat) :
    ∃ t, Keeps s t ∧
      checkChunks base (gs.length + k) (pre.length + 1) s = checkChunks base k (pre.length + gs.length + 1) t := by
  induction gs generalizing pre s with
  | nil => exact ⟨s, Keeps.refl s, by simp⟩
  | cons g gs ih =>
    obtain ⟨hread, hmatch⟩ := hpass g (by simp)
    obtain ⟨t, hst, hfirst⟩ := checkChunks_match hs hm h hg hread hmatch (gs.length + k)
    have hpass' : ∀ x ∈ gs, ChunkReadable t base x ∧ digestsMatch t base (zeroHeader x) := fun x hx =>
      (hpass x (by simp [hx])).imp hst.chunkReadable hst.digestsMatch
    obtain ⟨u, htu, hrest⟩ := ih (pre := pre ++ [g]) (hst.inRam hs) (hst.stands h) (by simp [hg]) hpass'
    refine ⟨u, hst.trans htu, ?_⟩
    rw [List.length_append, List.length_singleton] at hrest
    rw [List.length_cons, Nat.add_right_comm, hfirst, hrest]
    congr 1
    omega

end Chunks

/-! ## VALID of an image whose header passes -/

section ValidImage

variable {s : State} {m : Image} {base : Nat} {maxSize : Word}

/-- VALID comes to the chunks of the image. -/
theorem validate_chunks (hs : inRam s) (hm : m.spelled) (h : m.stands base s) (hread : HeadReadable s base)
    (hpasses : HeadPasses s base maxSize) :
    ∃ t, Keeps s t ∧ validate base maxSize s = checkChunks base m.groups.length 1 t := by
  have hidle := Keeps.withEngine s .idle
  refine ⟨(s.withEngine .idle).withWalk none, hidle.trans (Keeps.withWalk _ none), ?_⟩
  rw [validate_headPasses hs hread hpasses, countChunks_image (hidle.inRam hs) hm (hidle.stands h), walkerFailure, Ran.bind_ok,
    count_toNat hm.2.1]

/-- VALID passes when every chunk does. -/
theorem validate_image_ok (hs : inRam s) (hm : m.spelled) (h : m.stands base s) (hread : HeadReadable s base)
    (hpasses : HeadPasses s base maxSize)
    (hall : ∀ g ∈ m.groups, ChunkReadable s base g ∧ digestsMatch s base (zeroHeader g)) :
    ∃ u, validate base maxSize s = .ok () u := by
  obtain ⟨t, hst, hvalidate⟩ := validate_chunks hs hm h hread hpasses
  obtain ⟨u, -, hchunks⟩ := checkChunks_matches (pre := []) (post := []) (hst.inRam hs) hm (hst.stands h) m.groups (by simp)
    (fun g hg => (hall g hg).imp hst.chunkReadable hst.digestsMatch) 0
  exact ⟨u, hvalidate.trans hchunks⟩

/-- VALID ends at the first chunk that has a digest which does not match, whatever the chunks after it hold. -/
theorem validate_image_fails {pre post : List (List Record)} {g : List Record} {st : Status} (hs : inRam s) (hm : m.spelled)
    (h : m.stands base s) (hread : HeadReadable s base) (hpasses : HeadPasses s base maxSize) (hg : m.groups = pre ++ g :: post)
    (hpre : ∀ x ∈ pre, ChunkReadable s base x ∧ digestsMatch s base (zeroHeader x)) (hchunk : ChunkReadable s base g)
    (hfails : digestFails s base (zeroHeader g) st) : ∃ u, validate base maxSize s = .raised st.code u := by
  obtain ⟨t, hst, hvalidate⟩ := validate_chunks hs hm h hread hpasses
  obtain ⟨u, htu, hbefore⟩ := checkChunks_matches (pre := []) (post := g :: post) (hst.inRam hs) hm (hst.stands h) pre hg
    (fun x hx => (hpre x hx).imp hst.chunkReadable hst.digestsMatch) (post.length + 1)
  have hsu := hst.trans htu
  obtain ⟨v, hend⟩ := checkChunks_fails (hsu.inRam hs) hm (hsu.stands h) hg (hsu.chunkReadable hchunk) (hsu.digestFails hfails)
    post.length
  rw [List.length_nil, Nat.zero_add, Nat.zero_add] at hbefore
  exact ⟨v, by rw [hvalidate, hg, List.length_append, List.length_cons, hbefore, hend]⟩

end ValidImage

/-- A list with an element that has not the property has a first such element. -/
theorem exists_first_not {α : Type} {p : α → Prop} {l : List α} (h : ¬ ∀ x ∈ l, p x) :
    ∃ pre x post, l = pre ++ x :: post ∧ (∀ y ∈ pre, p y) ∧ ¬ p x := by
  classical
  have hfind : (l.find? fun x => decide (¬ p x)).isSome := by simpa using h
  obtain ⟨x, hx⟩ := Option.isSome_iff_exists.mp hfind
  obtain ⟨hnot, pre, post, rfl, hpre⟩ := List.find?_eq_some_iff_append.mp hx
  exact ⟨pre, x, post, rfl, by simpa using hpre, by simpa using hnot⟩

/-- With every chunk readable VALID passes exactly when the header does and all digests match. -/
theorem validate_image_cases {s : State} {m : Image} {base : Nat} {maxSize : Word} (hs : inRam s) (hm : m.spelled)
    (h : m.stands base s) (hread : HeadReadable s base) (hchunks : ∀ g ∈ m.groups, ChunkReadable s base g) :
    (∃ u, validate base maxSize s = .ok () u) ∧
        (HeadPasses s base maxSize ∧ ∀ g ∈ m.groups, digestsMatch s base (zeroHeader g)) ∨
      (∃ st u, st ≠ Status.valid ∧ validate base maxSize s = .raised st.code u) ∧
        ¬ (HeadPasses s base maxSize ∧ ∀ g ∈ m.groups, digestsMatch s base (zeroHeader g)) := by
  by_cases hpasses : HeadPasses s base maxSize
  · by_cases hall : ∀ g ∈ m.groups, digestsMatch s base (zeroHeader g)
    · exact .inl ⟨validate_image_ok hs hm h hread hpasses fun g hg => ⟨hchunks g hg, hall g hg⟩, hpasses, hall⟩
    · obtain ⟨pre, g, post, hg, hpre, hnot⟩ := exists_first_not hall
      obtain ⟨st, hst, hfails⟩ := digestFails_of_not_match hnot
      rw [hg] at hchunks
      obtain ⟨u, hraised⟩ := validate_image_fails hs hm h hread hpasses hg
        (fun x hx => ⟨hchunks x (by simp [hx]), hpre x hx⟩) (hchunks g (by simp)) hfails
      exact .inr ⟨⟨st, u, hst, hraised⟩, fun hboth => hall hboth.2⟩
  · exact .inr ⟨validate_not_headPasses hs hread hpasses, fun hboth => hpasses hboth.1⟩

/-- Settles O47: the first part is `validate_image_cases`, and the second `validate_image_fails`. -/
theorem validExactlyWhenEveryCheckPasses : Obligations.ValidExactlyWhenEveryCheckPasses := by
  intro s m base maxSize hr hs hm h hfields word tl hreaches hrange header headPasses
  have hread : HeadReadable s base := ⟨hfields, hreaches, hrange⟩
  refine ⟨fun hwhole hpayload => ?_, fun hpasses pre g post hg hpre hwhole hpayload st hfails => ?_⟩
  · rcases validate_image_cases (maxSize := maxSize) hs hm h hread fun g hg => ⟨hwhole g hg, hpayload g hg⟩ with
      ⟨⟨u, hok⟩, hboth⟩ | ⟨⟨st, u, hst, hraised⟩, hnot⟩
    · exact ⟨_, exec_valid_ok hr hok, iff_of_true rfl hboth⟩
    · exact ⟨_, exec_valid_raised hr hraised, iff_of_false (Status.code_ne_zero hst) hnot⟩
  · obtain ⟨u, hraised⟩ := validate_image_fails hs hm h hread hpasses hg
      (fun x hx => have ⟨hw, hp, hd⟩ := hpre x hx; ⟨⟨hw, hp⟩, hd⟩) ⟨hwhole, hpayload⟩ hfails
    exact ⟨_, exec_valid_raised hr hraised, rfl, rfl⟩

end Sys2Proof.Machine
end

section
/-! MD5 and SHA256 of a run of memory (42_digest_engines R165, R166, R170, R171): how a digest operation ends, and its digest by
the rules' own padding, constants and steps. -/

namespace Sys2Proof.Machine

/-! ## How a digest operation ends -/

/-- With the image in RAM a digest operation stores its engine's result on the bytes of the run, the engine being idle again. -/
theorem operation_digestOf_ram {α : Type} {load : List Byte → Engine} {result : Engine → α} {s : State} {a n : Nat}
    (hr : ready s) (hs : inRam s) (hread : readableRun s a n) (store : α → State → State) :
    operation (onRam fun s => (digestOf load result a n s).bind fun v s => .ok () (store v s)) s =
      .next (store (result (runEngine (load (Memory.bytes s.mem a n)))) (s.withEngine .idle)) := by
  rw [operation_ready hr, onRam_ram hs, digestOf_ram hs hread, Ran.bind_ok, endOp_ok]

section DigestEnds

variable {s : State} {addr : Nat} {len : Word}

theorem exec_md5_ram (hr : ready s) (hs : inRam s) (hread : readableRun s addr len.toNat) :
    exec (.md5 addr len) s = .next { s with
      engine := .idle, status := 0, res := { s.res with md5 := md5Fn (Memory.bytes s.mem addr len.toNat) } } :=
  operation_digestOf_ram hr hs hread fun v s => (s.withRes { s.res with md5 := v }).returned

theorem exec_sha256_ram (hr : ready s) (hs : inRam s) (hread : readableRun s addr len.toNat) :
    exec (.sha256 addr len) s = .next { s with
      engine := .idle, status := 0, res := { s.res with sha := sha256Fn (Memory.bytes s.mem addr len.toNat) } } :=
  operation_digestOf_ram hr hs hread fun v s => (s.withRes { s.res with sha := v }).returned

end DigestEnds

/-! ## The two digests -/

/-- Settles O51: the operations end as `exec_md5_ram` and `exec_sha256_ram` say, and the digests are folds over the blocks of the
padded message (`md5Fn_eq`, `sha256Fn_eq`), whose steps are the rules' own. -/
theorem hashResults : Obligations.HashResults := by
  intro s addr len z hr hs hread hz hfull bytes lengthByte filled block
    message5 k shifts step5 block5 m message2 kt s0 s1 schedule step2 block2 h
  have hlength : bytes.length = len.toNat := Memory.bytes_length s.mem addr len.toNat
  have hfull' : (bytes.length + 9 + z) % 64 = 0 := by rwa [hlength]
  refine ⟨⟨exec_md5_ram hr hs hread, ?md5⟩, exec_sha256_ram hr hs hread, ?sha256⟩
  case md5 =>
    have hmessage : filled ++ le64 (8 * bytes.length) = message5 := by rw [hlength, le64_eq]
    have hstep : md5Step = step5 := rfl
    have hblock : (fun r n => md5Block r (block message5 n)) = block5 := by
      funext r n
      rw [md5Block, hstep]
    have hdigest := md5Fn_eq bytes z hz hfull'
    rw [hmessage] at hdigest
    calc (md5Fn bytes).toList
        = (md5Out ((List.range (message5.length / 64)).foldl (fun r n => md5Block r (block message5 n)) md5Init)).toList :=
          congrArg Vector.toList hdigest
      _ = (md5Out m).toList := by rw [hblock]; rfl
      _ = _ := md5Out_toList m
  case sha256 =>
    have hmessage : filled ++ be64 (8 * bytes.length) = message2 := by rw [hlength, be64_eq]
    have hschedule (n : Nat) : shaSchedule (block message2 n) = schedule n := shaSchedule_eq _
    have hstep : shaStep = step2 := rfl
    have hblock : (fun r n => shaBlock r (block message2 n)) = block2 := by
      funext r n
      rw [shaBlock, hstep, hschedule]
    have hdigest := sha256Fn_eq bytes z hz hfull'
    rw [hmessage] at hdigest
    calc (sha256Fn bytes).toList
        = (shaOut ((List.range (message2.length / 64)).foldl (fun r n => shaBlock r (block message2 n)) shaInit)).toList :=
          congrArg Vector.toList hdigest
      _ = (shaOut h).toList := by rw [hblock]; rfl
      _ = _ := shaOut_toList h

end Sys2Proof.Machine
end

section
/-! The cipher (43_blowfish): its block functions undo each other, BF.INIT writes the key schedule of the rules' own tables, and DECRYPT
deciphers its buffer in place or is stopped. -/

namespace Sys2Proof.Machine

/-! ## The block functions undo each other -/

/-- A round's result, swapped and with `c` and `b` mixed in, goes through a round with `c` back to the round's own block, in whose words
`k` and `b` are then mixed. -/
theorem bfRound_undoes (s : Vector (Vector Word 256) 4) (x : Word × Word) (k b c : Word) :
    bfRound s ((bfRound s x k).2 ^^^ c, (bfRound s x k).1 ^^^ b) c = (x.2 ^^^ b, x.1 ^^^ k) := by
  have hleft : (x.1 ^^^ k) ^^^ c ^^^ c = x.1 ^^^ k := by rw [BitVec.xor_assoc, BitVec.xor_self, BitVec.xor_zero]
  have hright (f : Word) : x.2 ^^^ f ^^^ b ^^^ f = x.2 ^^^ b := by
    rw [BitVec.xor_assoc, BitVec.xor_comm b, ← BitVec.xor_assoc, BitVec.xor_assoc x.2, BitVec.xor_self, BitVec.xor_zero]
  simp only [bfRound, hleft, hright]

/-- The rounds of the network backwards, on its result, leave the block with the network's first two subkeys mixed in. -/
theorem bfNetwork_undone (s : Vector (Vector Word 256) 4) {ks : List Word} {kr kl a b : Word} {rest : List Word}
    (h : ks ++ [kr, kl] = a :: b :: rest) (x : Word × Word) :
    rest.reverse.foldl (bfRound s) (bfNetwork s ks kr kl x) = (x.2 ^^^ b, x.1 ^^^ a) := by
  induction ks generalizing a b rest x with
  | nil =>
    cases h
    rfl
  | cons k ks ih =>
    obtain ⟨rfl, htail⟩ := List.cons.inj h
    cases rest with
    | nil => simpa using congrArg List.length htail
    | cons c rest =>
      have hrest : rest.reverse.foldl (bfRound s) (bfNetwork s (k :: ks) kr kl x) = _ := ih htail (bfRound s x k)
      rw [List.reverse_cons, List.foldl_append, hrest]
      exact bfRound_undoes s x k b c

/-- The network under the subkeys in reverse undoes the network. -/
theorem bfNetwork_inverse (s : Vector (Vector Word 256) 4) {ks ks' : List Word} {kr kl kr' kl' : Word}
    (h : ks ++ [kr, kl] = kl' :: kr' :: ks'.reverse) (x : Word × Word) :
    bfNetwork s ks' kr' kl' (bfNetwork s ks kr kl x) = x := by
  have hrounds := bfNetwork_undone s h x
  rw [List.reverse_reverse] at hrounds
  rw [bfNetwork, hrounds]
  simp only [BitVec.xor_assoc, BitVec.xor_self, BitVec.xor_zero]

/-- The subkeys as encipherment takes them, forwards, are those that decipherment takes, backwards. -/
theorem subkeys_forwards_backwards (p : Vector Word 18) :
    p.toList.take 16 ++ [p[16], p[17]] = p[0] :: p[1] :: p.toList.drop 2 := by
  refine List.ext_getElem (by simp) fun i h1 h2 => ?_
  have hi : i < 18 := by simpa using h2
  interval_cases i <;> simp

/-- Settles O58: each block function is the network under the other's subkeys in reverse. -/
theorem cipherIsInvertible : Obligations.CipherIsInvertible := by
  intro k x
  have hsubkeys := subkeys_forwards_backwards k.p
  constructor
  · refine bfNetwork_inverse k.s ?_ x
    rw [List.reverse_reverse, hsubkeys]
  · refine bfNetwork_inverse k.s ?_ x
    simpa using (congrArg List.reverse hsubkeys).symm

/-! ## Key and length -/

theorem keyOk_iff {key : List Byte} : keyOk key = true ↔ 1 ≤ key.length ∧ key.length ≤ 56 := by
  simp [keyOk]

theorem decryptLenOk_iff {len : Word} : decryptLenOk len = true ↔ 8 ≤ len.toNat ∧ len.toNat % 8 = 0 := by
  simp [decryptLenOk]

/-- The state with a key's schedule written. -/
abbrev State.scheduled (s : State) (key : List Byte) : State := (s.withKeys (keySchedule key)).withReady true

theorem bfInit_ok {key : List Byte} (h : keyOk key = true) (s : State) : bfInit key s = .ok () (s.scheduled key) := if_pos h

theorem bfInit_refused {key : List Byte} (h : ¬ keyOk key = true) (s : State) : bfInit key s = .refused .keyLength := if_neg h

section InitEnds

variable {s : State} {key : List Byte}

theorem exec_bfInit_ok (hr : ready s) (h : keyOk key = true) : exec (.bfInit key) s = .next (s.scheduled key).returned := by
  rw [exec, execBfInit, operation_ready hr, bfInit_ok h, Ran.bind_ok, endOp_ok]

theorem exec_bfInit_refused (hr : ready s) (h : ¬ keyOk key = true) : exec (.bfInit key) s = .refused .keyLength := by
  rw [exec, execBfInit, operation_ready hr, bfInit_refused h, Ran.bind_refused, endOp_refused]

end InitEnds

/-! ## BF.INIT by the rules' own tables -/

/-- S-boxes are the same when the lists of their entries are. -/
theorem boxes_ext {v w : Vector (Vector Word 256) 4} (h : v.toList.map Vector.toList = w.toList.map Vector.toList) : v = w :=
  Vector.toList_inj.mp (List.map_injective_iff.mpr (fun _ _ => Vector.toList_inj.mp) h)

/-- Settles O55: the rules' own round function, key words and initial tables are the model's, so the schedule of `keySchedule_eq` is
the one written out. -/
theorem keyScheduleResult : Obligations.KeyScheduleResult := by
  intro s key hr f enc word p0 s0 start ruleFillP ruleFillS filledP filled
  have hword : keyWord key = word := funext fun i => keyWord_eq key i
  have henc : encipher = enc := by
    funext k x
    have hf : bfF k.s = f k := funext fun x => bfF_eq k.s x
    rw [encipher_eq, hf]
  have hfillP : fillP = ruleFillP := by
    funext kx n
    rw [fillP, henc]
  have htableP : initP.toList = p0 := rfl
  have htableS : initS = start.s := by
    apply boxes_ext
    simp only [start]
    clear_value start
    subst s0
    decide +kernel
  have hstart : (⟨mixKey key initP, initS⟩ : Subkeys) = start := by
    rw [mixKey_eq, hword, htableS]
    simp only [htableP]
    rfl
  have hschedule : keySchedule key = filled.1 := by
    rw [keySchedule_eq, hstart, hfillP, henc]
  refine ⟨fun h1 h56 => ⟨exec_bfInit_ok hr (keyOk_iff.mpr ⟨h1, h56⟩), hschedule⟩,
    fun hbad => exec_bfInit_refused hr fun hok => ?_⟩
  obtain ⟨h1, h56⟩ := keyOk_iff.mp hok
  omega

/-! ## DECRYPT -/

section Decrypt

variable {s : State} {addr : Nat} {len : Word}

theorem exec_decrypt_ram (hr : ready s) (hs : inRam s) (hlen : decryptLenOk len = true) :
    exec (.decrypt addr len) s = endOp (decryptBuffer addr len.toNat s) := by
  rw [exec, execDecrypt, operation_ready hr, onRam_ram hs, if_pos hlen]

theorem exec_decrypt_lengthRefused (hr : ready s) (hs : inRam s) (hlen : ¬ decryptLenOk len = true) :
    exec (.decrypt addr len) s = .refused .decryptLength := by
  rw [exec, execDecrypt, operation_ready hr, onRam_ram hs, if_neg hlen, endOp_refused]

theorem decryptBuffer_keyRefused {n : Nat} (hkey : ¬ keyOk s.cfg.key = true) : decryptBuffer addr n s = .refused .keyLength := by
  rw [decryptBuffer, bfInit_refused hkey, Ran.bind_refused]

theorem decryptBuffer_fault {n : Nat} (hs : inRam s) (hkey : keyOk s.cfg.key = true) (hblocks : n % 8 = 0)
    (hw : ¬ writableRun s addr n) : decryptBuffer addr n s = .fault .outOfExtent := by
  have hw' : ¬ writableRun (s.scheduled s.cfg.key) addr (8 * (n / 8)) := by
    rwa [Nat.mul_div_cancel' (Nat.dvd_of_mod_eq_zero hblocks)]
  have hfault : decryptBlocks (n / 8) addr (s.scheduled s.cfg.key) = .fault .outOfExtent := decryptBlocks_fault _ hs hw'
  rw [decryptBuffer, bfInit_ok hkey, Ran.bind_ok, hfault, Ran.bind_fault]

/-- The length that DECRYPT reads at the end of the buffer (43_blowfish R195). -/
abbrev trailer (m : Memory) (addr n : Nat) : Word := be32At (Memory.bytes m (addr + (n - 4)) 4) 0

/-- With a buffer that can be written DECRYPT deciphers every block; the trailer of the buffer it leaves decides how it ends. -/
theorem decryptBuffer_ram {n : Nat} (hs : inRam s) (hkey : keyOk s.cfg.key = true) (hn : 8 ≤ n) (hblocks : n % 8 = 0)
    (hw : writableRun s addr n) :
    ∃ m,
      (∀ j, j < n / 8 → blockAt s.cfg.blockOrder m (addr + 8 * j) =
        decipher (keySchedule s.cfg.key) (blockAt s.cfg.blockOrder s.mem (addr + 8 * j))) ∧
      decryptBuffer addr n s =
        let u := (s.scheduled s.cfg.key).withMem m
        if (trailer m addr n).toNat ≤ n - 8 then .ok () (u.withRes { u.res with len := trailer m addr n }).returnedCommand
        else raise .decryptError u := by
  have hlen : 8 * (n / 8) = n := Nat.mul_div_cancel' (Nat.dvd_of_mod_eq_zero hblocks)
  obtain ⟨m, hran, hdeciphered, -⟩ := decryptBlocks_ram (n / 8) (s := s.scheduled s.cfg.key) (a := addr) hs (by rwa [hlen])
  refine ⟨m, hdeciphered, ?_⟩
  have hreadable : readableRun s (bufferAddr addr (n - 4)) 4 :=
    readableRun_sub (writableRun_readableRun hw) (Nat.le_add_right _ _) (by unfold bufferAddr; omega)
  have hread : rd32BE (bufferAddr addr (n - 4)) ((s.scheduled s.cfg.key).withMem m) =
      .ok (trailer m addr n) ((s.scheduled s.cfg.key).withMem m) := rd32BE_ram hs hreadable
  rw [decryptBuffer, bfInit_ok hkey, Ran.bind_ok, hran, Ran.bind_ok, hread, Ran.bind_ok]

end Decrypt

/-- Settles O59: the two ends of DECRYPT are those of `decryptBuffer_ram`, which leave the buffer and the schedule alike. -/
theorem decryptResult : Obligations.DecryptResult := by
  intro s addr len hr hs hkey1 hkey56 hlen8 hblocks hw
  obtain ⟨m, hdeciphered, hran⟩ := decryptBuffer_ram hs (keyOk_iff.mpr ⟨hkey1, hkey56⟩) hlen8 hblocks hw
  have hend := exec_decrypt_ram (addr := addr) hr hs (decryptLenOk_iff.mpr ⟨hlen8, hblocks⟩)
  by_cases hfits : (trailer m addr len.toNat).toNat ≤ len.toNat - 8
  · rw [hran, if_pos hfits, endOp_ok] at hend
    exact ⟨_, hend, hdeciphered, rfl, rfl, fun _ => ⟨rfl, rfl, rfl⟩, fun habove => absurd hfits (Nat.not_le.mpr habove)⟩
  · rw [hran, if_neg hfits, raise, endOp_raised] at hend
    exact ⟨_, hend, hdeciphered, rfl, rfl, fun hle => absurd hle hfits, fun _ => ⟨rfl, rfl⟩⟩

/-- An operation on a buffer is refused with the image in a file store. -/
theorem operation_onRam_file {s : State} (hr : ready s) (hs : s.cfg.store = .file) (body : State → Ran Unit) :
    operation (onRam body) s = .refused .ramStoreOnly := by
  rw [operation_ready hr, onRam_file hs, endOp_refused]

/-- Settles O60: DECRYPT's tests in their order, store, length, key, and then its blocks. A byte that can be written can be read, so a
buffer that cannot be both has a byte that cannot be written. -/
theorem bufferOperationRefusals : Obligations.BufferOperationRefusals := by
  intro s addr len hr
  refine ⟨fun hs hlen => ?length, fun hs hlen8 hblocks hkey => ?key, fun hs hlen8 hblocks hkey1 hkey56 hrun => ?fault,
    fun hs => ?file⟩
  case length =>
    exact exec_decrypt_lengthRefused hr hs fun hok => by
      obtain ⟨hlen8, hblocks⟩ := decryptLenOk_iff.mp hok
      omega
  case key =>
    have hbad : ¬ keyOk s.cfg.key = true := fun hok => by
      obtain ⟨hkey1, hkey56⟩ := keyOk_iff.mp hok
      omega
    rw [exec_decrypt_ram hr hs (decryptLenOk_iff.mpr ⟨hlen8, hblocks⟩), decryptBuffer_keyRefused hbad, endOp_refused]
  case fault =>
    have hw : ¬ writableRun s addr len.toNat := fun hw => hrun ⟨writableRun_readableRun hw, hw⟩
    rw [exec_decrypt_ram hr hs (decryptLenOk_iff.mpr ⟨hlen8, hblocks⟩),
      decryptBuffer_fault hs (keyOk_iff.mpr ⟨hkey1, hkey56⟩) hblocks hw, endOp_fault]
  case file =>
    have hrefused := operation_onRam_file hr hs
    exact ⟨hrefused _, hrefused _, hrefused _, hrefused _⟩

end Sys2Proof.Machine
end

section
/-! The flag store's contract (45_bootstate R213, R214, R216 to R218): how each operation ends on every operand, in the words of the rules. -/

namespace Sys2Proof.Machine

/-! ## The fields of PBSR as the rules write them -/

/-- A value that fits in the narrower width comes through it unchanged. -/
theorem setWidth_setWidth_of_fits {w v : Nat} {x : BitVec w} (h : x.toNat < 2 ^ v) : (x.setWidth v).setWidth w = x :=
  BitVec.eq_of_toNat_eq (by simp [Nat.mod_eq_of_lt h])

/-- Flag `i` is the bit shifted down to bit 0 and masked. -/
theorem pbsrFlag_eq_mask (v : Word) (i : Nat) : pbsrFlag v i = ((v >>> i) &&& (1 : Word)).setWidth 1 := by
  have hmask : (1 : Word).setWidth 1 = BitVec.allOnes 1 := by decide
  rw [pbsrFlag, BitVec.setWidth_and, hmask, BitVec.and_allOnes]

/-- The boot counter is bits 15 to 8, shifted down and masked. -/
theorem pbsrBootcnt_eq_mask (v : Word) : pbsrBootcnt v = ((v >>> 8) &&& (0xFF : Word)).setWidth 8 := by
  have hmask : (0xFF : Word).setWidth 8 = BitVec.allOnes 8 := by decide
  rw [pbsrBootcnt, BitVec.setWidth_and, hmask, BitVec.and_allOnes]

/-- FLAG.WR's update from a word that holds a bit. -/
theorem pbsrSetFlag_word (v : Word) (i : Nat) {b : Word} (hb : b.toNat ≤ 1) :
    pbsrSetFlag v i (b.setWidth 1) = (v &&& ~~~((1 : Word) <<< i)) ||| (b <<< i) := by
  rw [pbsrSetFlag, setWidth_setWidth_of_fits (Nat.lt_succ_of_le hb)]

/-- BCNT.WR's update from a word that holds a byte. -/
theorem pbsrSetBootcnt_word (v : Word) {n : Word} (hn : n.toNat ≤ 255) :
    pbsrSetBootcnt v (n.setWidth 8) = (v &&& (0xFFFF00FF : Word)) ||| (n <<< 8) := by
  rw [pbsrSetBootcnt, setWidth_setWidth_of_fits (Nat.lt_succ_of_le hn)]

/-! ## How the contract's operations end -/

section ContractEnds

variable {s : State}

/-- An update behind a test of the operands that they pass (45_bootstate R218). -/
theorem operation_checkedUpdate_passed {c : Prop} [Decidable c] (hr : ready s) (hc : ¬ c) (r : Refusal) (u : State → State) :
    operation (fun s => if c then .refused r else .ok () (u s)) s = .next (u s) := by
  rw [operation_ready hr, if_neg hc, endOp_ok]

/-- An update behind a test of the operands that they do not pass (45_bootstate R218, D28). -/
theorem operation_checkedUpdate_refused {c : Prop} [Decidable c] (hr : ready s) (hc : c) (r : Refusal) (u : State → State) :
    operation (fun s => if c then .refused r else .ok () (u s)) s = .refused r := by
  rw [operation_ready hr, if_pos hc, endOp_refused]

theorem exec_flagWr_ok (hr : ready s) {i b : Word} (hi : i.toNat ≤ 7) (hb : b.toNat ≤ 1) :
    exec (.flagWr i b) s = .next (flagWrite i.toNat (b.setWidth 1) s).returned :=
  operation_checkedUpdate_passed hr (by omega) _ fun s => (flagWrite i.toNat (b.setWidth 1) s).returned

theorem exec_flagWr_refused (hr : ready s) {i b : Word} (h : 7 < i.toNat ∨ 1 < b.toNat) :
    exec (.flagWr i b) s = .refused .flagOperand :=
  operation_checkedUpdate_refused hr h _ fun s => (flagWrite i.toNat (b.setWidth 1) s).returned

theorem exec_flagRd_ok (hr : ready s) {i : Word} (hi : i.toNat ≤ 7) :
    exec (.flagRd i) s = .next (s.withRes { s.res with bit := pbsrFlag s.pbsr i.toNat }).returned :=
  operation_checkedUpdate_passed hr (Nat.not_lt.mpr hi) _ fun s =>
    (s.withRes { s.res with bit := pbsrFlag s.pbsr i.toNat }).returned

theorem exec_flagRd_refused (hr : ready s) {i : Word} (hi : 7 < i.toNat) : exec (.flagRd i) s = .refused .flagOperand :=
  operation_checkedUpdate_refused hr hi _ fun s => (s.withRes { s.res with bit := pbsrFlag s.pbsr i.toNat }).returned

theorem exec_bcntWr_ok (hr : ready s) {n : Word} (hn : n.toNat ≤ 255) :
    exec (.bcntWr n) s = .next (bootcountWrite (n.setWidth 8) s).returned :=
  operation_checkedUpdate_passed hr (Nat.not_lt.mpr hn) _ fun s => (bootcountWrite (n.setWidth 8) s).returned

theorem exec_bcntWr_refused (hr : ready s) {n : Word} (hn : 255 < n.toNat) : exec (.bcntWr n) s = .refused .bootcountOperand :=
  operation_checkedUpdate_refused hr hn _ fun s => (bootcountWrite (n.setWidth 8) s).returned

theorem exec_bcntRd (hr : ready s) :
    exec .bcntRd s = .next (s.withRes { s.res with bootcnt := pbsrBootcnt s.pbsr }).returned := by
  rw [exec, execBcntRd, operation_ready hr, endOp_ok]

end ContractEnds

/-- Settles O12: each operation ends as its lemma above says, and what it writes or reads of PBSR is the rules' own shift and mask. -/
theorem flagStoreContract : Obligations.FlagStoreContract := by
  intro s hr
  refine ⟨fun i b hi hb => ?flagWr, fun i b h => exec_flagWr_refused hr h, fun i hi => ?flagRd,
    fun i hi => exec_flagRd_refused hr hi, fun n hn => ?bcntWr, fun n hn => exec_bcntWr_refused hr hn, ?bcntRd⟩
  case flagWr => exact ⟨_, exec_flagWr_ok hr hi hb, pbsrSetFlag_word s.pbsr i.toNat hb, rfl⟩
  case flagRd => exact ⟨_, exec_flagRd_ok hr hi, pbsrFlag_eq_mask s.pbsr i.toNat, rfl, rfl⟩
  case bcntWr => exact ⟨_, exec_bcntWr_ok hr hn, pbsrSetBootcnt_word s.pbsr hn, rfl⟩
  case bcntRd => exact ⟨_, exec_bcntRd hr, pbsrBootcnt_eq_mask s.pbsr, rfl, rfl⟩

end Sys2Proof.Machine
end

section
/-! How an operation fails (60_exceptions R240, R243, R257): which operations cannot end with a status, and that every other either
returns with STATUS 0 or takes `State.failed` with a code its parts can raise. -/

namespace Sys2Proof.Machine

/-! ## Operations that cannot fail -/

/-- The part can only succeed, and STATUS is then 0. -/
abbrev Ran.OnlyReturns (r : Ran Unit) : Prop := r.Ends (fun _ u => u.status = 0) fun _ => False

section NeverFails

variable {s t : State}

theorem operation_onlyReturns {body : State → Ran Unit} (h : operation body s = .next t) (hb : (body s).OnlyReturns) :
    t.status = 0 := operation_ends h hb fun _ _ _ hfalse => hfalse.elim

/-- An update behind a test of the operands. -/
theorem checkedUpdate_onlyReturns {c : Prop} [Decidable c] {r : Refusal} {u : State} (hu : u.status = 0) :
    (if c then .refused r else .ok () u : Ran Unit).OnlyReturns := by
  split
  · trivial
  · exact hu

/-- Every operation of the boot-state unit is an update of the state, the contract's own behind a test of their operands. -/
theorem exec_bootState_status {i : Instr} (hi : bootState i = true) (h : exec i s = .next t) : t.status = 0 := by
  cases i with simp only [exec] at h
  | flagWr index bit => exact operation_onlyReturns h (checkedUpdate_onlyReturns rfl)
  | flagRd index => exact operation_onlyReturns h (checkedUpdate_onlyReturns rfl)
  | bcntWr n => exact operation_onlyReturns h (checkedUpdate_onlyReturns rfl)
  | flagsClr | bcntRd | fwupClearUpdate | fwupClearFail | fwupSetUpdate | fwupSetFail | fwupFlags | fwupUpdate | fwupFail
  | fwupIncbootcnt | fwupBootcnt => exact operation_onlyReturns h rfl
  | _ => exact absurd hi Bool.false_ne_true

/-- With the image in RAM no read fails (20_memory R52). -/
theorem memRead_ram_ends {a n : Nat} (hs : inRam s) : (memRead a n s).Ends (fun _ u => inRam u) fun _ => False := by
  by_cases hread : readableRun s a n
  · rw [memRead_ram hs hread]; exact hs
  · rw [memRead_ram_fault hs hread]; trivial

theorem rd32LE_ram_ends {a : Nat} (hs : inRam s) : (rd32LE a s).Ends (fun _ u => inRam u) fun _ => False :=
  (memRead_ram_ends hs).bind fun _ _ hu => hu

/-- A digest is computed with the image in RAM only, where its one read does not fail. -/
theorem operation_digestOf_status {α : Type} {load : List Byte → Engine} {result : Engine → α} {a n : Nat}
    {store : α → State → State} (hstore : ∀ v u, (store v u).status = 0)
    (h : operation (onRam fun s => (digestOf load result a n s).bind fun v s => .ok () (store v s)) s = .next t) :
    t.status = 0 := by
  refine operation_onlyReturns h (onRam_ends fun hs => ?_)
  have hdigest : (digestOf load result a n s).Ends (fun _ _ => True) fun _ => False :=
    (memRead_ram_ends hs).bind fun _ _ _ => trivial
  exact hdigest.bind fun v u _ => hstore v u

theorem exec_crc32_status {a : Nat} {n : Word} (h : exec (.crc32 a n) s = .next t) : t.status = 0 :=
  operation_digestOf_status (fun _ _ => rfl) h

theorem exec_md5_status {a : Nat} {n : Word} (h : exec (.md5 a n) s = .next t) : t.status = 0 :=
  operation_digestOf_status (fun _ _ => rfl) h

theorem exec_sha256_status {a : Nat} {n : Word} (h : exec (.sha256 a n) s = .next t) : t.status = 0 :=
  operation_digestOf_status (fun _ _ => rfl) h

/-- A block function is refused or returns (43_blowfish R186). -/
theorem operation_blockOp_status {f : Subkeys → Word × Word → Word × Word} {xl xr : Word}
    (h : operation (blockOp f xl xr) s = .next t) : t.status = 0 := by
  refine operation_onlyReturns h ?_
  unfold blockOp
  split
  · rfl
  · trivial

theorem exec_bfEnc_status {xl xr : Word} (h : exec (.bfEnc xl xr) s = .next t) : t.status = 0 := operation_blockOp_status h

theorem exec_bfDec_status {xl xr : Word} (h : exec (.bfDec xl xr) s = .next t) : t.status = 0 := operation_blockOp_status h

/-- BF.INIT is refused or returns (43_blowfish R188). -/
theorem exec_bfInit_status {key : List Byte} (h : exec (.bfInit key) s = .next t) : t.status = 0 := by
  rw [exec, execBfInit] at h
  refine operation_onlyReturns h ?_
  by_cases hkey : keyOk key = true
  · rw [bfInit_ok hkey]; rfl
  · rw [bfInit_refused hkey]; trivial

end NeverFails

/-! ## The flag tests -/

/-- EXIT of a flag test is 0 when the flag is 1 (30_encoding R100). -/
theorem testFlag_exit (i : Nat) (s : State) : (testFlag i s).exit = if s.pbsr.getLsbD i then 0 else 1 := by
  have hbit : ∀ b : BitVec 1, 1 - b = if b.getLsbD 0 then 0 else 1 := by decide
  rw [← pbsrFlag_bit]
  exact hbit _

/-- An operation that only updates the state ends with the update. -/
theorem operation_update_eq_next {u : State → State} {s t : State} (h : operation (fun s => .ok () (u s)) s = .next t) :
    t = u s := by
  rcases (operation_eq_next.mp h).2 with hok | ⟨c, v, hraised, -⟩
  · cases hok; rfl
  · cases hraised

theorem exec_fwupUpdate_exit {s t : State} (h : exec .fwupUpdate s = .next t) :
    t.exit = if s.pbsr.getLsbD s.cfg.idxUpdate.val then 0 else 1 := by
  obtain rfl := operation_update_eq_next (u := fun s => testFlag s.cfg.idxUpdate s) h
  exact testFlag_exit _ s

theorem exec_fwupFail_exit {s t : State} (h : exec .fwupFail s = .next t) :
    t.exit = if s.pbsr.getLsbD s.cfg.idxFail.val then 0 else 1 := by
  obtain rfl := operation_update_eq_next (u := fun s => testFlag s.cfg.idxFail s) h
  exact testFlag_exit _ s

/-! ## Operations that return or fail -/

/-- What a status that the part raises satisfies. `Ran.Named` is the same of `named`. -/
def Ran.Raises {α : Type} (p : Word → Prop) (r : Ran α) : Prop := ∀ c u, r = .raised c u → p c

/-- The part sets STATUS to 0 when it succeeds, and a status that it raises satisfies `p`. -/
def Ran.ReturnsOrRaises (p : Word → Prop) (r : Ran Unit) : Prop := (∀ u, r = .ok () u → u.status = 0) ∧ r.Raises p

/-- The state is that of a failed operation, with a status that satisfies `p`. -/
def FailedWith (p : Word → Prop) (t : State) : Prop := ∃ c u, p c ∧ t = State.failed u c

theorem FailedWith.mono {p q : Word → Prop} {t : State} (h : FailedWith p t) (hpq : ∀ c, p c → q c) : FailedWith q t := by
  obtain ⟨c, u, hc, ht⟩ := h
  exact ⟨c, u, hpq c hc, ht⟩

theorem FailedWith.status {p : Word → Prop} {t : State} (h : FailedWith p t) : p t.status := by
  obtain ⟨c, u, hc, rfl⟩ := h
  exact hc

section ReturnsOrFails

variable {p : Word → Prop} {s t : State}

theorem Ran.ReturnsOrRaises.returned {u : State} (hu : u.status = 0) : (Ran.ok () u).ReturnsOrRaises p :=
  ⟨fun _ h => by cases h; exact hu, fun _ _ h => by cases h⟩

theorem Ran.ReturnsOrRaises.bind {α : Type} {x : Ran α} {f : α → State → Ran Unit} (hx : x.Raises p)
    (hf : ∀ a u, (f a u).ReturnsOrRaises p) : (x.bind f).ReturnsOrRaises p := by
  refine ⟨fun v h => ?_, fun c v h => ?_⟩
  · obtain ⟨a, u, -, hlast⟩ := Ran.bind_eq_ok.mp h
    exact (hf a u).1 v hlast
  · rcases Ran.bind_eq_raised.mp h with hfirst | ⟨a, u, -, hlast⟩
    · exact hx c v hfirst
    · exact (hf a u).2 c v hlast

/-- A part and then a return. -/
theorem Ran.ReturnsOrRaises.ret {α : Type} {x : Ran α} {ret : α → State → State} (hx : x.Raises p)
    (hret : ∀ a u, (ret a u).status = 0) : (x.bind fun a u => .ok () (ret a u)).ReturnsOrRaises p :=
  .bind hx fun a u => .returned (hret a u)

theorem operation_returnsOrFails {body : State → Ran Unit} (h : operation body s = .next t)
    (hb : (body s).ReturnsOrRaises p) : t.status = 0 ∨ FailedWith p t := by
  obtain ⟨hreturns, hraises⟩ := hb
  rcases (operation_eq_next.mp h).2 with hok | ⟨c, u, hraised, rfl⟩
  · exact .inl (hreturns t hok)
  · exact .inr ⟨c, u, hraises c u hraised, rfl⟩

/-- A read raises FileIOError only (20_memory R52). -/
theorem rd32LE_raises (a : Nat) (s : State) : (rd32LE a s).Raises (· = Status.fileIOError.code) := fun c u h => by
  rcases Ran.bind_eq_raised.mp h with hread | ⟨_, _, -, hok⟩
  · rcases memRead_cases a 4 s with ⟨v, hcase, -⟩ | hcase | hcase <;> rw [hcase] at hread
    · cases hread
    · cases hread; rfl
    · cases hread
  · cases hok

/-- GLOBVER is four reads (40_parser R110). -/
theorem exec_globver_returnsOrFails {base : Nat} (h : exec (.globver base) s = .next t) :
    t.status = 0 ∨ FailedWith (· = Status.fileIOError.code) t := by
  rw [exec, execGlobver] at h
  exact operation_returnsOrFails h <|
    .bind (rd32LE_raises _ _) fun _ _ => .bind (rd32LE_raises _ _) fun _ _ => .bind (rd32LE_raises _ _) fun _ _ =>
    .ret (rd32LE_raises _ _) fun _ _ => rfl

/-- With the image in RAM none of the four fails. -/
theorem exec_globver_ram_status {base : Nat} (hs : inRam s) (h : exec (.globver base) s = .next t) : t.status = 0 := by
  rw [exec, execGlobver] at h
  exact operation_onlyReturns h <|
    (rd32LE_ram_ends hs).bind fun _ _ hs => (rd32LE_ram_ends hs).bind fun _ _ hs => (rd32LE_ram_ends hs).bind fun _ _ hs =>
    (rd32LE_ram_ends hs).bind fun _ _ _ => rfl

theorem exec_globver_status {base : Nat} (h : exec (.globver base) s = .next t) :
    t.status = 0 ∨ s.cfg.store = .file ∧ t.status = Status.fileIOError.code := by
  cases hs : s.cfg.store with
  | ram => exact .inl (exec_globver_ram_status hs h)
  | file => exact (exec_globver_returnsOrFails h).imp_right fun hfailed => ⟨rfl, hfailed.status⟩

/-- DECRYPT gets to its end only by writing its key schedule and its buffer, and fails there with DecryptError only (log entry 20). -/
theorem exec_decrypt_cases {addr : Nat} {len : Word} (h : exec (.decrypt addr len) s = .next t) :
    t.status = 0 ∨ ∃ m, t = ((s.scheduled s.cfg.key).withMem m).failed Status.decryptError.code := by
  have hr : ready s := (operation_eq_next.mp h).1
  by_cases hs : inRam s
  case neg =>
    have hfile : s.cfg.store = .file := by
      cases hstore : s.cfg.store with
      | ram => exact absurd hstore hs
      | file => rfl
    rw [exec, execDecrypt, operation_onRam_file hr hfile] at h
    cases h
  by_cases hlen : decryptLenOk len = true
  case neg =>
    rw [exec_decrypt_lengthRefused hr hs hlen] at h
    cases h
  rw [exec_decrypt_ram hr hs hlen] at h
  obtain ⟨hlen8, hblocks⟩ := decryptLenOk_iff.mp hlen
  by_cases hkey : keyOk s.cfg.key = true
  case neg =>
    rw [decryptBuffer_keyRefused hkey] at h
    cases h
  by_cases hw : writableRun s addr len.toNat
  case neg =>
    rw [decryptBuffer_fault hs hkey hblocks hw] at h
    cases h
  obtain ⟨m, -, hran⟩ := decryptBuffer_ram hs hkey hlen8 hblocks hw
  rw [hran] at h
  by_cases hfits : (trailer m addr len.toNat).toNat ≤ len.toNat - 8
  · rw [if_pos hfits] at h
    cases h
    exact .inl rfl
  · rw [if_neg hfits] at h
    cases h
    exact .inr ⟨m, rfl⟩

theorem named_fileIOError : named Status.fileIOError.code := ⟨.fileIOError, by decide, rfl⟩

theorem named_decryptError : named Status.decryptError.code := ⟨.decryptError, by decide, rfl⟩

/-- VALID's walker may fail with any status (41_validator R148, log entry 19). -/
theorem exec_valid_returnsOrFails {base : Nat} {maxSize : Word} (h : exec (.valid base maxSize) s = .next t) :
    t.status = 0 ∨ FailedWith (fun _ => True) t := by
  rw [exec, execValid] at h
  exact operation_returnsOrFails h (.ret (fun _ _ _ => trivial) fun _ _ => rfl)

/-- Every host operation but ERRSTATE and VALID returns or fails with a named status. -/
theorem exec_returnsOrFails {i : Instr} (hrec : isRecord i = false) (he : i ≠ .errstate) (hv : ∀ b m, i ≠ .valid b m)
    (h : exec i s = .next t) : t.status = 0 ∨ FailedWith named t := by
  by_cases hboot : bootState i = true
  · exact .inl (exec_bootState_status hboot h)
  cases i with simp only [exec] at h
  | errstate => exact absurd rfl he
  | valid b m => exact absurd rfl (hv b m)
  | magic b => exact operation_returnsOrFails h (.ret (checkMagic_named b s) fun _ _ => rfl)
  | globver b =>
    exact (exec_globver_returnsOrFails h).imp_right fun hfailed => hfailed.mono fun _ hc => hc ▸ named_fileIOError
  | chnknum b => exact operation_returnsOrFails h (.ret (countChunks_named b s) fun _ _ => rfl)
  | chnkhdrN b k => exact operation_returnsOrFails h (.ret (chunkHeader_named b _ s) fun _ _ => rfl)
  | chnkhdrD b name =>
    exact operation_returnsOrFails h <| .bind (countChunks_named b s) fun _ u => .ret (findByName_named b name _ _ u) fun _ _ => rfl
  | decrypt a n => exact (exec_decrypt_cases h).imp_right fun ⟨_, ht⟩ => ⟨_, _, named_decryptError, ht⟩
  | fwupUsbUpdateReq | fwupMtdparts => exact absurd h (by simp [execFwupUsbUpdateReq, execFwupMtdparts, operation_eq_next])
  | bfInit key => exact .inl (exec_bfInit_status h)
  | bfEnc l r => exact .inl (exec_bfEnc_status h)
  | bfDec l r => exact .inl (exec_bfDec_status h)
  | crc32 a n => exact .inl (exec_crc32_status h)
  | md5 a n => exact .inl (exec_md5_status h)
  | sha256 a n => exact .inl (exec_sha256_status h)
  | chnk | goptOther | versOpt | sizeOpt | dataOpt | destOpt | md5Opt | sha2Opt | cr32Opt | encmOpt | coptOther =>
    exact absurd hrec.symm Bool.false_ne_true
  | _ => exact absurd rfl hboot

/-- A host operation that ends with a status has taken `State.failed`, with a named status unless it is VALID. -/
theorem exec_failed {i : Instr} (hrec : isRecord i = false) (he : i ≠ .errstate) (h : exec i s = .next t) (ht : t.status ≠ 0) :
    FailedWith (fun c => (∀ b m, i ≠ .valid b m) → named c) t := by
  by_cases hvalid : ∃ b m, i = .valid b m
  · obtain ⟨b, m, rfl⟩ := hvalid
    exact ((exec_valid_returnsOrFails h).resolve_left ht).mono fun _ _ hv => absurd rfl (hv b m)
  · have hv : ∀ b m, i ≠ .valid b m := fun b m hi => hvalid ⟨b, m, hi⟩
    exact ((exec_returnsOrFails hrec he hv h).resolve_left ht).mono fun _ hc _ => hc

/-- An operation that ends with a status has written no PBSR, since those that write it cannot fail; and of those that run the key
schedule only DECRYPT can. -/
theorem exec_failed_frame {i : Instr} (he : i ≠ .errstate) (h : exec i s = .next t) (ht : t.status ≠ 0) :
    t.pbsr = s.pbsr ∧ t.halt = s.halt ∧
      ((∀ a n, i ≠ .decrypt a n) → t.keys = s.keys ∧ t.bfReady = s.bfReady ∧ t.mem = s.mem) := by
  have hboot : bootState i = false := Bool.eq_false_iff.mpr fun hi => ht (exec_bootState_status hi h)
  obtain ⟨⟨hflags, hcount⟩, -⟩ : (writesFlags i = false ∧ writesBootcount i = false) ∧ readsPbsr i = false := by
    simpa [bootState] using hboot
  cases hkeys : runsKeySchedule i with
  | false =>
    have hframe := exec_frame hflags hcount hkeys he h
    exact ⟨hframe.pbsr, hframe.halt, fun _ => ⟨hframe.keys, hframe.bfReady, hframe.mem⟩⟩
  | true =>
    cases i with
    | bfInit key => exact absurd (exec_bfInit_status h) ht
    | decrypt a n =>
      obtain ⟨m, rfl⟩ := (exec_decrypt_cases h).resolve_left ht
      exact ⟨rfl, rfl, fun hi => absurd rfl (hi a n)⟩
    | _ => exact absurd hkeys Bool.false_ne_true

end ReturnsOrFails

/-- Settles O31: the end of the operation is `State.failed`, and `exec_failed_frame` says what its body had left alone. -/
theorem failureChangesNothingElse : Obligations.FailureChangesNothingElse := by
  refine ⟨⟨rfl, fun _ => Status.code_neg, fun _ _ => Status.code_inj⟩, fun i s t hrec he h ht => ?_⟩
  obtain ⟨hpbsr, hhalt, hrest⟩ := exec_failed_frame he h ht
  obtain ⟨c, u, hnamed, rfl⟩ := exec_failed hrec he h ht
  exact ⟨rfl, hpbsr, hhalt, rfl, rfl, hrest, hnamed⟩

/-- Settles O32: each operation by its own lemma above. -/
theorem nonFailingOperations : Obligations.NonFailingOperations := by
  intro i s t h
  refine ⟨fun hi => exec_bootState_status hi h, ?digestsAndBlocks, ?keySchedule, ?globver, ?update, ?fail⟩
  case digestsAndBlocks =>
    rintro ⟨a, n, rfl | rfl | rfl | rfl | rfl⟩
    · exact exec_crc32_status h
    · exact exec_md5_status h
    · exact exec_sha256_status h
    · exact exec_bfEnc_status h
    · exact exec_bfDec_status h
  case keySchedule =>
    rintro ⟨key, rfl⟩
    exact exec_bfInit_status h
  case globver =>
    rintro ⟨b, rfl⟩
    exact exec_globver_status h
  case update =>
    rintro rfl
    exact exec_fwupUpdate_exit h
  case fail =>
    rintro rfl
    exact exec_fwupFail_exit h

end Sys2Proof.Machine
end

section
/-! The decoder and the encoder (30_encoding R83, R86, R90, R91): they undo each other, on every well-formed instruction and on every
eight bytes; and the codes that no operation has. -/

namespace Sys2Proof.Machine

/-! ## The two words of a record -/

/-- The record that a dispatch table gives an id and a length (30_encoding R80). -/
def dispatched : Dispatch → Word → Word → Instr
  | .globalOption, id, length => decodeGlobalOption id length
  | .chunkOption, id, length => decodeChunkOption id length

theorem decode_record {d : Dispatch} {bytes : List Byte} (h : bytes.length = 8) :
    decode (.record d bytes) = .ok (dispatched d (le32At bytes 0) (le32At bytes 4)) := by
  have hlong : ¬ bytes.length < 8 := by omega
  simp only [decode, decodeRecord, if_neg hlong]
  cases d <;> rfl

/-- A byte above the lowest one is a byte of the part above. -/
theorem extractLsb'_append_byte {n lo : Nat} (v : BitVec n) (b : Byte) :
    (v ++ b).extractLsb' (lo + 8) 8 = v.extractLsb' lo 8 :=
  BitVec.extractLsb'_append_eq_of_le (Nat.le_add_left 8 lo)

/-- Four bytes are those of their word. -/
theorem le32_le32Of (b0 b1 b2 b3 : Byte) : le32 (le32Of b0 b1 b2 b3) = [b0, b1, b2, b3] := by
  have hbyte0 : (le32Of b0 b1 b2 b3).extractLsb' 0 8 = b0 := BitVec.extractLsb'_append_eq_right
  have hbyte1 : (le32Of b0 b1 b2 b3).extractLsb' 8 8 = b1 :=
    (extractLsb'_append_byte (lo := 0) (b3 ++ b2 ++ b1) b0).trans BitVec.extractLsb'_append_eq_right
  have hbyte2 : (le32Of b0 b1 b2 b3).extractLsb' 16 8 = b2 :=
    (extractLsb'_append_byte (lo := 8) (b3 ++ b2 ++ b1) b0).trans <|
      (extractLsb'_append_byte (lo := 0) (b3 ++ b2) b1).trans BitVec.extractLsb'_append_eq_right
  have hbyte3 : (le32Of b0 b1 b2 b3).extractLsb' 24 8 = b3 :=
    (extractLsb'_append_byte (lo := 16) (b3 ++ b2 ++ b1) b0).trans <|
      (extractLsb'_append_byte (lo := 8) (b3 ++ b2) b1).trans BitVec.extractLsb'_append_eq_left
  rw [le32, hbyte0, hbyte1, hbyte2, hbyte3]
/-- Eight bytes are those of their two words. -/
theorem le32_append_le32_of_length {bytes : List Byte} (h : bytes.length = 8) :
    le32 (le32At bytes 0) ++ le32 (le32At bytes 4) = bytes := by
  match bytes, h with
  | [b0, b1, b2, b3, b4, b5, b6, b7], _ =>
    exact congrArg₂ (· ++ ·) (le32_le32Of b0 b1 b2 b3) (le32_le32Of b4 b5 b6 b7)

theorem decode_recordWords (d : Dispatch) (id length : Word) :
    decode (recordWords d id length) = .ok (dispatched d id length) := by
  rw [recordWords, decode_record (by simp), le32At_le32, le32At_append_four]

theorem decodeGlobalOption_other {id : Word} (h : id ≠ RecordId.chnk) (length : Word) :
    decodeGlobalOption id length = .goptOther id length := if_neg h

theorem decodeChunkOption_other {id : Word} (h : id ∉ RecordId.chunkIds) (length : Word) :
    decodeChunkOption id length = .coptOther id length := by
  simp only [RecordId.chunkIds, List.mem_cons, List.not_mem_nil, or_false, not_or] at h
  simp [decodeChunkOption, h]

/-! ## Decode of encode, encode of decode -/

/-- Settles O1: a command's operands stand in its latches, and the words of a record are dispatched again to it. -/
theorem decodeOfEncode : Obligations.DecodeOfEncode := by
  intro i hwf
  cases i with
  | chnk l => exact decode_recordWords .globalOption RecordId.chnk l
  | goptOther id l =>
    have hid : id ≠ RecordId.chnk := by simpa [Instr.wellFormed] using hwf
    rw [encode, decode_recordWords, dispatched, decodeGlobalOption_other hid]
  | versOpt l => exact decode_recordWords .chunkOption RecordId.vers l
  | sizeOpt l => exact decode_recordWords .chunkOption RecordId.size l
  | dataOpt l => exact decode_recordWords .chunkOption RecordId.data l
  | destOpt l => exact decode_recordWords .chunkOption RecordId.dest l
  | md5Opt l => exact decode_recordWords .chunkOption RecordId.md5 l
  | sha2Opt l => exact decode_recordWords .chunkOption RecordId.sha2 l
  | cr32Opt l => exact decode_recordWords .chunkOption RecordId.cr32 l
  | encmOpt l => exact decode_recordWords .chunkOption RecordId.encm l
  | coptOther id l =>
    have hid : id ∉ RecordId.chunkIds := by simpa [Instr.wellFormed] using hwf
    rw [encode, decode_recordWords, dispatched, decodeChunkOption_other hid]
  | _ => rfl

/-- The record that a table gives is well-formed, and its words are those it was given by. -/
theorem dispatched_spelled (d : Dispatch) (id length : Word) :
    (dispatched d id length).wellFormed = true ∧ encode (dispatched d id length) = recordWords d id length := by
  cases d with
  | globalOption =>
    by_cases hid : id = RecordId.chnk
    · subst hid
      exact ⟨rfl, rfl⟩
    · rw [dispatched, decodeGlobalOption_other hid]
      exact ⟨by simpa [Instr.wellFormed] using hid, rfl⟩
  | chunkOption =>
    by_cases hid : id ∈ RecordId.chunkIds
    · simp only [RecordId.chunkIds, List.mem_cons, List.not_mem_nil, or_false] at hid
      rcases hid with rfl | rfl | rfl | rfl | rfl | rfl | rfl | rfl <;> exact ⟨rfl, rfl⟩
    · rw [dispatched, decodeChunkOption_other hid]
      exact ⟨by simpa [Instr.wellFormed] using hid, rfl⟩

/-- Settles O2: the eight bytes are those of the two words that the record was dispatched by. -/
theorem encodeOfDecodedRecord : Obligations.EncodeOfDecodedRecord := by
  intro d bytes i hlength hdecode
  rw [decode_record hlength] at hdecode
  obtain rfl := Except.ok.inj hdecode
  obtain ⟨hwf, hencode⟩ := dispatched_spelled d (le32At bytes 0) (le32At bytes 4)
  exact ⟨hwf, by rw [hencode, recordWords, le32_append_le32_of_length hlength]⟩

/-- Settles O3: the decoder evaluates each of the ten words. -/
theorem sampleWordsDecode : Obligations.SampleWordsDecode := by
  refine ⟨rfl, rfl, rfl, rfl, rfl, rfl, rfl, rfl, rfl, rfl⟩

end Sys2Proof.Machine
end

section
/-! The step (30_encoding R81, R97, 40_parser R111, 60_exceptions R262, 70_reset R280 to R285): which instruction it runs, what it does
while HALT is 1, and what a reset does. -/

namespace Sys2Proof.Machine

/-! ## A command that the host issues -/

section Issue

variable {s : State} {c : Command} {rest : List Input}

theorem issue_decoded {i : Instr} (hr : ready s) (h : decode (.command c) = .ok i) : issue c s = exec i (s.withArg c.args) := by
  rw [issue, hr, h]
  rfl

theorem issue_undecoded {e : DecodeError} (hr : ready s) (h : decode (.command c) = .error e) :
    issue c s = .refused (undecoded e) := by
  rw [issue, hr, h]
  rfl

theorem issue_halted (h : s.halt = true) : issue c s = .refused .halted := if_pos h

theorem step_issue (hw : s.walk = none) (h : s.inputs = .issue c :: rest) : step s = issue c (s.withInputs rest) :=
  step_input hw h

end Issue

/-- The codes of 30_encoding R83. -/
theorem decodeCommand_reserved {code : Byte} (a : Args)
    (h : code.toNat ∉ [0x01, 0x02, 0x03, 0x04, 0x05, 0x06, 0x07, 0x08, 0x10, 0x11, 0x12, 0x13, 0x14, 0x15, 0x16, 0x17, 0x18,
      0x19, 0x1A, 0x20, 0x21, 0x22, 0x23, 0x24, 0x30, 0x31, 0x32, 0x40, 0x41, 0x42]) :
    decodeCommand code a = .error .reservedCommand := by
  unfold decodeCommand
  split
  case h_31 => rfl
  all_goals exact absurd (by simp [*]) h

/-- The two excluded codes have instructions, whose meaning is a refusal (30_encoding R102). -/
theorem exec_excluded {s : State} (hr : ready s) :
    exec .fwupUsbUpdateReq s = .refused .excludedCommand ∧ exec .fwupMtdparts s = .refused .excludedCommand :=
  ⟨by rw [exec, execFwupUsbUpdateReq, operation_ready hr, endOp_refused],
    by rw [exec, execFwupMtdparts, operation_ready hr, endOp_refused]⟩

/-- Settles O4: a code of no row is refused by the decoder, an excluded one by its instruction. -/
theorem reservedCodesRefused : Obligations.ReservedCodesRefused := by
  refine ⟨fun c rest s hr hw hin => ?_, fun s hr => exec_excluded hr⟩
  have hr' : ready (s.withInputs rest) := hr
  rw [step_issue hw hin]
  refine ⟨fun hcode => ?_, ?_⟩
  · exact issue_undecoded hr' (decodeCommand_reserved c.args hcode)
  · obtain ⟨code, args⟩ := c
    rintro (rfl | rfl)
    · exact (issue_decoded hr' rfl).trans (exec_excluded (s := (s.withInputs rest).withArg args) hr).1
    · exact (issue_decoded hr' rfl).trans (exec_excluded (s := (s.withInputs rest).withArg args) hr).2

/-- Settles O5: the step takes the input, and the issue latches the operands. -/
theorem stepRunsIssuedOperation : Obligations.StepRunsIssuedOperation := by
  intro s c rest i hr hw hin hdecode
  rw [step_issue hw hin, issue_decoded (s := s.withInputs rest) hr hdecode]

/-! ## The record at the cursor -/

/-- The eight bytes at the cursor are the ones fetched, in two reads. -/
theorem fetchRecord_holds {s : State} {w : Walk} {bytes : List Byte} (hs : inRam s) (h : holds s w.cur bytes)
    (hlength : bytes.length = 8) : fetchRecord w s = .ok bytes s := by
  have hsplit : holds s w.cur (bytes.take 4 ++ bytes.drop 4) := by rwa [List.take_append_drop]
  obtain ⟨hid, hlen⟩ := holds_append.mp hsplit
  have htake : (bytes.take 4).length = 4 := by simp [hlength]
  have hdrop : (bytes.drop 4).length = 4 := by simp [hlength]
  have hreadId := memRead_holds hs hid
  have hreadLen := memRead_holds hs hlen
  rw [htake] at hreadId hreadLen
  rw [hdrop] at hreadLen
  rw [fetchRecord, hreadId, Ran.bind_ok, recordLengthAddr, hreadLen, Ran.bind_ok, List.take_append_drop]

theorem fetchInstr_holds {s : State} {w : Walk} {bytes : List Byte} {i : Instr} (hs : inRam s) (h : holds s w.cur bytes)
    (hlength : bytes.length = 8) (hdecode : decode (.record w.table bytes) = .ok i) : fetchInstr w s = .ok i s := by
  have hdecode' : decodeRecord w.table bytes = .ok i := hdecode
  rw [fetchInstr, fetchRecord_holds hs h hlength, Ran.bind_ok, hdecode']

/-- A walk in a loop that looks at ids takes its turn with the record at the cursor. -/
theorem walkTurn_record {s : State} {w : Walk} (hr : ready s) (hover : w.loopOver = false) (hphase : w.phase ≠ .skip) :
    walkTurn w s = execFetched (fetchInstr w s) := by
  rw [walkTurn, hr, hover]
  cases hp : w.phase with
  | skip => exact absurd hp hphase
  | find | group => rfl

/-- Settles O6: the walk's turn executes what it fetches. -/
theorem stepRunsRecordAtCursor : Obligations.StepRunsRecordAtCursor := by
  intro s w bytes i hr hs hw hreset hover hphase hlength hholds hdecode
  rw [step_walk hw hreset, walkTurn_record hr hover hphase, fetchInstr_holds hs hholds hlength hdecode, execFetched]

/-! ## A word put in place -/

/-- A word of the opcode table is a command or the two words of a record. -/
theorem tableWord_cases {nbits w : Nat} {e : Encoded} (h : tableWord nbits w = some e) :
    (∃ c, e = .command c) ∨ ∃ d id length, e = recordWords d id length := by
  unfold tableWord at h
  split at h
  case isTrue =>
    split at h
    · exact .inl ⟨_, (Option.some.inj h).symm⟩
    · cases h
  case isFalse =>
    split at h
    · split at h
      · exact .inr ⟨_, _, _, (Option.some.inj h).symm⟩
      · cases h
    · cases h

/-- The eight bytes of a record that is put in place stand at address 0. -/
theorem holds_placeInstr (d : Dispatch) (bytes : List Byte) (s : State) (hlength : bytes.length = 8) :
    holds (placeInstr (.record d bytes) s) 0 bytes := by
  refine ⟨(allFrom_iff _ _ _).mpr fun x _ hx => ?_, Memory.bytes_writes_same s.mem 0 bytes⟩
  have hspace : 2 ^ 3 ≤ 2 ^ max 3 s.cfg.addressWidth := Nat.pow_le_pow_right (by decide) (le_max_left _ _)
  have hlt : x < 2 ^ max 3 s.cfg.addressWidth := by omega
  simp [canRead, placeInstr, Region.has, hlt]

theorem step_placeInstr_command {c : Command} {i : Instr} (h : decode (.command c) = .ok i) (s : State) :
    step (placeInstr (.command c) s) = exec i (({ s with halt := false, walk := none } : State).withArg c.args) :=
  stepRunsIssuedOperation _ c s.inputs i rfl rfl rfl h

theorem step_placeInstr_record {d : Dispatch} {bytes : List Byte} {i : Instr} (hlength : bytes.length = 8)
    (h : decode (.record d bytes) = .ok i) (s : State) :
    step (placeInstr (.record d bytes) s) = exec i (placeInstr (.record d bytes) s) := by
  have htable : (oneRecordWalk d).table = d := by cases d <;> rfl
  have hphase : (oneRecordWalk d).phase ≠ .skip := by cases d <;> exact Phase.noConfusion
  have hover : (oneRecordWalk d).loopOver = false := by cases d <;> rfl
  exact stepRunsRecordAtCursor _ (oneRecordWalk d) bytes i rfl rfl rfl (dropResets_head s.inputs) hover hphase hlength
    (holds_placeInstr d bytes s hlength) (by rwa [htable])

/-- Settles O7: a command is issued, a record stands at the cursor of a walk, and in neither is a register of the state changed. -/
theorem stepRunsFetchWord : Obligations.StepRunsFetchWord := by
  intro s nbits w i h
  unfold decodeTableWord at h
  split at h
  · cases h
  · next e hword =>
    have hdecode : decode e = .ok i := by
      split at h
      · next hok => rw [hok, Option.some.inj h]
      · cases h
    simp only [State.withFetchWord, hword]
    rcases tableWord_cases hword with ⟨c, rfl⟩ | ⟨d, id, length, rfl⟩
    · exact ⟨_, step_placeInstr_command hdecode s, rfl, rfl, rfl, rfl, rfl, rfl, rfl, rfl⟩
    · exact ⟨_, step_placeInstr_record (by simp) hdecode s, rfl, rfl, rfl, rfl, rfl, rfl, rfl, rfl⟩

/-! ## HALT -/

/-- Settles O21: every meaning is an operation, which looks at HALT first. -/
theorem haltRefusesEveryInstruction : Obligations.HaltRefusesEveryInstruction := by
  intro i s h
  cases i <;> rw [exec] <;> exact operation_halted h _

/-- Only a block that is not halted completes an instruction. -/
theorem ready_of_exec {i : Instr} {s t : State} (h : exec i s = .next t) : ready s := by
  by_contra hhalt
  rw [haltRefusesEveryInstruction i s (Bool.eq_true_of_not_eq_false hhalt)] at h
  cases h

/-- Settles O20. -/
theorem errstateOnlyHalts : Obligations.ErrstateOnlyHalts := by
  intro s hr
  rw [exec, execErrstate, operation_ready hr, endOp_ok, State.withHalt]

/-- While HALT is 1 every action of the outside but a reset is refused. -/
theorem act_halted {i : Input} {s t : State} (h : s.halt = true) (hact : act i s = .next t) :
    ∃ kind, i = .reset kind ∧ t = s.afterReset kind := by
  cases i with
  | reset kind => exact ⟨kind, rfl, (Host.Outcome.next.inj hact).symm⟩
  | issue c => simp [act, issue_halted h] at hact
  | stage a b => simp [act, stage, h] at hact
  | checkBootLimit => simp [act, checkBootLimit, h] at hact
  | resetDuring kind c => simp [act, resetDuring, issue_halted h, Refusal.inRun] at hact

/-- Settles O22: with a walk under way only a reset comes, and with none `act_halted` says the same of the next input. -/
theorem haltEndsOnlyByReset : Obligations.HaltEndsOnlyByReset := by
  intro s t hhalt hstep
  by_cases hreset : ∃ kind rest, s.inputs = .reset kind :: rest
  case pos =>
    obtain ⟨kind, rest, hin⟩ := hreset
    rw [step_reset hin] at hstep
    obtain rfl := Host.Outcome.next.inj hstep
    exact .inr ⟨kind, rest, hin, rfl, rfl⟩
  case neg =>
    cases hw : s.walk with
    | some w =>
      rw [step_walk hw fun kind rest hin => hreset ⟨kind, rest, hin⟩, walkTurn, hhalt] at hstep
      cases hstep
    | none =>
      cases hin : s.inputs with
      | nil =>
        rw [step_idle hw hin] at hstep
        exact .inl (Host.Outcome.next.inj hstep).symm
      | cons i rest =>
        rw [step_input hw hin] at hstep
        obtain ⟨kind, rfl, -⟩ := act_halted (s := s.withInputs rest) hhalt hstep
        exact absurd ⟨kind, rest, hin⟩ hreset

/-- Settles O19: the comparison runs ERRSTATE or nothing. -/
theorem bootLimitHaltsTheBlock : Obligations.BootLimitHaltsTheBlock := by
  intro s rest hr hw hin
  have hready : (s.withInputs rest).halt = false := hr
  have hact : step s = checkBootLimit (s.withInputs rest) := step_input hw hin
  rw [hact, checkBootLimit, hready]
  refine ⟨fun habove => ?_, fun hbelow => ?_⟩
  · exact (if_pos habove).trans (errstateOnlyHalts _ hready)
  · exact if_neg (Nat.not_lt.mpr hbelow)

/-! ## Resets -/

/-- Settles O23. -/
theorem resetEffects : Obligations.ResetEffects := by
  intro s kind rest hin
  refine ⟨_, step_reset hin, rfl, rfl, rfl, rfl, rfl, rfl, fun hkind => ?_⟩
  cases kind with
  | powerOn => exact absurd rfl hkind
  | software | watchdog => rfl

/-- Settles O24: what `State.afterReset` keeps of the state is what the two have in common. -/
theorem resetForgetsAllButPbsr : Obligations.ResetForgetsAllButPbsr := by
  intro s t kind hcfg hin hdraws hpbsr
  have hkept : (s.afterReset kind).pbsr = (t.afterReset kind).pbsr := by
    cases kind with
    | powerOn => exact congrArg (Config.freeWord · 18) hdraws
    | software | watchdog => exact hpbsr nofun
  simp only [State.afterReset_pbsr, hdraws] at hkept
  simp only [State.afterReset, hcfg, hin, hdraws, hkept]

theorem afterReset_pbsr_kept {kind : ResetKind} (h : kind ≠ .powerOn) (s : State) : (s.afterReset kind).pbsr = s.pbsr := by
  cases kind with
  | powerOn => exact absurd rfl h
  | software | watchdog => rfl

/-- The refusals of a run, listed (60_exceptions R251). -/
theorem inRun_iff_mem (r : Refusal) :
    r.inRun = true ↔ r ∈ [Refusal.totalLengthBelowCrcOffset, .decryptLength, .noKeySchedule, .keyLength, .flagOperand,
      .bootcountOperand] := by
  cases r <;> simp [Refusal.inRun]

theorem cutPbsr_cases (before written : Word) (draw : Nat) :
    cutPbsr before written draw = before ∨ cutPbsr before written draw = written := by
  unfold cutPbsr
  split
  · exact .inr rfl
  · exact .inl rfl

/-- Settles O25: the four ends of `resetDuring`, by the outcome of the operation that is cut. -/
theorem resetDuringOperation : Obligations.ResetDuringOperation := by
  intro s kind c rest hw hin inRun
  have hstep : step s = resetDuring kind c (s.withInputs rest) := step_input hw hin
  rw [hstep, resetDuring]
  refine ⟨fun u hu => ?_, fun f hf => ?_, fun r hr => ⟨fun hmem => ?_, fun hmem => ?_⟩⟩
  · rw [hu]
    refine ⟨_, rfl, rfl, rfl, rfl, fun hkind => ?_⟩
    rw [afterReset_pbsr_kept hkind, State.withPbsr_pbsr]
    exact cutPbsr_cases _ _ _
  · rw [hf]
    exact ⟨_, rfl, rfl, rfl, rfl, fun hkind => afterReset_pbsr_kept hkind _⟩
  · rw [hr]
    exact ⟨_, if_pos ((inRun_iff_mem r).mpr hmem), rfl, rfl, rfl, fun hkind => afterReset_pbsr_kept hkind _⟩
  · rw [hr]
    exact if_neg (mt (inRun_iff_mem r).mp hmem)

/-- Settles O26: with no walk and no input the block is idle. -/
theorem idleAfterReset : Obligations.IdleAfterReset :=
  ⟨fun _ _ hin => step_idle rfl hin, step_idle rfl rfl, rfl, rfl, rfl, rfl⟩

end Sys2Proof.Machine
end

section
/-! Memory (20_memory R52, R53, R65): read after write, and the reads of the two stores. -/

namespace Sys2Proof.Machine

/-- Settles O8: a byte inside the run reads as written, and one outside as before. -/
theorem readAfterWrite : Obligations.ReadAfterWrite := by
  intro m a x b
  split
  case isTrue h =>
    obtain ⟨i, rfl⟩ := Nat.exists_eq_add_of_le h.1
    have hi : i < b.length := by omega
    rw [Memory.read_writes_inside b m a i hi, Nat.add_sub_cancel_left, List.getD_eq_getElem _ _ hi]
  case isFalse h => exact Memory.read_writes_outside b m a x (by omega)

/-- With a file store a read that does not fail by a free draw is a read of the extent (20_memory R52). -/
theorem memRead_file_cases {s : State} (hs : s.cfg.store = .file) (a n : Nat) :
    memRead a n s = .raised Status.fileIOError.code s.drawn ∨ memRead a n s = readExtent a n s.drawn := by
  simp only [memRead, hs]
  split
  · exact .inl rfl
  · exact .inr rfl

/-- Settles O9: RAM by the rule for it, and a file store by the free draw and then the extent. -/
theorem readsOfTheTwoStores : Obligations.ReadsOfTheTwoStores := by
  intro s a n
  refine ⟨fun hs => ⟨memRead_ram hs, memRead_ram_fault hs⟩, fun hs => ?_⟩
  rcases memRead_file_cases hs a n with hfails | hreads
  · exact .inl hfails
  · exact .inr ⟨fun h => hreads.trans (if_pos h), fun h => hreads.trans (if_neg h)⟩

end Sys2Proof.Machine
end

section
/-! The boot-state unit (45_bootstate): its commands in the words of the rules, and the independence of the fields of PBSR. -/

namespace Sys2Proof.Machine

/-! ## The updates and the reads of PBSR in the words of the rules -/

theorem pbsrSetFlag_clear (v : Word) (i : Nat) : pbsrSetFlag v i 0 = v &&& ~~~((1 : Word) <<< i) := by
  have hzero : ((0 : BitVec 1).setWidth 32) <<< i = (0 : Word) := BitVec.zero_shiftLeft i
  rw [pbsrSetFlag, hzero]
  exact BitVec.or_zero

theorem pbsrSetFlag_set (v : Word) (i : Nat) : pbsrSetFlag v i 1 = v ||| ((1 : Word) <<< i) := by
  have hone : (1 : BitVec 1).setWidth 32 = (1 : Word) := by decide
  rw [pbsrSetFlag, hone]
  generalize (1 : Word) <<< i = flag
  ext k
  simp only [BitVec.getElem_or, BitVec.getElem_and, BitVec.getElem_not]
  cases flag[k] <;> simp

/-- A shift down and a cut are a field of the word. -/
theorem setWidth_ushiftRight_eq_extract (v : Word) (lo n : Nat) : (v >>> lo).setWidth n = v.extractLsb' lo n := by
  apply BitVec.eq_of_getLsbD_eq
  intro k hk
  simp [hk]

theorem pbsrFlags_eq_extract (v : Word) : pbsrFlags v = v.extractLsb' 0 8 := by
  rw [← setWidth_ushiftRight_eq_extract, BitVec.ushiftRight_zero, pbsrFlags]

theorem pbsrFlag_eq_extract (v : Word) (i : Nat) : pbsrFlag v i = v.extractLsb' i 1 := setWidth_ushiftRight_eq_extract v i 1

theorem pbsrBootcnt_eq_extract (v : Word) : pbsrBootcnt v = v.extractLsb' 8 8 := setWidth_ushiftRight_eq_extract v 8 8

/-- The boot counter as a number. -/
theorem pbsrBootcnt_toNat (v : Word) : ((v >>> 8) &&& (0xFF : Word)).toNat = (pbsrBootcnt v).toNat := by
  rw [pbsrBootcnt_eq_mask, BitVec.toNat_setWidth, BitVec.toNat_and]
  exact (Nat.mod_eq_of_lt (Nat.and_lt_two_pow (n := 8) _ (by decide))).symm

theorem pbsrSetBootcnt_rest (v : Word) (n : Byte) : pbsrSetBootcnt v n &&& (0xFFFF00FF : Word) = v &&& (0xFFFF00FF : Word) := by
  apply BitVec.eq_of_getLsbD_eq
  intro k hk
  rw [BitVec.getLsbD_and, BitVec.getLsbD_and, pbsrSetBootcnt_bit v n hk, maskBootcnt_bit k hk]
  split
  · simp [show ¬ (k < 8 ∨ 16 ≤ k) by omega]
  · rfl

/-! ## How the commands end -/

section CommandEnds

variable {s : State}

theorem exec_flagsClr (hr : ready s) : exec .flagsClr s = .next (flagsClear s).returned := by
  rw [exec, execFlagsClr, operation_ready hr, endOp_ok]

/-- A command that writes one flag. -/
theorem operation_flagWrite (hr : ready s) (i : State → Nat) (b : BitVec 1) :
    operation (fun s => .ok () (flagWrite (i s) b s).returnedCommand) s =
      .next { s with pbsr := pbsrSetFlag s.pbsr (i s) b, status := 0, exit := 0 } := by
  rw [operation_ready hr, endOp_ok]
  rfl

theorem exec_fwupFlags (hr : ready s) :
    exec .fwupFlags s = .next (s.withRes { s.res with flags := pbsrFlags s.pbsr }).returnedCommand := by
  rw [exec, execFwupFlags, operation_ready hr, endOp_ok]

theorem exec_fwupBootcnt (hr : ready s) :
    exec .fwupBootcnt s = .next (s.withRes { s.res with bootcnt := pbsrBootcnt s.pbsr }).returnedCommand := by
  rw [exec, execFwupBootcnt, operation_ready hr, endOp_ok]

theorem exec_fwupUpdate (hr : ready s) : exec .fwupUpdate s = .next (testFlag s.cfg.idxUpdate s) := by
  rw [exec, execFwupUpdate, operation_ready hr, endOp_ok]

theorem exec_fwupFail (hr : ready s) : exec .fwupFail s = .next (testFlag s.cfg.idxFail s) := by
  rw [exec, execFwupFail, operation_ready hr, endOp_ok]

theorem exec_fwupIncbootcnt (hr : ready s) :
    exec .fwupIncbootcnt s = .next (bootcountWrite (pbsrBootcnt s.pbsr + 1) s).returnedCommand := by
  rw [exec, execFwupIncbootcnt, operation_ready hr, endOp_ok]

/-- What a flag test leaves (45_bootstate R222, R223). -/
theorem testFlag_eq (i : Nat) (s : State) :
    testFlag i s = { s with
      res := { s.res with bit := s.pbsr.extractLsb' i 1 }, status := 0, exit := if s.pbsr.getLsbD i then 0 else 1 } := by
  rw [← testFlag_exit, ← pbsrFlag_eq_extract]
  rfl

end CommandEnds

/-- Settles O13. -/
theorem flagsClrResult : Obligations.FlagsClrResult := fun _ hr => exec_flagsClr hr

/-- The mask of a flag, shifted as a number or as a word. -/
theorem natCast_shiftLeft (i : Nat) : ((1 <<< i : Nat) : Word) = (1 : Word) <<< i := by
  apply BitVec.eq_of_toNat_eq
  rw [BitVec.toNat_shiftLeft]
  exact BitVec.toNat_ofNat _ _

/-- Settles O14: each command is one flag write. -/
theorem flagCommandsWrite : Obligations.FlagCommandsWrite := by
  intro s hr update fail
  have hwrite := operation_flagWrite hr
  refine ⟨(hwrite (·.cfg.idxUpdate) 0).trans ?_, (hwrite (·.cfg.idxFail) 0).trans ?_,
    (hwrite (·.cfg.idxUpdate) 1).trans ?_, (hwrite (·.cfg.idxFail) 1).trans ?_⟩
  · simp only [pbsrSetFlag_clear, update, natCast_shiftLeft]
  · simp only [pbsrSetFlag_clear, fail, natCast_shiftLeft]
  · simp only [pbsrSetFlag_set, update, natCast_shiftLeft]
  · simp only [pbsrSetFlag_set, fail, natCast_shiftLeft]

/-- Settles O15: each command reads one field of PBSR. -/
theorem flagCommandsRead : Obligations.FlagCommandsRead := by
  intro s hr
  refine ⟨?_, ?_, ?_, ?_⟩
  · rw [exec_fwupFlags hr, pbsrFlags_eq_extract]
    rfl
  · rw [exec_fwupUpdate hr, testFlag_eq]
  · rw [exec_fwupFail hr, testFlag_eq]
  · rw [exec_fwupBootcnt hr, pbsrBootcnt_eq_extract]
    rfl

/-- Settles O16: the count is a byte, whose sum is taken modulo 256. -/
theorem bootcountIncrements : Obligations.BootcountIncrements := by
  intro s hr
  refine ⟨_, exec_fwupIncbootcnt hr, rfl, ?_, pbsrSetBootcnt_rest _ _⟩
  rw [pbsrBootcnt_toNat, pbsrBootcnt_toNat]
  exact (congrArg BitVec.toNat (pbsrBootcnt_pbsrSetBootcnt s.pbsr _)).trans (BitVec.toNat_add _ _)

/-! ## The fields of PBSR are independent -/

section Completed

variable {s t : State}

/-- An update behind a test of the operands completes only on operands that pass. -/
theorem operation_checkedUpdate_eq_next {c : Prop} [Decidable c] {r : Refusal} {u : State → State}
    (h : operation (fun s => if c then .refused r else .ok () (u s)) s = .next t) : ready s ∧ ¬ c ∧ t = u s := by
  have hr : ready s := (operation_eq_next.mp h).1
  by_cases hc : c
  · rw [operation_checkedUpdate_refused hr hc] at h
    cases h
  · rw [operation_checkedUpdate_passed hr hc] at h
    exact ⟨hr, hc, (Host.Outcome.next.inj h).symm⟩

theorem exec_flagWr_eq_next {i b : Word} (h : exec (.flagWr i b) s = .next t) :
    ready s ∧ ready t ∧ i.toNat ≤ 7 ∧ t.pbsr = pbsrSetFlag s.pbsr i.toNat (b.setWidth 1) := by
  rw [exec, execFlagWr] at h
  obtain ⟨hr, hc, rfl⟩ := operation_checkedUpdate_eq_next (u := fun s => (flagWrite i.toNat (b.setWidth 1) s).returned) h
  exact ⟨hr, hr, by omega, rfl⟩

theorem exec_bcntWr_eq_next {n : Word} (h : exec (.bcntWr n) s = .next t) :
    ready s ∧ ready t ∧ n.toNat ≤ 255 ∧ t.pbsr = pbsrSetBootcnt s.pbsr (n.setWidth 8) := by
  rw [exec, execBcntWr] at h
  obtain ⟨hr, hc, rfl⟩ := operation_checkedUpdate_eq_next (u := fun s => (bootcountWrite (n.setWidth 8) s).returned) h
  exact ⟨hr, hr, Nat.not_lt.mp hc, rfl⟩

theorem exec_flagsClr_eq_next (h : exec .flagsClr s = .next t) :
    ready s ∧ ready t ∧ t.pbsr = pbsrClearFlags s.pbsr := by
  have hr := ready_of_exec h
  rw [exec_flagsClr hr] at h
  obtain rfl := Host.Outcome.next.inj h
  exact ⟨hr, hr, rfl⟩

end Completed

/-- Settles O17: each read after each write, by the laws of PBSR. -/
theorem flagsAreIndependent : Obligations.FlagsAreIndependent := by
  intro s t
  refine ⟨fun i b h => ?flagWr, fun n h => ?bcntWr, fun h => ?flagsClr⟩
  case flagWr =>
    obtain ⟨hrs, hrt, hi, hpbsr⟩ := exec_flagWr_eq_next h
    refine ⟨fun j hj => ⟨_, exec_flagRd_ok hrt hj, rfl, _, exec_flagRd_ok hrs hj, ?bit⟩,
      ⟨_, _, exec_bcntRd hrt, exec_bcntRd hrs, rfl, ?count⟩, ?reserved⟩
    case bit =>
      have hflag := pbsrFlag_pbsrSetFlag s.pbsr (i := i.toNat) (j := j.toNat) (by omega) (by omega) (b.setWidth 1)
      simp only [BitVec.toNat_inj, ← hpbsr] at hflag
      exact hflag
    case count =>
      have hcount := pbsrBootcnt_pbsrSetFlag s.pbsr (i := i.toNat) (by omega) (b.setWidth 1)
      rwa [← hpbsr] at hcount
    case reserved => rw [hpbsr, pbsrSetFlag_above s.pbsr (by omega) _ 16 16 (by omega) (by omega)]
  case bcntWr =>
    obtain ⟨hrs, hrt, hn, hpbsr⟩ := exec_bcntWr_eq_next h
    refine ⟨⟨_, exec_bcntRd hrt, ?count⟩, fun j hj => ⟨_, _, exec_flagRd_ok hrt hj, exec_flagRd_ok hrs hj, ?bit⟩⟩
    case count =>
      have hcount := pbsrBootcnt_pbsrSetBootcnt s.pbsr (n.setWidth 8)
      rw [← hpbsr] at hcount
      exact (congrArg BitVec.toNat hcount).trans ((BitVec.toNat_setWidth 8 n).trans (Nat.mod_eq_of_lt (Nat.lt_succ_of_le hn)))
    case bit =>
      have hflag := pbsrFlag_pbsrSetBootcnt s.pbsr (j := j.toNat) (by omega) (n.setWidth 8)
      rwa [← hpbsr] at hflag
  case flagsClr =>
    obtain ⟨hrs, hrt, hpbsr⟩ := exec_flagsClr_eq_next h
    refine ⟨fun j hj => ⟨_, exec_flagRd_ok hrt hj, ?bit⟩, ⟨_, _, exec_bcntRd hrt, exec_bcntRd hrs, ?count⟩⟩
    case bit =>
      have hflag := pbsrFlag_pbsrClearFlags s.pbsr (j := j.toNat) (by omega)
      rwa [← hpbsr] at hflag
    case count =>
      have hcount := pbsrBootcnt_pbsrClearFlags s.pbsr
      rwa [← hpbsr] at hcount

end Sys2Proof.Machine
end

section
/-! CRC-32 (42_digest_engines R160 to R162): the rule's own shifts, the table form of the byte step and the residue of a message with its
own CRC-32; and the faults of the digests (20_memory R53). -/

namespace Sys2Proof.Machine

/-! ## CRC32 by the rule's shifts -/

theorem exec_crc32_ram {s : State} {addr : Nat} {len : Word} (hr : ready s) (hs : inRam s)
    (hread : readableRun s addr len.toNat) :
    exec (.crc32 addr len) s = .next { s with
      engine := .idle, status := 0, res := { s.res with crc := crc32Fn (Memory.bytes s.mem addr len.toNat) } } :=
  operation_digestOf_ram hr hs hread fun v s => (s.withRes { s.res with crc := v }).returned

/-! ## The byte step in table form -/

/-- A word is its low byte and the rest. -/
theorem lowByte_xor_rest (x : Word) : (x.setWidth 8).setWidth 32 ^^^ (x &&& (0xFFFFFF00 : Word)) = x := by
  apply BitVec.eq_of_getLsbD_eq
  intro k hk
  rw [BitVec.getLsbD_xor, BitVec.getLsbD_and, maskFlags_bit k hk]
  by_cases hlow : k < 8
  · simp [hk, hlow, show ¬ 8 ≤ k by omega]
  · simp [show 8 ≤ k by omega]

/-- Shifting out the low byte leaves nothing of it. -/
theorem rest_ushiftRight (x : Word) : (x &&& (0xFFFFFF00 : Word)) >>> 8 = x >>> 8 := by
  apply BitVec.eq_of_getLsbD_eq
  intro k hk
  rw [BitVec.getLsbD_ushiftRight, BitVec.getLsbD_ushiftRight, BitVec.getLsbD_and]
  by_cases hin : 8 + k < 32
  · rw [maskFlags_bit _ hin]
    simp
  · rw [BitVec.getLsbD_of_ge x _ (by omega), Bool.false_and]

theorem byte_ushiftRight (b : Byte) : (b.setWidth 32 : Word) >>> 8 = 0 := by
  apply BitVec.eq_of_getLsbD_eq
  intro k hk
  rw [BitVec.getLsbD_ushiftRight, BitVec.getLsbD_setWidth, BitVec.getLsbD_of_ge b _ (by omega)]
  simp

/-- Settles O52: the shifts are linear, and on what is above the low byte they are a plain shift. -/
theorem crcTableForm : Obligations.CrcTableForm := by
  intro c b
  have hrest : crcShift 8 ((c ^^^ b.setWidth 32) &&& 0xFFFFFF00) = c >>> 8 := by
    rw [crcShift_low 8 _ fun k hk => ?low, rest_ushiftRight, BitVec.ushiftRight_xor_distrib, byte_ushiftRight]
    · exact BitVec.xor_zero
    case low => rw [BitVec.getLsbD_and, maskFlags_bit k (by omega)]; simp [show ¬ 8 ≤ k by omega]
  calc crcByte c b
      = crcShift 8 (((c ^^^ b.setWidth 32).setWidth 8).setWidth 32 ^^^ ((c ^^^ b.setWidth 32) &&& 0xFFFFFF00)) := by
        rw [lowByte_xor_rest, crcByte]
    _ = crcTable ((c ^^^ b.setWidth 32).setWidth 8) ^^^ (c >>> 8) := by rw [crcShift_xor, hrest, crcTable]

/-! ## The residue -/

/-- A byte taken in after `n` shifts is one taken in before them, `n` places up. -/
theorem crcByte_crcShift {n : Nat} (hn : n ≤ 24) (x : Word) (b : Byte) :
    crcByte (crcShift n x) b = crcShift (n + 8) (x ^^^ (b.setWidth 32 <<< n)) := by
  have hlow : ∀ k < n, (b.setWidth 32 <<< n : Word).getLsbD k = false := fun k hk => by simp [hk]
  have hback : (b.setWidth 32 <<< n : Word) >>> n = b.setWidth 32 := by
    apply BitVec.eq_of_getLsbD_eq
    intro k hk
    by_cases hbyte : k < 8
    · simp [hk, show n + k < 32 by omega]
    · simp [BitVec.getLsbD_of_ge b k (by omega)]
  rw [crcByte, crcShift_add, crcShift_xor n, crcShift_low n _ hlow, hback]

/-- A word is its four bytes, each at its place. -/
theorem word_eq_xor_bytes (w : Word) :
    (w.extractLsb' 0 8).setWidth 32 ^^^ ((w.extractLsb' 8 8).setWidth 32 <<< 8) ^^^ ((w.extractLsb' 16 8).setWidth 32 <<< 16) ^^^
      ((w.extractLsb' 24 8).setWidth 32 <<< 24) = w := by
  apply BitVec.eq_of_getLsbD_eq
  intro k hk
  simp only [BitVec.getLsbD_xor, BitVec.getLsbD_shiftLeft, BitVec.getLsbD_setWidth, BitVec.getLsbD_extractLsb']
  interval_cases k <;> simp

/-- Four bytes taken in are their word taken in and 32 shifts. -/
theorem crc_le32 (v w : Word) : (le32 w).foldl crcByte v = crcShift 32 (v ^^^ w) := by
  calc (le32 w).foldl crcByte v
      = crcByte (crcByte (crcByte (crcByte (crcShift 0 v) (w.extractLsb' 0 8)) (w.extractLsb' 8 8)) (w.extractLsb' 16 8))
          (w.extractLsb' 24 8) := rfl
    _ = crcShift 32 (v ^^^ (w.extractLsb' 0 8).setWidth 32 <<< 0 ^^^ (w.extractLsb' 8 8).setWidth 32 <<< 8 ^^^
          (w.extractLsb' 16 8).setWidth 32 <<< 16 ^^^ (w.extractLsb' 24 8).setWidth 32 <<< 24) := by
        rw [crcByte_crcShift (by omega), crcByte_crcShift (by omega), crcByte_crcShift (by omega), crcByte_crcShift (by omega)]
    _ = crcShift 32 (v ^^^ w) := by
        rw [BitVec.shiftLeft_zero, BitVec.xor_assoc v, BitVec.xor_assoc v, BitVec.xor_assoc v, word_eq_xor_bytes]

/-- Settles O53: a message's own CRC-32 is the complement of the register, which the four bytes therefore leave at all ones. -/
theorem crcResidue : Obligations.CrcResidue := by
  intro m
  generalize hv : m.foldl crcByte 0xFFFFFFFF = v
  have hones : v ^^^ (v ^^^ 0xFFFFFFFF) = (0xFFFFFFFF : Word) := by
    rw [← BitVec.xor_assoc, BitVec.xor_self]
    exact BitVec.zero_xor
  have hshift : crcShift 32 0xFFFFFFFF ^^^ (0xFFFFFFFF : Word) = 0x2144DF1C := by decide +kernel
  rw [crc32Fn_eq, List.foldl_append, crc32Fn_eq, hv, crc_le32, hones, hshift]

/-! ## Faults -/

/-- With the image in RAM a digest of bytes that cannot all be read faults. -/
theorem operation_digestOf_fault {α : Type} {load : List Byte → Engine} {result : Engine → α} {s : State} {a n : Nat}
    (hr : ready s) (hs : inRam s) (hread : ¬ readableRun s a n) (store : α → State → State) :
    operation (onRam fun s => (digestOf load result a n s).bind fun v s => .ok () (store v s)) s = .fault .outOfExtent := by
  rw [operation_ready hr, onRam_ram hs, digestOf_ram_fault hs hread, Ran.bind_fault, endOp_fault]

/-- A run with a byte above the address space cannot all be read (20_memory R51). -/
theorem not_readableRun_of_le {s : State} {a n x : Nat} (ha : a ≤ x) (hn : x < a + n) (hx : 2 ^ s.cfg.addressWidth ≤ x) :
    ¬ readableRun s a n := fun h =>
  absurd (canRead_lt ((allFrom_iff _ _ _).mp h x ha hn)) (Nat.not_lt.mpr hx)

/-- Settles O54. -/
theorem readsOutsideTheExtentFault : Obligations.ReadsOutsideTheExtentFault := by
  intro s addr len hr hs
  refine ⟨fun hread => ?_, fun hlen => ?_, fun x ha hn hx => not_readableRun_of_le ha hn hx⟩
  · have hfault {α : Type} (load : List Byte → Engine) (result : Engine → α) (store : α → State → State) :=
      operation_digestOf_fault (load := load) (result := result) hr hs hread store
    exact ⟨hfault _ _ _, hfault _ _ _, hfault _ _ _⟩
  · subst hlen
    rfl

end Sys2Proof.Machine

namespace Sys2Proof

open Machine

/-- Settles O50: the byte step is the rule's eight shifts. -/
theorem crcResult : Obligations.CrcResult := by
  intro s addr len hr hs hread bit byte
  have hbyte : crcByte = byte := rfl
  rw [exec_crc32_ram hr hs hread, crc32Fn_eq, hbyte]

end Sys2Proof
end

section
/-! The cipher: the schedule of a key written over and over (43_blowfish R183), and the block functions by the rules' own rounds
(R181, R184 to R186). -/

namespace Sys2Proof.Machine

/-! ## A key and the key repeated -/

/-- A byte of a string written over and over. -/
theorem byteAt_repeated (b : List Byte) {n i : Nat} (hi : i < n * b.length) :
    byteAt (List.replicate n b).flatten i = byteAt b (i % b.length) := by
  induction n generalizing i with
  | zero => omega
  | succ n ih =>
    rw [Nat.succ_mul] at hi
    rw [List.replicate_succ, List.flatten_cons]
    by_cases hfirst : i < b.length
    · rw [Nat.mod_eq_of_lt hfirst, byteAt, byteAt, List.getD_append _ _ _ _ hfirst]
    · have hrest : b.length ≤ i := Nat.le_of_not_lt hfirst
      rw [byteAt, List.getD_append_right _ _ _ _ hrest, ← byteAt, ih (by omega), ← Nat.mod_eq_sub_mod hrest]

/-- The cycled bytes of a key repeated are those of the key. -/
theorem byteAt_repeated_cycled {key : List Byte} {n : Nat} (hkey : 1 ≤ key.length) (hn : 1 ≤ n) (j : Nat) :
    byteAt (List.replicate n key).flatten (j % (List.replicate n key).flatten.length) = byteAt key (j % key.length) := by
  have hlen : (List.replicate n key).flatten.length = n * key.length := by simp
  rw [hlen, byteAt_repeated key (Nat.mod_lt j (Nat.mul_pos hn hkey)), Nat.mod_mul_left_mod]

/-- Settles O56: the schedule takes the key by its key words only, and these by its cycled bytes. -/
theorem repeatedKeySameSubkeys : Obligations.RepeatedKeySameSubkeys := by
  intro key n hkey hn
  have hword : keyWord (List.replicate n key).flatten = keyWord key := funext fun i => by
    simp only [keyWord, byteAt_repeated_cycled hkey hn]
  rw [keySchedule_eq, keySchedule_eq, mixKey_eq, mixKey_eq, hword]

/-! ## The block functions -/

/-- A block operation with a key schedule. -/
theorem operation_blockOp_ready {f : Subkeys → Word × Word → Word × Word} {xl xr : Word} {s : State} (hr : ready s)
    (hkeys : s.bfReady = true) :
    operation (blockOp f xl xr) s =
      .next (s.withRes { s.res with xl := (f s.keys (xl, xr)).1, xr := (f s.keys (xl, xr)).2 }).returned := by
  rw [operation_ready hr, blockOp, if_pos hkeys, endOp_ok]

/-- A block operation with no key schedule. -/
theorem operation_blockOp_refused {f : Subkeys → Word × Word → Word × Word} {xl xr : Word} {s : State} (hr : ready s)
    (hkeys : s.bfReady = false) : operation (blockOp f xl xr) s = .refused .noKeySchedule := by
  rw [operation_ready hr, blockOp, if_neg (by rw [hkeys]; exact Bool.false_ne_true), endOp_refused]

/-- Settles O57: the network's rounds by subkey number, with the round function by the bytes of its argument. -/
theorem blockOperationResults : Obligations.BlockOperationResults := by
  intro s xl xr hr p f round enc dec
  have hf : bfF s.keys.s = f := funext fun x => bfF_eq s.keys.s x
  have henc : encipher s.keys (xl, xr) = (enc.2 ^^^ p 17, enc.1 ^^^ p 16) := by rw [encipher_eq, hf]
  have hdec : decipher s.keys (xl, xr) = (dec.2 ^^^ p 0, dec.1 ^^^ p 1) := by rw [decipher_eq, hf]
  refine ⟨fun hkeys => ⟨?_, ?_⟩, fun hkeys => ⟨operation_blockOp_refused hr hkeys, operation_blockOp_refused hr hkeys⟩⟩
  · rw [exec, execBfEnc, operation_blockOp_ready hr hkeys, henc]
    rfl
  · rw [exec, execBfDec, operation_blockOp_ready hr hkeys, hdec]
    rfl

end Sys2Proof.Machine
end

section
/-! The records of a walk as instructions (40_parser R114, R118 to R128): a record of the target group fills its field, cut short or
not, or ends the operation; and `CHNK`. -/

namespace Sys2Proof.Machine

/-! ## The value of a field, byte by byte -/

theorem le32_le32At {b : List Byte} (h : b.length = 4) : le32 (le32At b 0) = b := by
  match b, h with
  | [b0, b1, b2, b3], _ => exact le32_le32Of b0 b1 b2 b3

theorem version_bytes {b : List Byte} (h : b.length = 16) :
    le32 (versionAt b).major ++ le32 (versionAt b).minor ++ le32 (versionAt b).commitCount ++ le32 (versionAt b).gitHash = b := by
  match b, h with
  | [b0, b1, b2, b3, b4, b5, b6, b7, b8, b9, b10, b11, b12, b13, b14, b15], _ =>
    exact congrArg₂ (· ++ ·) (congrArg₂ (· ++ ·) (congrArg₂ (· ++ ·) (le32_le32Of b0 b1 b2 b3) (le32_le32Of b4 b5 b6 b7))
      (le32_le32Of b8 b9 b10 b11)) (le32_le32Of b12 b13 b14 b15)

theorem fixedBytes_toList {n : Nat} {b : List Byte} (h : b.length = n) : (fixedBytes n b).toList = b := by
  simp [fixedBytes, ← h]

/-- Inside the payload a field cut short has the payload's bytes. -/
theorem cutPayload_getD (m : Memory) {p n k draw i : Nat} (hk : k < n) (hi : i < k) :
    (cutPayload k draw (Memory.bytes m p n)).getD i 0 = Memory.read m (p + i) :=
  (cutPayload_byte hi (by rw [Memory.bytes_length]; omega)).trans (byteAt_bytes m p n i (by omega))

/-- A word of a version quad is the word at its own address. -/
theorem le32At_bytes (m : Memory) {p n i : Nat} (h : i + 4 ≤ n) :
    le32At (Memory.bytes m p n) i = le32At (Memory.bytes m (p + i) 4) 0 := by
  simp only [le32At]
  rw [byteAt_bytes m p n i (by omega), byteAt_bytes m p n (i + 1) (by omega), byteAt_bytes m p n (i + 2) (by omega),
    byteAt_bytes m p n (i + 3) (by omega), byteAt_bytes _ _ _ _ (by omega), byteAt_bytes _ _ _ _ (by omega),
    byteAt_bytes _ _ _ _ (by omega), byteAt_bytes _ _ _ _ (by omega)]
  simp only [Nat.add_assoc, Nat.add_zero, Nat.zero_add]

theorem versionAt_bytes (m : Memory) (p : Nat) :
    versionAt (Memory.bytes m p 16) = ⟨le32At (Memory.bytes m (p + 0) 4) 0, le32At (Memory.bytes m (p + 4) 4) 0,
      le32At (Memory.bytes m (p + 8) 4) 0, le32At (Memory.bytes m (p + 12) 4) 0⟩ := by
  have hword {i : Nat} (h : i + 4 ≤ 16) : le32At (Memory.bytes m p 16) i = le32At (Memory.bytes m (p + i) 4) 0 := le32At_bytes m h
  rw [versionAt, hword (i := 0) (by omega), hword (i := 4) (by omega), hword (i := 8) (by omega), hword (i := 12) (by omega)]

/-! ## A record of the target group -/

section Target

variable {s u : State} {w : Walk} {length : Word} {b : List Byte} {rule : Nat → ChunkHeader → State → Ran ChunkHeader}

/-- Over the length limit the record's rule does not come into play (40_parser R118). -/
theorem chunkRecord_tooLong (hw : s.walk = some w) (hp : w.phase = .group) (hk : w.c = w.k) (hl : 512 < length.toNat) :
    chunkRecord length rule s = .raised Status.parseError.code s := by
  have hlimit : Config.maxOptPayload < length.toNat := hl
  simp only [chunkRecord, onWalk_some hw, hp, if_pos hk, if_pos hlimit, raise]

/-- Within the limit the rule decides, and the cursor moves on. -/
theorem chunkRecord_withinLimit (hw : s.walk = some w) (hp : w.phase = .group) (hk : w.c = w.k) (hl : length.toNat ≤ 512) :
    chunkRecord length rule s =
      (rule (w.cur + 8) w.hdr s).bind fun h u => .ok () (u.withWalk (some (({ w with hdr := h } : Walk).advance length))) := by
  have hlimit : ¬ Config.maxOptPayload < length.toNat := Nat.not_lt.mpr hl
  simp only [chunkRecord, onWalk_some hw, hp, if_pos hk, if_neg hlimit]
  rfl

/-- The rule of an unrecognised id raises (40_parser R128). -/
theorem recordCoptOther_raises (hw : s.walk = some w) (hp : w.phase = .group) (hk : w.c = w.k) (hl : length.toNat ≤ 512) :
    recordCoptOther length s = .raised Status.unknownOption.code s := by
  rw [recordCoptOther, chunkRecord_withinLimit hw hp hk hl]
  rfl

/-- Every chunk option over the limit, recognised or not. -/
theorem runRecord_tooLong (hw : s.walk = some w) (hp : w.phase = .group) (hk : w.c = w.k) (hl : 512 < length.toNat) (id : Word) :
    runRecord (decodeChunkOption id length) s = .raised Status.parseError.code s := by
  unfold decodeChunkOption
  repeat' split
  all_goals
    simp only [runRecord, recordVers, recordSize, recordData, recordDest, recordMd5, recordSha2, recordCr32, recordEncm,
      recordCoptOther, chunkRecord_tooLong hw hp hk hl]

theorem exec_record_raised {i : Instr} {c : Word} (hi : isRecord i = true) (hr : ready s) (h : runRecord i s = .raised c u) :
    exec i s = .next (u.failed c) := by
  rw [exec_eq_operation_runRecord hi, operation_ready hr, h, endOp_raised]

/-- The state after a record of the target group has made `h` of the header. -/
abbrev State.recordDone (u : State) (w : Walk) (length : Word) (h : ChunkHeader) : State :=
  u.withWalk (some { w with hdr := h, cur := w.cur + 8 + length.toNat, j := w.j + 1 })

/-- A record whose rule gives a header. -/
theorem exec_chunkRecord {i : Instr} {h : ChunkHeader} (hi : isRecord i = true) (hrec : runRecord i s = chunkRecord length rule s)
    (hr : ready s) (hw : s.walk = some w) (hp : w.phase = .group) (hk : w.c = w.k) (hl : length.toNat ≤ 512)
    (hrule : rule (w.cur + 8) w.hdr s = .ok h u) : exec i s = .next (u.recordDone w length h) :=
  exec_record_ok hi hr (by rw [hrec, chunkRecord_withinLimit hw hp hk hl, hrule]; rfl)

variable (hr : ready s) (hw : s.walk = some w) (hp : w.phase = .group) (hk : w.c = w.k) (hl : length.toNat ≤ 512)
include hr hw hp hk hl

theorem exec_versOpt_read (hread : readField (w.cur + 8) 16 length s = .ok b u) :
    exec (.versOpt length) s =
      .next (u.recordDone w length { w.hdr with version := versionAt b, hdrFlag := w.hdr.hdrFlag ||| 0x01 }) :=
  exec_chunkRecord rfl (by rw [runRecord, recordVers]) hr hw hp hk hl
    (by simp only [readVersionField, hread, Ran.bind_ok, flagVers])

theorem exec_sizeOpt_read (hread : readField (w.cur + 8) 4 length s = .ok b u) :
    exec (.sizeOpt length) s =
      .next (u.recordDone w length { w.hdr with size := le32At b 0, hdrFlag := w.hdr.hdrFlag ||| 0x02 }) :=
  exec_chunkRecord rfl (by rw [runRecord, recordSize]) hr hw hp hk hl
    (by simp only [readWordField, hread, Ran.bind_ok, flagSize])

theorem exec_dataOpt_read (hread : readField (w.cur + 8) 4 length s = .ok b u) :
    exec (.dataOpt length) s =
      .next (u.recordDone w length { w.hdr with data := le32At b 0, hdrFlag := w.hdr.hdrFlag ||| 0x04 }) :=
  exec_chunkRecord rfl (by rw [runRecord, recordData]) hr hw hp hk hl
    (by simp only [readWordField, hread, Ran.bind_ok, flagData])

theorem exec_destOpt_read (hread : readField (w.cur + 8) 32 length s = .ok b u) :
    exec (.destOpt length) s =
      .next (u.recordDone w length { w.hdr with dest := fixedBytes 32 b, hdrFlag := w.hdr.hdrFlag ||| 0x08 }) :=
  exec_chunkRecord rfl (by rw [runRecord, recordDest]) hr hw hp hk hl
    (by simp only [readBytesField, hread, Ran.bind_ok, flagDest])

theorem exec_md5Opt_read (hread : readField (w.cur + 8) 16 length s = .ok b u) :
    exec (.md5Opt length) s =
      .next (u.recordDone w length { w.hdr with md5 := fixedBytes 16 b, hdrFlag := w.hdr.hdrFlag ||| 0x10 }) :=
  exec_chunkRecord rfl (by rw [runRecord, recordMd5]) hr hw hp hk hl
    (by simp only [readBytesField, hread, Ran.bind_ok, flagMd5])

theorem exec_sha2Opt_read (hread : readField (w.cur + 8) 32 length s = .ok b u) :
    exec (.sha2Opt length) s =
      .next (u.recordDone w length { w.hdr with sha256 := fixedBytes 32 b, hdrFlag := w.hdr.hdrFlag ||| 0x20 }) :=
  exec_chunkRecord rfl (by rw [runRecord, recordSha2]) hr hw hp hk hl
    (by simp only [readBytesField, hread, Ran.bind_ok, flagSha2])

theorem exec_cr32Opt_read (hread : readField (w.cur + 8) 4 length s = .ok b u) :
    exec (.cr32Opt length) s =
      .next (u.recordDone w length { w.hdr with crc32 := le32At b 0, hdrFlag := w.hdr.hdrFlag ||| 0x40 }) :=
  exec_chunkRecord rfl (by rw [runRecord, recordCr32]) hr hw hp hk hl
    (by simp only [readWordField, hread, Ran.bind_ok, flagCr32])

theorem exec_encmOpt_read (hread : readField (w.cur + 8) 4 length s = .ok b u) :
    exec (.encmOpt length) s =
      .next (u.recordDone w length { w.hdr with encryptionMethod := le32At b 0, hdrFlag := w.hdr.hdrFlag ||| 0x80 }) :=
  exec_chunkRecord rfl (by rw [runRecord, recordEncm]) hr hw hp hk hl
    (by simp only [readWordField, hread, Ran.bind_ok, flagEncm])

end Target

/-- Settles O38: over the limit every record raises before its rule; within it the rule of an unrecognised id raises. -/
theorem targetGroupErrors : Obligations.TargetGroupErrors := by
  intro s w id length hr hw hp hk
  refine ⟨fun hl => ?_, fun hid => decodeChunkOption_other hid length, fun hl => ?_⟩
  · exact exec_record_raised (isRecord_decodeChunkOption id length) hr (runRecord_tooLong hw hp hk hl id)
  · exact exec_record_raised (i := .coptOther id length) rfl hr (recordCoptOther_raises hw hp hk hl)

/-- Settles O41: the payload fills the field, so it is read as it stands in MEM. -/
theorem fieldRecords : Obligations.FieldRecords := by
  intro s w length hr hs hw hp hk hl p word next
  have hfield {n : Nat} (hn : n ≤ length.toNat) (hread : readableRun s p n) := readField_full hs hread hn
  refine ⟨fun hn hread => ?vers, fun hn hread => ?words, fun hn hread => ?long, fun hn hread => ?md5⟩
  case vers =>
    rw [exec_versOpt_read hr hw hp hk hl (hfield hn hread), versionAt_bytes]
    rfl
  case words =>
    have hf := hfield hn hread
    exact ⟨exec_sizeOpt_read hr hw hp hk hl hf, exec_dataOpt_read hr hw hp hk hl hf, exec_cr32Opt_read hr hw hp hk hl hf,
      exec_encmOpt_read hr hw hp hk hl hf⟩
  case long =>
    have hf := hfield hn hread
    exact ⟨exec_destOpt_read hr hw hp hk hl hf, exec_sha2Opt_read hr hw hp hk hl hf⟩
  case md5 => exact exec_md5Opt_read hr hw hp hk hl (hfield hn hread)

/-- Settles O42: the field is the payload cut short, and its value's bytes are the field's. -/
theorem shortPayloads : Obligations.ShortPayloads := by
  intro s w length hr hs hw hp hk p next payload
  have hfield {n : Nat} (hn : length.toNat < n) (hread : readableRun s p n) := readField_cut hs hread hn
  have hpayload {n : Nat} (hn : length.toNat < n) : payload (cutPayload length.toNat s.draws (Memory.bytes s.mem p n)) :=
    fun i hi => cutPayload_getD s.mem hn hi
  have hsize (n : Nat) : (cutPayload length.toNat s.draws (Memory.bytes s.mem p n)).length = n := by simp
  refine ⟨fun hn hread => ?vers, fun hn hread => ?words, fun hn hread => ?long, fun hn hread => ?md5⟩
  all_goals
    have hl : length.toNat ≤ 512 := by omega
    have hf := hfield hn hread
    have hb := hpayload hn
  case vers => exact ⟨_, by rwa [version_bytes (hsize 16)], exec_versOpt_read hr hw hp hk hl hf⟩
  case words =>
    exact ⟨_, by rwa [le32_le32At (hsize 4)], exec_sizeOpt_read hr hw hp hk hl hf, exec_dataOpt_read hr hw hp hk hl hf,
      exec_cr32Opt_read hr hw hp hk hl hf, exec_encmOpt_read hr hw hp hk hl hf⟩
  case long =>
    exact ⟨_, by rwa [fixedBytes_toList (hsize 32)], exec_destOpt_read hr hw hp hk hl hf, exec_sha2Opt_read hr hw hp hk hl hf⟩
  case md5 => exact ⟨_, by rwa [fixedBytes_toList (hsize 16)], exec_md5Opt_read hr hw hp hk hl hf⟩

/-! ## The record CHNK -/

/-- The search takes the first payload word for the count and ends. -/
theorem exec_chnk_read {s u : State} {w : Walk} {length : Word} {b : List Byte} (hr : ready s) (hw : s.walk = some w)
    (hp : w.phase = .find) (hread : readField (w.cur + 8) 4 length s = .ok b u) :
    exec (.chnk length) s = .next (u.withWalk (some { w with found := some (le32At b 0) })) := by
  have hfield : readField (recordPayloadAddr w.cur) 4 length s = .ok b u := hread
  have hrec : recordChnk length s = .ok () (u.withWalk (some { w with found := some (le32At b 0) })) := by
    simp only [recordChnk, globalRecord, onWalk_some hw, hp, readWordField, hfield, Ran.bind_ok]
  exact exec_record_ok (i := .chnk length) rfl hr hrec

/-- Settles O40. -/
theorem chnkRecord : Obligations.ChnkRecord := by
  intro s w length hr hs hw hp hread
  refine ⟨fun hn => exec_chnk_read hr hw hp (readField_full hs hread hn),
    fun hn => ⟨_, exec_chnk_read hr hw hp (readField_cut hs hread hn), ?_⟩⟩
  intro i hi
  rw [le32_le32At (by simp)]
  exact cutPayload_getD s.mem hn hi

end Sys2Proof.Machine
end

section
/-! GLOBVER, CHNKNUM, CHNKHDR.N and CHNKHDR.D on an image (40_parser R110, R113, R114, R116, R130, R131). -/

namespace Sys2Proof.Machine

/-! ## GLOBVER -/

section Globver

variable {s t : State} {a base : Nat}

/-- Four words in a row can be read exactly when each of them can. -/
theorem allFrom_quad (ok : Nat → Bool) : allFrom ok a 16 = true ↔
    allFrom ok a 4 = true ∧ allFrom ok (a + 4) 4 = true ∧ allFrom ok (a + 8) 4 = true ∧ allFrom ok (a + 12) 4 = true := by
  rw [show 16 = 4 + (4 + (4 + 4)) from rfl, allFrom_add, allFrom_add, allFrom_add]

/-- With the image in RAM what follows the read of a word comes about only when the word can be read. -/
theorem rd32LE_bind_ram {α : Type} (hs : inRam s) (f : Word → State → Ran α) :
    (rd32LE a s).bind f = if allFrom (canRead s) a 4 then f (le32At (Memory.bytes s.mem a 4) 0) s else .fault .outOfExtent := by
  by_cases h : readableRun s a 4
  · rw [rd32LE_ram hs h, Ran.bind_ok]
    exact (if_pos h).symm
  · rw [rd32LE, memRead_ram_fault hs h, Ran.bind_fault, Ran.bind_fault]
    exact (if_neg h).symm

/-- The version quad that stands at an address. -/
def quadAt (m : Memory) (a : Nat) : Version :=
  ⟨le32At (Memory.bytes m a 4) 0, le32At (Memory.bytes m (a + 4) 4) 0, le32At (Memory.bytes m (a + 8) 4) 0,
    le32At (Memory.bytes m (a + 12) 4) 0⟩

theorem exec_globver_ram (hr : ready s) (hs : inRam s) :
    exec (.globver base) s =
      if allFrom (canRead s) (base + 20) 16
      then .next (s.withRes { s.res with version := quadAt s.mem (base + 20) }).returnedCommand else .fault .outOfExtent := by
  rw [exec, execGlobver, operation_ready hr]
  simp only [rd32LE_bind_ram hs, globalVersionAddr, ← ite_and, ← allFrom_quad]
  split <;> rfl

/-- A word that is read is the one that stands there, and can be read. -/
theorem rd32LE_ends (a : Nat) (s : State) :
    (rd32LE a s).Ends (fun v u => Keeps s u ∧ readableRun s a 4 ∧ v = le32At (Memory.bytes s.mem a 4) 0) fun _ => True := by
  have hkeeps := memRead_keeps a 4 s
  unfold rd32LE
  rcases memRead_cases a 4 s with ⟨u, h, hread, -⟩ | h | h <;> rw [h] at hkeeps ⊢
  · exact ⟨hkeeps, hread, rfl⟩
  · exact ⟨hkeeps.1, trivial⟩
  · trivial

theorem Keeps.readableRun_of_after (k : Keeps s t) {n : Nat} (h : Machine.readableRun t a n) : Machine.readableRun s a n := by
  have hcan : canRead t = canRead s := funext fun x => by simp only [canRead, k.cfg]
  unfold Machine.readableRun at *
  rwa [← hcan]

/-- The next word of a row of words that are read. -/
theorem rd32LE_ends_after (a : Nat) (k : Keeps s t) :
    (rd32LE a t).Ends (fun v u => Keeps s u ∧ readableRun s a 4 ∧ v = le32At (Memory.bytes s.mem a 4) 0) fun _ => True :=
  (rd32LE_ends a t).mono (fun _ _ ⟨h, hread, hv⟩ => ⟨k.trans h, k.readableRun_of_after hread, by rw [hv, k.mem]⟩) fun _ h => h

/-- With either store, GLOBVER succeeds only with the version quad, all of it readable. -/
theorem exec_globver_version (h : exec (.globver base) s = .next t) :
    t.status = 0 → readableRun s (base + 20) 16 ∧ t.res.version = quadAt s.mem (base + 20) := by
  rw [exec, execGlobver] at h
  refine operation_ends (up := fun _ => True)
    (p := fun t => t.status = 0 → readableRun s (base + 20) 16 ∧ t.res.version = quadAt s.mem (base + 20)) h ?_
    fun c u hc _ hzero => absurd hzero hc
  refine (rd32LE_ends _ s).bind fun v0 _ ⟨k, h0, hv0⟩ => (rd32LE_ends_after _ k).bind fun v1 _ ⟨k, h1, hv1⟩ =>
    (rd32LE_ends_after _ k).bind fun v2 _ ⟨k, h2, hv2⟩ => (rd32LE_ends_after _ k).bind fun v3 _ ⟨_, h3, hv3⟩ => ?_
  subst hv0 hv1 hv2 hv3
  exact fun _ => ⟨(allFrom_quad _).mpr ⟨h0, h1, h2, h3⟩, rfl⟩

end Globver

/-- Settles O34: in RAM the four reads are one of sixteen bytes; in a file store each may fail with FileIOError. -/
theorem globverResult : Obligations.GlobverResult := by
  intro s base hr v
  refine ⟨fun hs hread => ⟨_, (exec_globver_ram hr hs).trans (if_pos hread), rfl, rfl⟩,
    fun hs hread => (exec_globver_ram hr hs).trans (if_neg hread), fun hs => ?file⟩
  case file =>
    have hfailed {t : State} (h : exec (.globver base) s = .next t) (hzero : t.status ≠ 0) : t.status = Status.fileIOError.code :=
      ((exec_globver_status h).resolve_left hzero).2
    refine ⟨fun t h => ?_, fun hread t h => hfailed h fun hzero => hread (exec_globver_version h hzero).1⟩
    by_cases hzero : t.status = 0
    · exact .inr ⟨(exec_globver_version h hzero).2, hzero⟩
    · exact .inl (hfailed h hzero)

/-! ## CHNKNUM -/

section Operations

variable {s u : State} {base : Nat}

theorem execChnknum_ok {n : Word} (hr : ready s) (h : countChunks base s = .ok n u) :
    exec (.chnknum base) s = .next (returnCount n u) := by
  rw [exec, execChnknum, operation_ready hr, h, Ran.bind_ok, endOp_ok]

theorem execChnknum_raised {c : Word} (hr : ready s) (h : countChunks base s = .raised c u) :
    exec (.chnknum base) s = .next (u.failed c) := by
  rw [exec, execChnknum, operation_ready hr, h, Ran.bind_raised, endOp_raised]

theorem execChnkhdrN_ok {k : Word} {h : ChunkHeader} (hr : ready s) (hwalk : chunkHeader base k.toNat s = .ok h u) :
    exec (.chnkhdrN base k) s = .next (returnHeader h u) := by
  rw [exec, execChnkhdrN, operation_ready hr, hwalk, Ran.bind_ok, endOp_ok]

theorem execChnkhdrD_countRaised {name : List Byte} {c : Word} (hr : ready s) (h : countChunks base s = .raised c u) :
    exec (.chnkhdrD base name) s = .next (u.failed c) := by
  rw [exec, execChnkhdrD, operation_ready hr, h, Ran.bind_raised, endOp_raised]

end Operations

/-- Settles O35: what the search of `countChunks` ends with. -/
theorem chnknumResult : Obligations.ChnknumResult := by
  intro s base rest hr hs
  refine ⟨fun n before chnk hn hbefore hothers hspelled hid hlong hbytes => ?_, fun opts hopts hothers hbytes => ?_⟩
  · have hfound := countChunks_found hs hn hbefore (fun r h => (hothers r h).1) (fun r h => (hothers r h).2) hspelled hid
      hlong hbytes
    rw [execChnknum_ok hr hfound]
    rfl
  · obtain ⟨w, hnone⟩ := countChunks_none hs hopts (fun r h => (hothers r h).1) (fun r h => (hothers r h).2) hbytes
    exact ⟨_, execChnknum_raised hr hnone, rfl, rfl⟩

/-! ## CHNKHDR.N -/

/-- Settles O36: what the walk of `chunkHeader` ends with. -/
theorem chnkhdrGivesTheGroupsHeader : Obligations.ChnkhdrGivesTheGroupsHeader := by
  intro s m base k pre g post hr hs hm hstands hgroups hk
  refine ⟨fun hwhole => ?_, fun st hstops => ?_⟩
  · exact execChnkhdrN_ok hr (by rw [hk]; exact chunkHeader_image hs hm hstands pre g post hgroups hwhole)
  · exact execChnkhdrN_raised hr (by rw [hk]; exact chunkHeader_stops hs hm hstands pre g post hgroups hstops)

/-! ## CHNKHDR.D -/

/-- The header carries a destination that reads as the name (40_parser R131). -/
def ChunkHeader.carries (name : List Byte) (h : ChunkHeader) : Prop :=
  h.has flagDest = true ∧ h.dest.toList.take name.length = name ∧ (name.length = 32 ∨ h.dest.toList.getD name.length 0 = 0)

theorem nameEq_iff (dest : Vector Byte 32) (name : List Byte) :
    nameEq dest name = true ↔ dest.toList.take name.length = name ∧ (name.length = 32 ∨ dest.toList.getD name.length 0 = 0) := by
  simp [nameEq, byteAt]

/-- Headers that agree on their flagged fields have the same names. -/
theorem carries_agree {h d : ChunkHeader} (a : h.Agree d) (name : List Byte) : h.carries name ↔ d.carries name := by
  unfold ChunkHeader.carries
  rw [← Agree_has a flagDest]
  exact and_congr_right fun hdest => by rw [a.dest hdest]

/-- A chunk whose header carries the name is the one found. -/
theorem findByName_carries {s u : State} {base m c : Nat} {name : List Byte} {h : ChunkHeader} (hname : nameOk name = true)
    (hwalk : chunkHeader base c s = .ok h u) (hnamed : h.carries name) : findByName base name (m + 1) c s = .ok (h, c) u := by
  obtain ⟨hdest, hequal⟩ := hnamed
  have hsame := (nameEq_iff h.dest name).mpr hequal
  simp only [findByName, hwalk, Ran.bind_ok, hdest, if_true, compareName, hname, hsame]

/-- Any other chunk whose header the walk gives is left behind. -/
theorem findByName_next {s u : State} {base m c : Nat} {name : List Byte} {h : ChunkHeader} (hname : nameOk name = true)
    (hwalk : chunkHeader base c s = .ok h u) (hnamed : ¬ h.carries name) :
    findByName base name (m + 1) c s = findByName base name m (c + 1) u := by
  have hdiffers (hdest : h.has flagDest = true) : nameEq h.dest name = false :=
    Bool.eq_false_iff.mpr fun hsame => hnamed ⟨hdest, (nameEq_iff h.dest name).mp hsame⟩
  cases hdest : h.has flagDest <;> simp [findByName, hwalk, hdest, compareName, hname, hdiffers]

theorem findByName_raised {s u : State} {base m c : Nat} {name : List Byte} {code : Word}
    (hwalk : chunkHeader base c s = .raised code u) : findByName base name (m + 1) c s = .raised code u := by
  simp only [findByName, hwalk, Ran.bind_raised]

/-- The state after `n` walks that gave a header: each has drawn the free values of its header. -/
def State.walked (s : State) (n : Nat) : State := (s.withDraws (s.draws + n)).withWalk none

theorem Keeps.walked (s : State) (n : Nat) : Keeps s (s.walked n) := ⟨⟨rfl, rfl, rfl, rfl, rfl, rfl, rfl, rfl⟩, rfl, rfl, rfl⟩

section Image

variable {s : State} {m : Image} {base : Nat} {name : List Byte} (hs : inRam s) (hm : m.spelled) (hstands : m.stands base s)
include hs hm hstands

/-- The walk to a chunk group of whole records, after other walks. -/
theorem chunkHeader_walked {pre post : List (List Record)} {g : List Record} (n : Nat) (hgroups : m.groups = pre ++ g :: post)
    (hwhole : ∀ r ∈ g, r.whole) :
    chunkHeader base (pre.length + 1) (s.walked n) = .ok (groupHeader (emptyHeader (s.draws + n)) g) (s.walked (n + 1)) :=
  chunkHeader_image (s := s.walked n) hs hm ((Keeps.walked s n).stands hstands) pre g post hgroups hwhole

/-- The search leaves behind every group of whole records whose header does not carry the name. -/
theorem findByName_passes (hname : nameOk name = true) (left : Nat) :
    ∀ (gs pre post : List (List Record)) (n : Nat), m.groups = pre ++ (gs ++ post) →
      (∀ x ∈ gs, (∀ r ∈ x, r.whole) ∧ ¬ (zeroHeader x).carries name) →
      findByName base name (gs.length + left) (pre.length + 1) (s.walked n) =
        findByName base name left (pre.length + gs.length + 1) (s.walked (n + gs.length)) := by
  intro gs
  induction gs with
  | nil => intro pre post n _ _; simp
  | cons g gs ih =>
    intro pre post n hgroups hpasses
    obtain ⟨hwhole, hnamed⟩ := hpasses g List.mem_cons_self
    have hwalk := chunkHeader_walked hs hm hstands n (g := g) (post := gs ++ post) hgroups hwhole
    have hother : ¬ (groupHeader (emptyHeader (s.draws + n)) g).carries name := by
      rwa [← carries_agree (zeroHeader_agree g _)]
    have hrest := ih (pre ++ [g]) post (n + 1) (by rw [hgroups]; simp) fun x hx => hpasses x (List.mem_cons_of_mem g hx)
    rw [List.length_append, List.length_singleton] at hrest
    rw [List.length_cons, Nat.add_right_comm, findByName_next hname hwalk hother, hrest]
    congr 2 <;> omega

/-- The search of CHNKHDR.D comes to the group after those it leaves behind. -/
theorem exec_chnkhdrD_image (hr : ready s) (hname : nameOk name = true) {pre post : List (List Record)}
    (hgroups : m.groups = pre ++ post) (hpasses : ∀ x ∈ pre, (∀ r ∈ x, r.whole) ∧ ¬ (zeroHeader x).carries name) :
    exec (.chnkhdrD base name) s =
      endOp ((findByName base name post.length (pre.length + 1) (s.walked pre.length)).bind fun r s =>
        .ok () (s.withRes { s.res with hdr := r.1, index := BitVec.ofNat 32 r.2 }).returnedCommand) := by
  have hcount : m.groups.length < 2 ^ 32 := by
    obtain ⟨-, hcount, -⟩ := hm
    exact hcount
  have hlength : m.groups.length = pre.length + post.length := by rw [hgroups, List.length_append]
  have hsearch := findByName_passes hs hm hstands hname post.length pre [] post 0 hgroups hpasses
  simp only [List.length_nil, Nat.zero_add] at hsearch
  rw [exec, execChnkhdrD, operation_ready hr, countChunks_image hs hm hstands, Ran.bind_ok, count_toNat hcount, hlength]
  exact congrArg (fun r => endOp (Ran.bind r _)) hsearch

end Image

/-- Settles O43: the search leaves groups behind up to the first that carries the name, or ends the walk, or to the end. -/
theorem chnkhdrFindsByName : Obligations.ChnkhdrFindsByName := by
  intro s base name hr hs named passes
  refine ⟨fun m hm hstands hname => ⟨fun pre g post hgroups hpasses => ⟨fun hwhole hnamed => ?found, fun st hstops => ?stops⟩,
    fun hpasses => ?absent⟩, fun opts rest hopts hothers hbytes => ?none⟩
  case found =>
    have hwalk := chunkHeader_walked hs hm hstands pre.length hgroups hwhole
    have hcarries := (carries_agree (zeroHeader_agree g (s.draws + pre.length)) name).mp hnamed
    rw [exec_chnkhdrD_image hs hm hstands hr hname hgroups hpasses, List.length_cons, findByName_carries hname hwalk hcarries]
    rfl
  case stops =>
    obtain ⟨u, hwalk⟩ := chunkHeader_stops (s := s.walked pre.length) hs hm ((Keeps.walked s _).stands hstands)
      pre g post hgroups hstops
    rw [exec_chnkhdrD_image hs hm hstands hr hname hgroups hpasses, List.length_cons, findByName_raised hwalk]
    exact ⟨_, rfl, rfl, rfl⟩
  case absent =>
    rw [exec_chnkhdrD_image hs hm hstands hr hname (post := []) (List.append_nil _).symm hpasses]
    exact ⟨_, rfl, rfl, rfl⟩
  case none =>
    obtain ⟨w, hnone⟩ := countChunks_none hs hopts (fun r h => (hothers r h).1) (fun r h => (hothers r h).2) hbytes
    exact ⟨_, execChnkhdrD_countRaised hr hnone, rfl, rfl⟩

end Sys2Proof.Machine
end

section
/-! The fourth check of VALID, and the failures of the walker in its fifth step (41_validator R145, R148, R149). -/

namespace Sys2Proof.Machine

section Valid

variable {s u : State} {base : Nat} {maxSize : Word}

/-! ## The fourth check -/

theorem exec_valid_refused {r : Refusal} (hr : ready s) (h : validate base maxSize s = .refused r) :
    exec (.valid base maxSize) s = .refused r := by
  rw [exec_valid_eq hr, h, Ran.bind_refused, endOp_refused]

/-- A total length that does not reach the range of the global CRC-32 is refused (41_validator R149). -/
theorem validate_totalLengthRefused (hs : inRam s) (hread : readableRun s base 16)
    (hm : Memory.bytes s.mem base 8 = Config.magic) (hfits : maxSize = 0 ∨ (headWord s base 12).toNat ≤ maxSize.toNat)
    (hfv : (headWord s base 8).toNat ≤ 1) (hshort : (headWord s base 12).toNat < 20) :
    validate base maxSize s = .refused .totalLengthBelowCrcOffset := by
  have hbelow : (headWord s base 12).toNat < Config.crcCalcOffset := hshort
  rw [validate_head hs (readableRun_sub hread (by omega) (by omega)) hm (readableRun_sub hread (by omega) (by omega)) hfits,
    checkFormatVersion_passes hfv, Ran.bind_ok, checkGlobalCrc, if_pos hbelow, Ran.bind_refused]

/-! ## Failures of the walker -/

/-- Whatever the walker raises, the fifth check raises something other than 0 (41_validator R148). -/
theorem walkerFailure_raised {α : Type} {r : Ran α} {c : Word} (h : r = .raised c u) :
    ∃ c' u', c' ≠ 0 ∧ walkerFailure r = .raised c' u' := by
  subst h
  by_cases hfile : c = Status.fileIOError.code
  · exact ⟨c, u, by rw [hfile]; exact Status.code_ne_zero (by decide), if_pos hfile⟩
  · exact ⟨freeNonzeroStatus u.draws, u.drawn, freeNonzeroStatus_ne_zero _, if_neg hfile⟩

/-- VALID ends with a status other than 0 when its checks raise one. -/
theorem exec_valid_fails (hr : ready s) (h : ∃ c u, c ≠ 0 ∧ validate base maxSize s = .raised c u) :
    ∃ t, exec (.valid base maxSize) s = .next t ∧ t.status ≠ 0 ∧ t.exit = 1 := by
  obtain ⟨c, u, hc, hraised⟩ := h
  exact ⟨u.failed c, exec_valid_raised hr hraised, hc, rfl⟩

/-- The fifth check when no global option is `CHNK`. -/
theorem validate_noCount {opts : List Record} {rest : List Byte} (hs : inRam s) (hread : HeadReadable s base)
    (hpasses : HeadPasses s base maxSize) (hopts : opts.length < 2 ^ 32)
    (hothers : ∀ r ∈ opts, r.spelled ∧ r.id ≠ RecordId.chnk)
    (hbytes : holds s (base + 36) (le32 (BitVec.ofNat 32 opts.length) ++ (recordsBytes opts ++ rest))) :
    ∃ c u, c ≠ 0 ∧ validate base maxSize s = .raised c u := by
  obtain ⟨w, hnone⟩ := countChunks_none (s := s.withEngine .idle) hs hopts (fun r h => (hothers r h).1)
    (fun r h => (hothers r h).2) ((Keeps.withEngine s .idle).holds hbytes)
  obtain ⟨c, u, hc, hraised⟩ := walkerFailure_raised hnone
  exact ⟨c, u, hc, by rw [validate_headPasses hs hread hpasses, hraised, Ran.bind_raised]⟩

/-- The fifth check when the walker does not get through a chunk group after chunks that pass. -/
theorem validate_stops {m : Image} {pre post : List (List Record)} {g : List Record} {st : Status} (hs : inRam s)
    (hm : m.spelled) (hstands : m.stands base s) (hread : HeadReadable s base) (hpasses : HeadPasses s base maxSize)
    (hgroups : m.groups = pre ++ g :: post) (hpre : ∀ x ∈ pre, ChunkReadable s base x ∧ digestsMatch s base (zeroHeader x))
    (hstops : stopsWith g st) : ∃ c u, c ≠ 0 ∧ validate base maxSize s = .raised c u := by
  obtain ⟨t, hst, hvalidate⟩ := validate_chunks hs hm hstands hread hpasses
  obtain ⟨u, htu, hbefore⟩ := checkChunks_matches (pre := []) (post := g :: post) (hst.inRam hs) hm (hst.stands hstands) pre
    hgroups (fun x hx => (hpre x hx).imp hst.chunkReadable hst.digestsMatch) (post.length + 1)
  have hsu := hst.trans htu
  obtain ⟨v, hwalk⟩ := chunkHeader_stops (hsu.inRam hs) hm (hsu.stands hstands) pre g post hgroups hstops
  obtain ⟨c, v, hc, hraised⟩ := walkerFailure_raised hwalk
  simp only [List.length_nil, Nat.zero_add] at hbefore
  exact ⟨c, v, hc, by
    rw [hvalidate, hgroups, List.length_append, List.length_cons, hbefore, checkChunks, hraised, Ran.bind_raised]⟩

end Valid

/-- Settles O46: the test of the total length comes before the CRC-32 is computed, and the engine that computed it is idle. -/
theorem validGlobalCrcCheck : Obligations.ValidGlobalCrcCheck := by
  intro s base maxSize hr hs word tl hm hfits hfv
  refine ⟨fun hread hshort => ?_, fun hread hreaches hrange hcrc => ?_⟩
  · exact exec_valid_refused hr (validate_totalLengthRefused hs hread hm hfits hfv hshort)
  · rw [exec_valid_raised hr (validate_crc32Error hs ⟨hread, hreaches, hrange⟩ hm hfits hfv hcrc)]
    rfl

/-- Settles O48: the walk to count the chunks, or the one to a chunk's header, raises a status. -/
theorem validFailsWithoutChunkCount : Obligations.ValidFailsWithoutChunkCount := by
  intro s base maxSize hr hs hfields word tl hm hfits hfv hreaches hrange hcrc
  have hread : HeadReadable s base := ⟨hfields, hreaches, hrange⟩
  have hpasses : HeadPasses s base maxSize := ⟨hm, hfits, hfv, hcrc⟩
  refine ⟨fun opts rest hopts hothers hbytes => ?_, fun m pre g post st hspelled hstands hgroups hpre hstops => ?_⟩
  · exact exec_valid_fails hr (validate_noCount hs hread hpasses hopts hothers hbytes)
  · exact exec_valid_fails hr (validate_stops hs hspelled hstands hread hpasses hgroups
      (fun x hx => let ⟨hwhole, hpayload, hmatch⟩ := hpre x hx; ⟨⟨hwhole, hpayload⟩, hmatch⟩) hstops)

end Sys2Proof.Machine
end

section
/-! What each instruction can change of MEM, PBSR and the other registers outside the result block (10_state R30 to R33, R42). -/

namespace Sys2Proof.Machine

/-! ## Memory written in one range -/

/-- Between two memories only bytes of one range differ, and the canonical form is kept. -/
structure Overwritten (addressWidth a n : Nat) (m m' : Memory) : Prop where
  outside : ∀ x, x < a ∨ a + n ≤ x → Memory.read m' x = Memory.read m x
  wf : Memory.wf addressWidth m → Memory.wf addressWidth m'

theorem Overwritten.refl (aw a n : Nat) (m : Memory) : Overwritten aw a n m m := ⟨fun _ _ => rfl, id⟩

/-- A range and the one right after it. -/
theorem Overwritten.append {aw a n k : Nat} {m m' m'' : Memory} (h : Overwritten aw a n m m')
    (h' : Overwritten aw (a + n) k m' m'') : Overwritten aw a (n + k) m m'' :=
  ⟨fun x hx => (h'.outside x (by omega)).trans (h.outside x (by omega)), fun hwf => h'.wf (h.wf hwf)⟩

/-- Bytes stored where they can be written. -/
theorem Overwritten.writes {s : State} {a : Nat} {b : List Byte} (hw : writableRun s a b.length) (hb : 0 < b.length) :
    Overwritten s.cfg.addressWidth a b.length s.mem (Memory.writes s.mem a b) :=
  ⟨fun _ hx => Memory.read_writes_outside _ _ _ _ hx, fun hwf => Memory.writes_wf b s.mem a hwf (writableRun_end hw hb)⟩

/-! ## DECRYPT -/

/-- Consecutive blocks are deciphered in their own range, or the deciphering faults. -/
theorem decryptBlocks_ends (n : Nat) {s : State} {a : Nat} (hs : inRam s) :
    (decryptBlocks n a s).Ends (fun _ t => ∃ m, t = s.withMem m ∧ Overwritten s.cfg.addressWidth a (8 * n) s.mem m)
      fun _ => False := by
  induction n generalizing s a with
  | zero => exact ⟨s.mem, rfl, .refl _ _ _ _⟩
  | succ n ih =>
    rw [decryptBlocks]
    by_cases hw : writableRun s a 8
    · rw [decryptBlock_ram hs hw, Ran.bind_ok]
      generalize hb : blockBytes s.cfg.blockOrder (decipher s.keys (blockAt s.cfg.blockOrder s.mem a)) = b
      have hlength : b.length = 8 := by rw [← hb, blockBytes_length]
      have hfirst := Overwritten.writes (s := s) (a := a) (b := b) (by rwa [hlength]) (by omega)
      rw [hlength] at hfirst
      refine (ih (s := s.withMem (Memory.writes s.mem a b)) (a := a + 8) hs).mono
        (fun _ t ⟨m, ht, hrest⟩ => ⟨m, ht, ?_⟩) fun _ h => h
      rw [Nat.mul_succ, Nat.add_comm]
      exact hfirst.append hrest
    · rw [decryptBlock_fault hs hw]
      trivial

/-- The word of the trailer is read without a change, or the read faults. -/
theorem rd32BE_ram_ends (a : Nat) {s : State} (hs : inRam s) : (rd32BE a s).Ends (fun _ t => t = s) fun _ => False := by
  by_cases h : readableRun s a 4
  · rw [rd32BE_ram hs h]
    rfl
  · rw [rd32BE, memRead_ram_fault hs h]
    trivial

/-- The state at the end of DECRYPT's body: the schedule of KEY is written, and the buffer. -/
def Decrypted (addr n : Nat) (s t : State) : Prop :=
  ∃ m, Overwritten s.cfg.addressWidth addr n s.mem m ∧ t = (s.scheduled s.cfg.key).withMem m

theorem decryptBuffer_ends {addr n : Nat} {s : State} (hs : inRam s) (hblocks : n % 8 = 0) :
    (decryptBuffer addr n s).Ends
      (fun _ t => ∃ u v, Decrypted addr n s u ∧ t = (u.withRes { u.res with len := v }).returnedCommand)
      (Decrypted addr n s) := by
  by_cases hkey : keyOk s.cfg.key = true
  case neg =>
    rw [decryptBuffer_keyRefused hkey]
    trivial
  have hlength : 8 * (n / 8) = n := Nat.mul_div_cancel' (Nat.dvd_of_mod_eq_zero hblocks)
  rw [decryptBuffer, bfInit_ok hkey, Ran.bind_ok]
  refine ((decryptBlocks_ends (n / 8) (s := s.scheduled s.cfg.key) hs).mono (fun _ _ h => h) fun _ h => h.elim).bind
    fun _ u ⟨m, hu, hm⟩ => ?_
  rw [hlength] at hm
  have hend : Decrypted addr n s u := ⟨m, hm, hu⟩
  have hram : inRam u := by rw [hu]; exact hs
  refine ((rd32BE_ram_ends _ hram).mono (fun _ _ h => h) fun _ h => h.elim).bind fun v u' hread => ?_
  subst hread
  split
  · exact ⟨u', v, hend, rfl⟩
  · exact raise_ends hend

/-- DECRYPT completes with the trailer in `RES.LEN`, or fails after its body. -/
theorem exec_decrypt_next {addr : Nat} {len : Word} {s t : State} (h : exec (.decrypt addr len) s = .next t) :
    ∃ u, Decrypted addr len.toNat s u ∧
      ((∃ v, t = (u.withRes { u.res with len := v }).returnedCommand) ∨ ∃ c, c ≠ 0 ∧ t = u.failed c) := by
  rw [exec, execDecrypt] at h
  refine operation_ends (up := Decrypted addr len.toNat s)
    (p := fun t => ∃ u, Decrypted addr len.toNat s u ∧
      ((∃ v, t = (u.withRes { u.res with len := v }).returnedCommand) ∨ ∃ c, c ≠ 0 ∧ t = u.failed c)) h
    (onRam_ends fun hs => ?_) fun c u hc hu => ⟨u, hu, .inr ⟨c, hc, rfl⟩⟩
  split
  case isTrue hlen =>
    obtain ⟨-, hblocks⟩ := decryptLenOk_iff.mp hlen
    exact (decryptBuffer_ends hs hblocks).mono (fun _ _ ⟨u, v, hu, ht⟩ => ⟨u, hu, .inl ⟨v, ht⟩⟩) fun _ hu => hu
  case isFalse => trivial

/-! ## The operations that write PBSR -/

/-- The end of a successful operation that tests no flag: EXIT is written by one with a command form only (10_state R24). -/
def State.completed (i : Instr) (s : State) : State := if exitFollowsStatus i then s.returnedCommand else s.returned

section Writers

variable {i : Instr} {s t : State}

/-- The operations that write flags leave bits 31 to 8 of PBSR alone. -/
theorem exec_writesFlags_next (hi : writesFlags i = true) (h : exec i s = .next t) :
    ∃ v, (∀ lo n, 8 ≤ lo → lo + n ≤ 32 → v.extractLsb' lo n = s.pbsr.extractLsb' lo n) ∧
      t = (s.withPbsr v).completed i := by
  have hr := ready_of_exec h
  cases i with
  | flagWr j b =>
    rw [exec, execFlagWr] at h
    obtain ⟨-, hj, rfl⟩ := operation_checkedUpdate_eq_next (u := fun s => (flagWrite j.toNat (b.setWidth 1) s).returned) h
    exact ⟨_, pbsrSetFlag_above s.pbsr (by omega) _, rfl⟩
  | flagsClr =>
    rw [exec_flagsClr hr] at h
    exact ⟨_, pbsrClearFlags_above s.pbsr, (Host.Outcome.next.inj h).symm⟩
  | fwupClearUpdate | fwupClearFail | fwupSetUpdate | fwupSetFail =>
    rw [exec] at h
    exact ⟨_, pbsrSetFlag_above s.pbsr (Fin.isLt _) _, operation_update_eq_next h⟩
  | _ => exact absurd hi Bool.false_ne_true

/-- The operations that write the boot counter leave the other bits of PBSR alone. -/
theorem exec_writesBootcount_next (hi : writesBootcount i = true) (h : exec i s = .next t) :
    ∃ n, t = (s.withPbsr (pbsrSetBootcnt s.pbsr n)).completed i := by
  cases i with
  | bcntWr n =>
    rw [exec, execBcntWr] at h
    obtain ⟨-, -, rfl⟩ := operation_checkedUpdate_eq_next (u := fun s => (bootcountWrite (n.setWidth 8) s).returned) h
    exact ⟨_, rfl⟩
  | fwupIncbootcnt =>
    rw [exec_fwupIncbootcnt (ready_of_exec h)] at h
    exact ⟨_, (Host.Outcome.next.inj h).symm⟩
  | _ => exact absurd hi Bool.false_ne_true

theorem exec_bfInit_next {key : List Byte} (h : exec (.bfInit key) s = .next t) : t = (s.scheduled key).returned := by
  have hr := ready_of_exec h
  by_cases hkey : keyOk key = true
  · rw [exec_bfInit_ok hr hkey] at h
    exact (Host.Outcome.next.inj h).symm
  · rw [exec_bfInit_refused hr hkey] at h
    cases h

theorem exec_errstate_next (h : exec .errstate s = .next t) : t = s.withHalt true := by
  rw [exec] at h
  exact operation_update_eq_next h

end Writers

/-! ## Every instruction -/

/-- What an instruction that completes has changed of PBSR, HALT, the key schedule and MEM. -/
inductive Changes (i : Instr) (s : State) : State → Prop where
  | none {t : State} (h : Frame s t) : Changes i s t
  | flags {v : Word} (hi : writesFlags i = true)
    (h : ∀ lo n, 8 ≤ lo → lo + n ≤ 32 → v.extractLsb' lo n = s.pbsr.extractLsb' lo n) :
    Changes i s ((s.withPbsr v).completed i)
  | bootcount {n : Byte} (hi : writesBootcount i = true) : Changes i s ((s.withPbsr (pbsrSetBootcnt s.pbsr n)).completed i)
  | keys {key : List Byte} (hi : i = .bfInit key) : Changes i s (s.scheduled key).returned
  | buffer {addr : Nat} {len : Word} {u t : State} (hi : i = .decrypt addr len) (hu : Decrypted addr len.toNat s u)
    (h : Frame u t) : Changes i s t
  | halt (hi : i = .errstate) : Changes i s (s.withHalt true)

theorem exec_changes {i : Instr} {s t : State} (h : exec i s = .next t) : Changes i s t := by
  by_cases hflags : writesFlags i = true
  · obtain ⟨v, hv, rfl⟩ := exec_writesFlags_next hflags h
    exact .flags hflags hv
  by_cases hcount : writesBootcount i = true
  · obtain ⟨n, rfl⟩ := exec_writesBootcount_next hcount h
    exact .bootcount hcount
  by_cases hkeys : runsKeySchedule i = true
  · cases i with
    | bfInit key =>
      obtain rfl := exec_bfInit_next h
      exact .keys rfl
    | decrypt addr len =>
      obtain ⟨u, hu, ⟨v, rfl⟩ | ⟨c, -, rfl⟩⟩ := exec_decrypt_next h
      · exact .buffer rfl hu ((Frame.withRes u _).trans (Frame.returnedCommand _))
      · exact .buffer rfl hu (Frame.failed u c)
    | _ => exact absurd hkeys Bool.false_ne_true
  by_cases herr : i = .errstate
  · subst herr
    obtain rfl := exec_errstate_next h
    exact .halt rfl
  · exact .none (exec_frame (Bool.eq_false_iff.mpr hflags) (Bool.eq_false_iff.mpr hcount) (Bool.eq_false_iff.mpr hkeys) herr h)

section Completed

variable (i : Instr) (s : State)

theorem completed_frame : Frame s (s.completed i) := by
  unfold State.completed
  split
  · exact Frame.returnedCommand s
  · exact Frame.returned s

@[simp] theorem completed_pbsr : (s.completed i).pbsr = s.pbsr := (completed_frame i s).pbsr
@[simp] theorem completed_mem : (s.completed i).mem = s.mem := (completed_frame i s).mem

end Completed

/-- Settles O27: only DECRYPT writes MEM, and only blocks of its buffer. -/
theorem memoryFrame : Obligations.MemoryFrame := by
  intro i s t h
  cases exec_changes h with
  | none hframe => exact ⟨fun _ _ _ _ _ => by rw [hframe.mem], fun _ _ => by rw [hframe.mem]⟩
  | flags _ _ | bootcount _ => exact ⟨fun _ _ _ _ _ => by simp, fun _ _ => by simp⟩
  | keys _ | halt _ => exact ⟨fun _ _ _ _ _ => rfl, fun _ _ => rfl⟩
  | buffer hi hu hframe =>
    subst hi
    obtain ⟨m, hm, rfl⟩ := hu
    refine ⟨fun addr len heq a ha => ?_, fun hne => absurd rfl (hne _ _)⟩
    cases heq
    rw [hframe.mem]
    exact hm.outside a ha

/-- Settles O18: the bits that each writer of PBSR leaves alone. -/
theorem pbsrFieldsHaveTheirWriters : Obligations.PbsrFieldsHaveTheirWriters := by
  intro i s t h
  cases exec_changes h with
  | none hframe => simp [hframe.pbsr]
  | flags hi habove =>
    rw [completed_pbsr]
    exact ⟨fun hno => by simp [hi] at hno, fun _ => habove 8 8 (by omega) (by omega), habove 16 16 (by omega) (by omega)⟩
  | bootcount hi =>
    rw [completed_pbsr]
    exact ⟨fun _ => pbsrSetBootcnt_flags _ _, fun hno => by simp [hi] at hno, pbsrSetBootcnt_reserved _ _⟩
  | keys _ | halt _ => exact ⟨fun _ => rfl, fun _ => rfl, rfl⟩
  | buffer _ hu hframe =>
    obtain ⟨m, -, rfl⟩ := hu
    have hpbsr : t.pbsr = s.pbsr := hframe.pbsr
    simp [hpbsr]

end Sys2Proof.Machine
end

section
/-! How an operation ends: it fails, or it succeeds with its own result fields and EXIT (10_state R24, R25, 30_encoding R100). -/

namespace Sys2Proof.Machine

/-- The result block `r`, but with the fields that the instruction produces as in `r'` (10_state R25). -/
def ownResults (i : Instr) (r r' : Results) : Results :=
  match i with
  | .globver _ => { r with version := r'.version }
  | .chnknum _ => { r with count := r'.count }
  | .chnkhdrN _ _ => { r with hdr := r'.hdr }
  | .chnkhdrD _ _ => { r with hdr := r'.hdr, index := r'.index }
  | .decrypt _ _ => { r with len := r'.len }
  | .flagRd _ | .fwupUpdate | .fwupFail => { r with bit := r'.bit }
  | .fwupFlags => { r with flags := r'.flags }
  | .bcntRd | .fwupBootcnt => { r with bootcnt := r'.bootcnt }
  | .bfEnc _ _ | .bfDec _ _ => { r with xl := r'.xl, xr := r'.xr }
  | .crc32 _ _ => { r with crc := r'.crc }
  | .md5 _ _ => { r with md5 := r'.md5 }
  | .sha256 _ _ => { r with sha := r'.sha }
  | _ => r

/-- What a success leaves in the result block, STATUS and EXIT. -/
structure Succeeds (i : Instr) (s t : State) : Prop where
  res : t.res = ownResults i s.res t.res
  command : exitFollowsStatus i = true → t.status = 0 ∧ t.exit = 0
  exit : exitFollowsStatus i = false → i ≠ .fwupUpdate → i ≠ .fwupFail → t.exit = s.exit

/-- A status has been raised, and it is not 0. -/
abbrev Failed (t : State) : Prop := FailedWith (· ≠ 0) t

section Ends

variable {i : Instr} {s t u : State}

/-- The end of an operation with a command form. -/
theorem Succeeds.ofCommand (k : Keeps s u) (hi : exitFollowsStatus i = true) (hres : t.res = ownResults i u.res t.res)
    (hstatus : t.status = 0) (hexit : t.exit = 0) : Succeeds i s t :=
  ⟨by rw [← k.res]; exact hres, fun _ => ⟨hstatus, hexit⟩, fun hno => absurd (hno.symm.trans hi) Bool.false_ne_true⟩

/-- The end of an operation with none. -/
theorem Succeeds.ofPlain (k : Keeps s u) (hi : exitFollowsStatus i = false) (hres : t.res = ownResults i u.res t.res)
    (hexit : t.exit = u.exit) : Succeeds i s t :=
  ⟨by rw [← k.res]; exact hres, fun hyes => absurd (hi.symm.trans hyes) Bool.false_ne_true, fun _ _ _ => hexit.trans k.exit⟩

/-- The end of an operation whose body leaves the result block and EXIT alone. -/
theorem Succeeds.completed (hres : u.res = ownResults i s.res u.res) (hexit : u.exit = s.exit) : Succeeds i s (u.completed i) := by
  unfold State.completed
  split
  case isTrue hi => exact ⟨hres, fun _ => ⟨rfl, rfl⟩, fun hno => absurd (hno.symm.trans hi) Bool.false_ne_true⟩
  case isFalse hi => exact ⟨hres, fun hyes => absurd hyes hi, fun _ _ _ => hexit⟩

theorem operation_succeeds {body : State → Ran Unit} (h : operation body s = .next t)
    (hb : (body s).Ends (fun _ u => Succeeds i s u) fun _ => True) : Succeeds i s t ∨ Failed t :=
  operation_ends (p := fun t => Succeeds i s t ∨ Failed t) (up := fun _ => True) h
    (hb.mono (fun _ _ hu => .inl hu) fun _ _ => trivial)
    fun c u hc _ => .inr ⟨c, u, hc, rfl⟩

/-- An operation that is a part which keeps the result block and then a return. -/
theorem operation_succeeds_bind {α : Type} {part : State → Ran α} {ret : α → State → State}
    (h : operation (fun s => (part s).bind fun a u => .ok () (ret a u)) s = .next t) (hp : (part s).Keeps s)
    (hret : ∀ a u, Keeps s u → Succeeds i s (ret a u)) : Succeeds i s t ∨ Failed t :=
  operation_succeeds h ((hp.mono (fun _ _ k => k) fun _ _ => trivial).bind hret)

/-- A digest is such an operation, with the image in RAM. -/
theorem operation_digest_succeeds {α : Type} {load : List Byte → Engine} {result : Engine → α} {a n : Nat}
    {store : α → State → State}
    (h : operation (onRam fun s => (digestOf load result a n s).bind fun v s => .ok () (store v s)) s = .next t)
    (hstore : ∀ v u, Keeps s u → Succeeds i s (store v u)) : Succeeds i s t ∨ Failed t :=
  operation_succeeds h (onRam_ends fun _ =>
    ((digestOf_keeps load result a n s).mono (fun _ _ k => k) fun _ _ => trivial).bind hstore)

theorem operation_blockOp_succeeds {f : Subkeys → Word × Word → Word × Word} {xl xr : Word}
    (h : operation (blockOp f xl xr) s = .next t)
    (hstore : ∀ y : Word × Word, Succeeds i s (s.withRes { s.res with xl := y.1, xr := y.2 }).returned) :
    Succeeds i s t ∨ Failed t := by
  refine operation_succeeds h ?_
  unfold blockOp
  split
  · exact hstore _
  · trivial

/-- A record of the image has no command form and produces no result field. -/
theorem plain_of_isRecord (hi : isRecord i = true) : exitFollowsStatus i = false ∧ ∀ r r', ownResults i r r' = r := by
  cases i with
  | chnk | goptOther | versOpt | sizeOpt | dataOpt | destOpt | md5Opt | sha2Opt | cr32Opt | encmOpt | coptOther =>
    exact ⟨rfl, fun _ _ => rfl⟩
  | _ => exact absurd hi Bool.false_ne_true

/-- A record of the image keeps the result block and EXIT when it succeeds. -/
theorem exec_record_succeeds (hi : isRecord i = true) (h : exec i s = .next t) : Succeeds i s t ∨ Failed t := by
  rw [exec_eq_operation_runRecord hi] at h
  obtain ⟨hexit, hown⟩ := plain_of_isRecord hi
  exact operation_succeeds h ((runRecord_keeps i s).mono
    (fun _ u k => .ofPlain k hexit (by rw [hown]) rfl) fun _ _ => trivial)

/-- An operation that writes PBSR produces no result field. -/
theorem ownResults_of_writesPbsr (hi : writesFlags i = true ∨ writesBootcount i = true) (r r' : Results) :
    ownResults i r r' = r := by
  cases i with
  | flagWr | flagsClr | fwupClearUpdate | fwupClearFail | fwupSetUpdate | fwupSetFail | bcntWr | fwupIncbootcnt => rfl
  | _ => exact hi.elim (absurd · Bool.false_ne_true) (absurd · Bool.false_ne_true)

/-- Every instruction that completes succeeds or fails. -/
theorem exec_succeeds_or_fails (h : exec i s = .next t) : Succeeds i s t ∨ Failed t := by
  by_cases hrec : isRecord i = true
  · exact exec_record_succeeds hrec h
  by_cases hflags : writesFlags i = true
  · obtain ⟨v, -, rfl⟩ := exec_writesFlags_next hflags h
    exact .inl (.completed (by rw [ownResults_of_writesPbsr (.inl hflags)]; rfl) rfl)
  by_cases hcount : writesBootcount i = true
  · obtain ⟨n, rfl⟩ := exec_writesBootcount_next hcount h
    exact .inl (.completed (by rw [ownResults_of_writesPbsr (.inr hcount)]; rfl) rfl)
  have hself := Keeps.refl s
  cases i with
  | decrypt addr len =>
    obtain ⟨u, ⟨m, -, rfl⟩, ⟨v, rfl⟩ | ⟨c, hc, rfl⟩⟩ := exec_decrypt_next h
    · exact .inl (.ofCommand hself rfl rfl rfl rfl)
    · exact .inr ⟨c, _, hc, rfl⟩
  | bfInit key =>
    obtain rfl := exec_bfInit_next h
    exact .inl (.ofPlain hself rfl rfl rfl)
  | errstate =>
    obtain rfl := exec_errstate_next h
    exact .inl (.ofPlain hself rfl rfl rfl)
  | magic b =>
    rw [exec] at h
    exact operation_succeeds_bind h (checkMagic_keeps b s) fun _ _ k => .ofCommand k rfl rfl rfl rfl
  | valid b m =>
    rw [exec] at h
    exact operation_succeeds_bind h (validate_keeps b m s) fun _ _ k => .ofCommand k rfl rfl rfl rfl
  | globver b =>
    rw [exec] at h
    have hword {a : Nat} {u : State} (k : Keeps s u) : (rd32LE a u).Ends (fun _ v => Keeps s v) fun _ => True :=
      (rd32LE_keeps a u).mono (fun _ _ k' => k.trans k') fun _ _ => trivial
    exact operation_succeeds h <| (hword hself).bind fun _ _ k => (hword k).bind fun _ _ k => (hword k).bind fun _ _ k =>
      (hword k).bind fun _ _ k => .ofCommand k rfl rfl rfl rfl
  | chnknum b =>
    rw [exec] at h
    exact operation_succeeds_bind h (countChunks_keeps b s) fun _ _ k => .ofCommand k rfl rfl rfl rfl
  | chnkhdrN b k =>
    rw [exec] at h
    exact operation_succeeds_bind h (chunkHeader_keeps b _ s) fun _ _ k => .ofPlain k rfl rfl rfl
  | chnkhdrD b name =>
    rw [exec] at h
    exact operation_succeeds h <| ((countChunks_keeps b s).mono (fun _ _ k => k) fun _ _ => trivial).bind fun n u k =>
      ((findByName_keeps b name n.toNat 1 u).mono (fun _ _ k' => k.trans k') fun _ _ => trivial).bind fun _ _ k =>
      .ofCommand k rfl rfl rfl rfl
  | fwupFlags =>
    rw [exec_fwupFlags (ready_of_exec h)] at h
    exact .inl (Host.Outcome.next.inj h ▸ .ofCommand hself rfl rfl rfl rfl)
  | fwupBootcnt =>
    rw [exec_fwupBootcnt (ready_of_exec h)] at h
    exact .inl (Host.Outcome.next.inj h ▸ .ofCommand hself rfl rfl rfl rfl)
  | fwupUpdate =>
    rw [exec_fwupUpdate (ready_of_exec h)] at h
    exact .inl (Host.Outcome.next.inj h ▸ ⟨rfl, fun hyes => absurd hyes Bool.false_ne_true, fun _ hne => absurd rfl hne⟩)
  | fwupFail =>
    rw [exec_fwupFail (ready_of_exec h)] at h
    exact .inl (Host.Outcome.next.inj h ▸ ⟨rfl, fun hyes => absurd hyes Bool.false_ne_true, fun _ _ hne => absurd rfl hne⟩)
  | fwupUsbUpdateReq | fwupMtdparts => exact absurd h (by simp [exec, execFwupUsbUpdateReq, execFwupMtdparts, operation_eq_next])
  | flagRd j =>
    rw [exec, execFlagRd] at h
    obtain ⟨-, -, rfl⟩ := operation_checkedUpdate_eq_next
      (u := fun s => (s.withRes { s.res with bit := pbsrFlag s.pbsr j.toNat }).returned) h
    exact .inl (.ofPlain hself rfl rfl rfl)
  | bcntRd =>
    rw [exec_bcntRd (ready_of_exec h)] at h
    exact .inl (Host.Outcome.next.inj h ▸ .ofPlain hself rfl rfl rfl)
  | bfEnc l r | bfDec l r =>
    rw [exec] at h
    exact operation_blockOp_succeeds h fun _ => .ofPlain hself rfl rfl rfl
  | crc32 a n | md5 a n | sha256 a n =>
    rw [exec] at h
    exact operation_digest_succeeds h fun _ _ k => .ofPlain k rfl rfl rfl
  | flagWr | flagsClr | fwupClearUpdate | fwupClearFail | fwupSetUpdate | fwupSetFail => exact absurd rfl hflags
  | bcntWr | fwupIncbootcnt => exact absurd rfl hcount
  | chnk | goptOther | versOpt | sizeOpt | dataOpt | destOpt | md5Opt | sha2Opt | cr32Opt | encmOpt | coptOther =>
    exact absurd rfl hrec

end Ends

/-! ## The result fields of the other instructions -/

section OwnResults

variable (i : Instr) (r r' : Results)

theorem ownResults_version (h : ∀ b, i ≠ .globver b) : (ownResults i r r').version = r.version := by
  cases i with
  | globver b => exact absurd rfl (h b)
  | _ => rfl

theorem ownResults_count (h : ∀ b, i ≠ .chnknum b) : (ownResults i r r').count = r.count := by
  cases i with
  | chnknum b => exact absurd rfl (h b)
  | _ => rfl

theorem ownResults_hdr (hn : ∀ b k, i ≠ .chnkhdrN b k) (hd : ∀ b n, i ≠ .chnkhdrD b n) :
    (ownResults i r r').hdr = r.hdr := by
  cases i with
  | chnkhdrN b k => exact absurd rfl (hn b k)
  | chnkhdrD b n => exact absurd rfl (hd b n)
  | _ => rfl

theorem ownResults_index (h : ∀ b n, i ≠ .chnkhdrD b n) : (ownResults i r r').index = r.index := by
  cases i with
  | chnkhdrD b n => exact absurd rfl (h b n)
  | _ => rfl

theorem ownResults_len (h : ∀ a n, i ≠ .decrypt a n) : (ownResults i r r').len = r.len := by
  cases i with
  | decrypt a n => exact absurd rfl (h a n)
  | _ => rfl

theorem ownResults_bit (hr : ∀ j, i ≠ .flagRd j) (hu : i ≠ .fwupUpdate) (hf : i ≠ .fwupFail) :
    (ownResults i r r').bit = r.bit := by
  cases i with
  | flagRd j => exact absurd rfl (hr j)
  | fwupUpdate => exact absurd rfl hu
  | fwupFail => exact absurd rfl hf
  | _ => rfl

theorem ownResults_flags (h : i ≠ .fwupFlags) : (ownResults i r r').flags = r.flags := by
  cases i with
  | fwupFlags => exact absurd rfl h
  | _ => rfl

theorem ownResults_bootcnt (hr : i ≠ .bcntRd) (hf : i ≠ .fwupBootcnt) : (ownResults i r r').bootcnt = r.bootcnt := by
  cases i with
  | bcntRd => exact absurd rfl hr
  | fwupBootcnt => exact absurd rfl hf
  | _ => rfl

theorem ownResults_block (he : ∀ a b, i ≠ .bfEnc a b) (hd : ∀ a b, i ≠ .bfDec a b) :
    (ownResults i r r').xl = r.xl ∧ (ownResults i r r').xr = r.xr := by
  cases i with
  | bfEnc a b => exact absurd rfl (he a b)
  | bfDec a b => exact absurd rfl (hd a b)
  | _ => exact ⟨rfl, rfl⟩

theorem ownResults_crc (h : ∀ a n, i ≠ .crc32 a n) : (ownResults i r r').crc = r.crc := by
  cases i with
  | crc32 a n => exact absurd rfl (h a n)
  | _ => rfl

theorem ownResults_md5 (h : ∀ a n, i ≠ .md5 a n) : (ownResults i r r').md5 = r.md5 := by
  cases i with
  | md5 a n => exact absurd rfl (h a n)
  | _ => rfl

theorem ownResults_sha (h : ∀ a n, i ≠ .sha256 a n) : (ownResults i r r').sha = r.sha := by
  cases i with
  | sha256 a n => exact absurd rfl (h a n)
  | _ => rfl

end OwnResults

/-- Settles O29: with STATUS 0 the operation has not failed, and a success leaves `ownResults`. -/
theorem resultFrame : Obligations.ResultFrame := by
  intro i s t h hzero
  have hsucceeds := (exec_succeeds_or_fails h).resolve_right fun hfailed => hfailed.status hzero
  have hfield {α : Type} {f : Results → α} (hown : f (ownResults i s.res t.res) = f s.res) : f t.res = f s.res :=
    (congrArg f hsucceeds.res).trans hown
  refine ⟨fun hi => hfield (ownResults_version i _ _ hi), fun hi => hfield (ownResults_count i _ _ hi),
    fun hn hd => hfield (ownResults_hdr i _ _ hn hd), fun hi => hfield (ownResults_index i _ _ hi),
    fun hi => hfield (ownResults_len i _ _ hi), fun hr hu hf => hfield (ownResults_bit i _ _ hr hu hf),
    fun hi => hfield (ownResults_flags i _ _ hi), fun hr hf => hfield (ownResults_bootcnt i _ _ hr hf),
    fun he hd => ⟨hfield (ownResults_block i _ _ he hd).1, hfield (ownResults_block i _ _ he hd).2⟩,
    fun hi => hfield (ownResults_crc i _ _ hi), fun hi => hfield (ownResults_md5 i _ _ hi),
    fun hi => hfield (ownResults_sha i _ _ hi), hsucceeds.exit⟩

end Sys2Proof.Machine

namespace Sys2Proof

open Machine

/-- Settles O30: a failure sets EXIT to 1 with a status that is not 0. -/
theorem exitFollowsStatus : Obligations.ExitFollowsStatus := by
  intro i s t hi h
  rcases exec_succeeds_or_fails h with hsucceeds | ⟨c, u, hc, rfl⟩
  · exact .inl (hsucceeds.command hi)
  · exact .inr ⟨hc, rfl⟩

end Sys2Proof
end

section
/-! The walk and the digest engines across an instruction (10_state R22, R36, R42). A property of the two that the walker and the
engines leave true stays true: that no walk is under way, and that the engines are idle, are two such properties. -/

namespace Sys2Proof.Machine

/-! ## A property that stays true -/

/-- A part leaves the property true when it succeeds; a raised status is followed by `State.failed`. -/
abbrev Stays {α : Type} (P : State → Prop) (f : State → Ran α) : Prop :=
  ∀ s, P s → (f s).Ends (fun _ t => P t) fun _ => True

/-- The property is about the walk and the engines only, and true when the walk is over and when the engines are idle again. -/
structure Settled (P : State → Prop) : Prop where
  same : ∀ {s t}, P s → t.walk = s.walk → t.engine = s.engine → P t
  walkOver : ∀ {s}, P s → P (s.withWalk none)
  idle : ∀ {s}, P s → P (s.withEngine .idle)
  failed : ∀ (s : State) (c : Word), P (s.failed c)

/-- No walk is under way. -/
theorem settled_noWalk : Settled fun s => s.walk = none :=
  ⟨fun h hw _ => hw.trans h, fun _ => rfl, fun h => h, fun _ _ => rfl⟩

/-- The digest engines are idle. -/
theorem settled_idle : Settled fun s => s.engine = .idle :=
  ⟨fun h _ he => he.trans h, fun h => h, fun _ => rfl, fun _ _ => rfl⟩

section Combinators

variable {P : State → Prop} {α β : Type}

theorem Stays.bind {f : State → Ran α} {k : α → State → Ran β} (hf : Stays P f) (hk : ∀ a, Stays P (k a)) :
    Stays P fun s => (f s).bind k := fun s hs => Ran.Ends.bind (hf s hs) fun a t ht => hk a t ht

theorem ok_stays (a : α) : Stays P (Ran.ok a) := fun _ h => h

theorem raise_stays (st : Status) (hst : st ≠ .valid := by decide) : Stays P (raise st : State → Ran α) :=
  fun _ _ => raise_ends trivial hst

theorem refused_stays (r : Refusal) : Stays P fun _ => (.refused r : Ran α) := fun _ _ => trivial

theorem ite_stays {c : Prop} [Decidable c] {f h : State → Ran α} (hf : Stays P f) (hh : Stays P h) :
    Stays P fun s => if c then f s else h s := fun s hs => by
  dsimp only
  split
  · exact hf s hs
  · exact hh s hs

theorem onWalk_stays {f : Walk → State → Ran α} (hf : ∀ w, Stays P (f w)) : Stays P (onWalk f) :=
  fun s hs => onWalk_ends fun w _ => hf w s hs

/-- An update of the state that leaves the walk and the engines alone. -/
theorem Settled.update (hP : Settled P) (a : α) {u : State → State} (hw : ∀ s, (u s).walk = s.walk)
    (he : ∀ s, (u s).engine = s.engine) :
    Stays P fun s => .ok a (u s) := fun s hs => hP.same hs (hw s) (he s)

/-- The end of an operation whose body leaves the property true. -/
theorem Settled.operation (hP : Settled P) {body : State → Ran Unit} {s t : State} (h : Machine.operation body s = .next t)
    (hs : P s) (hb : Stays P body) : P t :=
  operation_ends h (hb s hs) fun c u _ _ => hP.failed u c

end Combinators

/-! ## Reads, digests and checks -/

section Reads

variable {P : State → Prop} (hP : Settled P)
include hP

theorem memRead_stays (a n : Nat) : Stays P (memRead a n) := fun s hs => by
  rcases memRead_cases a n s with ⟨t, h, -, ⟨rfl, -⟩ | rfl⟩ | h | h <;> rw [h]
  · exact hs
  · exact hP.same hs rfl rfl
  · trivial
  · trivial

theorem rd32LE_stays (a : Nat) : Stays P (rd32LE a) := (memRead_stays hP a 4).bind fun _ => ok_stays _

theorem digestOf_stays {α : Type} (load : List Byte → Engine) (result : Engine → α) (a n : Nat) :
    Stays P (digestOf load result a n) :=
  (memRead_stays hP a n).bind fun _ _ hs => hP.same (hP.idle hs) rfl rfl

theorem checkMagic_stays (base : Nat) : Stays P (checkMagic base) :=
  (memRead_stays hP base 8).bind fun _ => ite_stays (ok_stays ()) (raise_stays _)

omit hP in
theorem checkTotalLength_stays (x tl : Word) : Stays P (checkTotalLength x tl) := ite_stays (raise_stays _) (ok_stays ())

omit hP in
theorem checkFormatVersion_stays (fv : Word) : Stays P (checkFormatVersion fv) := ite_stays (raise_stays _) (ok_stays ())

theorem checkGlobalCrc_stays (base : Nat) (tl : Word) : Stays P (checkGlobalCrc base tl) :=
  ite_stays (refused_stays _) ((digestOf_stays hP _ _ _ _).bind fun _ => (rd32LE_stays hP _).bind fun _ =>
    ite_stays (ok_stays ()) (raise_stays _))

omit hP in
theorem checkDigest_stays {α : Type} [DecidableEq α] {present : Bool} {digest : State → Ran α} {stored : α} {st : Status}
    (hd : Stays P digest) (hst : st ≠ .valid := by decide) : Stays P (checkDigest present digest stored st) :=
  ite_stays (hd.bind fun _ => ite_stays (ok_stays ()) (raise_stays _ hst)) (ok_stays ())

theorem checkChunk_stays (base : Nat) (h : ChunkHeader) : Stays P (checkChunk base h) :=
  ite_stays
    ((checkDigest_stays (digestOf_stays hP _ _ _ _)).bind fun _ => (checkDigest_stays (digestOf_stays hP _ _ _ _)).bind fun _ =>
      checkDigest_stays (digestOf_stays hP _ _ _ _))
    (ok_stays ())

omit hP in
theorem walkerFailure_stays {α : Type} {f : State → Ran α} (hf : Stays P f) : Stays P fun s => walkerFailure (f s) :=
  fun s hs => walkerFailure_ends (hf s hs)

/-! ## What walks to a chunk's header -/

variable (hcount : ∀ base, Stays P (countChunks base)) (hheader : ∀ base k, Stays P (chunkHeader base k))
include hheader

theorem checkChunks_stays (base m c : Nat) : Stays P (checkChunks base m c) := by
  induction m generalizing c with
  | zero => exact ok_stays ()
  | succ m ih =>
    exact (walkerFailure_stays (hheader base c)).bind fun h => (checkChunk_stays hP base h).bind fun _ => ih (c + 1)

theorem findByName_stays (base : Nat) (name : List Byte) (m c : Nat) : Stays P (findByName base name m c) := by
  induction m generalizing c with
  | zero => exact raise_stays _
  | succ m ih =>
    refine (hheader base c).bind fun h => ite_stays (fun s hs => ?_) (ih (c + 1))
    have hcompared : P (compareName h.dest name s).2 := by
      unfold compareName
      split
      · exact hs
      · exact hP.same hs rfl rfl
    dsimp only
    split
    · exact hcompared
    · exact ih (c + 1) _ hcompared

include hcount

theorem validate_stays (base : Nat) (x : Word) : Stays P (validate base x) :=
  (checkMagic_stays hP base).bind fun _ => (rd32LE_stays hP _).bind fun tl => (checkTotalLength_stays x tl).bind fun _ =>
    (rd32LE_stays hP _).bind fun fv => (checkFormatVersion_stays fv).bind fun _ => (checkGlobalCrc_stays hP base tl).bind fun _ =>
    (walkerFailure_stays (hcount base)).bind fun _ => checkChunks_stays hP hheader base _ _

/-! ## Every instruction -/

theorem exec_stays {i : Instr} {s t : State} (hrec : isRecord i = true → Stays P (runRecord i)) (h : exec i s = .next t)
    (hs : P s) : P t := by
  by_cases hi : isRecord i = true
  · rw [exec_eq_operation_runRecord hi] at h
    exact hP.operation h hs (hrec hi)
  have hcompleted (i : Instr) (v : Word) : P ((s.withPbsr v).completed i) := by
    unfold State.completed
    split
    · exact hP.same hs rfl rfl
    · exact hP.same hs rfl rfl
  by_cases hflags : writesFlags i = true
  · obtain ⟨v, -, rfl⟩ := exec_writesFlags_next hflags h
    exact hcompleted i v
  by_cases hbootcount : writesBootcount i = true
  · obtain ⟨n, rfl⟩ := exec_writesBootcount_next hbootcount h
    exact hcompleted i _
  cases i with
  | decrypt addr len =>
    obtain ⟨u, ⟨m, -, rfl⟩, ⟨v, rfl⟩ | ⟨c, -, rfl⟩⟩ := exec_decrypt_next h
    · exact hP.same hs rfl rfl
    · exact hP.failed _ c
  | bfInit key =>
    obtain rfl := exec_bfInit_next h
    exact hP.same hs rfl rfl
  | errstate =>
    obtain rfl := exec_errstate_next h
    exact hP.same hs rfl rfl
  | magic b =>
    rw [exec] at h
    exact hP.operation h hs ((checkMagic_stays hP b).bind fun _ => hP.update () (fun _ => rfl) fun _ => rfl)
  | valid b m =>
    rw [exec] at h
    exact hP.operation h hs ((validate_stays hP hcount hheader b m).bind fun _ => hP.update () (fun _ => rfl) fun _ => rfl)
  | globver b =>
    rw [exec] at h
    exact hP.operation h hs ((rd32LE_stays hP _).bind fun _ => (rd32LE_stays hP _).bind fun _ => (rd32LE_stays hP _).bind fun _ =>
      (rd32LE_stays hP _).bind fun _ => hP.update () (fun _ => rfl) fun _ => rfl)
  | chnknum b =>
    rw [exec] at h
    exact hP.operation h hs ((hcount b).bind fun _ u hu => hP.same (hP.walkOver hu) rfl rfl)
  | chnkhdrN b k =>
    rw [exec] at h
    exact hP.operation h hs ((hheader b k.toNat).bind fun _ u hu => hP.same (hP.walkOver hu) rfl rfl)
  | chnkhdrD b name =>
    rw [exec] at h
    exact hP.operation h hs ((hcount b).bind fun n => (findByName_stays hP hheader b name n.toNat 1).bind fun _ =>
      hP.update () (fun _ => rfl) fun _ => rfl)
  | flagRd j =>
    rw [exec] at h
    exact hP.operation h hs (ite_stays (refused_stays _) (hP.update () (fun _ => rfl) fun _ => rfl))
  | fwupFlags | fwupBootcnt | fwupUpdate | fwupFail | bcntRd =>
    rw [exec] at h
    exact hP.operation h hs (hP.update () (fun _ => rfl) fun _ => rfl)
  | fwupUsbUpdateReq | fwupMtdparts =>
    rw [exec] at h
    exact hP.operation h hs (refused_stays _)
  | bfEnc l r | bfDec l r =>
    rw [exec] at h
    refine hP.operation h hs fun u hu => ?_
    unfold blockOp
    split
    · exact hP.same hu rfl rfl
    · trivial
  | crc32 a n | md5 a n | sha256 a n =>
    rw [exec] at h
    exact hP.operation h hs fun u hu => onRam_ends fun _ =>
      Ran.Ends.bind (digestOf_stays hP _ _ a n.toNat u hu) fun _ _ hv => hP.same hv rfl rfl
  | flagWr | flagsClr | fwupClearUpdate | fwupClearFail | fwupSetUpdate | fwupSetFail => exact absurd rfl hflags
  | bcntWr | fwupIncbootcnt => exact absurd rfl hbootcount
  | chnk | goptOther | versOpt | sizeOpt | dataOpt | destOpt | md5Opt | sha2Opt | cr32Opt | encmOpt | coptOther =>
    exact absurd rfl hi

end Reads

/-! ## A host operation ends with no walk -/

/-- Whatever a part does, what follows it decides how the two end. -/
theorem Ran.Keeps.thenEnds {α β : Type} {x : Ran α} {f : α → State → Ran β} {s : State} {q : β → State → Prop}
    (hx : x.Keeps s) (hf : ∀ a t, (f a t).Ends q fun _ => True) : (x.bind f).Ends q fun _ => True :=
  (hx.mono (q := fun _ _ => True) (fun _ _ _ => trivial) fun _ _ => trivial).bind fun a t _ => hf a t

theorem countChunks_walkOver (base : Nat) : Stays (fun s => s.walk = none) (countChunks base) := fun s _ =>
  (startWalk_keeps _ _ _ s).thenEnds fun _ t => (runLoop_keeps t).thenEnds fun _ t => (foundCount_keeps t).thenEnds fun _ _ => rfl

theorem chunkHeader_walkOver (base k : Nat) : Stays (fun s => s.walk = none) (chunkHeader base k) := fun s _ =>
  (startWalk_keeps _ _ _ s).thenEnds fun _ t => (runLoop_keeps t).thenEnds fun _ t => (beginSkip_keeps t).thenEnds fun _ t =>
    (runLoop_keeps t).thenEnds fun _ t => (beginGroups_keeps t).thenEnds fun _ t => (runGroups_keeps k t).thenEnds fun _ _ =>
    onWalk_ends fun _ _ => rfl

theorem exec_walk_none {i : Instr} {s t : State} (hi : isRecord i = false) (h : exec i s = .next t) (hw : s.walk = none) :
    t.walk = none :=
  exec_stays settled_noWalk countChunks_walkOver chunkHeader_walkOver
    (fun hrec => absurd (hi.symm.trans hrec) Bool.false_ne_true) h hw

end Sys2Proof.Machine
end

section
/-! The walker leaves a property of the state alone that neither a draw nor a change of the walk makes false; that the digest engines
are idle is one (10_state R36). With it, what each instruction changes of the registers (R42). -/

namespace Sys2Proof.Machine

/-! ## The walker -/

section Walker

variable {P : State → Prop} (hP : Settled P) (hset : ∀ s w, P s → P (s.withWalk (some w)))

section Reads

include hP

theorem readField_stays (p size : Nat) (length : Word) : Stays P (readField p size length) :=
  (memRead_stays hP p size).bind fun b s hs => by
    split
    · exact hP.same hs rfl rfl
    · exact hs

theorem readWordField_stays (p : Nat) (length : Word) : Stays P (readWordField p length) :=
  (readField_stays hP p 4 length).bind fun _ => ok_stays _

theorem readVersionField_stays (p : Nat) (length : Word) : Stays P (readVersionField p length) :=
  (readField_stays hP p 16 length).bind fun _ => ok_stays _

theorem readBytesField_stays (n p : Nat) (length : Word) : Stays P (readBytesField n p length) :=
  (readField_stays hP p n length).bind fun _ => ok_stays _

theorem fetchInstr_stays (w : Walk) : Stays P (fetchInstr w) := by
  refine ((memRead_stays hP _ 4).bind fun _ => (memRead_stays hP _ 4).bind fun _ => ok_stays _).bind fun b => ?_
  cases decodeRecord w.table b with
  | ok i => exact ok_stays i
  | error _ => exact refused_stays _

end Reads

include hset

theorem setWalk_stays (w : Walk) : Stays P fun s => .ok () (s.withWalk (some w)) := fun s hs => hset s w hs

theorem passOver_stays (w : Walk) (length : Word) : Stays P (passOver w length) := setWalk_stays hset _

theorem globalRecord_stays {length : Word} {search : Walk → State → Ran Unit} (h : ∀ w, Stays P (search w)) :
    Stays P (globalRecord length search) :=
  onWalk_stays fun w => by
    cases w.phase with
    | find => exact h w
    | skip => exact passOver_stays hset w length
    | group => exact refused_stays _

theorem chunkRecord_stays {length : Word} {rule : Nat → ChunkHeader → State → Ran ChunkHeader}
    (h : ∀ p d, Stays P (rule p d)) : Stays P (chunkRecord length rule) :=
  onWalk_stays fun w => by
    cases w.phase with
    | find => exact refused_stays _
    | skip => exact refused_stays _
    | group =>
      exact ite_stays (ite_stays (raise_stays _) ((h _ _).bind fun _ => passOver_stays hset _ length))
        (passOver_stays hset w length)

omit hset in
/-- The rule of a field record only reads the field. -/
theorem fieldRule_stays {α : Type} {read : State → Ran α} (hr : Stays P read) (f : α → ChunkHeader) :
    Stays P fun s => (read s).bind fun v s => .ok (f v) s := hr.bind fun _ => ok_stays _

include hP

theorem recordVers_stays (length : Word) : Stays P (recordVers length) :=
  chunkRecord_stays hset fun p _ => fieldRule_stays (readVersionField_stays hP p length) _

theorem recordSize_stays (length : Word) : Stays P (recordSize length) :=
  chunkRecord_stays hset fun p _ => fieldRule_stays (readWordField_stays hP p length) _

theorem recordData_stays (length : Word) : Stays P (recordData length) :=
  chunkRecord_stays hset fun p _ => fieldRule_stays (readWordField_stays hP p length) _

theorem recordDest_stays (length : Word) : Stays P (recordDest length) :=
  chunkRecord_stays hset fun p _ => fieldRule_stays (readBytesField_stays hP 32 p length) _

theorem recordMd5_stays (length : Word) : Stays P (recordMd5 length) :=
  chunkRecord_stays hset fun p _ => fieldRule_stays (readBytesField_stays hP 16 p length) _

theorem recordSha2_stays (length : Word) : Stays P (recordSha2 length) :=
  chunkRecord_stays hset fun p _ => fieldRule_stays (readBytesField_stays hP 32 p length) _

theorem recordCr32_stays (length : Word) : Stays P (recordCr32 length) :=
  chunkRecord_stays hset fun p _ => fieldRule_stays (readWordField_stays hP p length) _

theorem recordEncm_stays (length : Word) : Stays P (recordEncm length) :=
  chunkRecord_stays hset fun p _ => fieldRule_stays (readWordField_stays hP p length) _

theorem runRecord_stays (i : Instr) : Stays P (runRecord i) := by
  cases i with
  | chnk l => exact globalRecord_stays hset fun _ => (readWordField_stays hP _ l).bind fun _ => setWalk_stays hset _
  | goptOther _ l => exact globalRecord_stays hset fun w => passOver_stays hset w l
  | versOpt l => exact recordVers_stays hP hset l
  | sizeOpt l => exact recordSize_stays hP hset l
  | dataOpt l => exact recordData_stays hP hset l
  | destOpt l => exact recordDest_stays hP hset l
  | md5Opt l => exact recordMd5_stays hP hset l
  | sha2Opt l => exact recordSha2_stays hP hset l
  | cr32Opt l => exact recordCr32_stays hP hset l
  | encmOpt l => exact recordEncm_stays hP hset l
  | coptOther _ l => exact chunkRecord_stays hset fun _ _ => raise_stays _
  | _ => exact refused_stays _

theorem recordTurn_stays : Stays P recordTurn :=
  onWalk_stays fun w => by
    cases w.phase with
    | skip => exact (rd32LE_stays hP _).bind fun l => passOver_stays hset w l
    | find | group => exact (fetchInstr_stays hP w).bind (runRecord_stays hP hset)

theorem runRecords_stays (m : Nat) : Stays P (runRecords m) := by
  induction m with
  | zero => exact ok_stays ()
  | succ m ih => exact onWalk_stays fun _ => ite_stays (ok_stays ()) ((recordTurn_stays hP hset).bind fun _ => ih)

theorem runLoop_stays : Stays P runLoop := onWalk_stays fun _ => runRecords_stays hP hset _

theorem startWalk_stays (job : Job) (base k : Nat) : Stays P (startWalk job base k) :=
  (rd32LE_stays hP _).bind fun _ => setWalk_stays hset _

omit hP hset in
theorem foundCount_stays : Stays P foundCount :=
  onWalk_stays fun w => by
    cases w.found with
    | none => exact raise_stays _
    | some n => exact ok_stays n

theorem beginSkip_stays : Stays P beginSkip :=
  foundCount_stays.bind fun _ => onWalk_stays fun _ =>
    ite_stays (raise_stays _) ((rd32LE_stays hP _).bind fun _ => setWalk_stays hset _)

theorem beginGroups_stays : Stays P beginGroups := onWalk_stays fun _ s hs => hset s.drawn _ (hP.same hs rfl rfl)

theorem enterGroup_stays : Stays P enterGroup := onWalk_stays fun _ => (rd32LE_stays hP _).bind fun _ => setWalk_stays hset _

theorem runGroups_stays (m : Nat) : Stays P (runGroups m) := by
  induction m with
  | zero => exact ok_stays ()
  | succ m ih => exact (enterGroup_stays hP hset).bind fun _ => (runLoop_stays hP hset).bind fun _ => ih

theorem countChunks_stays (base : Nat) : Stays P (countChunks base) :=
  (startWalk_stays hP hset _ _ _).bind fun _ => (runLoop_stays hP hset).bind fun _ => foundCount_stays.bind fun _ _ hs =>
    hP.walkOver hs

theorem chunkHeader_stays (base k : Nat) : Stays P (chunkHeader base k) :=
  (startWalk_stays hP hset _ _ _).bind fun _ => (runLoop_stays hP hset).bind fun _ => (beginSkip_stays hP hset).bind fun _ =>
    (runLoop_stays hP hset).bind fun _ => (beginGroups_stays hP hset).bind fun _ => (runGroups_stays hP hset k).bind fun _ =>
    onWalk_stays fun _ _ hs => hP.walkOver hs

end Walker

/-! ## The registers -/

theorem exec_engine_idle {i : Instr} {s t : State} (h : exec i s = .next t) (he : s.engine = .idle) : t.engine = .idle :=
  have hset : ∀ (s : State) (w : Walk), s.engine = .idle → (s.withWalk (some w)).engine = .idle := fun _ _ he => he
  exec_stays settled_idle (countChunks_stays settled_idle hset) (chunkHeader_stays settled_idle hset)
    (fun _ => runRecord_stays settled_idle hset i) h he

/-- Settles O28: the registers that `Changes` names, and the two properties that stay true. -/
theorem registerFrame : Obligations.RegisterFrame := by
  intro i s t h
  have hwalk (hi : isRecord i = false) (hw : s.walk = none) := exec_walk_none hi h hw
  have hengine (he : s.engine = .idle) := exec_engine_idle h he
  cases exec_changes h with
  | none hf =>
    exact ⟨fun _ _ => hf.pbsr, fun _ => ⟨hf.keys, hf.bfReady⟩, fun _ => hf.halt, hf.arg, hf.cfg, hf.inputs, hwalk, hengine⟩
  | @flags v hi =>
    have hf := completed_frame i (s.withPbsr v)
    exact ⟨fun hno => absurd (hno.symm.trans hi) Bool.false_ne_true, fun _ => ⟨hf.keys, hf.bfReady⟩, fun _ => hf.halt,
      hf.arg, hf.cfg, hf.inputs, hwalk, hengine⟩
  | @bootcount n hi =>
    have hf := completed_frame i (s.withPbsr (pbsrSetBootcnt s.pbsr n))
    exact ⟨fun _ hno => absurd (hno.symm.trans hi) Bool.false_ne_true, fun _ => ⟨hf.keys, hf.bfReady⟩, fun _ => hf.halt,
      hf.arg, hf.cfg, hf.inputs, hwalk, hengine⟩
  | keys hi =>
    subst hi
    exact ⟨fun _ _ => rfl, fun hno => absurd hno.symm Bool.false_ne_true, fun _ => rfl, rfl, rfl, rfl, hwalk, hengine⟩
  | buffer hi hu hf =>
    subst hi
    obtain ⟨m, -, rfl⟩ := hu
    exact ⟨fun _ _ => hf.pbsr, fun hno => absurd hno.symm Bool.false_ne_true, fun _ => hf.halt, hf.arg, hf.cfg,
      hf.inputs, hwalk, hengine⟩
  | halt hi => exact ⟨fun _ _ => rfl, fun _ => ⟨rfl, rfl⟩, fun hne => absurd hi hne, rfl, rfl, rfl, hwalk, hengine⟩

end Sys2Proof.Machine
end

section
/-! Every step keeps the invariant (10_state R27, 20_memory): the canonical form of MEM and the presence masks, by instruction, then by
what the agents outside the block do, then by the walk's turns. -/

namespace Sys2Proof.Machine

section Instructions

variable {i : Instr} {s t : State}

/-! ## The canonical form of MEM -/

/-- MEM is in canonical form. -/
abbrev MemOk (s : State) : Prop := Memory.wf s.cfg.addressWidth s.mem

theorem Frame.memOk (h : Frame s t) (hs : MemOk s) : MemOk t := by
  unfold MemOk
  rw [h.mem, h.cfg]
  exact hs

theorem exec_memOk (h : exec i s = .next t) (hs : MemOk s) : MemOk t := by
  cases exec_changes h with
  | none hframe => exact hframe.memOk hs
  | @flags v _ _ => exact (completed_frame i (s.withPbsr v)).memOk hs
  | bootcount _ => exact (completed_frame i _).memOk (s := s.withPbsr _) hs
  | keys _ | halt _ => exact hs
  | buffer _ hu hframe =>
    obtain ⟨m, hm, rfl⟩ := hu
    exact hframe.memOk (hm.wf hs)

/-! ## The presence masks -/

/-- Ending with the result block's header as it was, and no walk, keeps the masks. -/
theorem MaskOk.of_hdr (hs : MaskOk s) (hhdr : t.res.hdr = s.res.hdr) (hw : t.walk = none) : MaskOk t :=
  ⟨by rw [hhdr]; exact hs.1, fun w h => absurd (hw.symm.trans h) (Option.some_ne_none w).symm⟩

/-- Ending with a header of a walk in the result block, and no walk, as well. -/
theorem maskOk_of_header (hhdr : t.res.hdr.maskOk) (hw : t.walk = none) : MaskOk t :=
  ⟨hhdr, fun w h => absurd (hw.symm.trans h) (Option.some_ne_none w).symm⟩

/-- An operation keeps the masks when its body does, for a failure leaves a header of free values. -/
theorem operation_maskOk {body : State → Ran Unit} (h : operation body s = .next t) (hb : (body s).Masks) : MaskOk t :=
  operation_ends h hb fun c u _ _ => MaskOk.failed u c

theorem exec_record_maskOk (hi : isRecord i = true) (h : exec i s = .next t) (hs : MaskOk s) : MaskOk t := by
  rw [exec_eq_operation_runRecord hi] at h
  exact operation_maskOk h (runRecord_masks i hs)

theorem exec_chnkhdrN_maskOk {base : Nat} {k : Word} (h : exec (.chnkhdrN base k) s = .next t) (hs : MaskOk s) : MaskOk t := by
  rw [exec] at h
  exact operation_maskOk h (Ran.Ends.bind (chunkHeader_masks base k.toNat hs) fun d u ⟨hd, hu⟩ =>
    maskOk_of_header (t := returnHeader d u) hd rfl)

theorem exec_chnkhdrD_maskOk {base : Nat} {name : List Byte} (h : exec (.chnkhdrD base name) s = .next t) (hs : MaskOk s) :
    MaskOk t := by
  rw [exec] at h
  exact operation_maskOk h (Ran.Ends.bind (countChunks_masks base hs) fun n u hu =>
    Ran.Ends.bind (findByName_masks base name n.toNat 1 hu) fun r v ⟨hr, hv⟩ => ⟨hr, hv.2⟩)

/-- A host operation writes `RES.HDR` only with a header of a walk, and leaves no walk. -/
theorem exec_host_maskOk (hi : isRecord i = false) (hw : s.walk = none) (h : exec i s = .next t) (hs : MaskOk s) : MaskOk t := by
  by_cases hn : ∃ base k, i = .chnkhdrN base k
  · obtain ⟨base, k, rfl⟩ := hn
    exact exec_chnkhdrN_maskOk h hs
  by_cases hd : ∃ base name, i = .chnkhdrD base name
  · obtain ⟨base, name, rfl⟩ := hd
    exact exec_chnkhdrD_maskOk h hs
  rcases exec_succeeds_or_fails h with hsucceeds | ⟨c, u, -, rfl⟩
  · have hhdr : (ownResults i s.res t.res).hdr = s.res.hdr :=
      ownResults_hdr i s.res t.res (fun b k heq => hn ⟨b, k, heq⟩) fun b n heq => hd ⟨b, n, heq⟩
    exact hs.of_hdr ((congrArg Results.hdr hsucceeds.res).trans hhdr) (exec_walk_none hi h hw)
  · exact MaskOk.failed u c

/-! ## The invariant, by instruction -/

theorem exec_record_inv (hi : isRecord i = true) (h : exec i s = .next t) (hs : Inv s) : Inv t := by
  obtain ⟨hmem, hmask⟩ := (inv_iff_wf_and_maskOk s).mp hs
  exact (inv_iff_wf_and_maskOk t).mpr ⟨exec_memOk h hmem, exec_record_maskOk hi h hmask⟩

theorem exec_inv (hw : s.walk = none) (h : exec i s = .next t) (hs : Inv s) : Inv t := by
  by_cases hi : isRecord i = true
  · exact exec_record_inv hi h hs
  · obtain ⟨hmem, hmask⟩ := (inv_iff_wf_and_maskOk s).mp hs
    exact (inv_iff_wf_and_maskOk t).mpr ⟨exec_memOk h hmem, exec_host_maskOk (Bool.eq_false_iff.mpr hi) hw h hmask⟩

end Instructions

/-! ## The agents outside the block -/

section Outside

variable {s t : State}

/-- A reset leaves a memory of listed cells and a header of free values, whatever was there before. -/
theorem afterReset_inv (kind : ResetKind) (s : State) : Inv (s.afterReset kind) :=
  (inv_iff_wf_and_maskOk _).mpr ⟨Memory.ofCells_wf _ _, maskOk_of_header (freeHeader_maskOk s.draws) rfl⟩

theorem issue_inv {c : Command} (hw : s.walk = none) (h : issue c s = .next t) (hs : Inv s) : Inv t := by
  unfold issue at h
  split at h
  · cases h
  · split at h
    · exact exec_inv (s := s.withArg c.args) hw h hs
    · cases h

theorem stage_inv {addr : Nat} {bytes : List Byte} (h : stage addr bytes s = .next t) (hs : Inv s) : Inv t := by
  unfold stage at h
  split at h
  · cases h
  · split at h
    case isTrue hspace =>
      obtain rfl := Host.Outcome.next.inj h
      obtain ⟨hmem, hmask⟩ := (inv_iff_wf_and_maskOk s).mp hs
      exact (inv_iff_wf_and_maskOk _).mpr ⟨Memory.writes_wf bytes s.mem addr hmem hspace, hmask⟩
    case isFalse => cases h

theorem checkBootLimit_inv (hw : s.walk = none) (h : checkBootLimit s = .next t) (hs : Inv s) : Inv t := by
  unfold checkBootLimit at h
  split at h
  · cases h
  · split at h
    · exact exec_inv hw h hs
    · obtain rfl := Host.Outcome.next.inj h
      exact hs

theorem act_inv {i : Input} (hw : s.walk = none) (h : act i s = .next t) (hs : Inv s) : Inv t := by
  cases i with
  | issue c => exact issue_inv hw h hs
  | stage addr bytes => exact stage_inv h hs
  | checkBootLimit => exact checkBootLimit_inv hw h hs
  | reset kind =>
    obtain rfl := Host.Outcome.next.inj h
    exact afterReset_inv kind s
  | resetDuring kind c =>
    obtain ⟨v, u, rfl, -⟩ := resetDuring_cases h
    exact afterReset_inv kind u

end Outside

/-! ## The walk's turns -/

section Turns

variable {s t : State} {w : Walk}

/-- A part that keeps the framed fields and the masks, then the end of the operation. -/
theorem endOp_inv {r : Ran Unit} (h : endOp r = .next t) (hframe : r.Ends (fun _ u => Frame s u) (Frame s)) (hmasks : r.Masks)
    (hs : Inv s) : Inv t := by
  have hmem := ((inv_iff_wf_and_maskOk s).mp hs).1
  rcases endOp_eq_next.mp h with rfl | ⟨c, u, rfl, rfl⟩
  · exact (inv_iff_wf_and_maskOk t).mpr ⟨Frame.memOk hframe hmem, hmasks⟩
  · exact (inv_iff_wf_and_maskOk _).mpr ⟨(hframe.2.trans (Frame.failed u c)).memOk hmem, MaskOk.failed u c⟩

theorem isRecord_decodeRecord {d : Dispatch} {bytes : List Byte} {i : Instr} (h : decodeRecord d bytes = .ok i) :
    isRecord i = true := by
  unfold decodeRecord at h
  split at h
  · cases h
  · cases d with
    | globalOption => exact Except.ok.inj h ▸ isRecord_decodeGlobalOption _ _
    | chunkOption => exact Except.ok.inj h ▸ isRecord_decodeChunkOption _ _

/-- What the walk fetches is a record. -/
theorem isRecord_of_fetchInstr {i : Instr} {u : State} (h : fetchInstr w s = .ok i u) : isRecord i = true := by
  obtain ⟨bytes, v, -, hdecode⟩ := Ran.bind_eq_ok.mp h
  split at hdecode
  case h_1 j hj =>
    cases hdecode
    exact isRecord_decodeRecord hj
  case h_2 => cases hdecode

theorem execFetched_inv (h : execFetched (fetchInstr w s) = .next t) (hs : Inv s) : Inv t := by
  obtain ⟨hmem, hmask⟩ := (inv_iff_wf_and_maskOk s).mp hs
  have hkeeps := fetchInstr_keeps w s
  have hmasks := fetchInstr_masks w hmask
  cases hfetch : fetchInstr w s with
  | ok i u =>
    rw [hfetch] at h hkeeps hmasks
    exact exec_record_inv (isRecord_of_fetchInstr hfetch) h ((inv_iff_wf_and_maskOk u).mpr ⟨hkeeps.toFrame.memOk hmem, hmasks⟩)
  | raised c u =>
    rw [hfetch] at h hkeeps
    obtain rfl := Host.Outcome.next.inj h
    exact (inv_iff_wf_and_maskOk _).mpr ⟨(hkeeps.2.toFrame.trans (Frame.failed u c)).memOk hmem, MaskOk.failed u c⟩
  | fault r => rw [hfetch] at h; cases h
  | refused r => rw [hfetch] at h; cases h

theorem walkTurn_inv (h : walkTurn w s = .next t) (hs : Inv s) : Inv t := by
  have hmask := ((inv_iff_wf_and_maskOk s).mp hs).2
  unfold walkTurn at h
  split at h
  · cases h
  · split at h
    · exact endOp_inv h (loopEnd_frame s) (loopEnd_masks hmask) hs
    · split at h
      · exact endOp_inv h (recordTurn_keeps s).frame (recordTurn_masks hmask) hs
      · exact execFetched_inv h hs
      · exact execFetched_inv h hs

end Turns

/-- Settles O11: a step is a turn of the walk, an action of the outside with no walk under way, or nothing. -/
theorem stepKeepsInvariant : Obligations.StepKeepsInvariant := by
  intro s t hs h
  unfold step at h
  split at h
  · unfold walkStep at h
    split at h
    · obtain rfl := Host.Outcome.next.inj h
      exact afterReset_inv _ _
    · exact walkTurn_inv h hs
  case h_2 hw =>
    split at h
    · obtain rfl := Host.Outcome.next.inj h
      exact hs
    case h_2 input rest _ => exact act_inv (s := s.withInputs rest) hw h hs

end Sys2Proof.Machine
end
